-- ==== Sys2Proof/Word.lean ====
section
/-! DEFINITION. The word types of the FLAC-CORE decode block. A bit vector stands only where the spec
gives a register or a memory entry a width in bits (10_state.md); positions, counts and samples of the working
arithmetic are mathematical integers (00_scope.md rule R14). -/

namespace Sys2Proof

/-- One byte of IN or SPAN (10_state.md rules R34, R42). -/
abbrev Byte := BitVec 8

/-- The 16-bit command word (30_encoding.md rule R110). -/
abbrev Word16 := BitVec 16

/-- One OUT word, a signed 32-bit sample (10_state.md rule R52). -/
abbrev Word32 := BitVec 32

/-- One 64-bit register slot (10_state.md rule R55). -/
abbrev Word64 := BitVec 64

end Sys2Proof
end

