-- ==== Sys2Proof/Syntax.lean ====
section
/-! DEFINITION. The instructions: one constructor for every row of spec/opcode_table.json. The spec's instruction set has
two layers (00_scope.md rule R3): the 15 command words of 30_encoding.md rule R112, and the code points of the bitstream
fields (30_encoding.md rules R117 to R136), which "play the part of opcodes". A constructor's arguments are the bits
its row leaves free, most significant first. -/

namespace Sys2Proof

/-- The bitstream fields that have code points in the opcode table (its "format" column, less CMD16). -/
inductive Field where
  /-- SUBFRAME_HEADER8: PAD, TYPE and WFLAG seen as a byte (R125). -/
  | subframeHeader8
  /-- RESIDUAL_METHOD2: METHOD (R131). -/
  | residualMethod2
  /-- PARAM4: PARAM under METHOD 00 (R131). -/
  | param4
  /-- PARAM5: PARAM under METHOD 01 (R131). -/
  | param5
  /-- EW5: EW, the escape width (R133). -/
  | ew5
  /-- PRECM1_4: PRECM1, the LPC precision less one (R130). -/
  | precM14
  /-- SHIFT5: SHIFT, the LPC right shift (R130). -/
  | shift5
  /-- SYNC16: SYNC and STRATEGY together (R119). -/
  | sync16
  /-- BSCODE4: BSCODE (R120). -/
  | bscode4
  /-- SRCODE4: SRCODE (R121). -/
  | srcode4
  /-- CHCODE4: CHCODE (R122). -/
  | chcode4
  /-- BDCODE3: BDCODE (R123). -/
  | bdcode3
  /-- RSV1: RSV, the reserved header bit (R118). -/
  | rsv1
  /-- UTF8_LEAD8: the lead byte of NUMBER (R124). -/
  | utf8Lead8
  /-- UTF8_CONT8: a continuation byte of NUMBER (R124). -/
  | utf8Cont8
deriving DecidableEq, Repr

/-- Every row of the opcode table, in the table's order. -/
inductive Instr where
  /-- NOP (CMD16 0x0000; R346). -/
  | nop
  /-- READ_U (CMD16 0x0001; R161). -/
  | readU
  /-- READ_U.LE (CMD16 0x0101; R161). -/
  | readULe
  /-- READ_S (CMD16 0x0002; R163). -/
  | readS
  /-- READ_S.LE (CMD16 0x0102; R163). -/
  | readSLe
  /-- READ_BIT (CMD16 0x0003; R164). -/
  | readBit
  /-- READ_UNARY (CMD16 0x0004; R166). -/
  | readUnary
  /-- READ_UTF8 (CMD16 0x0005; R168). -/
  | readUtf8
  /-- READ_RAW (CMD16 0x0006; R169). -/
  | readRaw
  /-- READ_BYTES (CMD16 0x0007; R170). -/
  | readBytes
  /-- SEEK (CMD16 0x0008; R171). -/
  | seek
  /-- DECODE_FRAME (CMD16 0x0010; R330). -/
  | decodeFrame
  /-- DECODE_STREAM (CMD16 0x0011; R344). -/
  | decodeStream
  /-- OUT_RESET (CMD16 0x001E; R348). -/
  | outReset
  /-- CLEAR (CMD16 0x001F; R347). -/
  | clear
  /-- SUBFRAME_PAD_SET (SUBFRAME_HEADER8 1ttttttw; R241). -/
  | subframePadSet (rest : BitVec 7)
  /-- SUBFRAME_CONSTANT (SUBFRAME_HEADER8 0000000w; R292). -/
  | subframeConstant (wflag : Bool)
  /-- SUBFRAME_VERBATIM (SUBFRAME_HEADER8 0000001w; R293). -/
  | subframeVerbatim (wflag : Bool)
  /-- SUBFRAME_RESERVED_02_03 (SUBFRAME_HEADER8 000001xw; R245). -/
  | subframeReserved0203 (low : BitVec 1) (wflag : Bool)
  /-- SUBFRAME_RESERVED_04_07 (SUBFRAME_HEADER8 00001xxw; R245). -/
  | subframeReserved0407 (low : BitVec 2) (wflag : Bool)
  /-- SUBFRAME_FIXED0 (SUBFRAME_HEADER8 0001000w; R295). -/
  | subframeFixed0 (wflag : Bool)
  /-- SUBFRAME_FIXED1 (SUBFRAME_HEADER8 0001001w; R296). -/
  | subframeFixed1 (wflag : Bool)
  /-- SUBFRAME_FIXED2 (SUBFRAME_HEADER8 0001010w; R297). -/
  | subframeFixed2 (wflag : Bool)
  /-- SUBFRAME_FIXED3 (SUBFRAME_HEADER8 0001011w; R298). -/
  | subframeFixed3 (wflag : Bool)
  /-- SUBFRAME_FIXED4 (SUBFRAME_HEADER8 0001100w; R299). -/
  | subframeFixed4 (wflag : Bool)
  /-- SUBFRAME_RESERVED_0D (SUBFRAME_HEADER8 0001101w; R245). -/
  | subframeReserved0D (wflag : Bool)
  /-- SUBFRAME_RESERVED_0E_0F (SUBFRAME_HEADER8 000111xw; R245). -/
  | subframeReserved0E0F (low : BitVec 1) (wflag : Bool)
  /-- SUBFRAME_RESERVED_10_1F (SUBFRAME_HEADER8 001xxxxw; R245). -/
  | subframeReserved101F (low : BitVec 4) (wflag : Bool)
  /-- SUBFRAME_LPC (SUBFRAME_HEADER8 01ooooow; R304). -/
  | subframeLpc (orderM1 : BitVec 5) (wflag : Bool)
  /-- RESIDUAL_RICE4 (RESIDUAL_METHOD2 00; R261). -/
  | residualRice4
  /-- RESIDUAL_RICE5 (RESIDUAL_METHOD2 01; R261). -/
  | residualRice5
  /-- RESIDUAL_RESERVED (RESIDUAL_METHOD2 1x; R261). -/
  | residualReserved (low : BitVec 1)
  /-- PARTITION_RICE4 (PARAM4 pppp; R266). -/
  | partitionRice4 (param : BitVec 4)
  /-- PARTITION_ESCAPE4 (PARAM4 1111; R269). -/
  | partitionEscape4
  /-- PARTITION_RICE5 (PARAM5 ppppp; R266). -/
  | partitionRice5 (param : BitVec 5)
  /-- PARTITION_ESCAPE5 (PARAM5 11111; R269). -/
  | partitionEscape5
  /-- ESCAPE_WIDTH (EW5 seeee; R269). -/
  | escapeWidth (ew : BitVec 5)
  /-- LPC_PRECISION (PRECM1_4 pppp; R301). -/
  | lpcPrecision (precM1 : BitVec 4)
  /-- LPC_PRECISION_INVALID (PRECM1_4 1111; R301). -/
  | lpcPrecisionInvalid
  /-- LPC_SHIFT (SHIFT5 0ssss; R302). -/
  | lpcShift (shift : BitVec 4)
  /-- LPC_SHIFT_NEGATIVE (SHIFT5 1ssss; R302). -/
  | lpcShiftNegative (low : BitVec 4)
  /-- FRAME_SYNC (SYNC16 1111111111111000; R202). -/
  | frameSync
  /-- FRAME_SYNC_VARIABLE (SYNC16 1111111111111001; R203). -/
  | frameSyncVariable
  /-- BLOCKSIZE_RESERVED (BSCODE4 0000; R204). -/
  | blocksizeReserved
  /-- BLOCKSIZE_192 (BSCODE4 0001; R210). -/
  | blocksize192
  /-- BLOCKSIZE_576 (BSCODE4 0010; R210). -/
  | blocksize576
  /-- BLOCKSIZE_1152 (BSCODE4 0011; R210). -/
  | blocksize1152
  /-- BLOCKSIZE_2304 (BSCODE4 0100; R210). -/
  | blocksize2304
  /-- BLOCKSIZE_4608 (BSCODE4 0101; R210). -/
  | blocksize4608
  /-- BLOCKSIZE_ESC8 (BSCODE4 0110; R210). -/
  | blocksizeEsc8
  /-- BLOCKSIZE_ESC16 (BSCODE4 0111; R210). -/
  | blocksizeEsc16
  /-- BLOCKSIZE_256_SHIFT (BSCODE4 1xxx; R210). -/
  | blocksize256Shift (low : BitVec 3)
  /-- SAMPLERATE_INHERIT (SRCODE4 0000; R211). -/
  | samplerateInherit
  /-- SAMPLERATE_88200 (SRCODE4 0001; R211). -/
  | samplerate88200
  /-- SAMPLERATE_176400 (SRCODE4 0010; R211). -/
  | samplerate176400
  /-- SAMPLERATE_192000 (SRCODE4 0011; R211). -/
  | samplerate192000
  /-- SAMPLERATE_8000 (SRCODE4 0100; R211). -/
  | samplerate8000
  /-- SAMPLERATE_16000 (SRCODE4 0101; R211). -/
  | samplerate16000
  /-- SAMPLERATE_22050 (SRCODE4 0110; R211). -/
  | samplerate22050
  /-- SAMPLERATE_24000 (SRCODE4 0111; R211). -/
  | samplerate24000
  /-- SAMPLERATE_32000 (SRCODE4 1000; R211). -/
  | samplerate32000
  /-- SAMPLERATE_44100 (SRCODE4 1001; R211). -/
  | samplerate44100
  /-- SAMPLERATE_48000 (SRCODE4 1010; R211). -/
  | samplerate48000
  /-- SAMPLERATE_96000 (SRCODE4 1011; R211). -/
  | samplerate96000
  /-- SAMPLERATE_ESC_KHZ8 (SRCODE4 1100; R211). -/
  | samplerateEscKhz8
  /-- SAMPLERATE_ESC_HZ16 (SRCODE4 1101; R211). -/
  | samplerateEscHz16
  /-- SAMPLERATE_ESC_10HZ16 (SRCODE4 1110; R211). -/
  | samplerateEscTenHz16
  /-- SAMPLERATE_INVALID (SRCODE4 1111; R205). -/
  | samplerateInvalid
  /-- CHANNELS_INDEPENDENT (CHCODE4 0nnn; R336). -/
  | channelsIndependent (code : BitVec 3)
  /-- CHANNELS_LEFT_SIDE (CHCODE4 1000; R337). -/
  | channelsLeftSide
  /-- CHANNELS_RIGHT_SIDE (CHCODE4 1001; R338). -/
  | channelsRightSide
  /-- CHANNELS_MID_SIDE (CHCODE4 1010; R339). -/
  | channelsMidSide
  /-- CHANNELS_RESERVED_11 (CHCODE4 1011; R206). -/
  | channelsReserved11
  /-- CHANNELS_RESERVED_12_15 (CHCODE4 11xx; R206). -/
  | channelsReserved1215 (low : BitVec 2)
  /-- BITDEPTH_INHERIT (BDCODE3 000; R212). -/
  | bitdepthInherit
  /-- BITDEPTH_8 (BDCODE3 001; R212). -/
  | bitdepth8
  /-- BITDEPTH_12 (BDCODE3 010; R212). -/
  | bitdepth12
  /-- BITDEPTH_RESERVED (BDCODE3 011; R207). -/
  | bitdepthReserved
  /-- BITDEPTH_16 (BDCODE3 100; R212). -/
  | bitdepth16
  /-- BITDEPTH_20 (BDCODE3 101; R212). -/
  | bitdepth20
  /-- BITDEPTH_24 (BDCODE3 110; R212). -/
  | bitdepth24
  /-- BITDEPTH_32 (BDCODE3 111; R212). -/
  | bitdepth32
  /-- HEADER_RESERVED_BIT (RSV1 0; R208). -/
  | headerReservedBit
  /-- UTF8_1BYTE (UTF8_LEAD8 0vvvvvvv; R168). -/
  | utf8OneByte (payload : BitVec 7)
  /-- UTF8_CONTINUATION_AS_LEAD (UTF8_LEAD8 10xxxxxx; R168). -/
  | utf8ContinuationAsLead (low : BitVec 6)
  /-- UTF8_2BYTE (UTF8_LEAD8 110vvvvv; R168). -/
  | utf8TwoByte (payload : BitVec 5)
  /-- UTF8_3BYTE (UTF8_LEAD8 1110vvvv; R168). -/
  | utf8ThreeByte (payload : BitVec 4)
  /-- UTF8_4BYTE (UTF8_LEAD8 11110vvv; R168). -/
  | utf8FourByte (payload : BitVec 3)
  /-- UTF8_LONG_LEAD (UTF8_LEAD8 11111xxx; R168). -/
  | utf8LongLead (low : BitVec 3)
  /-- UTF8_CONTINUATION (UTF8_CONT8 10vvvvvv; R168). -/
  | utf8Continuation (payload : BitVec 6)
deriving DecidableEq, Repr

end Sys2Proof
end

