-- ==== Sys2Proof/WellFormed.lean ====
section
/-! DEFINITION. Which terms of `Instr` are instructions of the table. The types give every operand its width; what is left
to check are the three rows whose pattern names every value of a field while the row's own words leave one value out. -/

namespace Sys2Proof

/-- A Rice parameter is any value except the escape value (30_encoding.md rules R131 and R132), and an LPC precision field
is any value except `1111` (30_encoding.md rule R130): those values belong to the rows PARTITION_ESCAPE4,
PARTITION_ESCAPE5 and LPC_PRECISION_INVALID. -/
def Instr.wellFormed : Instr → Bool
  | .partitionRice4 param => param ≠ 15
  | .partitionRice5 param => param ≠ 31
  | .lpcPrecision precM1 => precM1 ≠ 15
  | _ => true

end Sys2Proof
end

