-- ==== Sys2Proof/Decode.lean ====
section
/-! DEFINITION. Decoding and encoding. A command word is decoded by 30_encoding.md rules R110 to R113; a bitstream field is
decoded by the code tables of rules R119 to R133, the field being known from the parser's place in the frame (rule R137).
`encode` is written from the same tables and is independent of `decode`. -/

namespace Sys2Proof

/-- The bits of one instruction: a command word, or the value of a bitstream field of `Field.width` bits. -/
inductive Code where
  | cmd (word : Word16)
  | field (f : Field) (value : Nat)
deriving DecidableEq, Repr

/-- Why bits are no instruction, by name. -/
inductive Reject where
  /-- Bits 15:9 of a command word are not 0 (R110). -/
  | reservedBits
  /-- E = 1 with an opcode other than READ_U or READ_S (R110). -/
  | endianBit
  /-- OP is not in the opcode map (R112, R113). -/
  | unassignedOpcode
  /-- The 15 sync bits are not 0x7FFC (R119, R136). -/
  | syncMismatch
  /-- The header's reserved bit is 1 (R118, R136). -/
  | reservedBitSet
  /-- A continuation byte is not 10xxxxxx (R124, R136). -/
  | notContinuation
  /-- The value does not fit the field's width. -/
  | tooWide
deriving DecidableEq, Repr

/-- The width of a field in bits (30_encoding.md rules R118, R124, R125, R130, R131, R133). -/
def Field.width : Field → Nat
  | .subframeHeader8 => 8
  | .residualMethod2 => 2
  | .param4 => 4
  | .param5 => 5
  | .ew5 => 5
  | .precM14 => 4
  | .shift5 => 5
  | .sync16 => 16
  | .bscode4 => 4
  | .srcode4 => 4
  | .chcode4 => 4
  | .bdcode3 => 3
  | .rsv1 => 1
  | .utf8Lead8 => 8
  | .utf8Cont8 => 8

/-- OP, bits 7:0 of a command word (R110). -/
def opField (w : Word16) : Nat := w.toNat % 256

/-- E, bit 8 of a command word (R110). -/
def endianField (w : Word16) : Nat := w.toNat / 256 % 2

/-- Bits 15:9 of a command word, which must be 0 (R110). -/
def reservedField (w : Word16) : Nat := w.toNat / 512

/-- The opcode map for words with E = 0 (R112). -/
def decodeOp (op : Nat) : Except Reject Instr :=
  match op with
  | 0x00 => .ok .nop
  | 0x01 => .ok .readU
  | 0x02 => .ok .readS
  | 0x03 => .ok .readBit
  | 0x04 => .ok .readUnary
  | 0x05 => .ok .readUtf8
  | 0x06 => .ok .readRaw
  | 0x07 => .ok .readBytes
  | 0x08 => .ok .seek
  | 0x10 => .ok .decodeFrame
  | 0x11 => .ok .decodeStream
  | 0x1E => .ok .outReset
  | 0x1F => .ok .clear
  | _ => .error .unassignedOpcode

/-- A command word (R110, R112, R113). -/
def decodeCmd (w : Word16) : Except Reject Instr :=
  if reservedField w ≠ 0 then .error .reservedBits
  else if endianField w = 0 then decodeOp (opField w)
  else
    match opField w with
    | 0x01 => .ok .readULe
    | 0x02 => .ok .readSLe
    | _ => .error .endianBit

/-- PAD, TYPE and WFLAG as one byte PAD·2^7 + TYPE·2 + WFLAG (R125, R126). -/
def decodeSubframe (v : Nat) : Instr :=
  let w : Bool := v % 2 = 1
  let t := v / 2
  if v ≥ 128 then .subframePadSet (BitVec.ofNat 7 v)
  else if t = 0b000000 then .subframeConstant w
  else if t = 0b000001 then .subframeVerbatim w
  else if t < 0b000100 then .subframeReserved0203 (BitVec.ofNat 1 t) w
  else if t < 0b001000 then .subframeReserved0407 (BitVec.ofNat 2 t) w
  else if t = 0b001000 then .subframeFixed0 w
  else if t = 0b001001 then .subframeFixed1 w
  else if t = 0b001010 then .subframeFixed2 w
  else if t = 0b001011 then .subframeFixed3 w
  else if t = 0b001100 then .subframeFixed4 w
  else if t = 0b001101 then .subframeReserved0D w
  else if t < 0b010000 then .subframeReserved0E0F (BitVec.ofNat 1 t) w
  else if t < 0b100000 then .subframeReserved101F (BitVec.ofNat 4 t) w
  else .subframeLpc (BitVec.ofNat 5 t) w

/-- The lead byte of NUMBER (R124). -/
def decodeUtf8Lead (v : Nat) : Instr :=
  if v < 0x80 then .utf8OneByte (BitVec.ofNat 7 v)
  else if v < 0xC0 then .utf8ContinuationAsLead (BitVec.ofNat 6 v)
  else if v < 0xE0 then .utf8TwoByte (BitVec.ofNat 5 v)
  else if v < 0xF0 then .utf8ThreeByte (BitVec.ofNat 4 v)
  else if v < 0xF8 then .utf8FourByte (BitVec.ofNat 3 v)
  else .utf8LongLead (BitVec.ofNat 3 v)

/-- BSCODE (R120). -/
def decodeBscode (v : Nat) : Instr :=
  match v with
  | 0 => .blocksizeReserved
  | 1 => .blocksize192
  | 2 => .blocksize576
  | 3 => .blocksize1152
  | 4 => .blocksize2304
  | 5 => .blocksize4608
  | 6 => .blocksizeEsc8
  | 7 => .blocksizeEsc16
  | n => .blocksize256Shift (BitVec.ofNat 3 n)

/-- SRCODE (R121). -/
def decodeSrcode (v : Nat) : Instr :=
  match v with
  | 0 => .samplerateInherit
  | 1 => .samplerate88200
  | 2 => .samplerate176400
  | 3 => .samplerate192000
  | 4 => .samplerate8000
  | 5 => .samplerate16000
  | 6 => .samplerate22050
  | 7 => .samplerate24000
  | 8 => .samplerate32000
  | 9 => .samplerate44100
  | 10 => .samplerate48000
  | 11 => .samplerate96000
  | 12 => .samplerateEscKhz8
  | 13 => .samplerateEscHz16
  | 14 => .samplerateEscTenHz16
  | _ => .samplerateInvalid

/-- CHCODE (R122). -/
def decodeChcode (v : Nat) : Instr :=
  if v < 8 then .channelsIndependent (BitVec.ofNat 3 v)
  else if v = 8 then .channelsLeftSide
  else if v = 9 then .channelsRightSide
  else if v = 10 then .channelsMidSide
  else if v = 11 then .channelsReserved11
  else .channelsReserved1215 (BitVec.ofNat 2 v)

/-- BDCODE (R123). -/
def decodeBdcode (v : Nat) : Instr :=
  match v with
  | 0 => .bitdepthInherit
  | 1 => .bitdepth8
  | 2 => .bitdepth12
  | 3 => .bitdepthReserved
  | 4 => .bitdepth16
  | 5 => .bitdepth20
  | 6 => .bitdepth24
  | _ => .bitdepth32

/-- A value known to fit field `f`. -/
def decodeFieldValue (f : Field) (v : Nat) : Except Reject Instr :=
  match f with
  | .subframeHeader8 => .ok (decodeSubframe v)
  | .residualMethod2 =>
    .ok (if v = 0 then .residualRice4 else if v = 1 then .residualRice5 else .residualReserved (BitVec.ofNat 1 v))
  | .param4 => .ok (if v = 15 then .partitionEscape4 else .partitionRice4 (BitVec.ofNat 4 v))
  | .param5 => .ok (if v = 31 then .partitionEscape5 else .partitionRice5 (BitVec.ofNat 5 v))
  | .ew5 => .ok (.escapeWidth (BitVec.ofNat 5 v))
  | .precM14 => .ok (if v = 15 then .lpcPrecisionInvalid else .lpcPrecision (BitVec.ofNat 4 v))
  | .shift5 => .ok (if v < 16 then .lpcShift (BitVec.ofNat 4 v) else .lpcShiftNegative (BitVec.ofNat 4 v))
  | .sync16 =>
    if v = 0xFFF8 then .ok .frameSync else if v = 0xFFF9 then .ok .frameSyncVariable else .error .syncMismatch
  | .bscode4 => .ok (decodeBscode v)
  | .srcode4 => .ok (decodeSrcode v)
  | .chcode4 => .ok (decodeChcode v)
  | .bdcode3 => .ok (decodeBdcode v)
  | .rsv1 => if v = 0 then .ok .headerReservedBit else .error .reservedBitSet
  | .utf8Lead8 => .ok (decodeUtf8Lead v)
  | .utf8Cont8 => if v / 64 = 0b10 then .ok (.utf8Continuation (BitVec.ofNat 6 v)) else .error .notContinuation

/-- A bitstream field of any value. -/
def decodeField (f : Field) (v : Nat) : Except Reject Instr :=
  if v < 2 ^ f.width then decodeFieldValue f v else .error .tooWide

/-- The decoder: total, rejecting by name. -/
def decode : Code → Except Reject Instr
  | .cmd w => decodeCmd w
  | .field f v => decodeField f v

/-- WFLAG as a bit. -/
def wflagBit (w : Bool) : Nat := if w then 1 else 0

/-- The encoder: the bits of each row, from the patterns of the opcode table and 30_encoding.md. -/
def encode : Instr → Code
  | .nop => .cmd 0x0000
  | .readU => .cmd 0x0001
  | .readULe => .cmd 0x0101
  | .readS => .cmd 0x0002
  | .readSLe => .cmd 0x0102
  | .readBit => .cmd 0x0003
  | .readUnary => .cmd 0x0004
  | .readUtf8 => .cmd 0x0005
  | .readRaw => .cmd 0x0006
  | .readBytes => .cmd 0x0007
  | .seek => .cmd 0x0008
  | .decodeFrame => .cmd 0x0010
  | .decodeStream => .cmd 0x0011
  | .outReset => .cmd 0x001E
  | .clear => .cmd 0x001F
  | .subframePadSet rest => .field .subframeHeader8 (0b10000000 + rest.toNat)
  | .subframeConstant wflag => .field .subframeHeader8 (0b00000000 + wflagBit wflag)
  | .subframeVerbatim wflag => .field .subframeHeader8 (0b00000010 + wflagBit wflag)
  | .subframeReserved0203 low wflag => .field .subframeHeader8 (0b00000100 + low.toNat * 2 + wflagBit wflag)
  | .subframeReserved0407 low wflag => .field .subframeHeader8 (0b00001000 + low.toNat * 2 + wflagBit wflag)
  | .subframeFixed0 wflag => .field .subframeHeader8 (0b00010000 + wflagBit wflag)
  | .subframeFixed1 wflag => .field .subframeHeader8 (0b00010010 + wflagBit wflag)
  | .subframeFixed2 wflag => .field .subframeHeader8 (0b00010100 + wflagBit wflag)
  | .subframeFixed3 wflag => .field .subframeHeader8 (0b00010110 + wflagBit wflag)
  | .subframeFixed4 wflag => .field .subframeHeader8 (0b00011000 + wflagBit wflag)
  | .subframeReserved0D wflag => .field .subframeHeader8 (0b00011010 + wflagBit wflag)
  | .subframeReserved0E0F low wflag => .field .subframeHeader8 (0b00011100 + low.toNat * 2 + wflagBit wflag)
  | .subframeReserved101F low wflag => .field .subframeHeader8 (0b00100000 + low.toNat * 2 + wflagBit wflag)
  | .subframeLpc orderM1 wflag => .field .subframeHeader8 (0b01000000 + orderM1.toNat * 2 + wflagBit wflag)
  | .residualRice4 => .field .residualMethod2 0b00
  | .residualRice5 => .field .residualMethod2 0b01
  | .residualReserved low => .field .residualMethod2 (0b10 + low.toNat)
  | .partitionRice4 param => .field .param4 (0b0000 + param.toNat)
  | .partitionEscape4 => .field .param4 0b1111
  | .partitionRice5 param => .field .param5 (0b00000 + param.toNat)
  | .partitionEscape5 => .field .param5 0b11111
  | .escapeWidth ew => .field .ew5 (0b00000 + ew.toNat)
  | .lpcPrecision precM1 => .field .precM14 (0b0000 + precM1.toNat)
  | .lpcPrecisionInvalid => .field .precM14 0b1111
  | .lpcShift shift => .field .shift5 (0b00000 + shift.toNat)
  | .lpcShiftNegative low => .field .shift5 (0b10000 + low.toNat)
  | .frameSync => .field .sync16 0b1111111111111000
  | .frameSyncVariable => .field .sync16 0b1111111111111001
  | .blocksizeReserved => .field .bscode4 0b0000
  | .blocksize192 => .field .bscode4 0b0001
  | .blocksize576 => .field .bscode4 0b0010
  | .blocksize1152 => .field .bscode4 0b0011
  | .blocksize2304 => .field .bscode4 0b0100
  | .blocksize4608 => .field .bscode4 0b0101
  | .blocksizeEsc8 => .field .bscode4 0b0110
  | .blocksizeEsc16 => .field .bscode4 0b0111
  | .blocksize256Shift low => .field .bscode4 (0b1000 + low.toNat)
  | .samplerateInherit => .field .srcode4 0b0000
  | .samplerate88200 => .field .srcode4 0b0001
  | .samplerate176400 => .field .srcode4 0b0010
  | .samplerate192000 => .field .srcode4 0b0011
  | .samplerate8000 => .field .srcode4 0b0100
  | .samplerate16000 => .field .srcode4 0b0101
  | .samplerate22050 => .field .srcode4 0b0110
  | .samplerate24000 => .field .srcode4 0b0111
  | .samplerate32000 => .field .srcode4 0b1000
  | .samplerate44100 => .field .srcode4 0b1001
  | .samplerate48000 => .field .srcode4 0b1010
  | .samplerate96000 => .field .srcode4 0b1011
  | .samplerateEscKhz8 => .field .srcode4 0b1100
  | .samplerateEscHz16 => .field .srcode4 0b1101
  | .samplerateEscTenHz16 => .field .srcode4 0b1110
  | .samplerateInvalid => .field .srcode4 0b1111
  | .channelsIndependent code => .field .chcode4 (0b0000 + code.toNat)
  | .channelsLeftSide => .field .chcode4 0b1000
  | .channelsRightSide => .field .chcode4 0b1001
  | .channelsMidSide => .field .chcode4 0b1010
  | .channelsReserved11 => .field .chcode4 0b1011
  | .channelsReserved1215 low => .field .chcode4 (0b1100 + low.toNat)
  | .bitdepthInherit => .field .bdcode3 0b000
  | .bitdepth8 => .field .bdcode3 0b001
  | .bitdepth12 => .field .bdcode3 0b010
  | .bitdepthReserved => .field .bdcode3 0b011
  | .bitdepth16 => .field .bdcode3 0b100
  | .bitdepth20 => .field .bdcode3 0b101
  | .bitdepth24 => .field .bdcode3 0b110
  | .bitdepth32 => .field .bdcode3 0b111
  | .headerReservedBit => .field .rsv1 0b0
  | .utf8OneByte payload => .field .utf8Lead8 (0b00000000 + payload.toNat)
  | .utf8ContinuationAsLead low => .field .utf8Lead8 (0b10000000 + low.toNat)
  | .utf8TwoByte payload => .field .utf8Lead8 (0b11000000 + payload.toNat)
  | .utf8ThreeByte payload => .field .utf8Lead8 (0b11100000 + payload.toNat)
  | .utf8FourByte payload => .field .utf8Lead8 (0b11110000 + payload.toNat)
  | .utf8LongLead low => .field .utf8Lead8 (0b11111000 + low.toNat)
  | .utf8Continuation payload => .field .utf8Cont8 (0b10000000 + payload.toNat)

/-- The bits of an instruction that its row leaves free. -/
def Instr.freeBits : Instr → Nat
  | .subframePadSet _ => 7
  | .subframeConstant _ => 1
  | .subframeVerbatim _ => 1
  | .subframeReserved0203 _ _ => 2
  | .subframeReserved0407 _ _ => 3
  | .subframeFixed0 _ => 1
  | .subframeFixed1 _ => 1
  | .subframeFixed2 _ => 1
  | .subframeFixed3 _ => 1
  | .subframeFixed4 _ => 1
  | .subframeReserved0D _ => 1
  | .subframeReserved0E0F _ _ => 2
  | .subframeReserved101F _ _ => 5
  | .subframeLpc _ _ => 6
  | .residualReserved _ => 1
  | .partitionRice4 _ => 4
  | .partitionRice5 _ => 5
  | .escapeWidth _ => 5
  | .lpcPrecision _ => 4
  | .lpcShift _ => 4
  | .lpcShiftNegative _ => 4
  | .blocksize256Shift _ => 3
  | .channelsIndependent _ => 3
  | .channelsReserved1215 _ => 2
  | .utf8OneByte _ => 7
  | .utf8ContinuationAsLead _ => 6
  | .utf8TwoByte _ => 5
  | .utf8ThreeByte _ => 4
  | .utf8FourByte _ => 3
  | .utf8LongLead _ => 3
  | .utf8Continuation _ => 6
  | _ => 0

/-- The fields whose width in whole bytes is one byte, in the opcode table's order. -/
def oneByteFields : List Field :=
  [.subframeHeader8, .residualMethod2, .param4, .param5, .ew5, .precM14, .shift5, .bscode4, .srcode4, .chcode4, .bdcode3,
    .rsv1, .utf8Lead8, .utf8Cont8]

/-- The row that names most bits of a one-byte word `w` (bits above the field's width read as 0), the earlier row on a
tie. Used only by `decodeTableWord`, where no field is known (log 7). -/
def mostSpecific (w : Nat) : List Field → Option (Field × Instr)
  | [] => none
  | f :: fs =>
    match decodeField f w, mostSpecific w fs with
    | .ok i, some (g, j) => if j.freeBits < i.freeBits then some (g, j) else some (f, i)
    | .ok i, none => some (f, i)
    | .error _, r => r

/-- The code that a table word of `nbits` bits stands for when nothing says which field it is (log 7): a 16-bit word
is a command word, else SYNC and STRATEGY; a one-byte word is the most specific row. Bits above 16 are 0. -/
def tableCode (nbits w : Nat) : Option Code :=
  if nbits ≤ 8 then
    match mostSpecific w oneByteFields with
    | some (f, _) => some (.field f w)
    | none => none
  else if w < 2 ^ 16 then
    match decodeCmd (BitVec.ofNat 16 w) with
    | .ok _ => some (.cmd (BitVec.ofNat 16 w))
    | .error _ => some (.field .sync16 w)
  else none

/-- The instruction the decoder reads from a table word. -/
def decodeTableWord (nbits w : Nat) : Option Instr :=
  match tableCode nbits w with
  | some c => (decode c).toOption
  | none => none

end Sys2Proof
end

