-- ==== Sys2Proof/Config.lean ====
section
/-! DEFINITION. What an implementation fixes (the parameters of 00_scope.md rule R13, which "the model takes ... as an
argument") and the free values of 10_state.md rule R58. -/

namespace Sys2Proof

/-- The implementation parameters of 00_scope.md rule R13. A `State` carries one record of them and no step changes it,
so a statement about every state is a statement about every choice of parameters. -/
structure Params where
  /-- IN_MAX: the capacity of IN in bytes (OPEN; 92_eei_decisions.md D3). -/
  inMax : Nat
  /-- OUT_MAX: the capacity of OUT in 32-bit words (OPEN; D28). -/
  outMax : Nat
  /-- SPAN_MAX: the capacity of SPAN in bytes (D44). -/
  spanMax : Nat
  /-- VERIFY_CRC: whether CRC-8 and CRC-16 are checked (D17). -/
  verifyCrc : Bool
  /-- ESCAPE_WIDTH_SIGNED: how the 5-bit escape width is read (D24). -/
  escapeWidthSigned : Bool
  /-- DATAPATH_BITS: the width D of the range check DR (D25). -/
  datapathBits : Nat
  /-- BASE_REG and the bases of the memories (OPEN; D2). -/
  baseReg : Nat
  baseIn : Nat
  baseSpan : Nat
  baseCoef : Nat
  baseRpart : Nat
  baseRes : Nat
  baseSub : Nat
  baseChan : Nat
  baseOut : Nat
deriving DecidableEq, Repr

/-- What the spec says of the parameters: IN_MAX ≤ 2^60 (D3), OUTPTR counts OUT words in 64 bits (R52), SPAN_LEN counts
SPAN bytes in 8 bits (R42); samples and residuals are held in 64 bits (R49, R50), so D is 1 to 64 (DEDUCED, log 4). -/
abbrev Params.wf (p : Params) : Prop :=
  p.inMax ≤ 2 ^ 60 ∧ p.outMax < 2 ^ 64 ∧ p.spanMax < 2 ^ 8 ∧ 1 ≤ p.datapathBits ∧ p.datapathBits ≤ 64

/-- The defaults of R13. Where R13 says OPEN (IN_MAX, OUT_MAX, the bases) the value is a DESIGN CHOICE (log 4): the
largest capacities `Params.wf` admits, and every base 0. -/
def Params.default : Params where
  inMax := 2 ^ 60
  outMax := 2 ^ 64 - 1
  spanMax := 8
  verifyCrc := true
  escapeWidthSigned := true
  datapathBits := 64
  baseReg := 0
  baseIn := 0
  baseSpan := 0
  baseCoef := 0
  baseRpart := 0
  baseRes := 0
  baseSub := 0
  baseChan := 0
  baseOut := 0

/-- The block's identity string (00_scope.md rule R4). -/
def Config.identity : String := "FLAC-CORE/SFD-v7"

/-- FREE VALUE (R58, R421): the byte that IN holds at an address the host has not written since reset number `epoch`. -/
opaque Config.freeByte (epoch address : Nat) : Byte

/-- FREE VALUE (R58): what any other unspecified register, memory entry or word holds; `draw` counts the events after
which something became unspecified, `item` is a register number (below 256) or a tag, `index` the index under the tag. -/
opaque Config.freeWord (draw item index : Nat) : Word64

end Sys2Proof
end

