-- ==== Sys2Proof/Machine/State.lean ====
section
/-! DEFINITION. The state of the block: every register, memory and piece of hidden state of 10_state.md, the host's queue of
accesses, the parameters, and two counters that index the free values. Plain data. -/

namespace Sys2Proof.Machine

/-- The error codes of 60_exceptions.md rule R380, `noError` being NONE. -/
inductive ErrCode where
  | noError
  | outOfBounds
  | invalidEncoding
  | syncError
  | reservedBlockSize
  | invalidSampleRate
  | reservedChannelAssignment
  | reservedBitDepth
  | reservedBit
  | headerChecksum
  | channelMismatch
  | missingPadding
  | reservedSubframeType
  | invalidWastedBits
  | reservedResidualMethod
  | residualLength
  | invalidEscapeWidth
  | invalidPrecision
  | invalidShift
  | arithmeticOverflow
  | invalidPadding
  | frameChecksum
  | sampleRange
  | outputOverflow
  | configError
  | illegalCommand
  | illegalArgument
deriving DecidableEq, Repr

/-- `raise E(fpos)` (00_scope.md rule R20): an error and the field start it records. -/
structure Raise where
  code : ErrCode
  pos : Nat
deriving DecidableEq, Repr

/-- The four subframe kinds (10_state.md rule R45). -/
inductive Kind where
  | constant
  | verbatim
  | fixed
  | lpc
deriving DecidableEq, Repr

/-- The separate memory windows of 10_state.md rule R55. -/
inductive Window where
  | input
  | span
  | coef
  | rpart
  | res
  | sub
  | chan
  | out
deriving DecidableEq, Repr

/-- What the outside can do to the block (10_state.md rules R30, R54, R55; 70_reset_and_hazards.md rule R420). A host read
changes nothing (R91), so it is a function of the state (Machine/HostPort.lean) and no action. -/
inductive HostAction where
  /-- A write of the 64-bit slot of register number `number`. -/
  | writeReg (number : Nat) (value : Word64)
  /-- A write of element `index` of a memory window. -/
  | writeMem (window : Window) (index : Nat) (value : Word64)
  /-- The platform's reset. -/
  | reset
deriving DecidableEq, Repr

/-- The working frame header `h` (41_frame_header.md rule R200), part of the hidden working state (10_state.md rule R57). -/
structure Hdr where
  start : Nat
  strategy : Nat
  bscode : Nat
  srcode : Nat
  chcode : Nat
  bdcode : Nat
  number : Nat
  bs : Nat
  rate : Nat
  bps : Nat
  channels : Nat
  side : Option Nat
  crc8 : Nat
  crc16 : Nat
deriving DecidableEq, Repr

/-- The working subframe record `sf[c]` (42_subframe_header.md), with its LPC parameters, its residual parameters, its
residual sequence and its sample buffer (R57). An escaped partition's entry of `rpart` is 32 + EW (R272). -/
structure Subframe where
  type : Nat
  wasted : Nat
  kind : Kind
  order : Nat
  width : Nat
  prec : Nat
  shift : Nat
  coef : List Int
  method : Nat
  porder : Nat
  rpart : List Nat
  res : List Int
  samples : List Int
deriving DecidableEq, Repr

/-- The working state of one frame decode (R57): the working cursor `cur`, the header, the subframes decoded so far in
channel order, the subframe being decoded, and the decorrelated channels. -/
structure Work where
  cur : Nat
  hdr : Hdr
  subs : List Subframe
  sub : Subframe
  chan : List (List Int)
deriving DecidableEq, Repr

def Hdr.idle : Hdr := ⟨0, 0, 0, 0, 0, 0, 0, 0, 0, 0, 0, none, 0, 0⟩

def Subframe.idle : Subframe := ⟨0, 0, .constant, 0, 0, 0, 0, [], 0, 0, [], [], []⟩

/-- No frame decode is under way: the working values "exist only until commit or failure" (R57). -/
def Work.idle : Work := ⟨0, Hdr.idle, [], Subframe.idle, []⟩

/-- The frame header result registers and FRAME_START (10_state.md rules R43, R44). -/
structure HeaderRegs where
  strategy : BitVec 1
  number : BitVec 64
  bscode : BitVec 4
  blockSize : BitVec 17
  srcode : BitVec 4
  rate : BitVec 32
  chAssign : BitVec 4
  channels : BitVec 4
  bdcode : BitVec 3
  bps : BitVec 6
  crc8 : BitVec 8
  crc16 : BitVec 16
  frameStart : BitVec 64
deriving DecidableEq, Repr

/-- The result registers and memories of one channel (10_state.md rules R45, R46, R48 to R51). A list holds the
specified entries; an entry beyond it is unspecified (R58) and read as a free value. -/
structure ChannelRegs where
  sfType : BitVec 6
  sfKind : BitVec 2
  sfOrder : BitVec 6
  sfWasted : BitVec 6
  sfWidth : BitVec 6
  lpcPrec : BitVec 4
  lpcShift : BitVec 4
  resMethod : BitVec 1
  resPorder : BitVec 4
  coef : List (BitVec 15)
  rpart : List (BitVec 6)
  res : List Word64
  sub : List Word64
  chan : List Word64
deriving DecidableEq, Repr

/-- The frame result state (10_state.md section 7): the header registers, and one record for each committed channel;
what belongs to a channel c ≥ FH_CHANNELS is unspecified (R45, R58). -/
structure FrameRegs where
  hdr : HeaderRegs
  channels : List ChannelRegs
deriving DecidableEq, Repr

/-- The whole state. -/
structure State where
  /-- Host accesses still to come, the next one first (R94: one total order of host accesses and commands). -/
  host : List HostAction
  /-- CMD (R35). -/
  cmd : Word16
  /-- ARG (R36). -/
  arg : Word64
  /-- STATUS.DONE (R37). -/
  done : Bool
  /-- STATUS.FV (R37). -/
  fv : Bool
  /-- STATUS.ERR_CODE (R37, R380). -/
  errCode : ErrCode
  /-- ERR_POS (R38). -/
  errPos : Word64
  /-- RESULT (R39). -/
  result : Word64
  /-- POS (R31). -/
  pos : Word64
  /-- LEN (R33). -/
  len : Word64
  /-- STREAM_RATE, STREAM_CH, STREAM_BPS, STREAM_TOTAL (R40). -/
  streamRate : Word32
  streamCh : Byte
  streamBps : Byte
  streamTotal : Word64
  /-- CFG_WRITTEN, hidden: one flag each for STREAM_RATE, STREAM_CH, STREAM_BPS (R41). -/
  rateWritten : Bool
  chWritten : Bool
  bpsWritten : Bool
  /-- SPAN[0 .. SPAN_LEN-1] and SPAN_LEN (R42). -/
  span : List Byte
  spanLen : Byte
  /-- The frame result state (R43 to R46, R48 to R51). -/
  frame : FrameRegs
  /-- OUT, the words committed since reset or the last OUT_RESET, in canonical form (R52). -/
  out : List (Nat × Word32)
  /-- OUTPTR (R52). -/
  outptr : Word64
  /-- FRAME_COUNT (R53). -/
  frameCount : Word64
  /-- IN, the bytes the host has written since reset, in canonical form (R34). -/
  inMem : List Host.Cell
  /-- FPOS, hidden (R47). -/
  fpos : Word64
  /-- The bitstream field whose code the block fetches next at `work.cur`, hidden (R57): none at every command boundary;
  STATUS.BUSY reads 1 exactly while it is some field. -/
  seq : Option Field
  /-- The working state of a frame decode, hidden (R57). -/
  work : Work
  /-- The implementation parameters (00_scope.md rule R13); no step changes them. -/
  params : Params
  /-- THE MODEL'S OWN: resets so far; with an address it names a byte of IN that nothing has written (R421). -/
  epoch : Nat
  /-- THE MODEL'S OWN: events after which some result became unspecified; names what such a result reads as (R58). -/
  draws : Nat
deriving DecidableEq, Repr

/-- Why the machine stops. Only host accesses to places the spec does not give raise one; no instruction does. -/
inductive Fault where
  /-- A host write to a register number ≥ 256, which has no slot (20_memory.md rule R80). Raised by `step`. Safe. -/
  | noSuchRegister
  /-- A host write to an element beyond a window's size, which does not exist (R80). Raised by `step`. Safe. -/
  | noSuchElement
deriving DecidableEq, Repr

/-- An instruction without a meaning. -/
inductive Refusal where
  /-- Raised by an arm of `exec` whose instruction has no meaning yet (no arm does). Safe. -/
  | notModelled (mnemonic : String)
deriving DecidableEq, Repr

/-- The frame result registers' stored values at reset. R59 leaves them unspecified and FV is 0, so a host read of one
answers a free value (Machine/HostPort.lean), never this zero (DESIGN CHOICE, log 2). -/
def HeaderRegs.zero : HeaderRegs := ⟨0, 0, 0, 0, 0, 0, 0, 0, 0, 0, 0, 0, 0⟩

/-- The block right after reset (10_state.md rule R59; 70_reset_and_hazards.md rule R420). -/
def State.reset : State where
  host := []
  cmd := 0
  arg := 0
  done := false
  fv := false
  errCode := .noError
  errPos := 0
  result := 0
  pos := 0
  len := 0
  streamRate := 0
  streamCh := 0
  streamBps := 0
  streamTotal := 0
  rateWritten := false
  chWritten := false
  bpsWritten := false
  span := []
  spanLen := 0
  frame := ⟨HeaderRegs.zero, []⟩
  out := []
  outptr := 0
  frameCount := 0
  inMem := []
  fpos := 0
  seq := none
  work := Work.idle
  params := Params.default
  epoch := 0
  draws := 0

end Sys2Proof.Machine
end

