-- ==== Sys2Proof/Machine/Ops.lean ====
section
/-! DEFINITION. The named operations over memory and registers: sparse memories in canonical form, the bytes of IN, error
entry (the block's one exception) and the return from it, and the end of a command. -/

namespace Sys2Proof.Machine

/-- What is stored at address `a`, if anything is. -/
def readCell {α : Type} (m : List (Nat × α)) (a : Nat) : Option α :=
  match m with
  | [] => none
  | (k, v) :: rest => if k = a then some v else readCell rest a

/-- `MemWrite(M, a, n, v)` (00_scope.md rule R19): writes `vs` at `a`, `a + 1`, …; keeps the addresses strictly rising. -/
def writeBlock {α : Type} (m : List (Nat × α)) (a : Nat) (vs : List α) : List (Nat × α) :=
  m.filter (fun c => c.1 < a) ++ (List.range' a vs.length).zip vs ++ m.filter (fun c => a + vs.length ≤ c.1)

/-- The canonical form: addresses strictly rising. An unlisted cell holds no value of the model's, so no entry can equal
what an unlisted address reads as (log 1). -/
abbrev Memory.wf {α : Type} (m : List (Nat × α)) : Prop := (m.map Prod.fst).Pairwise (· < ·)

/-- What an unlisted address of IN reads as: a free byte, fixed until the next reset (10_state.md rule R58;
70_reset_and_hazards.md rule R421). -/
def unlistedByte (s : State) (a : Nat) : Byte := Config.freeByte s.epoch a

/-- IN[a] (10_state.md rule R34). -/
def byteAt (s : State) (a : Nat) : Byte := (readCell s.inMem a).getD (unlistedByte s a)

/-- `MemRead(IN, a, n)` (00_scope.md rule R18). -/
def memRead (s : State) (a n : Nat) : List Byte := (List.range' a n).map (byteAt s)

/-- The frame result state when it is unspecified (10_state.md rule R58): every register a free value. -/
def FrameRegs.unspecified (draw : Nat) : FrameRegs :=
  { hdr :=
      { strategy := (Config.freeWord draw 0x10 0).setWidth 1
        number := Config.freeWord draw 0x11 0
        bscode := (Config.freeWord draw 0x12 0).setWidth 4
        blockSize := (Config.freeWord draw 0x13 0).setWidth 17
        srcode := (Config.freeWord draw 0x14 0).setWidth 4
        rate := (Config.freeWord draw 0x15 0).setWidth 32
        chAssign := (Config.freeWord draw 0x16 0).setWidth 4
        channels := (Config.freeWord draw 0x17 0).setWidth 4
        bdcode := (Config.freeWord draw 0x18 0).setWidth 3
        bps := (Config.freeWord draw 0x19 0).setWidth 6
        crc8 := (Config.freeWord draw 0x1A 0).setWidth 8
        crc16 := (Config.freeWord draw 0x1B 0).setWidth 16
        frameStart := Config.freeWord draw 0x1C 0 }
    channels := [] }

/-- A command ends: DONE <- 1 (10_state.md rule R37). -/
def finish (s : State) : State := { s with done := true }

/-- ERROR ENTRY, the block's only exception (60_exceptions.md rules R381 and R384): ERR_CODE, ERR_POS and DONE are written;
POS, RESULT, SPAN, SPAN_LEN, OUT, OUTPTR and FRAME_COUNT keep their values; there is no vector and no mode. ERR_POS is a
copy of FPOS (R47). -/
def takeError (s : State) (e : Raise) : State :=
  { s with
    errCode := e.code
    errPos := BitVec.ofNat 64 e.pos
    fpos := BitVec.ofNat 64 e.pos
    done := true }

/-- Error entry of a frame decode: FV <- 0, the frame result state becomes unspecified (R384 step 4; 45_assembly.md rule
R343), and the working state is gone (10_state.md rule R57). -/
def failFrame (s : State) (e : Raise) : State :=
  { takeError s e with
    fv := false
    frame := FrameRegs.unspecified s.draws
    draws := s.draws + 1
    seq := none
    work := Work.idle }

/-- RETURN FROM AN ERROR: CLEAR sets ERR_CODE to 0 and restores nothing (60_exceptions.md rule R387). -/
def clearError (s : State) : State := { s with errCode := .noError }

end Sys2Proof.Machine
end

