-- ==== Sys2Proof/Machine/Operands.lean ====
section
/-! DEFINITION. Every operand form: bits of the stream, sign extension, byte orders, the primitives U, S, Unary and UTF8 on a
cursor, and the legal ranges of ARG. -/

namespace Sys2Proof.Machine

/-- A cursor and the field-start register (10_state.md rules R47, R57). -/
structure Cur where
  cur : Nat
  fpos : Nat
deriving DecidableEq, Repr

/-- A stage of a decode: it reads on from a cursor, and answers a value and the new cursor, or raises. -/
abbrev Stage (α : Type) := StateT Cur (Except Raise) α

/-- `raise E(FPOS)` (00_scope.md rule R20; 60_exceptions.md rule R381). -/
def raise {α : Type} (e : ErrCode) : Stage α := fun c => .error ⟨e, c.fpos⟩

/-- `if bad: raise E(FPOS)`. -/
def raiseIf (bad : Bool) (e : ErrCode) : Stage Unit := if bad then raise e else pure ()

/-- 8·LEN, the first bit position beyond the input. -/
def endPos (s : State) : Nat := 8 * s.len.toNat

/-- `Bit(p)`: MSB-first within each byte (00_scope.md rule R18; 20_memory.md rule R82). -/
def bitAt (s : State) (p : Nat) : Bool := (byteAt s (p / 8)).getLsbD (7 - p % 8)

/-- `BitRead(p, w)`: the first stream bit is the most significant (R18). -/
def bitRead (s : State) (p : Nat) : Nat → Nat
  | 0 => 0
  | w + 1 => 2 * bitRead s p w + (bitAt s (p + w)).toNat

/-- The little-endian value of `k` bytes of the stream, the first byte least significant (20_memory.md rule R83). -/
def bitReadLe (s : State) (p : Nat) : Nat → Nat
  | 0 => 0
  | k + 1 => bitReadLe s p k + bitRead s (p + 8 * k) 8 * 2 ^ (8 * k)

/-- `sext_w(v)` (00_scope.md rule R17). -/
def sext (w v : Nat) : Int :=
  if w = 0 then 0 else if v < 2 ^ (w - 1) then (v : Int) else (v : Int) - 2 ^ w

/-- The bounds law of every primitive (40_cursor.md rule R162): FPOS <- cur, then OUT_OF_BOUNDS unless `w` bits remain;
on success the cursor moves by exactly `w`. -/
def takeBits {α : Type} (s : State) (w : Nat) (value : Nat → α) : Stage α := fun c =>
  if c.cur + w > endPos s then .error ⟨.outOfBounds, c.cur⟩
  else .ok (value c.cur, ⟨c.cur + w, c.cur⟩)

/-- `U(w)` (40_cursor.md rule R161). -/
def takeU (s : State) (w : Nat) : Stage Nat := takeBits s w (fun p => bitRead s p w)

/-- `S(w)` (40_cursor.md rule R163). -/
def takeS (s : State) (w : Nat) : Stage Int := takeBits s w (fun p => sext w (bitRead s p w))

/-- READ_U with E = 1 (R161). -/
def takeULe (s : State) (w : Nat) : Stage Nat := takeBits s w (fun p => bitReadLe s p (w / 8))

/-- READ_S with E = 1 (R163): the sign bit is the top bit of the last byte. -/
def takeSLe (s : State) (w : Nat) : Stage Int := takeBits s w (fun p => sext w (bitReadLe s p (w / 8)))

/-- `n` fields S(w), in order. -/
def takeSMany (s : State) (w : Nat) : Nat → Stage (List Int)
  | 0 => pure []
  | n + 1 => do
    let v ← takeS s w
    let vs ← takeSMany s w n
    pure (v :: vs)

/-- The zeros before the first 1 bit among the `room` bits from `p`; none when all are 0. -/
def zeroRun (s : State) (p : Nat) : Nat → Option Nat
  | 0 => none
  | room + 1 => if bitAt s p then some 0 else (zeroRun s (p + 1) room).map (· + 1)

/-- `Unary()` (40_cursor.md rule R166): no bound but the end of the input (R167). -/
def takeUnary (s : State) : Stage Nat := fun c =>
  match zeroRun s c.cur (endPos s - c.cur) with
  | some n => .ok (n, ⟨c.cur + n + 1, c.cur⟩)
  | none => .error ⟨.outOfBounds, c.cur⟩

/-- The length and payload a lead byte announces (30_encoding.md rule R124): none for 0x80-0xBF and 0xF8-0xFF. -/
def leadInfo (lead : Nat) : Option (Nat × Nat) :=
  if lead < 0x80 then some (1, lead)
  else if lead < 0xC0 then none
  else if lead < 0xE0 then some (2, lead % 32)
  else if lead < 0xF0 then some (3, lead % 16)
  else if lead < 0xF8 then some (4, lead % 8)
  else none

/-- One continuation byte after the value `v` (R124): none unless it is 10xxxxxx. -/
def addContinuation (v b : Nat) : Option Nat := if b / 64 = 0b10 then some (v * 64 + b % 64) else none

/-- `k` continuation bytes from bit position `p` on (R168). -/
def continuations (s : State) (p v : Nat) : Nat → Option Nat
  | 0 => some v
  | k + 1 =>
    match addContinuation v (bitRead s p 8) with
    | some v' => continuations s (p + 8) v' k
    | none => none

/-- The rest of a number whose lead byte has just been read and announces `n` bytes (R168): the whole length is
bounds-checked before a continuation byte is looked at (92_eei_decisions.md D10); FPOS stays the lead byte's position. -/
def utf8Rest (s : State) (n payload : Nat) : Stage Nat := fun c =>
  if c.fpos + 8 * n > endPos s then .error ⟨.outOfBounds, c.fpos⟩
  else
    match continuations s (c.fpos + 8) payload (n - 1) with
    | some v => .ok (v, ⟨c.fpos + 8 * n, c.fpos⟩)
    | none => .error ⟨.invalidEncoding, c.fpos⟩

/-- `UTF8()` (40_cursor.md rule R168). -/
def takeUtf8 (s : State) : Stage Nat := do
  let lead ← takeU s 8
  match leadInfo lead with
  | some (n, payload) => utf8Rest s n payload
  | none => raise .invalidEncoding

/-- ARG's legal range for READ_U and READ_S (30_encoding.md rule R111). -/
def widthLegal (s : State) : Bool := s.arg.toNat ≤ 64

/-- … and with E = 1 (R111). -/
def widthLegalLe (s : State) : Bool := s.arg.toNat ≤ 64 ∧ s.arg.toNat % 8 = 0

/-- ARG's legal range for READ_RAW (R111). -/
def rawLegal (s : State) : Bool := s.arg.toNat ≤ 8 * s.params.spanMax

/-- ARG's legal range for READ_BYTES (R111). -/
def bytesLegal (s : State) : Bool := s.arg.toNat ≤ s.params.spanMax

/-- The entry checks of the cursor commands, in order (40_cursor.md rule R160): ARG, then LEN ≤ IN_MAX. -/
def cursorEntry (s : State) (legal : Bool) : Stage Unit := do
  raiseIf (!legal) .illegalArgument
  raiseIf (s.len.toNat > s.params.inMax) .configError

/-- The bytes of the `8·k`-bit number `v`, right-aligned and big-endian (40_cursor.md rule R169). -/
def spanBytes (v k : Nat) : List Byte :=
  (List.range k).map fun i => BitVec.ofNat 8 (v / 2 ^ (8 * (k - 1 - i)))

/-- `x[POS]` as a cursor: a command sets FPOS to POS when it begins (10_state.md rule R47). -/
def startCur (s : State) : Cur := ⟨s.pos.toNat, s.pos.toNat⟩

end Sys2Proof.Machine
end

