-- ==== Sys2Proof/Machine/Flags.lean ====
section
/-! DEFINITION. STATUS and its fields (10_state.md rule R37): the numbering of the error codes and the two bits that are
computed and not stored. -/

namespace Sys2Proof.Machine

/-- The number of an error code (60_exceptions.md rule R380). -/
def errNumber : ErrCode → Byte
  | .noError => 0x00
  | .outOfBounds => 0x01
  | .invalidEncoding => 0x02
  | .syncError => 0x03
  | .reservedBlockSize => 0x04
  | .invalidSampleRate => 0x05
  | .reservedChannelAssignment => 0x06
  | .reservedBitDepth => 0x07
  | .reservedBit => 0x08
  | .headerChecksum => 0x09
  | .channelMismatch => 0x0A
  | .missingPadding => 0x0B
  | .reservedSubframeType => 0x0C
  | .invalidWastedBits => 0x0D
  | .reservedResidualMethod => 0x0E
  | .residualLength => 0x0F
  | .invalidEscapeWidth => 0x10
  | .invalidPrecision => 0x11
  | .invalidShift => 0x12
  | .arithmeticOverflow => 0x13
  | .invalidPadding => 0x14
  | .frameChecksum => 0x15
  | .sampleRange => 0x16
  | .outputOverflow => 0x17
  | .configError => 0x18
  | .illegalCommand => 0x19
  | .illegalArgument => 0x1A

/-- EOS: POS = 8·LEN (R37). -/
def eosFlag (s : State) : Bool := s.pos.toNat = endPos s

/-- The stream parameters have been written and are in range (R37, R331). -/
def streamParamsOk (s : State) : Bool :=
  s.rateWritten && s.chWritten && s.bpsWritten &&
    (1 ≤ s.streamCh.toNat && s.streamCh.toNat ≤ 8) && (4 ≤ s.streamBps.toNat && s.streamBps.toNat ≤ 32)

/-- CFG (R37). -/
def cfgFlag (s : State) : Bool := streamParamsOk s && s.len.toNat ≤ s.params.inMax

/-- BUSY: a command is executing, which no command boundary shows (R37; 70_reset_and_hazards.md rule R424). -/
def busyFlag (s : State) : Bool := s.seq.isSome

/-- The STATUS word (R37): bits 7:5 and 31:16 read 0. -/
def statusWord (s : State) : Word32 :=
  BitVec.ofNat 32
    (s.done.toNat + 2 * (busyFlag s).toNat + 4 * s.fv.toNat + 8 * (eosFlag s).toNat + 16 * (cfgFlag s).toNat
      + 256 * (errNumber s.errCode).toNat)

end Sys2Proof.Machine
end

