-- ==== Sys2Proof/Machine/HostPort.lean ====
section
/-! DEFINITION. The host's view: the register map, the memory windows, host reads (which have no side effect) and host writes
other than those of CMD (10_state.md rules R54, R55, R58; 20_memory.md rules R80, R88, R91). -/

namespace Sys2Proof.Machine

/-- The host address of register number `k` (R55). -/
def regAddress (p : Params) (k : Nat) : Nat := p.baseReg + 8 * k

/-- The register number at a host address, if it is the address of a slot (R55). -/
def regNumber (p : Params) (a : Nat) : Option Nat :=
  if p.baseReg ≤ a ∧ (a - p.baseReg) % 8 = 0 ∧ (a - p.baseReg) / 8 < 256 then some ((a - p.baseReg) / 8) else none

/-- Where each window stands (R55, R92). -/
def windowBase (p : Params) : Window → Nat
  | .input => p.baseIn
  | .span => p.baseSpan
  | .coef => p.baseCoef
  | .rpart => p.baseRpart
  | .res => p.baseRes
  | .sub => p.baseSub
  | .chan => p.baseChan
  | .out => p.baseOut

/-- The number of elements of each window (R80). -/
def windowSize (p : Params) : Window → Nat
  | .input => p.inMax
  | .span => p.spanMax
  | .coef => 8 * 32
  | .rpart => 8 * 32768
  | .res => 8 * 65536
  | .sub => 8 * 65536
  | .chan => 8 * 65536
  | .out => p.outMax

/-- The elements of one channel in a two-dimensional window, which is laid out row-major (R55); the others have one row. -/
def rowLength : Window → Nat
  | .coef => 32
  | .rpart => 32768
  | .res => 65536
  | .sub => 65536
  | .chan => 65536
  | _ => 1

/-- The tag of a window in `Config.freeWord`, above every register number. -/
def windowTag : Window → Nat
  | .input => 0x100
  | .span => 0x101
  | .coef => 0x102
  | .rpart => 0x103
  | .res => 0x104
  | .sub => 0x105
  | .chan => 0x106
  | .out => 0x107

/-- The tag in `Config.freeWord` of the register numbers that have no slot. -/
def noSlotTag : Nat := 0x108

/-- A free value for register `k` (R58). -/
def freeReg (s : State) (k : Nat) : Word64 := Config.freeWord s.draws k 0

/-- A free value for element `i` of a window (R58). -/
def freeElem (s : State) (w : Window) (i : Nat) : Word64 := Config.freeWord s.draws (windowTag w) i

/-- A frame header result register, cut to its width; unspecified while FV = 0 (R43, R58). -/
def headerReg {w : Nat} (s : State) (k : Nat) (field : HeaderRegs → BitVec w) : Word64 :=
  (if s.fv then field s.frame.hdr else (freeReg s k).setWidth w).setWidth 64

/-- A per-channel register; unspecified while FV = 0 and for c ≥ FH_CHANNELS (R45, R58). `base` is the number of the
register's entry for channel 0. -/
def channelReg {w : Nat} (s : State) (base k : Nat) (field : ChannelRegs → BitVec w) : Word64 :=
  match s.fv, s.frame.channels[k - base]? with
  | true, some ch => (field ch).setWidth 64
  | _, _ => ((freeReg s k).setWidth w).setWidth 64

/-- A host read of register number `k` (R54, R55): bits above a register's width read 0, reserved numbers read 0. For a
number of 256 or more the spec gives no slot (R55, 20_memory.md rule R80) and no rule says what a read answers: a free
value for each such number (DESIGN CHOICE, log 10; safe). -/
def hostReadReg (s : State) (k : Nat) : Word64 :=
  match k with
  | 0x00 => s.cmd.setWidth 64
  | 0x01 => s.arg
  | 0x02 => (statusWord s).setWidth 64
  | 0x03 => s.errPos
  | 0x04 => s.result
  | 0x05 => s.pos
  | 0x06 => s.len
  | 0x07 => s.streamRate.setWidth 64
  | 0x08 => s.streamCh.setWidth 64
  | 0x09 => s.streamBps.setWidth 64
  | 0x0A => s.streamTotal
  | 0x0B => s.spanLen.setWidth 64
  | 0x0C => s.frameCount
  | 0x0D => s.outptr
  | 0x10 => headerReg s 0x10 HeaderRegs.strategy
  | 0x11 => headerReg s 0x11 HeaderRegs.number
  | 0x12 => headerReg s 0x12 HeaderRegs.bscode
  | 0x13 => headerReg s 0x13 HeaderRegs.blockSize
  | 0x14 => headerReg s 0x14 HeaderRegs.srcode
  | 0x15 => headerReg s 0x15 HeaderRegs.rate
  | 0x16 => headerReg s 0x16 HeaderRegs.chAssign
  | 0x17 => headerReg s 0x17 HeaderRegs.channels
  | 0x18 => headerReg s 0x18 HeaderRegs.bdcode
  | 0x19 => headerReg s 0x19 HeaderRegs.bps
  | 0x1A => headerReg s 0x1A HeaderRegs.crc8
  | 0x1B => headerReg s 0x1B HeaderRegs.crc16
  | 0x1C => headerReg s 0x1C HeaderRegs.frameStart
  | k =>
    if 0x20 ≤ k ∧ k < 0x28 then channelReg s 0x20 k ChannelRegs.sfType
    else if 0x28 ≤ k ∧ k < 0x30 then channelReg s 0x28 k ChannelRegs.sfKind
    else if 0x30 ≤ k ∧ k < 0x38 then channelReg s 0x30 k ChannelRegs.sfOrder
    else if 0x38 ≤ k ∧ k < 0x40 then channelReg s 0x38 k ChannelRegs.sfWasted
    else if 0x40 ≤ k ∧ k < 0x48 then channelReg s 0x40 k ChannelRegs.sfWidth
    else if 0x48 ≤ k ∧ k < 0x50 then channelReg s 0x48 k ChannelRegs.lpcPrec
    else if 0x50 ≤ k ∧ k < 0x58 then channelReg s 0x50 k ChannelRegs.lpcShift
    else if 0x58 ≤ k ∧ k < 0x60 then channelReg s 0x58 k ChannelRegs.resMethod
    else if 0x60 ≤ k ∧ k < 0x68 then channelReg s 0x60 k ChannelRegs.resPorder
    else if k < 256 then 0
    else Config.freeWord s.draws noSlotTag k

/-- Element `i` of a per-channel memory, sign-extended to 64 bits; unspecified beyond what the last commit wrote (R58). -/
def channelElem {w : Nat} (s : State) (win : Window) (i : Nat) (field : ChannelRegs → List (BitVec w)) : Word64 :=
  match s.fv, (s.frame.channels[i / rowLength win]?).bind (fun ch => (field ch)[i % rowLength win]?) with
  | true, some v => v.signExtend 64
  | _, _ => freeElem s win i

/-- A host read of element `i` of a window: a byte of IN or SPAN and an entry of RPART as unsigned numbers, the others
as signed ones in 64 bits (R34, R42, R46, R48 to R52). -/
def hostReadMem (s : State) (w : Window) (i : Nat) : Word64 :=
  match w with
  | .input => (byteAt s i).setWidth 64
  | .span =>
    match s.span[i]? with
    | some b => b.setWidth 64
    | none => ((freeElem s .span i).setWidth 8).setWidth 64
  | .coef => channelElem s .coef i ChannelRegs.coef
  | .rpart => channelElem s .rpart i (fun ch => ch.rpart.map (BitVec.setWidth 64))
  | .res => channelElem s .res i ChannelRegs.res
  | .sub => channelElem s .sub i ChannelRegs.sub
  | .chan => channelElem s .chan i ChannelRegs.chan
  | .out =>
    match readCell s.out i with
    | some v => v.signExtend 64
    | none => ((freeElem s .out i).setWidth 32).signExtend 64

/-- A host write of register `k` other than CMD (R54, R55, R91): a value is stored in the register's width, nothing is
checked, and the stream parameters set their CFG_WRITTEN flag (R41); every other number ignores the write. -/
def writeReg (s : State) (k : Nat) (v : Word64) : State :=
  match k with
  | 0x01 => { s with arg := v }
  | 0x06 => { s with len := v }
  | 0x07 => { s with streamRate := v.setWidth 32, rateWritten := true }
  | 0x08 => { s with streamCh := v.setWidth 8, chWritten := true }
  | 0x09 => { s with streamBps := v.setWidth 8, bpsWritten := true }
  | 0x0A => { s with streamTotal := v }
  | _ => s

/-- A host write of element `i` of a window (R54, R80, R88): only IN takes it; an element that does not exist faults. -/
def writeMem (s : State) (w : Window) (i : Nat) (v : Word64) : Host.Outcome State Fault Refusal :=
  if windowSize s.params w ≤ i then .fault .noSuchElement
  else
    match w with
    | .input => .next { s with inMem := writeBlock s.inMem i [v.setWidth 8] }
    | _ => .next s

/-- The platform's reset (70_reset_and_hazards.md rules R420, R421): every piece of state at its reset value; the contents
of the memories are new free values; the parameters and the host accesses still to come are not the block's state. -/
def platformReset (s : State) : State :=
  { State.reset with host := s.host, params := s.params, epoch := s.epoch + 1, draws := s.draws + 1 }

end Sys2Proof.Machine
end

