-- ==== Sys2Proof/Machine/Command.lean ====
section
/-! DEFINITION. Fetching: how a command word that the host writes to CMD, and the code of a bitstream field, reach
execution (30_encoding.md rule R110; 60_exceptions.md rule R386; 20_memory.md rule R96). -/

namespace Sys2Proof.Machine

/-- The sticky test, first of all (R110, R386): while ERR_CODE ≠ 0 a word whose OP is not CLEAR's is ignored. -/
def ignoredWord (s : State) (w : Word16) : Bool := s.errCode ≠ .noError ∧ opField w ≠ 0x1F

/-- The host's write puts the word in CMD (10_state.md rule R35). -/
def storeCmd (s : State) (w : Word16) : State := { s with cmd := w }

/-- A command begins: FPOS <- POS (10_state.md rule R47). -/
def beginCommand (s : State) : State := { s with fpos := s.pos }

/-- The word test fails: ILLEGAL_COMMAND(POS) (30_encoding.md rule R113). -/
def illegalWord (s : State) : State := takeError s ⟨.illegalCommand, s.pos.toNat⟩

/-- The error of a field whose value is no row of the table (30_encoding.md rule R136). -/
def rejectError : Reject → ErrCode
  | .syncMismatch => .syncError
  | .reservedBitSet => .reservedBit
  | .notContinuation => .invalidEncoding
  | .reservedBits => .illegalCommand
  | .endianBit => .illegalCommand
  | .unassignedOpcode => .illegalCommand
  | .tooWide => .illegalCommand

/-- The instruction of a field value, or the field's error at FPOS. -/
def fieldInstr (f : Field) (v : Nat) : Stage Instr :=
  match decodeField f v with
  | .ok i => pure i
  | .error r => raise (rejectError r)

/-- The code of field `f` is read at the cursor, part by part as the decoders read it: SYNC before STRATEGY
(41_frame_header.md rules R202, R203), PAD before TYPE and WFLAG (42_subframe_header.md rules R241 to R243); a
continuation byte is no primitive read of its own, so FPOS stays (40_cursor.md rule R168). -/
def fetchField (s : State) (f : Field) : Stage Instr :=
  match f with
  | .sync16 => do
    let sync ← takeU s 15
    raiseIf (sync ≠ 0x7FFC) .syncError
    let strategy ← takeU s 1
    fieldInstr .sync16 (2 * sync + strategy)
  | .subframeHeader8 => do
    let pad ← takeU s 1
    let c ← get
    if pad = 1 then fieldInstr .subframeHeader8 (128 + bitRead s c.cur 7)
    else do
      let type ← takeU s 6
      let wflag ← takeU s 1
      fieldInstr .subframeHeader8 (2 * type + wflag)
  | .utf8Cont8 => fun c =>
    if c.cur + 8 > endPos s then .error ⟨.outOfBounds, c.fpos⟩
    else fieldInstr .utf8Cont8 (bitRead s c.cur 8) ⟨c.cur + 8, c.fpos⟩
  | f => do
    let v ← takeU s f.width
    fieldInstr f v

/-- The field has been read: cursor and FPOS move, and the sequencer is done with it. -/
def afterFetch (s : State) (c : Cur) : State :=
  { s with work := { s.work with cur := c.cur }, fpos := BitVec.ofNat 64 c.fpos, seq := none }

/-- The bytes that begin with a field of `width` ≤ 16 bits, MSB-first, followed by zeros. -/
def fieldBytes (width value : Nat) : List Byte :=
  let x := value * 2 ^ (16 - width)
  [BitVec.ofNat 8 (x / 256), BitVec.ofNat 8 x] ++ List.replicate 14 0

/-- A command word stands where it is fetched: it is the next host access, a write of CMD. -/
def placeCommand (s : State) (w : Nat) : State :=
  { s with host := .writeReg 0 (BitVec.ofNat 64 w) :: s.host, seq := none }

/-- A field's code stands where it is fetched: at the working cursor, here bit 0 of IN, with the sequencer at the field. -/
def placeField (s : State) (f : Field) (value : Nat) : State :=
  { s with
    inMem := writeBlock s.inMem 0 (fieldBytes f.width value)
    len := 16
    work := { s.work with cur := 0 }
    seq := some f }

end Sys2Proof.Machine
end

