-- ==== Sys2Proof/Machine/Crc.lean ====
section
/-! DEFINITION. The two checksums (30_encoding.md rules R139 and R140): MSB-first, initial value 0, no reflection, no final
XOR. -/

namespace Sys2Proof.Machine

/-- One bit of a CRC register of width `w` shifted out, with polynomial `poly`. -/
def crcShift {w : Nat} (poly crc : BitVec w) : BitVec w := if crc.msb then (crc <<< 1) ^^^ poly else crc <<< 1

/-- `n` bits shifted out. -/
def crcShifts {w : Nat} (poly crc : BitVec w) : Nat → BitVec w
  | 0 => crc
  | n + 1 => crcShifts poly (crcShift poly crc) n

/-- The next byte enters at the register's top. -/
def crcByte {w : Nat} (poly crc : BitVec w) (b : Byte) : BitVec w :=
  crcShifts poly (crc ^^^ (b.setWidth w <<< (w - 8))) 8

/-- CRC8_of: x^8 + x^2 + x + 1 (R139). -/
def crc8Of (bytes : List Byte) : BitVec 8 := bytes.foldl (crcByte 0x07) 0

/-- CRC16_of: x^16 + x^15 + x^2 + 1 (R140). -/
def crc16Of (bytes : List Byte) : BitVec 16 := bytes.foldl (crcByte 0x8005) 0

end Sys2Proof.Machine
end

