-- ==== Sys2Proof/Machine/Header.lean ====
section
/-! DEFINITION. The frame header decoder (41_frame_header.md): one function for each field, on the working header. -/

namespace Sys2Proof.Machine

/-- R201: FPOS <- cur; a frame starts on a byte boundary. Answers the frame's first bit position. -/
def frameStart : Stage Nat := fun c =>
  if c.cur % 8 ≠ 0 then .error ⟨.syncError, c.cur⟩ else .ok (c.cur, ⟨c.cur, c.cur⟩)

/-- R202. -/
def syncField (s : State) : Stage Unit := do
  let sync ← takeU s 15
  raiseIf (sync ≠ 0x7FFC) .syncError

/-- R203: both values are legal. -/
def setStrategy (v : Nat) (h : Hdr) : Hdr := { h with strategy := v }

/-- R204: BSCODE has been read. -/
def bscodeField (code : Nat) (h : Hdr) : Stage Hdr := do
  raiseIf (code = 0) .reservedBlockSize
  pure { h with bscode := code }

/-- R205: SRCODE has been read. -/
def srcodeField (code : Nat) (h : Hdr) : Stage Hdr := do
  raiseIf (code = 15) .invalidSampleRate
  pure { h with srcode := code }

/-- R206: CHCODE has been read. -/
def chcodeField (code : Nat) (h : Hdr) : Stage Hdr := do
  raiseIf (code ≥ 11) .reservedChannelAssignment
  pure { h with chcode := code }

/-- R207: BDCODE has been read. -/
def bdcodeField (code : Nat) (h : Hdr) : Stage Hdr := do
  raiseIf (code = 3) .reservedBitDepth
  pure { h with bdcode := code }

/-- R208: RSV has been read. -/
def reservedBitField (v : Nat) : Stage Unit := raiseIf (v ≠ 0) .reservedBit

/-- R210: the block size, from BSCODE and, for codes 6 and 7, from BS_ESC. -/
def blockSize (s : State) (h : Hdr) : Stage Hdr :=
  if h.bscode = 1 then pure { h with bs := 192 }
  else if h.bscode ≤ 5 then pure { h with bs := 576 * 2 ^ (h.bscode - 2) }
  else if h.bscode = 6 then do
    let v ← takeU s 8
    pure { h with bs := v + 1 }
  else if h.bscode = 7 then do
    let v ← takeU s 16
    pure { h with bs := v + 1 }
  else pure { h with bs := 256 * 2 ^ (h.bscode - 8) }

/-- SR_TABLE (30_encoding.md rule R121). -/
def rateTable : Nat → Nat
  | 1 => 88200
  | 2 => 176400
  | 3 => 192000
  | 4 => 8000
  | 5 => 16000
  | 6 => 22050
  | 7 => 24000
  | 8 => 32000
  | 9 => 44100
  | 10 => 48000
  | 11 => 96000
  | _ => 0

/-- R211: the sample rate in Hz, from SRCODE and, for codes 12 to 14, from SR_ESC. -/
def sampleRate (s : State) (h : Hdr) : Stage Hdr :=
  if h.srcode = 0 then pure { h with rate := s.streamRate.toNat }
  else if h.srcode ≤ 11 then pure { h with rate := rateTable h.srcode }
  else if h.srcode = 12 then do
    let v ← takeU s 8
    pure { h with rate := v * 1000 }
  else if h.srcode = 13 then do
    let v ← takeU s 16
    pure { h with rate := v }
  else do
    let v ← takeU s 16
    pure { h with rate := v * 10 }

/-- BD_TABLE (30_encoding.md rule R123). -/
def depthTable : Nat → Nat
  | 1 => 8
  | 2 => 12
  | 4 => 16
  | 5 => 20
  | 6 => 24
  | 7 => 32
  | _ => 0

/-- R212. -/
def bitDepth (s : State) (h : Hdr) : Hdr :=
  { h with bps := if h.bdcode = 0 then s.streamBps.toNat else depthTable h.bdcode }

/-- R213. -/
def channelSetup (h : Hdr) : Hdr :=
  if h.chcode ≤ 7 then { h with channels := h.chcode + 1, side := none }
  else if h.chcode = 9 then { h with channels := 2, side := some 0 }
  else { h with channels := 2, side := some 1 }

/-- R214: the CRC covers the bytes from the first sync byte to the byte before CRC8. -/
def headerCrc (s : State) (h : Hdr) : Stage Hdr := do
  let crc ← takeU s 8
  let c ← get
  raiseIf (s.params.verifyCrc && (crc8Of (memRead s (h.start / 8) (c.fpos / 8 - h.start / 8))).toNat ≠ crc)
    .headerChecksum
  pure { h with crc8 := crc }

/-- R215. -/
def channelCheck (s : State) (h : Hdr) : Stage Unit := raiseIf (h.channels ≠ s.streamCh.toNat) .channelMismatch

/-- The first 32 bits of the header, each code checked as soon as it is read (R200 to R208). -/
def headerCodes (s : State) : Stage Hdr := do
  let start ← frameStart
  syncField s
  let strategy ← takeU s 1
  let h := setStrategy strategy { Hdr.idle with start := start }
  let bscode ← takeU s 4
  let h ← bscodeField bscode h
  let srcode ← takeU s 4
  let h ← srcodeField srcode h
  let chcode ← takeU s 4
  let h ← chcodeField chcode h
  let bdcode ← takeU s 3
  let h ← bdcodeField bdcode h
  let rsv ← takeU s 1
  reservedBitField rsv
  pure h

/-- The header from NUMBER on (R209 to R215). -/
def headerRest (s : State) (h : Hdr) : Stage Hdr := do
  let number ← takeUtf8 s
  let h ← blockSize s { h with number := number }
  let h ← sampleRate s h
  let h ← headerCrc s (channelSetup (bitDepth s h))
  channelCheck s h
  pure h

/-- `FrameHeader()` (R200). -/
def frameHeader (s : State) : Stage Hdr := do
  let h ← headerCodes s
  headerRest s h

end Sys2Proof.Machine
end

