-- ==== Sys2Proof/Machine/Residual.lean ====
section
/-! DEFINITION. The residual decoder (43_residual.md), on the working subframe record. -/

namespace Sys2Proof.Machine

/-- R261: METHOD has been read. -/
def methodField (method : Nat) (f : Subframe) : Stage Subframe := do
  raiseIf (method ≥ 2) .reservedResidualMethod
  pure { f with method := method }

/-- The width of PARAM under each method (R261). -/
def paramBits (method : Nat) : Nat := if method = 0 then 4 else 5

/-- The escape value of PARAM under each method (R261). -/
def escapeParam (method : Nat) : Nat := if method = 0 then 15 else 31

/-- R263: partition `i`'s sample count; the subtraction is clamped at 0. -/
def partitionCount (bs order porder i : Nat) : Nat := bs / 2 ^ porder - (if i = 0 then order else 0)

/-- Σ count[i] over the 2^p partitions (R264). -/
def totalCount (bs order porder : Nat) : Nat :=
  ((List.range (2 ^ porder)).map (partitionCount bs order porder)).sum

/-- R264: FPOS is still the start of PORDER. -/
def lengthCheck (bs : Nat) (f : Subframe) : Stage Unit :=
  raiseIf ((totalCount bs f.order f.porder : Int) ≠ (bs : Int) - f.order) .residualLength

/-- R268: ~x = -x - 1. -/
def zigzag (u : Nat) : Int := if u % 2 = 0 then ((u / 2 : Nat) : Int) else -((u / 2 : Nat) : Int) - 1

/-- One codeword with Rice parameter `k` (R266, R267): FPOS is the remainder's start when the value is refused. -/
def riceCodeword (s : State) (k : Nat) : Stage Int := do
  let q ← takeUnary s
  let r ← takeU s k
  raiseIf (q * 2 ^ k + r ≥ 2 ^ 64) .arithmeticOverflow
  pure (zigzag (q * 2 ^ k + r))

/-- `Rice(K, n)` (R266). -/
def rice (s : State) (k : Nat) : Nat → Stage (List Int)
  | 0 => pure []
  | n + 1 => do
    let v ← riceCodeword s k
    let vs ← rice s k n
    pure (v :: vs)

/-- EW from its 5 bits (R269). -/
def escapeWidth (s : State) (bits : Nat) : Int := if s.params.escapeWidthSigned then sext 5 bits else bits

/-- The partition the record is at: partitions are appended in order. -/
def currentCount (bs : Nat) (f : Subframe) : Nat := partitionCount bs f.order f.porder f.rpart.length

/-- A partition's entry of RPART and its residuals are appended (R272). -/
def addPartition (f : Subframe) (entry : Nat) (vs : List Int) : Subframe :=
  { f with rpart := f.rpart ++ [entry], res := f.res ++ vs }

/-- A Rice partition whose PARAM has been read (R266). -/
def ricePartition (s : State) (bs param : Nat) (f : Subframe) : Stage Subframe := do
  let vs ← rice s param (currentCount bs f)
  pure (addPartition f param vs)

/-- An escaped partition whose EW field has been read (R269 to R271). -/
def escapeField (s : State) (bs bits : Nat) (f : Subframe) : Stage Subframe := do
  raiseIf (escapeWidth s bits < 0) .invalidEscapeWidth
  let w := (escapeWidth s bits).toNat
  let vs ← if w = 0 then pure (List.replicate (currentCount bs f) 0) else takeSMany s w (currentCount bs f)
  pure (addPartition f (32 + w) vs)

/-- An escaped partition whose PARAM has been read (R269). -/
def escapePartition (s : State) (bs : Nat) (f : Subframe) : Stage Subframe := do
  let bits ← takeU s 5
  escapeField s bs bits f

/-- One partition (R260, R265): an empty one still reads its PARAM, and its EW when escaped. -/
def partition (s : State) (bs : Nat) (f : Subframe) : Stage Subframe := do
  let param ← takeU s (paramBits f.method)
  if param = escapeParam f.method then escapePartition s bs f else ricePartition s bs param f

/-- `n` partitions in order. -/
def partitions (s : State) (bs : Nat) : Nat → Subframe → Stage Subframe
  | 0, f => pure f
  | n + 1, f => do
    let f ← partition s bs f
    partitions s bs n f

/-- `Residual(B, k)` (R260): METHOD, PORDER, the length check, the partitions. -/
def residual (s : State) (bs : Nat) (f : Subframe) : Stage Subframe := do
  let method ← takeU s 2
  let f ← methodField method f
  let porder ← takeU s 4
  let f := { f with porder := porder, rpart := [], res := [] }
  lengthCheck bs f
  partitions s bs (2 ^ porder) f

end Sys2Proof.Machine
end

