-- ==== Sys2Proof/Machine/Predictor.lean ====
section
/-! DEFINITION. The predictor reconstructors (44_predictors.md): exact integer arithmetic, each value checked against DR. -/

namespace Sys2Proof.Machine

/-- `v ∈ DR = [-2^(D-1), 2^(D-1) - 1]` (R290). -/
def inRange (d : Nat) (v : Int) : Bool := -(2 ^ (d - 1)) ≤ v ∧ v < 2 ^ (d - 1)

/-- The value when it is in DR (R290). -/
def checked (d : Nat) (v : Int) : Option Int := if inRange d v then some v else none

/-- Σ coef[j-1]·s[n-j], j = 1 first, from the partial sum `acc`: every product and every partial sum is checked (R290,
R294, R304). `past` holds s[n-1], s[n-2], …. -/
def predict (d : Nat) : List Int → List Int → Int → Option Int
  | a :: coefs, x :: past, acc =>
    match checked d (a * x) with
    | some product =>
      match checked d (acc + product) with
      | some acc' => predict d coefs past acc'
      | none => none
    | none => none
  | _, _, acc => some acc

/-- s[n] = (Σ >> shift) + res[n-k] for the whole residual; the shift is a floor division (R304; 00_scope.md rule R15). -/
def reconstruct (d : Nat) (coefs : List Int) (shift : Nat) : List Int → List Int → Option (List Int)
  | _, [] => some []
  | past, r :: res =>
    match predict d coefs past 0 with
    | some acc =>
      match checked d (acc / 2 ^ shift + r) with
      | some v =>
        match reconstruct d coefs shift (v :: past) res with
        | some vs => some (v :: vs)
        | none => none
      | none => none
    | none => none

/-- The coefficient vectors a_k of the fixed predictors (R294). -/
def fixedCoefs : Nat → List Int
  | 1 => [1]
  | 2 => [2, -1]
  | 3 => [3, -3, 1]
  | 4 => [4, -6, 4, -1]
  | _ => []

/-- The samples: the warm-ups, then the reconstruction; ARITHMETIC_OVERFLOW at the subframe's last residual read (R290). -/
def rebuild (s : State) (coefs : List Int) (shift : Nat) (warm : List Int) (f : Subframe) : Stage Subframe :=
  match reconstruct s.params.datapathBits coefs shift warm.reverse f.res with
  | some vs => pure { f with samples := warm ++ vs }
  | none => raise .arithmeticOverflow

/-- CONSTANT (R292). -/
def constantPayload (s : State) (bs : Nat) (f : Subframe) : Stage Subframe := do
  let v ← takeS s f.width
  pure { f with samples := List.replicate bs v }

/-- VERBATIM (R293). -/
def verbatimPayload (s : State) (bs : Nat) (f : Subframe) : Stage Subframe := do
  let vs ← takeSMany s f.width bs
  pure { f with samples := vs }

/-- FIXED, order k (R294 to R299). -/
def fixedPayload (s : State) (bs : Nat) (f : Subframe) : Stage Subframe := do
  let warm ← takeSMany s f.width f.order
  let f ← residual s bs f
  rebuild s (fixedCoefs f.order) 0 warm f

/-- R301: PRECM1 has been read. -/
def precisionField (precM1 : Nat) (f : Subframe) : Stage Subframe := do
  raiseIf (precM1 = 15) .invalidPrecision
  pure { f with prec := precM1 + 1 }

/-- R302: SHIFT has been read, as its 5 bits. -/
def shiftField (bits : Nat) (f : Subframe) : Stage Subframe := do
  raiseIf (sext 5 bits < 0) .invalidShift
  pure { f with shift := (sext 5 bits).toNat }

/-- LPC, order k (R300 to R304). -/
def lpcPayload (s : State) (bs : Nat) (f : Subframe) : Stage Subframe := do
  let warm ← takeSMany s f.width f.order
  let precM1 ← takeU s 4
  let f ← precisionField precM1 f
  let bits ← takeU s 5
  let f ← shiftField bits f
  let coef ← takeSMany s f.prec f.order
  let f ← residual s bs { f with coef := coef }
  rebuild s f.coef f.shift warm f

end Sys2Proof.Machine
end

