-- ==== Sys2Proof/Machine/Subframes.lean ====
section
/-! DEFINITION. The subframe header decoder and the payload dispatch (42_subframe_header.md). -/

namespace Sys2Proof.Machine

/-- R244: the kind and order of a type code; none for a reserved one. -/
def classify (type : Nat) : Option (Kind × Nat) :=
  if type = 0b000000 then some (.constant, 0)
  else if type = 0b000001 then some (.verbatim, 0)
  else if 0b001000 ≤ type ∧ type ≤ 0b001100 then some (.fixed, type % 8)
  else if type / 32 % 2 = 1 then some (.lpc, type % 32 + 1)
  else none

/-- `isSide(c)` (R246). -/
def isSide (chcode c : Nat) : Bool := ((chcode = 8 ∨ chcode = 10) ∧ c = 1) ∨ (chcode = 9 ∧ c = 0)

/-- The effective width (R246), exact and possibly not positive. -/
def effectiveWidth (bps wasted : Nat) (side : Bool) : Int := (bps : Int) - wasted + side.toNat

/-- WASTED, when WFLAG = 1 (R243). -/
def wastedField (s : State) (wflag : Bool) : Stage Nat :=
  if wflag then do
    let n ← takeUnary s
    pure (n + 1)
  else pure 0

/-- The body of a subframe (R248). -/
def payload (s : State) (bs : Nat) (f : Subframe) : Stage Subframe :=
  match f.kind with
  | .constant => constantPayload s bs f
  | .verbatim => verbatimPayload s bs f
  | .fixed => fixedPayload s bs f
  | .lpc => lpcPayload s bs f

/-- R249: every sample is shifted left by the wasted count, exactly once, and checked against DR. -/
def wastedShift (s : State) (f : Subframe) : Stage Subframe := do
  let shifted := f.samples.map (· * 2 ^ f.wasted)
  raiseIf (!shifted.all (inRange s.params.datapathBits)) .arithmeticOverflow
  pure { f with samples := shifted }

/-- The record a subframe starts with once its header has been read (R242 to R246). -/
def openSubframe (type wasted : Nat) (kind : Kind) (order : Nat) (width : Int) : Subframe :=
  { Subframe.idle with type := type, wasted := wasted, kind := kind, order := order, width := width.toNat }

/-- A subframe whose PAD, TYPE and WFLAG have been read: WASTED, the type check, the width check, the body, the shift
(R243 to R249). Its channel is the number of subframes already decoded (R240). -/
def subframeBody (s : State) (type : Nat) (wflag : Bool) (w : Work) : Stage Work := do
  let wasted ← wastedField s wflag
  match classify type with
  | none => raise .reservedSubframeType
  | some (kind, order) =>
    let width := effectiveWidth w.hdr.bps wasted (isSide w.hdr.chcode w.subs.length)
    raiseIf (width < 1) .invalidWastedBits
    let f ← payload s w.hdr.bs (openSubframe type wasted kind order width)
    let f ← wastedShift s f
    pure { w with subs := w.subs ++ [f] }

/-- R241: PAD has been read. -/
def padField (pad : Nat) : Stage Unit := raiseIf (pad ≠ 0) .missingPadding

/-- `Subframe(c)` (R240). -/
def subframe (s : State) (w : Work) : Stage Work := do
  let pad ← takeU s 1
  padField pad
  let type ← takeU s 6
  let wflag ← takeU s 1
  subframeBody s type (wflag = 1) w

/-- `n` subframes in channel order, with no padding between them (R240). -/
def subframes (s : State) : Nat → Work → Stage Work
  | 0, w => pure w
  | n + 1, w => do
    let w ← subframe s w
    subframes s n w

end Sys2Proof.Machine
end

