-- ==== Sys2Proof/Machine/Assembly.lean ====
section
/-! DEFINITION. The frame assembler, the stereo decorrelator, the commit, and the commands DECODE_FRAME and DECODE_STREAM
(45_assembly.md). -/

namespace Sys2Proof.Machine

/-- The start checks of the decode commands, in order (R331). -/
def startChecks (s : State) : Stage Unit := do
  raiseIf (s.len.toNat > s.params.inMax) .configError
  raiseIf (!streamParamsOk s) .configError

/-- R334: P = U(z) must be 0. -/
def framePadding (s : State) : Stage Unit := do
  let c ← get
  let p ← takeU s ((8 - c.cur % 8) % 8)
  raiseIf (p ≠ 0) .invalidPadding

/-- R335: the CRC covers the bytes from the first sync byte to the last padding byte. -/
def frameCrc (s : State) (h : Hdr) : Stage Hdr := do
  let crc ← takeU s 16
  let c ← get
  raiseIf (s.params.verifyCrc && (crc16Of (memRead s (h.start / 8) (c.fpos / 8 - h.start / 8))).toNat ≠ crc)
    .frameChecksum
  pure { h with crc16 := crc }

/-- Every value in DR, or none (R290). -/
def allChecked (d : Nat) (vs : List Int) : Option (List Int) := if vs.all (inRange d) then some vs else none

/-- R337: left = ch0, right = ch0 - ch1. -/
def leftSide (d : Nat) (ch0 ch1 : List Int) : Option (List (List Int)) :=
  match allChecked d (List.zipWith (fun a b => a - b) ch0 ch1) with
  | some right => some [ch0, right]
  | none => none

/-- R338: right = ch1, left = ch1 + ch0. -/
def rightSide (d : Nat) (ch0 ch1 : List Int) : Option (List (List Int)) :=
  match allChecked d (List.zipWith (fun a b => b + a) ch0 ch1) with
  | some left => some [left, ch1]
  | none => none

/-- M = (mid << 1) | (side & 1) (R339). -/
def midDoubled (mid side : Int) : Int := 2 * mid + side % 2

/-- M + side (R339). -/
def midSum (mid side : Int) : Int := midDoubled mid side + side

/-- left = (M + side) >> 1 (R339; 90_conflicts.md C9). -/
def midLeft (mid side : Int) : Int := midSum mid side / 2

/-- right = left - side (R339). -/
def midRight (mid side : Int) : Int := midLeft mid side - side

/-- R339: M, the sum and right are checked. -/
def midSide (d : Nat) (mid side : List Int) : Option (List (List Int)) :=
  match allChecked d (List.zipWith midDoubled mid side), allChecked d (List.zipWith midSum mid side),
    allChecked d (List.zipWith midRight mid side) with
  | some _, some _, some right => some [List.zipWith midLeft mid side, right]
  | _, _, _ => none

/-- `Decorrelate` (R336 to R339). -/
def decorrelate (d chcode : Nat) (subs : List (List Int)) : Option (List (List Int)) :=
  if chcode = 8 then leftSide d (subs.getD 0 []) (subs.getD 1 [])
  else if chcode = 9 then rightSide d (subs.getD 0 []) (subs.getD 1 [])
  else if chcode = 10 then midSide d (subs.getD 0 []) (subs.getD 1 [])
  else some subs

/-- Decorrelation as a stage: ARITHMETIC_OVERFLOW at the last field read. -/
def decorrelateStage (s : State) (w : Work) : Stage Work :=
  match decorrelate s.params.datapathBits w.hdr.chcode (w.subs.map Subframe.samples) with
  | some ch => pure { w with chan := ch }
  | none => raise .arithmeticOverflow

/-- R340: every output sample fits the frame's resolved bit depth. -/
def rangeCheck (w : Work) : Stage Unit := raiseIf (!w.chan.all (fun l => l.all (inRange w.hdr.bps))) .sampleRange

/-- R341. -/
def capacityCheck (s : State) (w : Work) : Stage Unit :=
  raiseIf (s.outptr.toNat + w.hdr.bs * w.hdr.channels > s.params.outMax) .outputOverflow

/-- A frame's end: padding, CRC16, decorrelation, range, capacity, in this order (R330; 60_exceptions.md rule R383). -/
def frameEnd (s : State) (w : Work) : Stage Work := do
  framePadding s
  let h ← frameCrc s w.hdr
  let w ← decorrelateStage s { w with hdr := h }
  rangeCheck w
  capacityCheck s w
  pure w

/-- DECODE_FRAME from `cur <- x[POS]` to just before Commit (R330). -/
def frameBody (s : State) : Stage Work := do
  let h ← frameHeader s
  let w ← subframes s h.channels { Work.idle with hdr := h }
  frameEnd s w

/-- Word n·C + c of a frame's output is CHAN[c][n] (20_memory.md rule R98). -/
def interleave (bs : Nat) (chan : List (List Int)) : List Word32 :=
  (List.range bs).flatMap fun n => chan.map fun l => BitVec.ofInt 32 (l.getD n 0)

/-- 0 CONSTANT, 1 VERBATIM, 2 FIXED, 3 LPC (42_subframe_header.md rule R250). -/
def kindNumber : Kind → BitVec 2
  | .constant => 0
  | .verbatim => 1
  | .fixed => 2
  | .lpc => 3

/-- 41_frame_header.md rule R217, and FH_CRC16 (R342). -/
def headerRegs (h : Hdr) : HeaderRegs where
  strategy := BitVec.ofNat 1 h.strategy
  number := BitVec.ofNat 64 h.number
  bscode := BitVec.ofNat 4 h.bscode
  blockSize := BitVec.ofNat 17 h.bs
  srcode := BitVec.ofNat 4 h.srcode
  rate := BitVec.ofNat 32 h.rate
  chAssign := BitVec.ofNat 4 h.chcode
  channels := BitVec.ofNat 4 h.channels
  bdcode := BitVec.ofNat 3 h.bdcode
  bps := BitVec.ofNat 6 h.bps
  crc8 := BitVec.ofNat 8 h.crc8
  crc16 := BitVec.ofNat 16 h.crc16
  frameStart := BitVec.ofNat 64 h.start

/-- A register of channel `c` that is specified only when `spec` holds; otherwise a free value (10_state.md rules R46,
R48, R58). `item` is the number of the register's entry for channel 0. -/
def specifiedIf {w : Nat} (spec : Bool) (draw item c : Nat) (v : BitVec w) : BitVec w :=
  if spec then v else (Config.freeWord draw (item + c) 0).setWidth w

/-- FIXED and LPC subframes have a residual (R48). -/
def hasResidual (k : Kind) : Bool := k = .fixed ∨ k = .lpc

/-- 42_subframe_header.md rule R250, 43_residual.md rule R272 and 44_predictors.md rule R304 for channel `c`. -/
def channelRegs (draw c : Nat) (f : Subframe) (chan : List Int) : ChannelRegs where
  sfType := BitVec.ofNat 6 f.type
  sfKind := kindNumber f.kind
  sfOrder := BitVec.ofNat 6 f.order
  sfWasted := BitVec.ofNat 6 f.wasted
  sfWidth := BitVec.ofNat 6 f.width
  lpcPrec := specifiedIf (f.kind = .lpc) draw 0x48 c (BitVec.ofNat 4 f.prec)
  lpcShift := specifiedIf (f.kind = .lpc) draw 0x50 c (BitVec.ofNat 4 f.shift)
  resMethod := specifiedIf (hasResidual f.kind) draw 0x58 c (BitVec.ofNat 1 f.method)
  resPorder := specifiedIf (hasResidual f.kind) draw 0x60 c (BitVec.ofNat 4 f.porder)
  coef := f.coef.map (BitVec.ofInt 15)
  rpart := f.rpart.map (BitVec.ofNat 6)
  res := f.res.map (BitVec.ofInt 64)
  sub := f.samples.map (BitVec.ofInt 64)
  chan := chan.map (BitVec.ofInt 64)

/-- The frame result state of a decoded frame, channel by channel. -/
def frameRegs (draw : Nat) (w : Work) : FrameRegs :=
  ⟨headerRegs w.hdr, (w.subs.zip w.chan).mapIdx fun c p => channelRegs draw c p.1 p.2⟩

/-- `Commit()` (R342), in one step: OUT, OUTPTR, the frame results, POS, FRAME_COUNT, FV and RESULT. What lies beyond the
frame's channels, block size and orders becomes unspecified (10_state.md rule R58). The free values of the registers that
a channel's kind leaves unspecified are a draw of their own, which no host read before or after the commit names. -/
def commit (s : State) (w : Work) (c : Cur) : State :=
  { s with
    out := writeBlock s.out s.outptr.toNat (interleave w.hdr.bs w.chan)
    outptr := BitVec.ofNat 64 (s.outptr.toNat + w.hdr.bs * w.hdr.channels)
    frame := frameRegs (s.draws + 1) w
    draws := s.draws + 2
    pos := BitVec.ofNat 64 c.cur
    fpos := BitVec.ofNat 64 c.fpos
    frameCount := s.frameCount + 1
    fv := true
    result := BitVec.ofNat 64 (w.hdr.bs * w.hdr.channels)
    seq := none
    work := Work.idle }

/-- DECODE_FRAME (R330, R342, R343). -/
def execDecodeFrame (s : State) : Host.Outcome State Fault Refusal :=
  match (do startChecks s; frameBody s : Stage Work) (startCur s) with
  | .ok (w, c) => .next (finish (commit s w c))
  | .error e => .next (failFrame s e)

/-- The walk of DECODE_STREAM (R344, R345): `n` frames are committed; RESULT is written once, at a successful end. `room`
bounds the frames still to come and never runs out, since a frame is at least one bit long. -/
def walkFrames (room n : Nat) (s : State) : State :=
  match room with
  | 0 => finish { s with result := BitVec.ofNat 64 n }
  | room + 1 =>
    if s.pos.toNat < endPos s then
      match frameBody s (startCur s) with
      | .ok (w, c) => walkFrames room (n + 1) { commit s w c with result := s.result }
      | .error e => failFrame s e
    else finish { s with result := BitVec.ofNat 64 n }

/-- The checks of DECODE_STREAM before its walk (R331, R344). -/
def streamChecks (s : State) : Stage Unit := do
  startChecks s
  raiseIf (s.pos.toNat > endPos s) .outOfBounds

/-- DECODE_STREAM (R344, R345). -/
def execDecodeStream (s : State) : Host.Outcome State Fault Refusal :=
  match streamChecks s (startCur s) with
  | .ok _ => .next (walkFrames (endPos s - s.pos.toNat) 0 s)
  | .error e => .next (failFrame s e)

end Sys2Proof.Machine
end

