-- ==== Sys2Proof/Machine/Codes.lean ====
section
/-! DEFINITION. The meanings of the bitstream code points (30_encoding.md part B): what the block does in its hidden working
state once the code's field has been read (the working cursor stands just past it and FPOS is its start). They run the
stage functions of which DECODE_FRAME is made, so a code means here exactly what it means inside a frame (log 5). -/

namespace Sys2Proof.Machine

/-- A stage on the working state (45_assembly.md rule R332). An error is the error of the frame decode (40_cursor.md rule
R165; R343). -/
def runStage (s : State) (stage : Work → Stage Work) : Host.Outcome State Fault Refusal :=
  match stage s.work ⟨s.work.cur, s.fpos.toNat⟩ with
  | .ok (w, c) =>
    .next { s with work := { w with cur := c.cur }, fpos := BitVec.ofNat 64 c.fpos, seq := none }
  | .error e => .next (failFrame s e)

/-- A stage on the working header. -/
def runHdr (s : State) (stage : Hdr → Stage Hdr) : Host.Outcome State Fault Refusal :=
  runStage s fun w => do
    let h ← stage w.hdr
    pure { w with hdr := h }

/-- A stage on the working subframe record. -/
def runSubframe (s : State) (stage : Subframe → Stage Subframe) : Host.Outcome State Fault Refusal :=
  runStage s fun w => do
    let f ← stage w.sub
    pure { w with sub := f }

/-- A BSCODE value: its check and the block size it gives (41_frame_header.md rules R204 and R210). -/
def blockSizeCode (s : State) (code : Nat) (h : Hdr) : Stage Hdr := do
  let h ← bscodeField code h
  blockSize s h

/-- An SRCODE value: its check and the sample rate it gives (R205, R211). -/
def sampleRateCode (s : State) (code : Nat) (h : Hdr) : Stage Hdr := do
  let h ← srcodeField code h
  sampleRate s h

/-- A CHCODE value: its check, the channel count and side channel it gives, and its decorrelation of the subframes decoded
so far (R206, R213; 45_assembly.md rules R336 to R339). -/
def channelsCode (s : State) (code : Nat) (w : Work) : Stage Work := do
  let h ← chcodeField code w.hdr
  decorrelateStage s { w with hdr := channelSetup h }

/-- A BDCODE value: its check and the sample width it gives (R207, R212). -/
def bitDepthCode (s : State) (code : Nat) (h : Hdr) : Stage Hdr := do
  let h ← bdcodeField code h
  pure (bitDepth s h)

/-- A lead byte that announces `n` bytes: the number it begins (40_cursor.md rule R168; R209). -/
def numberCode (s : State) (n payload : Nat) (h : Hdr) : Stage Hdr := do
  let v ← utf8Rest s n payload
  pure { h with number := v }

/-- SUBFRAME_PAD_SET: MISSING_PADDING; what follows PAD is not read (R241). -/
def execSubframePadSet (_rest : BitVec 7) (s : State) : Host.Outcome State Fault Refusal :=
  runStage s fun w => do
    padField 1
    pure w

/-- SUBFRAME_CONSTANT: a whole CONSTANT subframe (R292). -/
def execSubframeConstant (wflag : Bool) (s : State) : Host.Outcome State Fault Refusal :=
  runStage s (subframeBody s 0b000000 wflag)

/-- SUBFRAME_VERBATIM: TYPE 000001 (R293). -/
def execSubframeVerbatim (wflag : Bool) (s : State) : Host.Outcome State Fault Refusal :=
  runStage s (subframeBody s 0b000001 wflag)

/-- SUBFRAME_RESERVED_02_03: TYPE 00001x (R245). -/
def execSubframeReserved0203 (low : BitVec 1) (wflag : Bool) (s : State) : Host.Outcome State Fault Refusal :=
  runStage s (subframeBody s (0b000010 + low.toNat) wflag)

/-- SUBFRAME_RESERVED_04_07: TYPE 0001xx (R245). -/
def execSubframeReserved0407 (low : BitVec 2) (wflag : Bool) (s : State) : Host.Outcome State Fault Refusal :=
  runStage s (subframeBody s (0b000100 + low.toNat) wflag)

/-- SUBFRAME_FIXED0: TYPE 001000 (R295). -/
def execSubframeFixed0 (wflag : Bool) (s : State) : Host.Outcome State Fault Refusal :=
  runStage s (subframeBody s 0b001000 wflag)

/-- SUBFRAME_FIXED1: TYPE 001001 (R296). -/
def execSubframeFixed1 (wflag : Bool) (s : State) : Host.Outcome State Fault Refusal :=
  runStage s (subframeBody s 0b001001 wflag)

/-- SUBFRAME_FIXED2: TYPE 001010 (R297). -/
def execSubframeFixed2 (wflag : Bool) (s : State) : Host.Outcome State Fault Refusal :=
  runStage s (subframeBody s 0b001010 wflag)

/-- SUBFRAME_FIXED3: TYPE 001011 (R298). -/
def execSubframeFixed3 (wflag : Bool) (s : State) : Host.Outcome State Fault Refusal :=
  runStage s (subframeBody s 0b001011 wflag)

/-- SUBFRAME_FIXED4: TYPE 001100 (R299). -/
def execSubframeFixed4 (wflag : Bool) (s : State) : Host.Outcome State Fault Refusal :=
  runStage s (subframeBody s 0b001100 wflag)

/-- SUBFRAME_RESERVED_0D: TYPE 001101 (R245). -/
def execSubframeReserved0D (wflag : Bool) (s : State) : Host.Outcome State Fault Refusal :=
  runStage s (subframeBody s 0b001101 wflag)

/-- SUBFRAME_RESERVED_0E_0F: TYPE 00111x (R245). -/
def execSubframeReserved0E0F (low : BitVec 1) (wflag : Bool) (s : State) : Host.Outcome State Fault Refusal :=
  runStage s (subframeBody s (0b001110 + low.toNat) wflag)

/-- SUBFRAME_RESERVED_10_1F: TYPE 01xxxx (R245). -/
def execSubframeReserved101F (low : BitVec 4) (wflag : Bool) (s : State) : Host.Outcome State Fault Refusal :=
  runStage s (subframeBody s (0b010000 + low.toNat) wflag)

/-- SUBFRAME_LPC: TYPE 1ooooo (R304). -/
def execSubframeLpc (orderM1 : BitVec 5) (wflag : Bool) (s : State) : Host.Outcome State Fault Refusal :=
  runStage s (subframeBody s (0b100000 + orderM1.toNat) wflag)

/-- RESIDUAL_RICE4: METHOD 00 (R261). -/
def execResidualRice4 (s : State) : Host.Outcome State Fault Refusal :=
  runSubframe s (methodField 0)

/-- RESIDUAL_RICE5: METHOD 01 (R261). -/
def execResidualRice5 (s : State) : Host.Outcome State Fault Refusal :=
  runSubframe s (methodField 1)

/-- RESIDUAL_RESERVED: METHOD 1x (R261). -/
def execResidualReserved (low : BitVec 1) (s : State) : Host.Outcome State Fault Refusal :=
  runSubframe s (methodField (0b10 + low.toNat))

/-- PARTITION_RICE4: a Rice partition with parameter PARAM (R266). -/
def execPartitionRice4 (param : BitVec 4) (s : State) : Host.Outcome State Fault Refusal :=
  runSubframe s (ricePartition s s.work.hdr.bs param.toNat)

/-- PARTITION_ESCAPE4: the escape value; EW and the residuals follow (R269). -/
def execPartitionEscape4 (s : State) : Host.Outcome State Fault Refusal :=
  runSubframe s (escapePartition s s.work.hdr.bs)

/-- PARTITION_RICE5: a Rice partition with parameter PARAM (R266). -/
def execPartitionRice5 (param : BitVec 5) (s : State) : Host.Outcome State Fault Refusal :=
  runSubframe s (ricePartition s s.work.hdr.bs param.toNat)

/-- PARTITION_ESCAPE5: the escape value; EW and the residuals follow (R269). -/
def execPartitionEscape5 (s : State) : Host.Outcome State Fault Refusal :=
  runSubframe s (escapePartition s s.work.hdr.bs)

/-- ESCAPE_WIDTH: the width check and the residuals (R269 to R271). -/
def execEscapeWidth (ew : BitVec 5) (s : State) : Host.Outcome State Fault Refusal :=
  runSubframe s (escapeField s s.work.hdr.bs ew.toNat)

/-- LPC_PRECISION (R301). -/
def execLpcPrecision (precM1 : BitVec 4) (s : State) : Host.Outcome State Fault Refusal :=
  runSubframe s (precisionField precM1.toNat)

/-- LPC_PRECISION_INVALID (R301). -/
def execLpcPrecisionInvalid (s : State) : Host.Outcome State Fault Refusal :=
  runSubframe s (precisionField 15)

/-- LPC_SHIFT (R302). -/
def execLpcShift (shift : BitVec 4) (s : State) : Host.Outcome State Fault Refusal :=
  runSubframe s (shiftField shift.toNat)

/-- LPC_SHIFT_NEGATIVE (R302). -/
def execLpcShiftNegative (low : BitVec 4) (s : State) : Host.Outcome State Fault Refusal :=
  runSubframe s (shiftField (0b10000 + low.toNat))

/-- FRAME_SYNC: the sync field matches and STRATEGY is 0 (R202). -/
def execFrameSync (s : State) : Host.Outcome State Fault Refusal :=
  runHdr s fun h => pure (setStrategy 0 h)

/-- FRAME_SYNC_VARIABLE: the sync field matches and STRATEGY is 1 (R203). -/
def execFrameSyncVariable (s : State) : Host.Outcome State Fault Refusal :=
  runHdr s fun h => pure (setStrategy 1 h)

/-- BLOCKSIZE_RESERVED: BSCODE 0000 (R204). -/
def execBlocksizeReserved (s : State) : Host.Outcome State Fault Refusal :=
  runHdr s (blockSizeCode s 0)

/-- BLOCKSIZE_192: BSCODE 0001 (R210). -/
def execBlocksize192 (s : State) : Host.Outcome State Fault Refusal :=
  runHdr s (blockSizeCode s 1)

/-- BLOCKSIZE_576: BSCODE 0010 (R210). -/
def execBlocksize576 (s : State) : Host.Outcome State Fault Refusal :=
  runHdr s (blockSizeCode s 2)

/-- BLOCKSIZE_1152: BSCODE 0011 (R210). -/
def execBlocksize1152 (s : State) : Host.Outcome State Fault Refusal :=
  runHdr s (blockSizeCode s 3)

/-- BLOCKSIZE_2304: BSCODE 0100 (R210). -/
def execBlocksize2304 (s : State) : Host.Outcome State Fault Refusal :=
  runHdr s (blockSizeCode s 4)

/-- BLOCKSIZE_4608: BSCODE 0101 (R210). -/
def execBlocksize4608 (s : State) : Host.Outcome State Fault Refusal :=
  runHdr s (blockSizeCode s 5)

/-- BLOCKSIZE_ESC8: BSCODE 0110 (R210). -/
def execBlocksizeEsc8 (s : State) : Host.Outcome State Fault Refusal :=
  runHdr s (blockSizeCode s 6)

/-- BLOCKSIZE_ESC16: BSCODE 0111 (R210). -/
def execBlocksizeEsc16 (s : State) : Host.Outcome State Fault Refusal :=
  runHdr s (blockSizeCode s 7)

/-- BLOCKSIZE_256_SHIFT: BSCODE 1xxx (R210). -/
def execBlocksize256Shift (low : BitVec 3) (s : State) : Host.Outcome State Fault Refusal :=
  runHdr s (blockSizeCode s (0b1000 + low.toNat))

/-- SAMPLERATE_INHERIT: SRCODE 0000 (R211). -/
def execSamplerateInherit (s : State) : Host.Outcome State Fault Refusal :=
  runHdr s (sampleRateCode s 0)

/-- SAMPLERATE_88200: SRCODE 0001 (R211). -/
def execSamplerate88200 (s : State) : Host.Outcome State Fault Refusal :=
  runHdr s (sampleRateCode s 1)

/-- SAMPLERATE_176400: SRCODE 0010 (R211). -/
def execSamplerate176400 (s : State) : Host.Outcome State Fault Refusal :=
  runHdr s (sampleRateCode s 2)

/-- SAMPLERATE_192000: SRCODE 0011 (R211). -/
def execSamplerate192000 (s : State) : Host.Outcome State Fault Refusal :=
  runHdr s (sampleRateCode s 3)

/-- SAMPLERATE_8000: SRCODE 0100 (R211). -/
def execSamplerate8000 (s : State) : Host.Outcome State Fault Refusal :=
  runHdr s (sampleRateCode s 4)

/-- SAMPLERATE_16000: SRCODE 0101 (R211). -/
def execSamplerate16000 (s : State) : Host.Outcome State Fault Refusal :=
  runHdr s (sampleRateCode s 5)

/-- SAMPLERATE_22050: SRCODE 0110 (R211). -/
def execSamplerate22050 (s : State) : Host.Outcome State Fault Refusal :=
  runHdr s (sampleRateCode s 6)

/-- SAMPLERATE_24000: SRCODE 0111 (R211). -/
def execSamplerate24000 (s : State) : Host.Outcome State Fault Refusal :=
  runHdr s (sampleRateCode s 7)

/-- SAMPLERATE_32000: SRCODE 1000 (R211). -/
def execSamplerate32000 (s : State) : Host.Outcome State Fault Refusal :=
  runHdr s (sampleRateCode s 8)

/-- SAMPLERATE_44100: SRCODE 1001 (R211). -/
def execSamplerate44100 (s : State) : Host.Outcome State Fault Refusal :=
  runHdr s (sampleRateCode s 9)

/-- SAMPLERATE_48000: SRCODE 1010 (R211). -/
def execSamplerate48000 (s : State) : Host.Outcome State Fault Refusal :=
  runHdr s (sampleRateCode s 10)

/-- SAMPLERATE_96000: SRCODE 1011 (R211). -/
def execSamplerate96000 (s : State) : Host.Outcome State Fault Refusal :=
  runHdr s (sampleRateCode s 11)

/-- SAMPLERATE_ESC_KHZ8: SRCODE 1100 (R211). -/
def execSamplerateEscKhz8 (s : State) : Host.Outcome State Fault Refusal :=
  runHdr s (sampleRateCode s 12)

/-- SAMPLERATE_ESC_HZ16: SRCODE 1101 (R211). -/
def execSamplerateEscHz16 (s : State) : Host.Outcome State Fault Refusal :=
  runHdr s (sampleRateCode s 13)

/-- SAMPLERATE_ESC_10HZ16: SRCODE 1110 (R211). -/
def execSamplerateEscTenHz16 (s : State) : Host.Outcome State Fault Refusal :=
  runHdr s (sampleRateCode s 14)

/-- SAMPLERATE_INVALID: SRCODE 1111 (R205). -/
def execSamplerateInvalid (s : State) : Host.Outcome State Fault Refusal :=
  runHdr s (sampleRateCode s 15)

/-- CHANNELS_INDEPENDENT: CHCODE 0nnn (R336). -/
def execChannelsIndependent (code : BitVec 3) (s : State) : Host.Outcome State Fault Refusal :=
  runStage s (channelsCode s code.toNat)

/-- CHANNELS_LEFT_SIDE: CHCODE 1000 (R337). -/
def execChannelsLeftSide (s : State) : Host.Outcome State Fault Refusal :=
  runStage s (channelsCode s 8)

/-- CHANNELS_RIGHT_SIDE: CHCODE 1001 (R338). -/
def execChannelsRightSide (s : State) : Host.Outcome State Fault Refusal :=
  runStage s (channelsCode s 9)

/-- CHANNELS_MID_SIDE: CHCODE 1010 (R339). -/
def execChannelsMidSide (s : State) : Host.Outcome State Fault Refusal :=
  runStage s (channelsCode s 10)

/-- CHANNELS_RESERVED_11: CHCODE 1011 (R206). -/
def execChannelsReserved11 (s : State) : Host.Outcome State Fault Refusal :=
  runStage s (channelsCode s 11)

/-- CHANNELS_RESERVED_12_15: CHCODE 11xx (R206). -/
def execChannelsReserved1215 (low : BitVec 2) (s : State) : Host.Outcome State Fault Refusal :=
  runStage s (channelsCode s (0b1100 + low.toNat))

/-- BITDEPTH_INHERIT: BDCODE 000 (R212). -/
def execBitdepthInherit (s : State) : Host.Outcome State Fault Refusal :=
  runHdr s (bitDepthCode s 0)

/-- BITDEPTH_8: BDCODE 001 (R212). -/
def execBitdepth8 (s : State) : Host.Outcome State Fault Refusal :=
  runHdr s (bitDepthCode s 1)

/-- BITDEPTH_12: BDCODE 010 (R212). -/
def execBitdepth12 (s : State) : Host.Outcome State Fault Refusal :=
  runHdr s (bitDepthCode s 2)

/-- BITDEPTH_RESERVED: BDCODE 011 (R207). -/
def execBitdepthReserved (s : State) : Host.Outcome State Fault Refusal :=
  runHdr s (bitDepthCode s 3)

/-- BITDEPTH_16: BDCODE 100 (R212). -/
def execBitdepth16 (s : State) : Host.Outcome State Fault Refusal :=
  runHdr s (bitDepthCode s 4)

/-- BITDEPTH_20: BDCODE 101 (R212). -/
def execBitdepth20 (s : State) : Host.Outcome State Fault Refusal :=
  runHdr s (bitDepthCode s 5)

/-- BITDEPTH_24: BDCODE 110 (R212). -/
def execBitdepth24 (s : State) : Host.Outcome State Fault Refusal :=
  runHdr s (bitDepthCode s 6)

/-- BITDEPTH_32: BDCODE 111 (R212). -/
def execBitdepth32 (s : State) : Host.Outcome State Fault Refusal :=
  runHdr s (bitDepthCode s 7)

/-- HEADER_RESERVED_BIT: the bit is 0, as it must be (R208). -/
def execHeaderReservedBit (s : State) : Host.Outcome State Fault Refusal :=
  runStage s fun w => do
    reservedBitField 0
    pure w

/-- UTF8_1BYTE: lead byte 0vvvvvvv (R168). -/
def execUtf8OneByte (payload : BitVec 7) (s : State) : Host.Outcome State Fault Refusal :=
  runHdr s (numberCode s 1 payload.toNat)

/-- UTF8_CONTINUATION_AS_LEAD: INVALID_ENCODING (R168). -/
def execUtf8ContinuationAsLead (_low : BitVec 6) (s : State) : Host.Outcome State Fault Refusal :=
  runStage s fun _ => raise .invalidEncoding

/-- UTF8_2BYTE: lead byte 110vvvvv (R168). -/
def execUtf8TwoByte (payload : BitVec 5) (s : State) : Host.Outcome State Fault Refusal :=
  runHdr s (numberCode s 2 payload.toNat)

/-- UTF8_3BYTE: lead byte 1110vvvv (R168). -/
def execUtf8ThreeByte (payload : BitVec 4) (s : State) : Host.Outcome State Fault Refusal :=
  runHdr s (numberCode s 3 payload.toNat)

/-- UTF8_4BYTE: lead byte 11110vvv (R168). -/
def execUtf8FourByte (payload : BitVec 3) (s : State) : Host.Outcome State Fault Refusal :=
  runHdr s (numberCode s 4 payload.toNat)

/-- UTF8_LONG_LEAD: INVALID_ENCODING (R168). -/
def execUtf8LongLead (_low : BitVec 3) (s : State) : Host.Outcome State Fault Refusal :=
  runStage s fun _ => raise .invalidEncoding

/-- UTF8_CONTINUATION: six more, less significant, bits (R168). -/
def execUtf8Continuation (payload : BitVec 6) (s : State) : Host.Outcome State Fault Refusal :=
  runHdr s fun h => pure { h with number := h.number * 64 + payload.toNat }

end Sys2Proof.Machine
end

