-- ==== Sys2Proof/Machine/Cursor.lean ====
section
/-! DEFINITION. The cursor commands (40_cursor.md). -/

namespace Sys2Proof.Machine

/-- A cursor command: its primitive runs from POS; on success `store` writes the result and POS and FPOS take the
cursor's values, on an error only error entry happens (40_cursor.md rules R160 and R162). -/
def runRead {α : Type} (s : State) (legal : Bool) (read : Stage α) (store : State → α → State) :
    Host.Outcome State Fault Refusal :=
  match (do cursorEntry s legal; read : Stage α) (startCur s) with
  | .ok (v, c) =>
    .next (finish { store s v with pos := BitVec.ofNat 64 c.cur, fpos := BitVec.ofNat 64 c.fpos })
  | .error e => .next (takeError s e)

/-- RESULT <- an unsigned value, zero-extended (R161). -/
def storeNat (s : State) (v : Nat) : State := { s with result := BitVec.ofNat 64 v }

/-- RESULT <- a signed value mod 2^64 (10_state.md rule R39). -/
def storeInt (s : State) (v : Int) : State := { s with result := BitVec.ofInt 64 v }

/-- SPAN, SPAN_LEN and RESULT <- the span of a `w`-bit value (40_cursor.md rule R169); the SPAN bytes beyond it become
unspecified (10_state.md rule R58). -/
def storeSpan (w : Nat) (s : State) (v : Nat) : State :=
  let k := (w + 7) / 8
  { s with
    span := spanBytes v k
    spanLen := BitVec.ofNat 8 k
    result := BitVec.ofNat 64 k
    draws := s.draws + 1 }

/-- READ_U (R161). -/
def execReadU (s : State) : Host.Outcome State Fault Refusal :=
  runRead s (widthLegal s) (takeU s s.arg.toNat) storeNat

/-- READ_U.LE (R161). -/
def execReadULe (s : State) : Host.Outcome State Fault Refusal :=
  runRead s (widthLegalLe s) (takeULe s s.arg.toNat) storeNat

/-- READ_S (R163). -/
def execReadS (s : State) : Host.Outcome State Fault Refusal :=
  runRead s (widthLegal s) (takeS s s.arg.toNat) storeInt

/-- READ_S.LE (R163). -/
def execReadSLe (s : State) : Host.Outcome State Fault Refusal :=
  runRead s (widthLegalLe s) (takeSLe s s.arg.toNat) storeInt

/-- READ_BIT (R164). -/
def execReadBit (s : State) : Host.Outcome State Fault Refusal :=
  runRead s true (takeBits s 1 (fun p => (bitAt s p).toNat)) storeNat

/-- READ_UNARY (R166). -/
def execReadUnary (s : State) : Host.Outcome State Fault Refusal :=
  runRead s true (takeUnary s) storeNat

/-- READ_UTF8 (R168). -/
def execReadUtf8 (s : State) : Host.Outcome State Fault Refusal :=
  runRead s true (takeUtf8 s) storeNat

/-- READ_RAW (R169). -/
def execReadRaw (s : State) : Host.Outcome State Fault Refusal :=
  runRead s (rawLegal s) (takeU s s.arg.toNat) (storeSpan s.arg.toNat)

/-- READ_BYTES (R170): READ_RAW with w = 8·n. -/
def execReadBytes (s : State) : Host.Outcome State Fault Refusal :=
  runRead s (bytesLegal s) (takeU s (8 * s.arg.toNat)) (storeSpan (8 * s.arg.toNat))

/-- SEEK (R171): no bounds check until the next read. -/
def execSeek (s : State) : Host.Outcome State Fault Refusal :=
  .next (finish { s with pos := s.arg })

end Sys2Proof.Machine
end

