-- ==== Sys2Proof/Machine/Housekeeping.lean ====
section
/-! DEFINITION. The housekeeping commands NOP, CLEAR and OUT_RESET (45_assembly.md rules R346 to R348). -/

namespace Sys2Proof.Machine

/-- NOP (R346): DONE only. -/
def execNop (s : State) : Host.Outcome State Fault Refusal := .next (finish s)

/-- CLEAR (R347): ERR_CODE <- 0; ERR_POS, POS, FV and all other state are unchanged. -/
def execClear (s : State) : Host.Outcome State Fault Refusal := .next (finish (clearError s))

/-- OUT_RESET (R348): OUTPTR and FRAME_COUNT <- 0; every OUT word becomes unspecified. -/
def execOutReset (s : State) : Host.Outcome State Fault Refusal :=
  .next (finish { s with outptr := 0, frameCount := 0, out := [], draws := s.draws + 1 })

end Sys2Proof.Machine
end

