-- ==== Sys2Proof/Machine/Dispatch.lean ====
section
/-! DEFINITION. The dispatch: one arm for every row of the opcode table. -/

namespace Sys2Proof.Machine

def exec (i : Instr) (s : State) : Host.Outcome State Fault Refusal :=
  match i with
  | .nop => Sys2Proof.Machine.execNop s
  | .readU => Sys2Proof.Machine.execReadU s
  | .readULe => Sys2Proof.Machine.execReadULe s
  | .readS => Sys2Proof.Machine.execReadS s
  | .readSLe => Sys2Proof.Machine.execReadSLe s
  | .readBit => Sys2Proof.Machine.execReadBit s
  | .readUnary => Sys2Proof.Machine.execReadUnary s
  | .readUtf8 => Sys2Proof.Machine.execReadUtf8 s
  | .readRaw => Sys2Proof.Machine.execReadRaw s
  | .readBytes => Sys2Proof.Machine.execReadBytes s
  | .seek => Sys2Proof.Machine.execSeek s
  | .decodeFrame => Sys2Proof.Machine.execDecodeFrame s
  | .decodeStream => Sys2Proof.Machine.execDecodeStream s
  | .outReset => Sys2Proof.Machine.execOutReset s
  | .clear => Sys2Proof.Machine.execClear s
  | .subframePadSet rest => Sys2Proof.Machine.execSubframePadSet rest s
  | .subframeConstant wflag => Sys2Proof.Machine.execSubframeConstant wflag s
  | .subframeVerbatim wflag => Sys2Proof.Machine.execSubframeVerbatim wflag s
  | .subframeReserved0203 low wflag => Sys2Proof.Machine.execSubframeReserved0203 low wflag s
  | .subframeReserved0407 low wflag => Sys2Proof.Machine.execSubframeReserved0407 low wflag s
  | .subframeFixed0 wflag => Sys2Proof.Machine.execSubframeFixed0 wflag s
  | .subframeFixed1 wflag => Sys2Proof.Machine.execSubframeFixed1 wflag s
  | .subframeFixed2 wflag => Sys2Proof.Machine.execSubframeFixed2 wflag s
  | .subframeFixed3 wflag => Sys2Proof.Machine.execSubframeFixed3 wflag s
  | .subframeFixed4 wflag => Sys2Proof.Machine.execSubframeFixed4 wflag s
  | .subframeReserved0D wflag => Sys2Proof.Machine.execSubframeReserved0D wflag s
  | .subframeReserved0E0F low wflag => Sys2Proof.Machine.execSubframeReserved0E0F low wflag s
  | .subframeReserved101F low wflag => Sys2Proof.Machine.execSubframeReserved101F low wflag s
  | .subframeLpc orderM1 wflag => Sys2Proof.Machine.execSubframeLpc orderM1 wflag s
  | .residualRice4 => Sys2Proof.Machine.execResidualRice4 s
  | .residualRice5 => Sys2Proof.Machine.execResidualRice5 s
  | .residualReserved low => Sys2Proof.Machine.execResidualReserved low s
  | .partitionRice4 param => Sys2Proof.Machine.execPartitionRice4 param s
  | .partitionEscape4 => Sys2Proof.Machine.execPartitionEscape4 s
  | .partitionRice5 param => Sys2Proof.Machine.execPartitionRice5 param s
  | .partitionEscape5 => Sys2Proof.Machine.execPartitionEscape5 s
  | .escapeWidth ew => Sys2Proof.Machine.execEscapeWidth ew s
  | .lpcPrecision precM1 => Sys2Proof.Machine.execLpcPrecision precM1 s
  | .lpcPrecisionInvalid => Sys2Proof.Machine.execLpcPrecisionInvalid s
  | .lpcShift shift => Sys2Proof.Machine.execLpcShift shift s
  | .lpcShiftNegative low => Sys2Proof.Machine.execLpcShiftNegative low s
  | .frameSync => Sys2Proof.Machine.execFrameSync s
  | .frameSyncVariable => Sys2Proof.Machine.execFrameSyncVariable s
  | .blocksizeReserved => Sys2Proof.Machine.execBlocksizeReserved s
  | .blocksize192 => Sys2Proof.Machine.execBlocksize192 s
  | .blocksize576 => Sys2Proof.Machine.execBlocksize576 s
  | .blocksize1152 => Sys2Proof.Machine.execBlocksize1152 s
  | .blocksize2304 => Sys2Proof.Machine.execBlocksize2304 s
  | .blocksize4608 => Sys2Proof.Machine.execBlocksize4608 s
  | .blocksizeEsc8 => Sys2Proof.Machine.execBlocksizeEsc8 s
  | .blocksizeEsc16 => Sys2Proof.Machine.execBlocksizeEsc16 s
  | .blocksize256Shift low => Sys2Proof.Machine.execBlocksize256Shift low s
  | .samplerateInherit => Sys2Proof.Machine.execSamplerateInherit s
  | .samplerate88200 => Sys2Proof.Machine.execSamplerate88200 s
  | .samplerate176400 => Sys2Proof.Machine.execSamplerate176400 s
  | .samplerate192000 => Sys2Proof.Machine.execSamplerate192000 s
  | .samplerate8000 => Sys2Proof.Machine.execSamplerate8000 s
  | .samplerate16000 => Sys2Proof.Machine.execSamplerate16000 s
  | .samplerate22050 => Sys2Proof.Machine.execSamplerate22050 s
  | .samplerate24000 => Sys2Proof.Machine.execSamplerate24000 s
  | .samplerate32000 => Sys2Proof.Machine.execSamplerate32000 s
  | .samplerate44100 => Sys2Proof.Machine.execSamplerate44100 s
  | .samplerate48000 => Sys2Proof.Machine.execSamplerate48000 s
  | .samplerate96000 => Sys2Proof.Machine.execSamplerate96000 s
  | .samplerateEscKhz8 => Sys2Proof.Machine.execSamplerateEscKhz8 s
  | .samplerateEscHz16 => Sys2Proof.Machine.execSamplerateEscHz16 s
  | .samplerateEscTenHz16 => Sys2Proof.Machine.execSamplerateEscTenHz16 s
  | .samplerateInvalid => Sys2Proof.Machine.execSamplerateInvalid s
  | .channelsIndependent code => Sys2Proof.Machine.execChannelsIndependent code s
  | .channelsLeftSide => Sys2Proof.Machine.execChannelsLeftSide s
  | .channelsRightSide => Sys2Proof.Machine.execChannelsRightSide s
  | .channelsMidSide => Sys2Proof.Machine.execChannelsMidSide s
  | .channelsReserved11 => Sys2Proof.Machine.execChannelsReserved11 s
  | .channelsReserved1215 low => Sys2Proof.Machine.execChannelsReserved1215 low s
  | .bitdepthInherit => Sys2Proof.Machine.execBitdepthInherit s
  | .bitdepth8 => Sys2Proof.Machine.execBitdepth8 s
  | .bitdepth12 => Sys2Proof.Machine.execBitdepth12 s
  | .bitdepthReserved => Sys2Proof.Machine.execBitdepthReserved s
  | .bitdepth16 => Sys2Proof.Machine.execBitdepth16 s
  | .bitdepth20 => Sys2Proof.Machine.execBitdepth20 s
  | .bitdepth24 => Sys2Proof.Machine.execBitdepth24 s
  | .bitdepth32 => Sys2Proof.Machine.execBitdepth32 s
  | .headerReservedBit => Sys2Proof.Machine.execHeaderReservedBit s
  | .utf8OneByte payload => Sys2Proof.Machine.execUtf8OneByte payload s
  | .utf8ContinuationAsLead low => Sys2Proof.Machine.execUtf8ContinuationAsLead low s
  | .utf8TwoByte payload => Sys2Proof.Machine.execUtf8TwoByte payload s
  | .utf8ThreeByte payload => Sys2Proof.Machine.execUtf8ThreeByte payload s
  | .utf8FourByte payload => Sys2Proof.Machine.execUtf8FourByte payload s
  | .utf8LongLead low => Sys2Proof.Machine.execUtf8LongLead low s
  | .utf8Continuation payload => Sys2Proof.Machine.execUtf8Continuation payload s

end Sys2Proof.Machine
end

