-- ==== Sys2Proof/Machine/Step.lean ====
section
/-! DEFINITION. One step. The block fetches no instructions (20_memory.md rule R96): a step is the next host access, and a
write of CMD runs one command, atomically (R90; 70_reset_and_hazards.md rule R424). With no host access to come the
block is idle (60_exceptions.md rule R395). Where the sequencer stands at a bitstream field, which is no command
boundary and is never left so by a step, the step fetches and runs that one code (log 5). -/

namespace Sys2Proof.Machine

/-- A word has been written to CMD: the sticky test, the word test, the command (30_encoding.md rule R110). -/
def runWord (s : State) (w : Word16) : Host.Outcome State Fault Refusal :=
  if ignoredWord s w then .next (storeCmd s w)
  else
    match decodeCmd w with
    | .ok i => exec i (beginCommand (storeCmd s w))
    | .error _ => .next (illegalWord (beginCommand (storeCmd s w)))

/-- One host access. -/
def hostStep (s : State) (a : HostAction) : Host.Outcome State Fault Refusal :=
  match a with
  | .writeReg k v =>
    if k = 0 then runWord s (v.setWidth 16)
    else if k < 256 then .next (writeReg s k v)
    else .fault .noSuchRegister
  | .writeMem w i v => writeMem s w i v
  | .reset => .next (platformReset s)

/-- The sequencer's field is fetched and its code runs. -/
def fieldStep (s : State) (f : Field) : Host.Outcome State Fault Refusal :=
  match fetchField s f ⟨s.work.cur, s.fpos.toNat⟩ with
  | .ok (i, c) => exec i (afterFetch s c)
  | .error e => .next (failFrame s e)

/-- One step. -/
def step (s : State) : Host.Outcome State Fault Refusal :=
  match s.seq with
  | some f => fieldStep s f
  | none =>
    match s.host with
    | [] => .next s
    | a :: rest => hostStep { s with host := rest } a

/-- `s` with the table word `w` where `step` fetches next. -/
def State.withFetchWord (s : State) (nbits w : Nat) : State :=
  match tableCode nbits w with
  | some (.field f v) => placeField s f v
  | some (.cmd c) => placeCommand s c.toNat
  | none => placeCommand s w

end Sys2Proof.Machine
end

