-- ==== Sys2Proof/Safety.lean ====
section
/-! DEFINITION. What claims are stated in: the invariant of the block between commands, the conditions under which a command
executes, what a sequence of codewords in the stream is, and runs of DECODE_FRAME. -/

namespace Sys2Proof.Machine

/-- What the frame result state satisfies while FV = 1: the ranges of 10_state.md rule R43, one record for each channel
(R45), and as many samples as the block size in each (R50, R51). -/
structure FrameInv (s : State) : Prop where
  blockSize_pos : 1 ≤ s.frame.hdr.blockSize.toNat
  blockSize_le : s.frame.hdr.blockSize.toNat ≤ 65536
  channels_pos : 1 ≤ s.frame.hdr.channels.toNat
  channels_le : s.frame.hdr.channels.toNat ≤ 8
  records : s.frame.channels.length = s.frame.hdr.channels.toNat
  sub_length : ∀ ch ∈ s.frame.channels, ch.sub.length = s.frame.hdr.blockSize.toNat
  chan_length : ∀ ch ∈ s.frame.channels, ch.chan.length = s.frame.hdr.blockSize.toNat

/-- The invariant at every command boundary. -/
structure Inv (s : State) : Prop where
  /-- The parameters are those the spec admits. -/
  params : s.params.wf
  /-- IN keeps its canonical form and lists only bytes that exist. -/
  inMem_wf : Memory.wf s.inMem
  inMem_inside : ∀ c ∈ s.inMem, c.1 < s.params.inMax
  /-- OUT lists exactly the words below OUTPTR (10_state.md rule R52). -/
  out_words : s.out.map Prod.fst = List.range s.outptr.toNat
  /-- OUTPTR never exceeds OUT_MAX, and a frame is at least one word, so neither counter wraps (60_exceptions.md rule
  R391). -/
  outptr_le : s.outptr.toNat ≤ s.params.outMax
  frameCount_le : s.frameCount.toNat ≤ s.outptr.toNat
  /-- SPAN holds SPAN_LEN specified bytes (10_state.md rule R42). -/
  span_length : s.span.length = s.spanLen.toNat
  span_le : s.spanLen.toNat ≤ s.params.spanMax
  /-- No frame decode is under way: BUSY reads 0 (70_reset_and_hazards.md rule R424; 10_state.md rule R57). -/
  boundary : s.seq = none
  working : s.work = Work.idle
  /-- An error ends a command (60_exceptions.md rule R384). -/
  error_done : s.errCode ≠ .noError → s.done = true
  /-- The frame results are a committed frame's while FV = 1. -/
  frame : s.fv = true → FrameInv s

/-- LEN ≤ IN_MAX (10_state.md rule R33). -/
def lenOk (s : State) : Prop := s.len.toNat ≤ s.params.inMax

/-- `w` more bits are there at bit position `p`. -/
def bitsAt (s : State) (p w : Nat) : Prop := p + w ≤ endPos s

/-- The start checks of a decode command pass (45_assembly.md rule R331). -/
def decodeReady (s : State) : Prop :=
  lenOk s ∧ s.rateWritten = true ∧ s.chWritten = true ∧ s.bpsWritten = true ∧
    1 ≤ s.streamCh.toNat ∧ s.streamCh.toNat ≤ 8 ∧ 4 ≤ s.streamBps.toNat ∧ s.streamBps.toNat ≤ 32

/-- From bit position `p` there are `n` zeros and then a one (40_cursor.md rule R166). -/
def unaryAt (s : State) (p n : Nat) : Prop :=
  (∀ j < n, bitAt s (p + j) = false) ∧ bitAt s (p + n) = true ∧ p + n + 1 ≤ endPos s

/-- From bit position `p` up to `e` stand the Rice codewords of the numbers `us` with parameter `k`: each a unary quotient
and a `k`-bit remainder (30_encoding.md rule R132). -/
def riceAt (s : State) (k : Nat) : Nat → List Nat → Nat → Prop
  | p, [], e => e = p
  | p, u :: us, e =>
    unaryAt s p (u / 2 ^ k) ∧ bitRead s (p + u / 2 ^ k + 1) k = u % 2 ^ k ∧
      p + u / 2 ^ k + 1 + k ≤ endPos s ∧ riceAt s k (p + u / 2 ^ k + 1 + k) us e

/-- Of the fields of width `w` that stand from bit position `p` on, field `j` is the first that does not fit the input. -/
def firstMissing (s : State) (p w j : Nat) : Prop := (0 < j → bitsAt s p (j * w)) ∧ ¬ bitsAt s p ((j + 1) * w)

/-- The `n` signed fields of width `w` that stand from bit position `p` on. -/
def signedFields (s : State) (p w n : Nat) : List Int :=
  (List.range n).map fun j => sext w (bitRead s (p + w * j) w)

/-- The inverse of zig-zag unfolding (43_residual.md rule R268). -/
def zigzagFold (v : Int) : Nat := if 0 ≤ v then (2 * v).toNat else (-2 * v - 1).toNat

/-- `n` runs of DECODE_FRAME, each of which commits its frame (FV is 1 after it). -/
def frameRuns : Nat → State → Option State
  | 0, s => some s
  | n + 1, s =>
    match exec .decodeFrame s with
    | .next t => if t.fv then frameRuns n t else none
    | _ => none

/-- The state after `n` frames whose decode answers have been committed one after the other, said of the frame decoder
alone: none when one of them does not decode. -/
def decodedFrames : Nat → State → Option State
  | 0, s => some s
  | n + 1, s =>
    match frameBody s (startCur s) with
    | .ok (w, c) => decodedFrames n (finish (commit s w c))
    | .error _ => none

/-- The state in which a bitstream code has just been read: the working cursor as a cursor. -/
def workCur (s : State) : Cur := ⟨s.work.cur, s.fpos.toNat⟩

/-- A bitstream code has had its effect: the working state and FPOS are as given, and nothing else is changed. -/
def workDone (s : State) (w : Work) (fpos : Nat) : State :=
  { s with work := w, fpos := BitVec.ofNat 64 fpos, seq := none }

/-- Everything a command that ends in an error leaves alone (60_exceptions.md rule R384 step 3), and what the block never
writes (10_state.md rule R54). -/
def sameButError (s t : State) : Prop :=
  t.host = s.host ∧ t.cmd = s.cmd ∧ t.arg = s.arg ∧ t.result = s.result ∧ t.pos = s.pos ∧ t.len = s.len ∧
    t.streamRate = s.streamRate ∧ t.streamCh = s.streamCh ∧ t.streamBps = s.streamBps ∧
    t.streamTotal = s.streamTotal ∧ t.rateWritten = s.rateWritten ∧ t.chWritten = s.chWritten ∧
    t.bpsWritten = s.bpsWritten ∧ t.span = s.span ∧ t.spanLen = s.spanLen ∧ t.out = s.out ∧ t.outptr = s.outptr ∧
    t.frameCount = s.frameCount ∧ t.inMem = s.inMem ∧ t.params = s.params ∧ t.epoch = s.epoch

/-- A frame decode has failed with error `e` at `pos` (60_exceptions.md rule R384; 45_assembly.md rule R343). -/
def frameFailed (s t : State) (e : ErrCode) (pos : Nat) : Prop :=
  sameButError s t ∧ t.errCode = e ∧ t.errPos = BitVec.ofNat 64 pos ∧ t.done = true ∧ t.fv = false

/-! Where a frame header's fields stand and what they say, for a header that starts at bit position `p`
(41_frame_header.md rules R200 to R215). -/

/-- The first 32 bits of the header are there and each of their fields passes its check (R201 to R208). -/
def headerCodesPass (s : State) (p : Nat) : Prop :=
  p % 8 = 0 ∧ bitsAt s p 32 ∧ bitRead s p 15 = 0x7FFC ∧ bitRead s (p + 16) 4 ≠ 0 ∧ bitRead s (p + 20) 4 ≠ 15 ∧
    bitRead s (p + 24) 4 < 11 ∧ bitRead s (p + 28) 3 ≠ 3 ∧ bitAt s (p + 31) = false

/-- The bytes of the number that a legal lead byte begins (30_encoding.md rule R124). -/
def numberBytes (lead : Nat) : Nat := if lead < 0x80 then 1 else if lead < 0xE0 then 2 else if lead < 0xF0 then 3 else 4

/-- The number whose lead byte stands at bit position `q`: the lead byte's payload bits, then six bits of each
continuation byte, most significant first (40_cursor.md rule R168). -/
def numberOf (s : State) (q : Nat) : Nat :=
  let byte := fun i => bitRead s (q + 8 * i) 8
  if byte 0 < 0x80 then byte 0
  else if byte 0 < 0xE0 then byte 0 % 32 * 64 + byte 1 % 64
  else if byte 0 < 0xF0 then (byte 0 % 16 * 64 + byte 1 % 64) * 64 + byte 2 % 64
  else ((byte 0 % 8 * 64 + byte 1 % 64) * 64 + byte 2 % 64) * 64 + byte 3 % 64

/-- Where BS_ESC stands when there is one: after NUMBER (R210). -/
def bsEscAt (s : State) (p : Nat) : Nat := p + 32 + 8 * numberBytes (bitRead s (p + 32) 8)

/-- Where SR_ESC stands when there is one: after BS_ESC, which BSCODE 6 and 7 ask for (R210, R211). -/
def srEscAt (s : State) (p : Nat) : Nat :=
  let code := bitRead s (p + 16) 4
  bsEscAt s p + if code = 6 then 8 else if code = 7 then 16 else 0

/-- Where CRC8 stands: after SR_ESC, which SRCODE 12 to 14 ask for (R211, R214). -/
def crc8At (s : State) (p : Nat) : Nat :=
  let code := bitRead s (p + 20) 4
  srEscAt s p + if code = 12 then 8 else if code = 13 ∨ code = 14 then 16 else 0

/-- The block size (R210; 30_encoding.md rule R120). -/
def blockSizeOf (s : State) (p : Nat) : Nat :=
  let code := bitRead s (p + 16) 4
  if code = 1 then 192
  else if code ≤ 5 then 576 * 2 ^ (code - 2)
  else if code = 6 then bitRead s (bsEscAt s p) 8 + 1
  else if code = 7 then bitRead s (bsEscAt s p) 16 + 1
  else 256 * 2 ^ (code - 8)

/-- The sample rate in Hz (R211). -/
def sampleRateOf (s : State) (p : Nat) : Nat :=
  let code := bitRead s (p + 20) 4
  if code = 0 then s.streamRate.toNat
  else if code ≤ 11 then rateTable code
  else if code = 12 then bitRead s (srEscAt s p) 8 * 1000
  else if code = 13 then bitRead s (srEscAt s p) 16
  else bitRead s (srEscAt s p) 16 * 10

/-- The bytes from the first sync byte to the byte before CRC8 have the checksum that CRC8 holds (R214). -/
def headerCrcGood (s : State) (p : Nat) : Prop :=
  (crc8Of (memRead s (p / 8) (crc8At s p / 8 - p / 8))).toNat = bitRead s (crc8At s p) 8

/-- The channel count of a channel assignment (R213). -/
def channelCount (code : Nat) : Nat := if code ≤ 7 then code + 1 else 2

/-- The 15 command words of 30_encoding.md rule R112, with the two that set E (R110). -/
def commandWords : List Word16 :=
  [0x0000, 0x0001, 0x0101, 0x0002, 0x0102, 0x0003, 0x0004, 0x0005, 0x0006, 0x0007, 0x0008, 0x0010, 0x0011, 0x001E, 0x001F]

/-- A command that has read nothing yet has raised `e`: ERR_POS is POS (60_exceptions.md rules R381, R384). -/
def erredAt (s : State) (e : ErrCode) : State :=
  { s with errCode := e, errPos := s.pos, fpos := s.pos, done := true }

/-- A cursor command has read `w` bits and left `v` in RESULT: POS moves by exactly `w` (10_state.md rules R31, R39). -/
def readDone (s : State) (w : Nat) (v : Word64) : State :=
  { s with result := v, pos := BitVec.ofNat 64 (s.pos.toNat + w), fpos := s.pos, done := true }

/-- … and has also left the bytes `bs` in SPAN (40_cursor.md rule R169). -/
def spanDone (s : State) (w : Nat) (bs : List Byte) : State :=
  { readDone s w (BitVec.ofNat 64 bs.length) with
    span := bs
    spanLen := BitVec.ofNat 8 bs.length
    draws := s.draws + 1 }

/-- Where the cursor stands, and where the last primitive read began, when a field's code has been read at the working
cursor: STRATEGY is a read after SYNC, WFLAG one after PAD and TYPE, a set PAD ends the reading, and a continuation byte
is no read of its own (41_frame_header.md rules R202, R203; 42_subframe_header.md rules R241 to R243; R168). -/
def fieldEnd (s : State) (f : Field) : Cur :=
  match f with
  | .sync16 => ⟨s.work.cur + 16, s.work.cur + 15⟩
  | .subframeHeader8 => if bitAt s s.work.cur then ⟨s.work.cur + 1, s.work.cur⟩ else ⟨s.work.cur + 8, s.work.cur + 7⟩
  | .utf8Cont8 => ⟨s.work.cur + 8, s.fpos.toNat⟩
  | f => ⟨s.work.cur + f.width, s.work.cur⟩

/-- After WFLAG, read as `wflag`, the wasted count is `wasted` and its field ends at bit position `e` (42_subframe_header.md
rule R243): no field and 0 when WFLAG is 0, a unary count plus 1 otherwise. -/
def wastedAt (s : State) (wflag : Bool) (wasted e : Nat) : Prop :=
  if wflag then ∃ n, wasted = n + 1 ∧ unaryAt s s.work.cur n ∧ e = s.work.cur + n + 1
  else wasted = 0 ∧ e = s.work.cur

/-- The start of a subframe header's last field: WASTED when there is one, otherwise WFLAG (R245). -/
def lastHeaderField (s : State) (wflag : Bool) : Nat := if wflag then s.work.cur else s.fpos.toNat

/-- The width w of the subframe that comes next, exact and possibly not positive (R246). -/
def subframeWidth (s : State) (wasted : Nat) : Int :=
  let c := s.work.subs.length
  let h := s.work.hdr
  (h.bps : Int) - wasted + if ((h.chcode = 8 ∨ h.chcode = 10) ∧ c = 1) ∨ (h.chcode = 9 ∧ c = 0) then 1 else 0

/-- DR of 44_predictors.md rule R290 for D = `d`. -/
def inDr (d : Nat) (v : Int) : Prop := -(2 ^ (d - 1)) ≤ v ∧ v ≤ 2 ^ (d - 1) - 1

/-- Σ_{j=1..k} a[j]·x[n-j], the coefficients being `a` (44_predictors.md rules R294, R304). -/
def prediction (a x : List Int) (n : Nat) : Int :=
  ((List.range a.length).map fun j => a.getD j 0 * x.getD (n - 1 - j) 0).sum

/-- Every product and every partial sum of that prediction is in DR (R290). -/
def predictionInDr (d : Nat) (a x : List Int) (n : Nat) : Prop :=
  ∀ j < a.length, inDr d (a.getD j 0 * x.getD (n - 1 - j) 0) ∧ inDr d (prediction (a.take (j + 1)) x n)

/-- The samples `x` are the warm-ups followed by what the recurrence gives for the residual `res`, and no value it forms
leaves DR (R290, R294, R304). -/
def reconstructs (d : Nat) (a : List Int) (shift : Nat) (warm res x : List Int) : Prop :=
  x.length = warm.length + res.length ∧ x.take warm.length = warm ∧
    ∀ n, warm.length ≤ n → n < x.length →
      predictionInDr d a x n ∧ inDr d (x.getD n 0) ∧
        x.getD n 0 = prediction a x n / 2 ^ shift + res.getD (n - warm.length) 0

/-- Sample count of the partition a record is at (43_residual.md rule R263). -/
def nextCount (s : State) : Nat :=
  let f := s.work.sub
  s.work.hdr.bs / 2 ^ f.porder - if f.rpart.length = 0 then f.order else 0

/-- EW, from the 5 bits of its field (43_residual.md rule R269). -/
def escapeWidthOf (s : State) (bits : Nat) : Int :=
  if s.params.escapeWidthSigned ∧ 16 ≤ bits then (bits : Int) - 32 else bits

/-- What a frame decode depends on (45_assembly.md rule R349): IN (written bytes, and the contents of unwritten ones), LEN,
POS, the stream parameters and the parameters of 00_scope.md rule R13. -/
def sameFrameInput (s t : State) : Prop :=
  (∀ a, byteAt s a = byteAt t a) ∧ s.len = t.len ∧ s.pos = t.pos ∧ s.streamRate = t.streamRate ∧
    s.streamCh = t.streamCh ∧ s.streamBps = t.streamBps ∧ s.params = t.params

end Sys2Proof.Machine
end

