-- ==== Sys2Proof/Certificates/Slice0/Obligations.lean ====
section
/-! DEFINITION. The statements for the provers. -/

open Sys2Proof Sys2Proof.Machine

/-! ## Encodings and the step -/

/-- No bit of any instruction's encoding is dropped (30_encoding.md rules R110 to R133). -/
def Obligations.DecodeOfEncode : Prop :=
  ∀ i : Instr, i.wellFormed = true → decode (encode i) = .ok i

/-- Each code has one meaning: what decodes is a well-formed instruction whose encoding is the code itself, so reserved
codes do not fall through to a neighbour. -/
def Obligations.EncodeOfDecode : Prop :=
  ∀ (c : Code) (i : Instr), decode c = .ok i → encode i = c ∧ i.wellFormed = true

/-- Words written out from the spec's tables, one or more for each format (30_encoding.md rules R112, R119 to R133). -/
def Obligations.WrittenWordsDecode : Prop :=
  decode (.cmd 0x0101) = .ok .readULe ∧ decode (.cmd 0x001E) = .ok .outReset ∧
  decode (.cmd 0x0110) = .error .endianBit ∧
  decode (.field .sync16 0b1111111111111000) = .ok .frameSync ∧
  decode (.field .sync16 0b1111111111111001) = .ok .frameSyncVariable ∧
  decode (.field .bscode4 0b1010) = .ok (.blocksize256Shift 2) ∧
  decode (.field .srcode4 0b1001) = .ok .samplerate44100 ∧
  decode (.field .chcode4 0b1010) = .ok .channelsMidSide ∧
  decode (.field .bdcode3 0b101) = .ok .bitdepth20 ∧
  decode (.field .utf8Lead8 0b11100100) = .ok (.utf8ThreeByte 4) ∧
  decode (.field .utf8Cont8 0b01000001) = .error .notContinuation ∧
  decode (.field .subframeHeader8 0b01000010) = .ok (.subframeLpc 1 false) ∧
  decode (.field .subframeHeader8 0b00010011) = .ok (.subframeFixed1 true) ∧
  decode (.field .residualMethod2 0b01) = .ok .residualRice5 ∧
  decode (.field .param4 0b1111) = .ok .partitionEscape4 ∧
  decode (.field .param5 0b01111) = .ok (.partitionRice5 15) ∧
  decode (.field .ew5 0b00100) = .ok (.escapeWidth 4) ∧
  decode (.field .precM14 0b0011) = .ok (.lpcPrecision 3) ∧
  decode (.field .shift5 0b11111) = .ok (.lpcShiftNegative 15) ∧
  decode (.field .rsv1 0b1) = .error .reservedBitSet

/-- A step whose host access is a write of CMD runs the decoded command, after CMD has taken the word and FPOS has taken
POS (30_encoding.md rule R110; 10_state.md rules R35, R47): the per-command statements reach a run through this one. -/
def Obligations.StepRunsCommand : Prop :=
  ∀ (s : State) (v : Word64) (rest : List HostAction) (i : Instr),
    s.seq = none → s.host = .writeReg 0 v :: rest →
    s.errCode = .noError ∨ opField (v.setWidth 16) = 0x1F →
    decode (.cmd (v.setWidth 16)) = .ok i →
    step s = exec i { s with host := rest, cmd := v.setWidth 16, fpos := s.pos }

/-- A step at a bitstream field runs the decoded code, after the cursor has moved past the field and FPOS has taken the
start of the field's last primitive read. That codes are steps of their own is the model's choice (log 5). -/
def Obligations.StepRunsField : Prop :=
  ∀ (s : State) (f : Field) (i : Instr),
    s.seq = some f → s.work.cur + f.width ≤ endPos s →
    decode (.field f (bitRead s s.work.cur f.width)) = .ok i →
    step s = exec i
      { s with
        work := { s.work with cur := (fieldEnd s f).cur }
        fpos := BitVec.ofNat 64 (fieldEnd s f).fpos
        seq := none }

/-- A bitstream code is made, as a step, of the stage functions that DECODE_FRAME runs (41_frame_header.md rule R200;
42_subframe_header.md rule R240; 43_residual.md rule R260), when LEN is legal, as every frame decode has checked
(45_assembly.md rule R331). For the sync field, the reserved bit, the number, a continuation byte of it, a whole subframe, a
whole partition and the fields of a residual and of an LPC subframe that is what a frame does at that field. A BSCODE,
SRCODE, CHCODE or BDCODE code checks its value AND resolves it at once, which a frame does only after NUMBER (R200, R210:
'not right after BSCODE'), and a CHCODE code also decorrelates the subframes decoded so far, which a frame does after its
last subframe (45_assembly.md rule R330): these mergings, and that codes are steps of their own, are the model's choice
(log 5). -/
def Obligations.CodesAreTheDecodersStages : Prop :=
  ∀ s : State, s.params.wf → lenOk s →
    (s.seq = some .sync16 → step s = runHdr s fun h => do
      syncField s
      let strategy ← takeU s 1
      pure (setStrategy strategy h)) ∧
    (s.seq = some .bscode4 → step s = runHdr s fun h => do
      let code ← takeU s 4
      let h ← bscodeField code h
      blockSize s h) ∧
    (s.seq = some .srcode4 → step s = runHdr s fun h => do
      let code ← takeU s 4
      let h ← srcodeField code h
      sampleRate s h) ∧
    (s.seq = some .chcode4 → step s = runStage s fun w => do
      let code ← takeU s 4
      let h ← chcodeField code w.hdr
      decorrelateStage s { w with hdr := channelSetup h }) ∧
    (s.seq = some .bdcode3 → step s = runHdr s fun h => do
      let code ← takeU s 3
      let h ← bdcodeField code h
      pure (bitDepth s h)) ∧
    (s.seq = some .rsv1 → step s = runStage s fun w => do
      let rsv ← takeU s 1
      reservedBitField rsv
      pure w) ∧
    (s.seq = some .utf8Lead8 → step s = runHdr s fun h => do
      let number ← takeUtf8 s
      pure { h with number := number }) ∧
    (s.seq = some .utf8Cont8 →
      let q := s.work.cur
      let number := addContinuation s.work.hdr.number (bitRead s q 8)
      (¬ bitsAt s q 8 → ∃ t, step s = .next t ∧ frameFailed s t .outOfBounds s.fpos.toNat) ∧
      (bitsAt s q 8 → number = none → ∃ t, step s = .next t ∧ frameFailed s t .invalidEncoding s.fpos.toNat) ∧
      (bitsAt s q 8 → ∀ v, number = some v → step s =
        .next (workDone s { s.work with cur := q + 8, hdr := { s.work.hdr with number := v } } s.fpos.toNat))) ∧
    (s.seq = some .subframeHeader8 → step s = runStage s (subframe s)) ∧
    (s.seq = some .residualMethod2 → step s = runSubframe s fun f => do
      let method ← takeU s 2
      methodField method f) ∧
    (s.seq = some .param4 → s.work.sub.method = 0 → step s = runSubframe s (partition s s.work.hdr.bs)) ∧
    (s.seq = some .param5 → s.work.sub.method = 1 → step s = runSubframe s (partition s s.work.hdr.bs)) ∧
    (s.seq = some .ew5 → step s = runSubframe s (escapePartition s s.work.hdr.bs)) ∧
    (s.seq = some .precM14 → step s = runSubframe s fun f => do
      let precM1 ← takeU s 4
      precisionField precM1 f) ∧
    (s.seq = some .shift5 → step s = runSubframe s fun f => do
      let bits ← takeU s 5
      shiftField bits f)

/-- Every command word that is not one of the 15 of R112 raises ILLEGAL_COMMAND(POS) and changes nothing except STATUS,
ERR_POS and DONE; the hidden FPOS is POS (R47). That CMD holds the word is the model's reading of R35 against R113 (log 8),
and that FV and the frame results stay its reading of R113 with R384 (log 13). With a sticky error this is reached only by a
malformed CLEAR word (60_exceptions.md rule R386). -/
def Obligations.IllegalCommandWords : Prop :=
  ∀ (s : State) (v : Word64) (rest : List HostAction),
    s.seq = none → s.host = .writeReg 0 v :: rest →
    s.errCode = .noError ∨ opField (v.setWidth 16) = 0x1F →
    v.setWidth 16 ∉ commandWords →
    step s = .next
      { s with
        host := rest
        cmd := v.setWidth 16
        fpos := s.pos
        errCode := .illegalCommand
        errPos := s.pos
        done := true }

/-- While ERR_CODE ≠ 0 a word whose OP is not CLEAR's is ignored: STATUS, ERR_POS, POS and every other register keep
their values, except that CMD reads back as the word, which is the model's choice between R35 and R386 (log 8). -/
def Obligations.StickyErrorIgnoresCommands : Prop :=
  ∀ (s : State) (v : Word64) (rest : List HostAction),
    s.seq = none → s.host = .writeReg 0 v :: rest → s.errCode ≠ .noError → opField (v.setWidth 16) ≠ 0x1F →
    step s = .next { s with host := rest, cmd := v.setWidth 16 }

/-- The block is idle whenever no command runs, and no state changes while idle. -/
def Obligations.IdleChangesNothing : Prop :=
  ∀ s : State, s.seq = none → s.host = [] → step s = .next s

/-- Every instruction answers a next state, in every state: none of them stops the machine, and an error is an effect. A step
stops only on a host write to a register or a memory element that does not exist (20_memory.md rule R80; what such a
write does is the model's choice, log 10). -/
def Obligations.EveryInstructionCompletes : Prop :=
  (∀ (i : Instr) (s : State), ∃ t, exec i s = .next t) ∧
  (∀ s : State,
      (∃ t, step s = .next t) ∨
      (∃ k v rest, s.seq = none ∧ s.host = .writeReg k v :: rest ∧ 256 ≤ k ∧ step s = .fault .noSuchRegister) ∨
      (∃ w i v rest, s.seq = none ∧ s.host = .writeMem w i v :: rest ∧ windowSize s.params w ≤ i ∧
        step s = .fault .noSuchElement))

/-! ## Reset and the invariant -/

/-- After a reset every piece of state holds the value of R59; nothing is claimed of what R59 calls unspecified. That the
parameters and the host accesses still to come are kept is the model's reading (log 19). -/
def Obligations.ResetValues : Prop :=
  ∀ (s : State) (rest : List HostAction), s.seq = none → s.host = .reset :: rest →
    ∃ t, step s = .next t ∧ t.host = rest ∧ t.params = s.params ∧
      t.cmd = 0 ∧ t.arg = 0 ∧ t.done = false ∧ t.fv = false ∧ t.errCode = .noError ∧ statusWord t = 0x8 ∧
      t.errPos = 0 ∧ t.result = 0 ∧ t.pos = 0 ∧ t.len = 0 ∧
      t.streamRate = 0 ∧ t.streamCh = 0 ∧ t.streamBps = 0 ∧ t.streamTotal = 0 ∧
      t.rateWritten = false ∧ t.chWritten = false ∧ t.bpsWritten = false ∧
      t.spanLen = 0 ∧ t.fpos = 0 ∧ t.outptr = 0 ∧ t.frameCount = 0

/-- The invariant holds right after reset. -/
def Obligations.InvariantAtReset : Prop := Inv State.reset

/-- The invariant is kept by every step, from every state that has it: IN and OUT in canonical form, OUT listing exactly
the words below OUTPTR ≤ OUT_MAX, SPAN_LEN bytes of SPAN, no frame decode left half done, and the frame results in their
ranges while FV = 1. -/
def Obligations.StepKeepsInvariant : Prop :=
  ∀ s t : State, Inv s → step s = .next t → Inv t

/-! ## Registers, memories and the host -/

/-- STATUS, bit by bit (10_state.md rule R37), at a command boundary (BUSY reads 0, 70_reset_and_hazards.md rule R424), and the
numbers of the 27 error codes (60_exceptions.md rule R380), no two of which share one. -/
def Obligations.StatusBitsAndErrorNumbers : Prop :=
  (∀ s : State, s.seq = none →
      ((statusWord s).getLsbD 0 = s.done) ∧ ((statusWord s).getLsbD 1 = false) ∧ ((statusWord s).getLsbD 2 = s.fv) ∧
      ((statusWord s).getLsbD 3 = true ↔ s.pos.toNat = 8 * s.len.toNat) ∧
      ((statusWord s).getLsbD 4 = true ↔
        s.rateWritten = true ∧ s.chWritten = true ∧ s.bpsWritten = true ∧ 1 ≤ s.streamCh.toNat ∧ s.streamCh.toNat ≤ 8 ∧
          4 ≤ s.streamBps.toNat ∧ s.streamBps.toNat ≤ 32 ∧ s.len.toNat ≤ s.params.inMax) ∧
      (∀ k, 5 ≤ k → k < 8 → (statusWord s).getLsbD k = false) ∧
      ((statusWord s).extractLsb' 8 8 = errNumber s.errCode) ∧
      (∀ k, 16 ≤ k → (statusWord s).getLsbD k = false)) ∧
  ([ErrCode.noError, .outOfBounds, .invalidEncoding, .syncError, .reservedBlockSize, .invalidSampleRate,
      .reservedChannelAssignment, .reservedBitDepth, .reservedBit, .headerChecksum, .channelMismatch, .missingPadding,
      .reservedSubframeType, .invalidWastedBits, .reservedResidualMethod, .residualLength, .invalidEscapeWidth,
      .invalidPrecision, .invalidShift, .arithmeticOverflow, .invalidPadding, .frameChecksum, .sampleRange,
      .outputOverflow, .configError, .illegalCommand, .illegalArgument].map errNumber =
        (List.range 27).map (BitVec.ofNat 8) ∧
    ∀ a b : ErrCode, errNumber a = errNumber b → a = b)

/-- The register map (10_state.md rule R55): the address of register k is BASE_REG + 8·k, every register is read at its
number, zero-extended, the reserved numbers read 0, and the frame results are read while FV = 1. -/
def Obligations.RegisterMap : Prop :=
  (∀ (p : Params) (k : Nat), k < 256 → regAddress p k = p.baseReg + 8 * k ∧ regNumber p (p.baseReg + 8 * k) = some k) ∧
  ∀ s : State,
    hostReadReg s 0x00 = s.cmd.setWidth 64 ∧ hostReadReg s 0x01 = s.arg ∧
    hostReadReg s 0x02 = (statusWord s).setWidth 64 ∧ hostReadReg s 0x03 = s.errPos ∧ hostReadReg s 0x04 = s.result ∧
    hostReadReg s 0x05 = s.pos ∧ hostReadReg s 0x06 = s.len ∧ hostReadReg s 0x07 = s.streamRate.setWidth 64 ∧
    hostReadReg s 0x08 = s.streamCh.setWidth 64 ∧ hostReadReg s 0x09 = s.streamBps.setWidth 64 ∧
    hostReadReg s 0x0A = s.streamTotal ∧ hostReadReg s 0x0B = s.spanLen.setWidth 64 ∧
    hostReadReg s 0x0C = s.frameCount ∧ hostReadReg s 0x0D = s.outptr ∧
    (∀ k, k = 0x0E ∨ k = 0x0F ∨ (0x1D ≤ k ∧ k ≤ 0x1F) ∨ (0x68 ≤ k ∧ k ≤ 0xFF) → hostReadReg s k = 0) ∧
    (s.fv = true →
      hostReadReg s 0x10 = s.frame.hdr.strategy.setWidth 64 ∧ hostReadReg s 0x11 = s.frame.hdr.number ∧
      hostReadReg s 0x12 = s.frame.hdr.bscode.setWidth 64 ∧ hostReadReg s 0x13 = s.frame.hdr.blockSize.setWidth 64 ∧
      hostReadReg s 0x14 = s.frame.hdr.srcode.setWidth 64 ∧ hostReadReg s 0x15 = s.frame.hdr.rate.setWidth 64 ∧
      hostReadReg s 0x16 = s.frame.hdr.chAssign.setWidth 64 ∧ hostReadReg s 0x17 = s.frame.hdr.channels.setWidth 64 ∧
      hostReadReg s 0x18 = s.frame.hdr.bdcode.setWidth 64 ∧ hostReadReg s 0x19 = s.frame.hdr.bps.setWidth 64 ∧
      hostReadReg s 0x1A = s.frame.hdr.crc8.setWidth 64 ∧ hostReadReg s 0x1B = s.frame.hdr.crc16.setWidth 64 ∧
      hostReadReg s 0x1C = s.frame.hdr.frameStart ∧
      ∀ c ch, c < 8 → s.frame.channels[c]? = some ch →
        hostReadReg s (0x20 + c) = ch.sfType.setWidth 64 ∧ hostReadReg s (0x28 + c) = ch.sfKind.setWidth 64 ∧
        hostReadReg s (0x30 + c) = ch.sfOrder.setWidth 64 ∧ hostReadReg s (0x38 + c) = ch.sfWasted.setWidth 64 ∧
        hostReadReg s (0x40 + c) = ch.sfWidth.setWidth 64 ∧ hostReadReg s (0x48 + c) = ch.lpcPrec.setWidth 64 ∧
        hostReadReg s (0x50 + c) = ch.lpcShift.setWidth 64 ∧ hostReadReg s (0x58 + c) = ch.resMethod.setWidth 64 ∧
        hostReadReg s (0x60 + c) = ch.resPorder.setWidth 64)

/-- The windows: two-dimensional memories are row-major (R55), and every specified element is read at its index. That a
signed element is read sign-extended to the 64 bits of a host access is the model's choice (log 9). -/
def Obligations.WindowMap : Prop :=
  ∀ s : State,
    (∀ a v, readCell s.inMem a = some v → hostReadMem s .input a = v.setWidth 64) ∧
    (∀ i b, s.span[i]? = some b → hostReadMem s .span i = b.setWidth 64) ∧
    (∀ i v, readCell s.out i = some v → hostReadMem s .out i = v.signExtend 64) ∧
    (s.fv = true → ∀ c ch, s.frame.channels[c]? = some ch →
      (∀ j v, j < 32 → ch.coef[j]? = some v → hostReadMem s .coef (32 * c + j) = v.signExtend 64) ∧
      (∀ j v, j < 32768 → ch.rpart[j]? = some v → hostReadMem s .rpart (32768 * c + j) = v.setWidth 64) ∧
      (∀ n v, n < 65536 → ch.res[n]? = some v → hostReadMem s .res (65536 * c + n) = v) ∧
      (∀ n v, n < 65536 → ch.sub[n]? = some v → hostReadMem s .sub (65536 * c + n) = v) ∧
      (∀ n v, n < 65536 → ch.chan[n]? = some v → hostReadMem s .chan (65536 * c + n) = v))

/-- What a host write other than one of CMD does (10_state.md rules R41, R54; 20_memory.md rule R91): the six writable
registers take the value in their width and STREAM_RATE, STREAM_CH and STREAM_BPS set their flags, one byte of IN changes
and every other byte reads as before, and every other register and memory is left alone. That a value wider than the
register or the byte is cut to its width is the model's reading (log 9). -/
def Obligations.HostWrites : Prop :=
  ∀ (s : State) (rest : List HostAction), s.seq = none →
    (∀ k v, s.host = .writeReg k v :: rest → 0 < k → k < 256 →
      (k = 0x01 → step s = .next { s with host := rest, arg := v }) ∧
      (k = 0x06 → step s = .next { s with host := rest, len := v }) ∧
      (k = 0x07 → step s = .next { s with host := rest, streamRate := v.setWidth 32, rateWritten := true }) ∧
      (k = 0x08 → step s = .next { s with host := rest, streamCh := v.setWidth 8, chWritten := true }) ∧
      (k = 0x09 → step s = .next { s with host := rest, streamBps := v.setWidth 8, bpsWritten := true }) ∧
      (k = 0x0A → step s = .next { s with host := rest, streamTotal := v }) ∧
      (k ∉ [0x01, 0x06, 0x07, 0x08, 0x09, 0x0A] → step s = .next { s with host := rest })) ∧
    (∀ w i v, s.host = .writeMem w i v :: rest → i < windowSize s.params w →
      (w ≠ .input → step s = .next { s with host := rest }) ∧
      (w = .input → ∃ m, step s = .next { s with host := rest, inMem := m } ∧
        byteAt { s with inMem := m } i = v.setWidth 8 ∧
        ∀ a, a ≠ i → byteAt { s with inMem := m } a = byteAt s a))

/-- The block never writes IN, ARG, LEN or STREAM_*, nor CMD, a CFG_WRITTEN flag or a parameter: every byte of IN reads
after any instruction as it did before. -/
def Obligations.BlockNeverWritesItsInputs : Prop :=
  ∀ (i : Instr) (s t : State), exec i s = .next t →
    (∀ a, byteAt t a = byteAt s a) ∧ t.inMem = s.inMem ∧ t.arg = s.arg ∧ t.len = s.len ∧
    t.streamRate = s.streamRate ∧ t.streamCh = s.streamCh ∧ t.streamBps = s.streamBps ∧
    t.streamTotal = s.streamTotal ∧ t.rateWritten = s.rateWritten ∧ t.chWritten = s.chWritten ∧
    t.bpsWritten = s.bpsWritten ∧ t.cmd = s.cmd ∧ t.host = s.host ∧ t.params = s.params

/-- Only SEEK, a successful cursor read and a frame commit write POS; only READ_RAW and READ_BYTES write SPAN and SPAN_LEN;
only a frame commit and OUT_RESET write OUT, OUTPTR and FRAME_COUNT (10_state.md rules R31, R42, R52, R53). -/
def Obligations.WhoWritesWhat : Prop :=
  ∀ (i : Instr) (s t : State), exec i s = .next t →
    (t.pos ≠ s.pos →
      i = .seek ∨ i = .decodeFrame ∧ t.fv = true ∨ i = .decodeStream ∨
      i ∈ [.readU, .readULe, .readS, .readSLe, .readBit, .readUnary, .readUtf8, .readRaw, .readBytes] ∧
        t.errCode = s.errCode) ∧
    (t.span ≠ s.span ∨ t.spanLen ≠ s.spanLen → (i = .readRaw ∨ i = .readBytes) ∧ t.errCode = s.errCode) ∧
    (t.out ≠ s.out ∨ t.outptr ≠ s.outptr ∨ t.frameCount ≠ s.frameCount →
      i = .outReset ∨ i = .decodeFrame ∧ t.fv = true ∨ i = .decodeStream) ∧
    (t.errCode ≠ s.errCode → t.errCode = .noError → i = .clear)

/-! ## Errors -/

/-- Error entry, for every instruction but DECODE_STREAM (whose earlier frames stay committed): an instruction that raises
leaves everything but STATUS, ERR_POS and hidden state as it was; ERR_POS is FPOS, the start of the last primitive read
begun; DECODE_FRAME clears FV whatever error it raises (R384 step 4), which for a failing start check is the model's reading
of R331 (log 11); the cursor commands leave FV and the frame results alone. -/
def Obligations.ErrorEntry : Prop :=
  ∀ (i : Instr) (s t : State), i ≠ .decodeStream → exec i s = .next t → t.errCode ≠ .noError → t.errCode ≠ s.errCode →
    sameButError s t ∧ t.done = true ∧ t.errPos = t.fpos ∧
    (i = .decodeFrame → t.fv = false) ∧
    (i ∈ [.readU, .readULe, .readS, .readSLe, .readBit, .readUnary, .readUtf8, .readRaw, .readBytes] →
      t.fv = s.fv ∧ t.frame = s.frame)

/-- Which command raises which error (60_exceptions.md rule R382), ILLEGAL_COMMAND being a matter of the word. -/
def Obligations.WhichCommandRaisesWhat : Prop :=
  ∀ (i : Instr) (s t : State), s.errCode = .noError → exec i s = .next t →
    (i ∈ [.nop, .seek, .outReset, .clear] → t.errCode = .noError) ∧
    (i ∈ [.readU, .readULe, .readS, .readSLe, .readRaw, .readBytes] →
      t.errCode ∈ [.noError, .illegalArgument, .configError, .outOfBounds]) ∧
    (i ∈ [.readBit, .readUnary] → t.errCode ∈ [.noError, .configError, .outOfBounds]) ∧
    (i = .readUtf8 → t.errCode ∈ [.noError, .configError, .outOfBounds, .invalidEncoding]) ∧
    (i ∈ [.decodeFrame, .decodeStream] → t.errCode ≠ .illegalCommand ∧ t.errCode ≠ .illegalArgument)

/-! ## The bit cursor -/

/-- Stream bit addressing: Bit(p) is bit 7 - (p mod 8) of IN[p >> 3], and BitRead(p, w) is the sum of Bit(p+j)·2^(w-1-j).
The little-endian value of k bytes is the sum of their values times 2^(8·i), the first byte least significant. -/
def Obligations.BitReadIsTheSumOfItsBits : Prop :=
  ∀ (s : State) (p w : Nat),
    bitAt s p = (byteAt s (p / 8)).getLsbD (7 - p % 8) ∧
    bitRead s p w = ∑ j ∈ Finset.range w, (bitAt s (p + j)).toNat * 2 ^ (w - 1 - j) ∧
    bitReadLe s p w = ∑ i ∈ Finset.range w, bitRead s (p + 8 * i) 8 * 2 ^ (8 * i) ∧
    memRead s p w = (List.range w).map fun j => byteAt s (p + j)

/-- A READ_U of w bits followed by one of v bits sees the same bits as one READ_U of w + v bits split at bit w, and a read
of 8k bits at a byte boundary sees the bytes, the first one most significant (20_memory.md rule R85). -/
def Obligations.MixedWidthReads : Prop :=
  (∀ (s t₁ t₂ t₃ : State) (w v : Nat), w + v ≤ 64 → s.params.wf → lenOk s → s.pos.toNat + (w + v) ≤ endPos s →
    exec .readU { s with arg := BitVec.ofNat 64 w } = .next t₁ →
    exec .readU { t₁ with arg := BitVec.ofNat 64 v } = .next t₂ →
    exec .readU { s with arg := BitVec.ofNat 64 (w + v) } = .next t₃ →
    t₃.result.toNat = t₁.result.toNat * 2 ^ v + t₂.result.toNat ∧ t₃.pos = t₂.pos) ∧
  ∀ (s : State) (a k : Nat),
    bitRead s (8 * a) (8 * k) = ∑ i ∈ Finset.range k, (byteAt s (a + i)).toNat * 256 ^ (k - 1 - i)

/-- READ_U and READ_U.LE (40_cursor.md rules R160, R161): the entry checks in order, the bounds check, and on success the
unsigned value in RESULT and POS moved by w; nothing else but DONE and the hidden FPOS changes. The internal form U is the
same on the cursor. -/
def Obligations.ReadUnsigned : Prop :=
  ∀ s : State, let w := s.arg.toNat
    (64 < w → exec .readU s = .next (erredAt s .illegalArgument)) ∧
    (w ≤ 64 → ¬ lenOk s → exec .readU s = .next (erredAt s .configError)) ∧
    (w ≤ 64 → lenOk s → ¬ bitsAt s s.pos.toNat w → exec .readU s = .next (erredAt s .outOfBounds)) ∧
    (w ≤ 64 → lenOk s → bitsAt s s.pos.toNat w →
      exec .readU s = .next (readDone s w (BitVec.ofNat 64 (bitRead s s.pos.toNat w))) ∧
      bitRead s s.pos.toNat w < 2 ^ w) ∧
    (64 < w ∨ w % 8 ≠ 0 → exec .readULe s = .next (erredAt s .illegalArgument)) ∧
    (w ≤ 64 → w % 8 = 0 → ¬ lenOk s → exec .readULe s = .next (erredAt s .configError)) ∧
    (w ≤ 64 → w % 8 = 0 → lenOk s → ¬ bitsAt s s.pos.toNat w → exec .readULe s = .next (erredAt s .outOfBounds)) ∧
    (w ≤ 64 → w % 8 = 0 → lenOk s → bitsAt s s.pos.toNat w →
      exec .readULe s = .next (readDone s w (BitVec.ofNat 64
        (∑ i ∈ Finset.range (w / 8), bitRead s (s.pos.toNat + 8 * i) 8 * 2 ^ (8 * i))))) ∧
    ∀ (v : Nat) (c : Cur),
      (bitsAt s c.cur v → takeU s v c = .ok (bitRead s c.cur v, ⟨c.cur + v, c.cur⟩)) ∧
      (¬ bitsAt s c.cur v → takeU s v c = .error ⟨.outOfBounds, c.cur⟩)

/-- READ_S and READ_S.LE (R163): the value READ_U would compute, sign-extended from its bit w-1 to 64 bits; the checks are
those of READ_U. The internal form S is the signed integer. -/
def Obligations.ReadSigned : Prop :=
  ∀ s : State, let w := s.arg.toNat
    (64 < w → exec .readS s = .next (erredAt s .illegalArgument)) ∧
    (w ≤ 64 → ¬ lenOk s → exec .readS s = .next (erredAt s .configError)) ∧
    (w ≤ 64 → lenOk s → ¬ bitsAt s s.pos.toNat w → exec .readS s = .next (erredAt s .outOfBounds)) ∧
    (w ≤ 64 → lenOk s → bitsAt s s.pos.toNat w →
      exec .readS s = .next (readDone s w ((BitVec.ofNat w (bitRead s s.pos.toNat w)).signExtend 64))) ∧
    (64 < w ∨ w % 8 ≠ 0 → exec .readSLe s = .next (erredAt s .illegalArgument)) ∧
    (w ≤ 64 → w % 8 = 0 → ¬ lenOk s → exec .readSLe s = .next (erredAt s .configError)) ∧
    (w ≤ 64 → w % 8 = 0 → lenOk s → ¬ bitsAt s s.pos.toNat w → exec .readSLe s = .next (erredAt s .outOfBounds)) ∧
    (w ≤ 64 → w % 8 = 0 → lenOk s → bitsAt s s.pos.toNat w →
      exec .readSLe s = .next (readDone s w ((BitVec.ofNat w
        (∑ i ∈ Finset.range (w / 8), bitRead s (s.pos.toNat + 8 * i) 8 * 2 ^ (8 * i))).signExtend 64))) ∧
    ∀ (v : Nat) (c : Cur),
      (bitsAt s c.cur v → takeS s v c = .ok ((BitVec.ofNat v (bitRead s c.cur v)).toInt, ⟨c.cur + v, c.cur⟩)) ∧
      (¬ bitsAt s c.cur v → takeS s v c = .error ⟨.outOfBounds, c.cur⟩)

/-- READ_BIT (R164). READ_UNARY (R166, R167): the count of zeros before the first one bit, which is consumed; OUT_OF_BOUNDS,
with POS unchanged, exactly when only zeros are left. The internal form Unary is the same on the cursor. -/
def Obligations.ReadBitAndReadUnary : Prop :=
  (∀ s : State,
      (¬ lenOk s → exec .readBit s = .next (erredAt s .configError)) ∧
      (lenOk s → ¬ bitsAt s s.pos.toNat 1 → exec .readBit s = .next (erredAt s .outOfBounds)) ∧
      (lenOk s → bitsAt s s.pos.toNat 1 →
        exec .readBit s = .next (readDone s 1 (if bitAt s s.pos.toNat then 1 else 0)))) ∧
  (∀ s : State,
      (¬ lenOk s → exec .readUnary s = .next (erredAt s .configError)) ∧
      (lenOk s → (∀ p, s.pos.toNat ≤ p → p < endPos s → bitAt s p = false) →
        exec .readUnary s = .next (erredAt s .outOfBounds)) ∧
      (lenOk s → ∀ n, unaryAt s s.pos.toNat n →
        exec .readUnary s = .next (readDone s (n + 1) (BitVec.ofNat 64 n))) ∧
      ∀ c : Cur,
        ((∀ p, c.cur ≤ p → p < endPos s → bitAt s p = false) → takeUnary s c = .error ⟨.outOfBounds, c.cur⟩) ∧
        ∀ n, unaryAt s c.cur n → takeUnary s c = .ok (n, ⟨c.cur + n + 1, c.cur⟩))

/-- READ_UTF8 (R168; 30_encoding.md rule R124): the lead byte announces 1 to 4 bytes, the whole length is bounds-checked
first, every continuation byte must be 10xxxxxx, and the lead payload is most significant. The internal form UTF8 is the
same on the cursor. -/
def Obligations.ReadUtf8Number : Prop :=
  ∀ s : State, let p := s.pos.toNat
    let lead := bitRead s p 8
    let byte := fun i => bitRead s (p + 8 * i) 8
    let cont := fun n => ∀ i, 1 ≤ i → i < n → byte i / 64 = 0b10
    let length := if lead < 0x80 then 1 else if lead < 0xE0 then 2 else if lead < 0xF0 then 3 else 4
    let legal := lead < 0x80 ∨ 0xC0 ≤ lead ∧ lead < 0xF8
    (¬ lenOk s → exec .readUtf8 s = .next (erredAt s .configError)) ∧
    (lenOk s → ¬ bitsAt s p 8 → exec .readUtf8 s = .next (erredAt s .outOfBounds)) ∧
    (lenOk s → bitsAt s p 8 → ¬ legal → exec .readUtf8 s = .next (erredAt s .invalidEncoding)) ∧
    (lenOk s → bitsAt s p 8 → legal → ¬ bitsAt s p (8 * length) →
      exec .readUtf8 s = .next (erredAt s .outOfBounds)) ∧
    (lenOk s → legal → bitsAt s p (8 * length) → ¬ cont length →
      exec .readUtf8 s = .next (erredAt s .invalidEncoding)) ∧
    (lenOk s → bitsAt s p 8 → lead < 0x80 → exec .readUtf8 s = .next (readDone s 8 (BitVec.ofNat 64 lead))) ∧
    (lenOk s → bitsAt s p 16 → 0xC0 ≤ lead → lead < 0xE0 → cont 2 →
      exec .readUtf8 s = .next (readDone s 16 (BitVec.ofNat 64 (lead % 32 * 64 + byte 1 % 64)))) ∧
    (lenOk s → bitsAt s p 24 → 0xE0 ≤ lead → lead < 0xF0 → cont 3 →
      exec .readUtf8 s = .next (readDone s 24
        (BitVec.ofNat 64 ((lead % 16 * 64 + byte 1 % 64) * 64 + byte 2 % 64)))) ∧
    (lenOk s → bitsAt s p 32 → 0xF0 ≤ lead → lead < 0xF8 → cont 4 →
      exec .readUtf8 s = .next (readDone s 32
        (BitVec.ofNat 64 (((lead % 8 * 64 + byte 1 % 64) * 64 + byte 2 % 64) * 64 + byte 3 % 64)))) ∧
    (lenOk s → ∀ fp,
      (∀ v c, takeUtf8 s ⟨p, fp⟩ = .ok (v, c) →
        c.fpos = p ∧ p ≤ c.cur ∧ exec .readUtf8 s = .next (readDone s (c.cur - p) (BitVec.ofNat 64 v))) ∧
      (∀ e, takeUtf8 s ⟨p, fp⟩ = .error e → e.pos = p ∧ exec .readUtf8 s = .next (erredAt s e.code)))

/-- READ_RAW and READ_BYTES (R169, R170): k = ceil(w/8) bytes, right-aligned and big-endian, SPAN_LEN and RESULT k. (The
`draws` counter that `spanDone` moves is the model's own: the SPAN bytes beyond k become unspecified.) -/
def Obligations.ReadSpans : Prop :=
  ∀ s : State, let p := s.pos.toNat
    let span := fun w k => (List.range k).map fun i => BitVec.ofNat 8 (bitRead s p w / 2 ^ (8 * (k - 1 - i)))
    let w := s.arg.toNat
    let n := s.arg.toNat
    (8 * s.params.spanMax < w → exec .readRaw s = .next (erredAt s .illegalArgument)) ∧
    (w ≤ 8 * s.params.spanMax → ¬ lenOk s → exec .readRaw s = .next (erredAt s .configError)) ∧
    (w ≤ 8 * s.params.spanMax → lenOk s → ¬ bitsAt s p w → exec .readRaw s = .next (erredAt s .outOfBounds)) ∧
    (w ≤ 8 * s.params.spanMax → lenOk s → bitsAt s p w →
      exec .readRaw s = .next (spanDone s w (span w ((w + 7) / 8)))) ∧
    (s.params.spanMax < n → exec .readBytes s = .next (erredAt s .illegalArgument)) ∧
    (n ≤ s.params.spanMax → ¬ lenOk s → exec .readBytes s = .next (erredAt s .configError)) ∧
    (n ≤ s.params.spanMax → lenOk s → ¬ bitsAt s p (8 * n) → exec .readBytes s = .next (erredAt s .outOfBounds)) ∧
    (n ≤ s.params.spanMax → lenOk s → bitsAt s p (8 * n) →
      exec .readBytes s = .next (spanDone s (8 * n) (span (8 * n) n)))

/-- SEEK (R171), NOP (R346), CLEAR (R347) and OUT_RESET (R348): SEEK checks nothing, CLEAR changes ERR_CODE alone, and
OUT_RESET changes OUTPTR and FRAME_COUNT (its effect on OUT is that every word is unspecified); all set DONE. -/
def Obligations.HousekeepingCommands : Prop :=
  ∀ s : State,
    exec .seek s = .next { s with pos := s.arg, done := true } ∧
    exec .nop s = .next { s with done := true } ∧
    exec .clear s = .next { s with errCode := .noError, done := true } ∧
    ∃ out draws, exec .outReset s =
      .next { s with outptr := 0, frameCount := 0, done := true, out := out, draws := draws }

/-- The bounds law: a read that needs bits past position 8·LEN - 1 raises OUT_OF_BOUNDS and leaves POS and every other
register as it was, whichever command it is; after the failure, once the host has issued CLEAR, a read that fits from
the same position succeeds. The internal primitives obey the same law at their cursor. -/
def Obligations.BoundsLaw : Prop :=
  (∀ (i : Instr) (s t : State),
    i ∈ [.readU, .readULe, .readS, .readSLe, .readBit, .readUnary, .readUtf8, .readRaw, .readBytes] →
    s.errCode = .noError → exec i s = .next t → t.errCode = .outOfBounds →
    t = erredAt s .outOfBounds ∧
    ∃ u, exec .clear t = .next u ∧ ∀ w, w ≤ 64 → bitsAt s s.pos.toNat w →
      ∃ v, exec .readU { u with arg := BitVec.ofNat 64 w } = .next v ∧ v.errCode = .noError ∧
        v.result = BitVec.ofNat 64 (bitRead s s.pos.toNat w)) ∧
  (∀ (s : State) (c : Cur) (w : Nat),
    (takeU s w c = .error ⟨.outOfBounds, c.cur⟩ ↔ ¬ bitsAt s c.cur w) ∧
    (takeS s w c = .error ⟨.outOfBounds, c.cur⟩ ↔ ¬ bitsAt s c.cur w) ∧
    (takeUnary s c = .error ⟨.outOfBounds, c.cur⟩ ↔ ∀ n, ¬ unaryAt s c.cur n))

/-- READ_BIT gives the same POS and RESULT as READ_U with w = 1, and READ_BYTES n the same POS, SPAN and SPAN_LEN as
READ_RAW with w = 8·n. -/
def Obligations.AliasCommands : Prop :=
  (∀ s t u : State, exec .readBit s = .next t → exec .readU { s with arg := 1 } = .next u →
    t.pos = u.pos ∧ t.result = u.result ∧ t.errCode = u.errCode) ∧
  ∀ (s t u : State) (n : Nat), 8 * n < 2 ^ 64 →
    exec .readBytes { s with arg := BitVec.ofNat 64 n } = .next t →
    exec .readRaw { s with arg := BitVec.ofNat 64 (8 * n) } = .next u →
    t.pos = u.pos ∧ t.span = u.span ∧ t.spanLen = u.spanLen ∧ t.errCode = u.errCode

/-! ## The codes of the frame header -/

/-- FRAME_SYNC, FRAME_SYNC_VARIABLE (R202, R203, 30_encoding.md rule R119) and HEADER_RESERVED_BIT (R208): the strategy is 0
or 1, and a reserved bit of 0 has no effect; and the sample width of every BDCODE (R212; 30_encoding.md rule R123). -/
def Obligations.SyncAndBitDepthCodes : Prop :=
  (∀ s : State,
      exec .frameSync s = .next (workDone s { s.work with hdr := { s.work.hdr with strategy := 0 } } s.fpos.toNat) ∧
      exec .frameSyncVariable s =
        .next (workDone s { s.work with hdr := { s.work.hdr with strategy := 1 } } s.fpos.toNat) ∧
      exec .headerReservedBit s = .next (workDone s s.work s.fpos.toNat)) ∧
  (∀ s : State,
      let deep := fun (code bps : Nat) =>
        workDone s { s.work with hdr := { s.work.hdr with bdcode := code, bps := bps } } s.fpos.toNat
      exec .bitdepthInherit s = .next (deep 0 s.streamBps.toNat) ∧ exec .bitdepth8 s = .next (deep 1 8) ∧
      exec .bitdepth12 s = .next (deep 2 12) ∧ exec .bitdepth16 s = .next (deep 4 16) ∧
      exec .bitdepth20 s = .next (deep 5 20) ∧ exec .bitdepth24 s = .next (deep 6 24) ∧
      exec .bitdepth32 s = .next (deep 7 32))

/-- The block size of every BSCODE (R210; 30_encoding.md rule R120). For codes 6 and 7 BS_ESC is read where the cursor
stands, which in a frame is after NUMBER. -/
def Obligations.BlockSizeCodes : Prop :=
  ∀ s : State,
    let sized := fun (code bs : Nat) =>
      workDone s { s.work with hdr := { s.work.hdr with bscode := code, bs := bs } } s.fpos.toNat
    let escaped := fun (code w : Nat) =>
      workDone s
        { s.work with
          cur := s.work.cur + w
          hdr := { s.work.hdr with bscode := code, bs := bitRead s s.work.cur w + 1 } }
        s.work.cur
    exec .blocksize192 s = .next (sized 1 192) ∧ exec .blocksize576 s = .next (sized 2 576) ∧
    exec .blocksize1152 s = .next (sized 3 1152) ∧ exec .blocksize2304 s = .next (sized 4 2304) ∧
    exec .blocksize4608 s = .next (sized 5 4608) ∧
    (∀ low : BitVec 3, exec (.blocksize256Shift low) s = .next (sized (8 + low.toNat) (256 * 2 ^ low.toNat))) ∧
    (bitsAt s s.work.cur 8 → exec .blocksizeEsc8 s = .next (escaped 6 8)) ∧
    (bitsAt s s.work.cur 16 → exec .blocksizeEsc16 s = .next (escaped 7 16)) ∧
    (¬ bitsAt s s.work.cur 8 → ∃ t, exec .blocksizeEsc8 s = .next t ∧ frameFailed s t .outOfBounds s.work.cur) ∧
    (¬ bitsAt s s.work.cur 16 → ∃ t, exec .blocksizeEsc16 s = .next t ∧ frameFailed s t .outOfBounds s.work.cur)

/-- The sample rate of every SRCODE (R211; 30_encoding.md rule R121). -/
def Obligations.SampleRateCodes : Prop :=
  ∀ s : State,
    let rated := fun (code rate : Nat) =>
      workDone s { s.work with hdr := { s.work.hdr with srcode := code, rate := rate } } s.fpos.toNat
    let escaped := fun (code w unit : Nat) =>
      workDone s
        { s.work with
          cur := s.work.cur + w
          hdr := { s.work.hdr with srcode := code, rate := bitRead s s.work.cur w * unit } }
        s.work.cur
    exec .samplerateInherit s = .next (rated 0 s.streamRate.toNat) ∧
    exec .samplerate88200 s = .next (rated 1 88200) ∧ exec .samplerate176400 s = .next (rated 2 176400) ∧
    exec .samplerate192000 s = .next (rated 3 192000) ∧ exec .samplerate8000 s = .next (rated 4 8000) ∧
    exec .samplerate16000 s = .next (rated 5 16000) ∧ exec .samplerate22050 s = .next (rated 6 22050) ∧
    exec .samplerate24000 s = .next (rated 7 24000) ∧ exec .samplerate32000 s = .next (rated 8 32000) ∧
    exec .samplerate44100 s = .next (rated 9 44100) ∧ exec .samplerate48000 s = .next (rated 10 48000) ∧
    exec .samplerate96000 s = .next (rated 11 96000) ∧
    (bitsAt s s.work.cur 8 → exec .samplerateEscKhz8 s = .next (escaped 12 8 1000)) ∧
    (bitsAt s s.work.cur 16 → exec .samplerateEscHz16 s = .next (escaped 13 16 1)) ∧
    (bitsAt s s.work.cur 16 → exec .samplerateEscTenHz16 s = .next (escaped 14 16 10)) ∧
    (¬ bitsAt s s.work.cur 8 → ∃ t, exec .samplerateEscKhz8 s = .next t ∧ frameFailed s t .outOfBounds s.work.cur) ∧
    (¬ bitsAt s s.work.cur 16 →
      (∃ t, exec .samplerateEscHz16 s = .next t ∧ frameFailed s t .outOfBounds s.work.cur) ∧
      ∃ t, exec .samplerateEscTenHz16 s = .next t ∧ frameFailed s t .outOfBounds s.work.cur)

/-- The channel assignments (R213, 45_assembly.md rules R336 to R339): the channel count, the side channel, and the output
channels of the subframes decoded so far, for pairs of subframes of equal length whose differences and sums stay in DR;
and mid-side decoding inverts the encoder's mid = (L+R) >> 1, side = L - R. That a code decorrelates the subframes decoded
so far is the model's choice (log 5). -/
def Obligations.ChannelAssignments : Prop :=
  (∀ s : State,
      let done := fun (code channels : Nat) (side : Option Nat) (ch : List (List Int)) =>
        workDone s
          { s.work with hdr := { s.work.hdr with chcode := code, channels := channels, side := side }, chan := ch }
          s.fpos.toNat
      let dr := inDr s.params.datapathBits
      (∀ code : BitVec 3, exec (.channelsIndependent code) s =
        .next (done code.toNat (code.toNat + 1) none (s.work.subs.map Subframe.samples))) ∧
      ∀ a b : List Int, s.work.subs.map Subframe.samples = [a, b] → a.length = b.length →
        (∀ r : List Int, r.length = a.length → (∀ n < a.length, r.getD n 0 = a.getD n 0 - b.getD n 0) →
          (∀ v ∈ r, dr v) → exec .channelsLeftSide s = .next (done 8 2 (some 1) [a, r])) ∧
        (∀ l : List Int, l.length = a.length → (∀ n < a.length, l.getD n 0 = b.getD n 0 + a.getD n 0) →
          (∀ v ∈ l, dr v) → exec .channelsRightSide s = .next (done 9 2 (some 0) [l, b])) ∧
        (∀ l r : List Int, l.length = a.length → r.length = a.length →
          (∀ n < a.length,
            let m := 2 * a.getD n 0 + b.getD n 0 % 2
            dr m ∧ dr (m + b.getD n 0) ∧ l.getD n 0 = (m + b.getD n 0) / 2 ∧ r.getD n 0 = l.getD n 0 - b.getD n 0 ∧
              dr (r.getD n 0)) →
          exec .channelsMidSide s = .next (done 10 2 (some 1) [l, r]))) ∧
  (∀ l r : Int, midLeft ((l + r) / 2) (l - r) = l ∧ midRight ((l + r) / 2) (l - r) = r)

/-- Where decorrelation overflows: a difference or a sum outside DR raises ARITHMETIC_OVERFLOW at the last field read. -/
def Obligations.DecorrelationOverflows : Prop :=
  ∀ (s : State) (a b : List Int) (n : Nat), s.work.subs.map Subframe.samples = [a, b] → a.length = b.length →
    n < a.length →
    let dr := inDr s.params.datapathBits
    let m := 2 * a.getD n 0 + b.getD n 0 % 2
    (¬ dr (a.getD n 0 - b.getD n 0) →
      ∃ t, exec .channelsLeftSide s = .next t ∧ frameFailed s t .arithmeticOverflow s.fpos.toNat) ∧
    (¬ dr (b.getD n 0 + a.getD n 0) →
      ∃ t, exec .channelsRightSide s = .next t ∧ frameFailed s t .arithmeticOverflow s.fpos.toNat) ∧
    (¬ dr m ∨ ¬ dr (m + b.getD n 0) ∨ ¬ dr ((m + b.getD n 0) / 2 - b.getD n 0) →
      ∃ t, exec .channelsMidSide s = .next t ∧ frameFailed s t .arithmeticOverflow s.fpos.toNat)

/-- NUMBER by its lead byte, whose position FPOS is, and by one continuation byte (40_cursor.md rule R168; R209). -/
def Obligations.NumberCodes : Prop :=
  ∀ s : State, let p := s.fpos.toNat
    let byte := fun i => bitRead s (p + 8 * i) 8
    let cont := fun n => ∀ i, 1 ≤ i → i < n → byte i / 64 = 0b10
    let numbered := fun (n v : Nat) =>
      workDone s { s.work with cur := p + 8 * n, hdr := { s.work.hdr with number := v } } p
    (∀ v : BitVec 7, bitsAt s p 8 → exec (.utf8OneByte v) s = .next (numbered 1 v.toNat)) ∧
    (∀ v : BitVec 5, bitsAt s p 16 → cont 2 →
      exec (.utf8TwoByte v) s = .next (numbered 2 (v.toNat * 64 + byte 1 % 64))) ∧
    (∀ v : BitVec 4, bitsAt s p 24 → cont 3 →
      exec (.utf8ThreeByte v) s = .next (numbered 3 ((v.toNat * 64 + byte 1 % 64) * 64 + byte 2 % 64))) ∧
    (∀ v : BitVec 3, bitsAt s p 32 → cont 4 →
      exec (.utf8FourByte v) s =
        .next (numbered 4 (((v.toNat * 64 + byte 1 % 64) * 64 + byte 2 % 64) * 64 + byte 3 % 64))) ∧
    (∀ v : BitVec 6, exec (.utf8Continuation v) s =
      .next (workDone s { s.work with hdr := { s.work.hdr with number := s.work.hdr.number * 64 + v.toNat } } p)) ∧
    ∀ (i : Instr) (n : Nat),
      (∃ v, i = .utf8OneByte v) ∧ n = 1 ∨ (∃ v, i = .utf8TwoByte v) ∧ n = 2 ∨ (∃ v, i = .utf8ThreeByte v) ∧ n = 3 ∨
        (∃ v, i = .utf8FourByte v) ∧ n = 4 →
      (¬ bitsAt s p (8 * n) → ∃ t, exec i s = .next t ∧ frameFailed s t .outOfBounds p) ∧
      (bitsAt s p (8 * n) → ¬ cont n → ∃ t, exec i s = .next t ∧ frameFailed s t .invalidEncoding p)

/-- The reserved and invalid codes of 30_encoding.md rule R136 that are rows of the opcode table raise their errors, at the
start of the field that FPOS is. The values that are no row of the table raise theirs when the field is read: a sync
mismatch, a reserved bit of 1 and a continuation byte that is not 10xxxxxx. -/
def Obligations.ReservedCodesRaise : Prop :=
  (∀ s : State,
      let raises := fun (i : Instr) (e : ErrCode) => ∃ t, exec i s = .next t ∧ frameFailed s t e s.fpos.toNat
      raises .blocksizeReserved .reservedBlockSize ∧ raises .samplerateInvalid .invalidSampleRate ∧
      raises .channelsReserved11 .reservedChannelAssignment ∧
      (∀ x, raises (.channelsReserved1215 x) .reservedChannelAssignment) ∧
      raises .bitdepthReserved .reservedBitDepth ∧
      (∀ x, raises (.utf8ContinuationAsLead x) .invalidEncoding) ∧ (∀ x, raises (.utf8LongLead x) .invalidEncoding) ∧
      (∀ x, raises (.subframePadSet x) .missingPadding) ∧
      (∀ x, raises (.residualReserved x) .reservedResidualMethod) ∧
      raises .lpcPrecisionInvalid .invalidPrecision ∧ (∀ x, raises (.lpcShiftNegative x) .invalidShift) ∧
      (∀ ew : BitVec 5, s.params.escapeWidthSigned = true → 16 ≤ ew.toNat →
        raises (.escapeWidth ew) .invalidEscapeWidth)) ∧
  (∀ s : State,
      (s.seq = some .sync16 → bitsAt s s.work.cur 15 → bitRead s s.work.cur 15 ≠ 0x7FFC →
        ∃ t, step s = .next t ∧ frameFailed s t .syncError s.work.cur) ∧
      (s.seq = some .rsv1 → bitsAt s s.work.cur 1 → bitAt s s.work.cur = true →
        ∃ t, step s = .next t ∧ frameFailed s t .reservedBit s.work.cur) ∧
      (s.seq = some .utf8Cont8 → bitsAt s s.work.cur 8 → bitRead s s.work.cur 8 / 64 ≠ 0b10 →
        ∃ t, step s = .next t ∧ frameFailed s t .invalidEncoding s.fpos.toNat))

/-! ## The codes of a subframe -/

/-- A reserved TYPE fails only after the header's last field: RESERVED_SUBFRAME_TYPE at the start of WASTED if it is present
and of WFLAG otherwise (R245). The other subframe headers: a width below 1 raises INVALID_WASTED_BITS there (R243, R247).
A WASTED field that runs off the input raises OUT_OF_BOUNDS instead. -/
def Obligations.SubframeHeaderChecks : Prop :=
  (∀ (s : State) (wflag : Bool),
      let reserved : List Instr :=
        [.subframeReserved0203 0 wflag, .subframeReserved0203 1 wflag, .subframeReserved0D wflag,
          .subframeReserved0E0F 0 wflag, .subframeReserved0E0F 1 wflag]
      ∀ i, i ∈ reserved ∨ (∃ x, i = .subframeReserved0407 x wflag) ∨ (∃ x, i = .subframeReserved101F x wflag) →
        ((∃ wasted e, wastedAt s wflag wasted e) →
          ∃ t, exec i s = .next t ∧ frameFailed s t .reservedSubframeType (lastHeaderField s wflag)) ∧
        (wflag = true → (∀ n, ¬ unaryAt s s.work.cur n) →
          ∃ t, exec i s = .next t ∧ frameFailed s t .outOfBounds s.work.cur)) ∧
  (∀ (s : State) (wflag : Bool) (i : Instr),
      i ∈ [.subframeConstant wflag, .subframeVerbatim wflag, .subframeFixed0 wflag, .subframeFixed1 wflag,
        .subframeFixed2 wflag, .subframeFixed3 wflag, .subframeFixed4 wflag] ∨ (∃ x, i = .subframeLpc x wflag) →
      (wflag = true → (∀ n, ¬ unaryAt s s.work.cur n) →
        ∃ t, exec i s = .next t ∧ frameFailed s t .outOfBounds s.work.cur) ∧
      ∀ wasted e, wastedAt s wflag wasted e → subframeWidth s wasted < 1 →
        ∃ t, exec i s = .next t ∧ frameFailed s t .invalidWastedBits (lastHeaderField s wflag))

/-- CONSTANT (R292): one signed field of the effective width, repeated. VERBATIM (R293): as many signed fields of that width as
the block size, in order. Both are then shifted by the wasted count (R249). The first field that does not fit raises
OUT_OF_BOUNDS at its place, and a shifted sample outside DR raises ARITHMETIC_OVERFLOW at the last field. -/
def Obligations.ConstantAndVerbatimSubframes : Prop :=
  (∀ (s : State) (wflag : Bool) (wasted e : Nat), wastedAt s wflag wasted e → 1 ≤ subframeWidth s wasted →
      let w := (subframeWidth s wasted).toNat
      (¬ bitsAt s e w → ∃ t, exec (.subframeConstant wflag) s = .next t ∧ frameFailed s t .outOfBounds e) ∧
      ∀ v : Int, v = sext w (bitRead s e w) * 2 ^ wasted → bitsAt s e w →
        (inDr s.params.datapathBits v →
          exec (.subframeConstant wflag) s = .next (workDone s
            { s.work with
              cur := e + w
              subs := s.work.subs ++
                [{ Subframe.idle with
                  type := 0, wasted := wasted, kind := .constant, order := 0, width := w
                  samples := List.replicate s.work.hdr.bs v }] }
            e)) ∧
        (1 ≤ s.work.hdr.bs → ¬ inDr s.params.datapathBits v →
          ∃ t, exec (.subframeConstant wflag) s = .next t ∧ frameFailed s t .arithmeticOverflow e)) ∧
  (∀ (s : State) (wflag : Bool) (wasted e : Nat), wastedAt s wflag wasted e → 1 ≤ subframeWidth s wasted →
      let w := (subframeWidth s wasted).toNat
      let bs := s.work.hdr.bs
      (∀ j < bs, firstMissing s e w j →
        ∃ t, exec (.subframeVerbatim wflag) s = .next t ∧ frameFailed s t .outOfBounds (e + j * w)) ∧
      (1 ≤ bs → bitsAt s e (bs * w) →
        ((∀ v ∈ signedFields s e w bs, inDr s.params.datapathBits (v * 2 ^ wasted)) →
          exec (.subframeVerbatim wflag) s = .next (workDone s
            { s.work with
              cur := e + bs * w
              subs := s.work.subs ++
                [{ Subframe.idle with
                  type := 1, wasted := wasted, kind := .verbatim, order := 0, width := w
                  samples := (signedFields s e w bs).map (· * 2 ^ wasted) }] }
            (e + (bs - 1) * w))) ∧
        ((∃ v ∈ signedFields s e w bs, ¬ inDr s.params.datapathBits (v * 2 ^ wasted)) →
          ∃ t, exec (.subframeVerbatim wflag) s = .next t ∧ frameFailed s t .arithmeticOverflow (e + (bs - 1) * w))))

/-- FIXED, every order (R294): the warm-ups, the residual field, the samples that the recurrence gives, the wasted shift
(R249). The first warm-up that does not fit raises OUT_OF_BOUNDS at its place; a residual field that raises raises the same
for the subframe; and where the recurrence leaves DR, or a shifted sample does, ARITHMETIC_OVERFLOW is raised at the last
residual read (R290). What the residual field is, `residual`, is stated by `ResidualField` and by the partitions' statements,
and that `reconstructs` fails for every x exactly when a value leaves DR by `ReconstructionIsTheRecurrence`. -/
def Obligations.FixedSubframes : Prop :=
  ∀ (s : State) (k : Nat) (wflag : Bool) (i : Instr) (a : List Int),
    (k, i, a) ∈ ([(0, .subframeFixed0 wflag, []), (1, .subframeFixed1 wflag, [1]), (2, .subframeFixed2 wflag, [2, -1]),
      (3, .subframeFixed3 wflag, [3, -3, 1]), (4, .subframeFixed4 wflag, [4, -6, 4, -1])] :
        List (Nat × Instr × List Int)) →
    ∀ wasted e, wastedAt s wflag wasted e → 1 ≤ subframeWidth s wasted →
    let w := (subframeWidth s wasted).toNat
    let warm := signedFields s e w k
    let f := { Subframe.idle with type := 8 + k, wasted := wasted, kind := .fixed, order := k, width := w }
    let raises := fun (code : ErrCode) (pos : Nat) => ∃ t, exec i s = .next t ∧ frameFailed s t code pos
    (∀ j < k, firstMissing s e w j → raises .outOfBounds (e + j * w)) ∧
    (∀ fp r, k = 0 ∨ bitsAt s e (k * w) → residual s s.work.hdr.bs f ⟨e + k * w, fp⟩ = .error r →
      raises r.code r.pos) ∧
    ∀ fp g c, residual s s.work.hdr.bs f ⟨e + k * w, fp⟩ = .ok (g, c) →
      ((∀ x, ¬ reconstructs s.params.datapathBits a 0 warm g.res x) → raises .arithmeticOverflow c.fpos) ∧
      ∀ x, reconstructs s.params.datapathBits a 0 warm g.res x →
        ((∀ v ∈ x, inDr s.params.datapathBits (v * 2 ^ wasted)) →
          exec i s = .next (workDone s
            { s.work with cur := c.cur, subs := s.work.subs ++ [{ g with samples := x.map (· * 2 ^ wasted) }] }
            c.fpos)) ∧
        ((∃ v ∈ x, ¬ inDr s.params.datapathBits (v * 2 ^ wasted)) → raises .arithmeticOverflow c.fpos)

/-- The reconstruction is the recurrence of R304 with its range checks (R290), term by term: it answers exactly the samples
that the recurrence gives, and none exactly when some product, partial sum or sample leaves DR. The recurrences of the
fixed predictors, written out: a sequence that `reconstructs` names satisfies R295 to R299. -/
def Obligations.ReconstructionIsTheRecurrence : Prop :=
  (∀ (d : Nat) (a : List Int) (shift : Nat) (warm res : List Int), a.length = warm.length →
      (∀ x, (reconstruct d a shift warm.reverse res).map (warm ++ ·) = some x ↔ reconstructs d a shift warm res x) ∧
      (reconstruct d a shift warm.reverse res = none ↔ ∀ x, ¬ reconstructs d a shift warm res x)) ∧
  (∀ (d : Nat) (warm res x : List Int),
      let s := fun n => x.getD n 0
      let r := fun n => res.getD n 0
      (reconstructs d [] 0 warm res x → warm = [] → ∀ n < x.length, s n = r n) ∧
      (reconstructs d [1] 0 warm res x → warm.length = 1 → ∀ n < x.length, 1 ≤ n → s n = s (n - 1) + r (n - 1)) ∧
      (reconstructs d [2, -1] 0 warm res x → warm.length = 2 → ∀ n < x.length, 2 ≤ n →
        s n = 2 * s (n - 1) - s (n - 2) + r (n - 2)) ∧
      (reconstructs d [3, -3, 1] 0 warm res x → warm.length = 3 → ∀ n < x.length, 3 ≤ n →
        s n = 3 * s (n - 1) - 3 * s (n - 2) + s (n - 3) + r (n - 3)) ∧
      (reconstructs d [4, -6, 4, -1] 0 warm res x → warm.length = 4 → ∀ n < x.length, 4 ≤ n →
        s n = 4 * s (n - 1) - 6 * s (n - 2) + 4 * s (n - 3) - s (n - 4) + r (n - 4)))

/-- LPC, every order (R300 to R304): warm-ups, precision, shift and coefficients in this order, then the residual, the
samples of the recurrence with a floor shift, and the wasted shift (R249). The first of these fields that does not fit raises
OUT_OF_BOUNDS at its place, precision code 15 and a negative shift their errors, a residual field that raises the same for
the subframe; and where the recurrence leaves DR, or a shifted sample does, ARITHMETIC_OVERFLOW is raised at the last
residual read (R290). -/
def Obligations.LpcSubframe : Prop :=
  ∀ (s : State) (orderM1 : BitVec 5) (wflag : Bool) (wasted e : Nat),
    wastedAt s wflag wasted e → 1 ≤ subframeWidth s wasted →
    let w := (subframeWidth s wasted).toNat
    let k := orderM1.toNat + 1
    let p := e + k * w
    let prec := bitRead s p 4 + 1
    let shift := bitRead s (p + 4) 5
    let coef := signedFields s (p + 9) prec k
    let f := { Subframe.idle with
      type := 32 + orderM1.toNat, wasted := wasted, kind := .lpc, order := k, width := w
      prec := prec, shift := shift, coef := coef }
    let run := exec (.subframeLpc orderM1 wflag) s
    let raises := fun (code : ErrCode) (pos : Nat) => ∃ t, run = .next t ∧ frameFailed s t code pos
    (∀ j < k, firstMissing s e w j → raises .outOfBounds (e + j * w)) ∧
    (bitsAt s e (k * w) → ¬ bitsAt s p 4 → raises .outOfBounds p) ∧
    (bitsAt s e (k * w + 4) → prec = 16 → raises .invalidPrecision p) ∧
    (bitsAt s e (k * w + 4) → prec ≤ 15 → ¬ bitsAt s (p + 4) 5 → raises .outOfBounds (p + 4)) ∧
    (bitsAt s e (k * w + 9) → prec ≤ 15 → 16 ≤ shift → raises .invalidShift (p + 4)) ∧
    (bitsAt s e (k * w + 9) → prec ≤ 15 → shift ≤ 15 → ∀ j < k, firstMissing s (p + 9) prec j →
      raises .outOfBounds (p + 9 + j * prec)) ∧
    (∀ fp r, bitsAt s e (k * w + 9 + k * prec) → prec ≤ 15 → shift ≤ 15 →
      residual s s.work.hdr.bs f ⟨p + 9 + k * prec, fp⟩ = .error r → raises r.code r.pos) ∧
    ∀ fp g c, prec ≤ 15 → shift ≤ 15 → residual s s.work.hdr.bs f ⟨p + 9 + k * prec, fp⟩ = .ok (g, c) →
      let warm := signedFields s e w k
      ((∀ x, ¬ reconstructs s.params.datapathBits coef shift warm g.res x) → raises .arithmeticOverflow c.fpos) ∧
      ∀ x, reconstructs s.params.datapathBits coef shift warm g.res x →
        ((∀ v ∈ x, inDr s.params.datapathBits (v * 2 ^ wasted)) →
          run = .next (workDone s
            { s.work with cur := c.cur, subs := s.work.subs ++ [{ g with samples := x.map (· * 2 ^ wasted) }] }
            c.fpos)) ∧
        ((∃ v ∈ x, ¬ inDr s.params.datapathBits (v * 2 ^ wasted)) → raises .arithmeticOverflow c.fpos)

/-! ## The residual -/

/-- RESIDUAL_RICE4, RESIDUAL_RICE5 (R261), LPC_PRECISION (R301) and LPC_SHIFT (R302) on the working record. -/
def Obligations.RecordFields : Prop :=
  ∀ s : State,
    let done := fun f => workDone s { s.work with sub := f } s.fpos.toNat
    exec .residualRice4 s = .next (done { s.work.sub with method := 0 }) ∧
    exec .residualRice5 s = .next (done { s.work.sub with method := 1 }) ∧
    (∀ v : BitVec 4, v ≠ 15 → exec (.lpcPrecision v) s = .next (done { s.work.sub with prec := v.toNat + 1 })) ∧
    (∀ v : BitVec 4, exec (.lpcShift v) s = .next (done { s.work.sub with shift := v.toNat }))

/-- Rice partitions (R266 to R268, R272): where the codewords of `us` stand, a partition of as many codewords as R263 says
appends its parameter and the unfolded values, in order, the cursor moves past them, and FPOS is the start of the last
codeword's remainder (an empty partition reads nothing). After the codewords that stand, a quotient that runs off the input
raises OUT_OF_BOUNDS at its start, a remainder that does not fit OUT_OF_BOUNDS at its own, and a codeword of 2^64 or more
ARITHMETIC_OVERFLOW at the start of its remainder (R267). -/
def Obligations.RicePartitions : Prop :=
  ∀ (s : State) (i : Instr) (k : Nat),
    (∃ v : BitVec 4, v ≠ 15 ∧ i = .partitionRice4 v ∧ k = v.toNat) ∨
      (∃ v : BitVec 5, v ≠ 31 ∧ i = .partitionRice5 v ∧ k = v.toNat) →
    (∀ us e, us.length = nextCount s → riceAt s k s.work.cur us e → (∀ u ∈ us, u < 2 ^ 64) →
      exec i s = .next (workDone s
        { s.work with
          cur := e
          sub := { s.work.sub with
            rpart := s.work.sub.rpart ++ [k]
            res := s.work.sub.res ++ us.map zigzag } }
        (if us = [] then s.fpos.toNat else e - k))) ∧
    (∀ us e, us.length < nextCount s → riceAt s k s.work.cur us e → (∀ u ∈ us, u < 2 ^ 64) →
      ((∀ q, ¬ unaryAt s e q) → ∃ t, exec i s = .next t ∧ frameFailed s t .outOfBounds e) ∧
      (∀ q, unaryAt s e q → ¬ bitsAt s (e + q + 1) k →
        ∃ t, exec i s = .next t ∧ frameFailed s t .outOfBounds (e + q + 1)) ∧
      ∀ u e', riceAt s k e [u] e' → 2 ^ 64 ≤ u →
        ∃ t, exec i s = .next t ∧ frameFailed s t .arithmeticOverflow (e' - k))

/-- Escaped partitions (R269 to R272): EW follows the escape value; width 0 means zeros and no further bits, a positive width
as many signed fields as R263 says, the first that does not fit raising OUT_OF_BOUNDS at its place, and a negative one
raises INVALID_ESCAPE_WIDTH at EW. FPOS is the start of the last field read, EW when there is none. ESCAPE_WIDTH: the same,
the width having been read, FPOS being EW's start. -/
def Obligations.EscapedPartitions : Prop :=
  (∀ (s : State) (i : Instr), i = .partitionEscape4 ∨ i = .partitionEscape5 →
      let bits := bitRead s s.work.cur 5
      let ew := escapeWidthOf s bits
      let n := nextCount s
      let p := s.work.cur + 5
      let done := fun (cur entry : Nat) (vs : List Int) =>
        { s.work with
          cur := cur
          sub := { s.work.sub with rpart := s.work.sub.rpart ++ [entry], res := s.work.sub.res ++ vs } }
      (¬ bitsAt s s.work.cur 5 → ∃ t, exec i s = .next t ∧ frameFailed s t .outOfBounds s.work.cur) ∧
      (bitsAt s s.work.cur 5 → ew < 0 →
        ∃ t, exec i s = .next t ∧ frameFailed s t .invalidEscapeWidth s.work.cur) ∧
      (bitsAt s s.work.cur 5 → ew = 0 →
        exec i s = .next (workDone s (done p 32 (List.replicate n 0)) s.work.cur)) ∧
      (0 < ew → bitsAt s s.work.cur 5 → ∀ j < n, firstMissing s p ew.toNat j →
        ∃ t, exec i s = .next t ∧ frameFailed s t .outOfBounds (p + j * ew.toNat)) ∧
      (0 < ew → bitsAt s p (n * ew.toNat) → bitsAt s s.work.cur 5 →
        exec i s = .next (workDone s (done (p + n * ew.toNat) (32 + ew.toNat) (signedFields s p ew.toNat n))
          (if n = 0 then s.work.cur else p + (n - 1) * ew.toNat)))) ∧
  (∀ (s : State) (bits : BitVec 5),
      let ew := escapeWidthOf s bits.toNat
      let n := nextCount s
      let done := fun (cur entry : Nat) (vs : List Int) =>
        { s.work with
          cur := cur
          sub := { s.work.sub with rpart := s.work.sub.rpart ++ [entry], res := s.work.sub.res ++ vs } }
      (ew = 0 → exec (.escapeWidth bits) s =
        .next (workDone s (done s.work.cur 32 (List.replicate n 0)) s.fpos.toNat)) ∧
      (0 < ew → ∀ j < n, firstMissing s s.work.cur ew.toNat j →
        ∃ t, exec (.escapeWidth bits) s = .next t ∧ frameFailed s t .outOfBounds (s.work.cur + j * ew.toNat)) ∧
      (0 < ew → bitsAt s s.work.cur (n * ew.toNat) →
        exec (.escapeWidth bits) s = .next (workDone s
          (done (s.work.cur + n * ew.toNat) (32 + ew.toNat) (signedFields s s.work.cur ew.toNat n))
          (if n = 0 then s.fpos.toNat else s.work.cur + (n - 1) * ew.toNat))))

/-- Zig-zag unfolding is a bijection from [0, 2^64) onto [-2^63, 2^63 - 1], and folding is its inverse. -/
def Obligations.ZigZagIsABijection : Prop :=
  (∀ u < 2 ^ 64, zigzag u = (if u % 2 = 0 then ((u / 2 : Nat) : Int) else -((u / 2 : Nat) : Int) - 1) ∧
    zigzagFold (zigzag u) = u ∧ -(2 ^ 63) ≤ zigzag u ∧ zigzag u ≤ 2 ^ 63 - 1) ∧
  (∀ v : Int, -(2 ^ 63) ≤ v → v ≤ 2 ^ 63 - 1 →
    zigzagFold v = (if 0 ≤ v then (2 * v).toNat else (-2 * v - 1).toNat) ∧ zigzag (zigzagFold v) = v ∧
      zigzagFold v < 2 ^ 64)

/-- The RESIDUAL field (R260 to R265, R272): METHOD and PORDER are checked at their places, the partition counts must sum
to B - k before any partition is read, and a residual that is decoded has 2^p partitions and B - k values. -/
def Obligations.ResidualField : Prop :=
  ∀ (s : State) (bs : Nat) (f : Subframe) (p fp : Nat),
    let method := bitRead s p 2
    let porder := bitRead s (p + 2) 4
    let count := fun i => bs / 2 ^ porder - if i = 0 then f.order else 0
    let total := ∑ i ∈ Finset.range (2 ^ porder), count i
    (bitsAt s p 2 → 2 ≤ method → residual s bs f ⟨p, fp⟩ = .error ⟨.reservedResidualMethod, p⟩) ∧
    (bitsAt s p 6 → method < 2 → (total : Int) ≠ (bs : Int) - f.order →
      residual s bs f ⟨p, fp⟩ = .error ⟨.residualLength, p + 2⟩) ∧
    (bitsAt s p 6 → method < 2 → (total : Int) = (bs : Int) - f.order →
      residual s bs f ⟨p, fp⟩ =
        partitions s bs (2 ^ porder) { f with method := method, porder := porder, rpart := [], res := [] }
          ⟨p + 6, p + 2⟩) ∧
    ∀ g c, residual s bs f ⟨p, fp⟩ = .ok (g, c) →
      f.order ≤ bs ∧ g.res.length = bs - f.order ∧ g.rpart.length = 2 ^ porder ∧ g.method = method ∧
        g.porder = porder ∧ p + 6 ≤ c.cur ∧ c.cur ≤ endPos s

/-! ## Checksums -/

/-- CRC-8 and CRC-16 have the check values of R139 and R140, and a message followed by its checksum leaves a zero register,
so the checks of R214 and R335 accept exactly one checksum for each message. -/
def Obligations.Checksums : Prop :=
  crc8Of [0x31, 0x32, 0x33, 0x34, 0x35, 0x36, 0x37, 0x38, 0x39] = 0xF4 ∧
  crc16Of [0x31, 0x32, 0x33, 0x34, 0x35, 0x36, 0x37, 0x38, 0x39] = 0xFEE8 ∧
  ∀ (m : List Byte),
    (∀ c : Byte, crc8Of (m ++ [c]) = 0 ↔ c = crc8Of m) ∧
    (∀ h l : Byte, crc16Of (m ++ [h, l]) = 0 ↔ h ++ l = crc16Of m)

/-- The checks at the end of the header: CRC8 against the bytes from the first sync byte to the byte before it (R214; not
compared when VERIFY_CRC is false), then the channel count against STREAM_CH (R215). -/
def Obligations.HeaderEndChecks : Prop :=
  ∀ (s : State) (h : Hdr) (p fp : Nat),
    let good := (crc8Of (memRead s (h.start / 8) (p / 8 - h.start / 8))).toNat = bitRead s p 8
    (¬ bitsAt s p 8 → headerCrc s h ⟨p, fp⟩ = .error ⟨.outOfBounds, p⟩) ∧
    (bitsAt s p 8 → s.params.verifyCrc = true → ¬ good → headerCrc s h ⟨p, fp⟩ = .error ⟨.headerChecksum, p⟩) ∧
    (bitsAt s p 8 → s.params.verifyCrc = false ∨ good →
      headerCrc s h ⟨p, fp⟩ = .ok ({ h with crc8 := bitRead s p 8 }, ⟨p + 8, p⟩)) ∧
    (h.channels ≠ s.streamCh.toNat → channelCheck s h ⟨p, fp⟩ = .error ⟨.channelMismatch, fp⟩) ∧
    (h.channels = s.streamCh.toNat → channelCheck s h ⟨p, fp⟩ = .ok ((), ⟨p, fp⟩))

/-- The checks at the end of a frame, in their order (R334, R335, R340, R341; 60_exceptions.md rule R383): padding,
checksum, decorrelation, sample range, capacity. -/
def Obligations.FrameEndChecks : Prop :=
  ∀ (s : State) (w : Work) (p fp : Nat),
    let z := (8 - p % 8) % 8
    let q := p + z
    let run := frameEnd s w ⟨p, fp⟩
    let good := (crc16Of (memRead s (w.hdr.start / 8) (q / 8 - w.hdr.start / 8))).toNat = bitRead s q 16
    let passed := s.params.verifyCrc = false ∨ good
    let output := decorrelate s.params.datapathBits w.hdr.chcode (w.subs.map Subframe.samples)
    let fits := fun (ch : List (List Int)) => ∀ l ∈ ch, ∀ v ∈ l, inDr w.hdr.bps v
    let room := s.outptr.toNat + w.hdr.bs * w.hdr.channels ≤ s.params.outMax
    (¬ bitsAt s p z → run = .error ⟨.outOfBounds, p⟩) ∧
    (bitsAt s p z → bitRead s p z ≠ 0 → run = .error ⟨.invalidPadding, p⟩) ∧
    (bitsAt s p z → bitRead s p z = 0 →
      (¬ bitsAt s q 16 → run = .error ⟨.outOfBounds, q⟩) ∧
      (bitsAt s q 16 → ¬ passed → run = .error ⟨.frameChecksum, q⟩) ∧
      (bitsAt s q 16 → passed →
        (output = none → run = .error ⟨.arithmeticOverflow, q⟩) ∧
        ∀ ch, output = some ch →
          (¬ fits ch → run = .error ⟨.sampleRange, q⟩) ∧
          (fits ch → ¬ room → run = .error ⟨.outputOverflow, q⟩) ∧
          (fits ch → room → run =
            .ok ({ w with hdr := { w.hdr with crc16 := bitRead s q 16 }, chan := ch }, ⟨q + 16, q⟩))))

/-! ## DECODE_FRAME and DECODE_STREAM -/

/-- The first 32 bits of a frame's header: the first field that fails determines the error, a field's bounds check comes
before its value check, and ERR_POS is the field's first bit (R201 to R208; 60_exceptions.md rule R383). The input ends on
a byte boundary and so does every eighth bit of a frame, so only a field that begins a byte can run off the input. -/
def Obligations.HeaderErrorsInOrder : Prop :=
  ∀ s : State, decodeReady s →
    let p := s.pos.toNat
    let raises := fun (e : ErrCode) (at_ : Nat) => ∃ t, exec .decodeFrame s = .next t ∧ frameFailed s t e at_
    let sync := p % 8 = 0 ∧ bitRead s p 15 = 0x7FFC
    let bs := sync ∧ bitRead s (p + 16) 4 ≠ 0
    let sr := bs ∧ bitRead s (p + 20) 4 ≠ 15
    let ch := sr ∧ bitRead s (p + 24) 4 < 11
    let bd := ch ∧ bitRead s (p + 28) 3 ≠ 3
    (p % 8 ≠ 0 → raises .syncError p) ∧
    (p % 8 = 0 → ¬ bitsAt s p 16 → raises .outOfBounds p) ∧
    (p % 8 = 0 → bitsAt s p 16 → ¬ sync → raises .syncError p) ∧
    (sync → bitsAt s p 16 → ¬ bitsAt s p 24 → raises .outOfBounds (p + 16)) ∧
    (sync → bitsAt s p 24 → ¬ bs → raises .reservedBlockSize (p + 16)) ∧
    (bs → bitsAt s p 24 → ¬ sr → raises .invalidSampleRate (p + 20)) ∧
    (sr → bitsAt s p 24 → ¬ bitsAt s p 32 → raises .outOfBounds (p + 24)) ∧
    (sr → bitsAt s p 32 → ¬ ch → raises .reservedChannelAssignment (p + 24)) ∧
    (ch → bitsAt s p 32 → ¬ bd → raises .reservedBitDepth (p + 28)) ∧
    (bd → bitsAt s p 32 → bitAt s (p + 31) = true → raises .reservedBit (p + 31))

/-- A DECODE_FRAME or DECODE_STREAM whose start checks fail raises CONFIG_ERROR at POS (R331), with FV cleared, as R384 says
of the decode commands (log 11). A DECODE_FRAME whose frame's decode raises: ERR_CODE and ERR_POS are written, FV is
cleared, and POS, OUT, OUTPTR, FRAME_COUNT, RESULT and everything else that the host can read of the rest are unchanged
(R343). Nothing is said here of a DECODE_STREAM that fails at a frame: the frames before that one have moved POS and OUT
(R345; `DecodeStreamKeepsEarlierFrames`). -/
def Obligations.DecodeFrameFails : Prop :=
  (∀ (s : State) (i : Instr), i = .decodeFrame ∨ i = .decodeStream → ¬ decodeReady s →
      ∃ t, exec i s = .next t ∧ frameFailed s t .configError s.pos.toNat) ∧
  (∀ (s : State) (e : Raise), decodeReady s → frameBody s (startCur s) = .error e →
      ∃ t, exec .decodeFrame s = .next t ∧ frameFailed s t e.code e.pos)

/-- A frame that decodes commits, in one step (R342; 20_memory.md rule R98; R217, R250, R272, R304): word
OUTPTR + n·C + c of OUT is exactly sample n of channel c, no other OUT word changes, the counters, POS, FV and RESULT
are written, the frame results are those of the decode, and every other register and every byte of IN is unchanged. -/
def Obligations.DecodeFrameCommits : Prop :=
  ∀ (s : State) (w : Work) (c : Cur), s.params.wf → decodeReady s → frameBody s (startCur s) = .ok (w, c) →
    let h := w.hdr
    let words := h.bs * h.channels
    ∃ t, exec .decodeFrame s = .next t ∧
      t.pos.toNat = c.cur ∧ t.fv = true ∧ t.done = true ∧ t.result = BitVec.ofNat 64 words ∧
      t.outptr.toNat = s.outptr.toNat + words ∧ t.frameCount = s.frameCount + 1 ∧
      w.chan.length = h.channels ∧ w.subs.length = h.channels ∧
      (∀ n < h.bs, ∀ k < h.channels, ∃ v, readCell t.out (s.outptr.toNat + n * h.channels + k) = some v ∧
        v.toInt = (w.chan.getD k []).getD n 0) ∧
      (∀ a, a < s.outptr.toNat ∨ s.outptr.toNat + words ≤ a → readCell t.out a = readCell s.out a) ∧
      t.frame.hdr.strategy.toNat = h.strategy ∧ t.frame.hdr.number.toNat = h.number ∧
      t.frame.hdr.bscode.toNat = h.bscode ∧ t.frame.hdr.blockSize.toNat = h.bs ∧
      t.frame.hdr.srcode.toNat = h.srcode ∧ t.frame.hdr.rate.toNat = h.rate ∧
      t.frame.hdr.chAssign.toNat = h.chcode ∧ t.frame.hdr.channels.toNat = h.channels ∧
      t.frame.hdr.bdcode.toNat = h.bdcode ∧ t.frame.hdr.bps.toNat = h.bps ∧ t.frame.hdr.crc8.toNat = h.crc8 ∧
      t.frame.hdr.crc16.toNat = h.crc16 ∧ t.frame.hdr.frameStart = s.pos ∧
      t.frame.channels.length = h.channels ∧
      (∀ k f ch, w.subs[k]? = some f → t.frame.channels[k]? = some ch →
        ch.sfType.toNat = f.type ∧ ch.sfKind = kindNumber f.kind ∧ ch.sfOrder.toNat = f.order ∧
        ch.sfWasted.toNat = f.wasted ∧ ch.sfWidth.toNat = f.width ∧
        ch.sub.map BitVec.toInt = f.samples ∧ ch.chan.map BitVec.toInt = w.chan.getD k [] ∧
        (f.kind = .lpc → ch.lpcPrec.toNat = f.prec ∧ ch.lpcShift.toNat = f.shift ∧
          ch.coef.map BitVec.toInt = f.coef) ∧
        (f.kind = .fixed ∨ f.kind = .lpc → ch.resMethod.toNat = f.method ∧ ch.resPorder.toNat = f.porder ∧
          ch.rpart.map BitVec.toNat = f.rpart ∧ ch.res.map BitVec.toInt = f.res)) ∧
      (∀ a, byteAt t a = byteAt s a) ∧ t.errCode = s.errCode ∧ t.errPos = s.errPos ∧ t.span = s.span ∧
      t.spanLen = s.spanLen ∧ t.arg = s.arg ∧ t.cmd = s.cmd ∧ t.len = s.len ∧ t.streamRate = s.streamRate ∧
      t.streamCh = s.streamCh ∧ t.streamBps = s.streamBps ∧ t.streamTotal = s.streamTotal ∧
      t.rateWritten = s.rateWritten ∧ t.chWritten = s.chWritten ∧ t.bpsWritten = s.bpsWritten

/-- What every committed frame satisfies: it begins and ends on byte boundaries inside the input and moves POS forward
(20_memory.md rule R87; 10_state.md rule R32), its registers lie in the ranges of 10_state.md rules R43, R45 and R46,
its strategy, code, number, block-size and rate registers are what the bits of its header say (R203 to R213), its channel
count is STREAM_CH (R215), every output sample fits its bit depth (R340), OUTPTR stays within OUT_MAX (R341), and with
VERIFY_CRC its CRC8 and CRC16 are the checksums of its bytes (R214, R335). -/
def Obligations.CommittedFrames : Prop :=
  ∀ s t : State, s.params.wf → exec .decodeFrame s = .next t → t.fv = true →
    let h := t.frame.hdr
    let p := s.pos.toNat
    headerCodesPass s p ∧ h.strategy.toNat = bitRead s (p + 15) 1 ∧ h.bscode.toNat = bitRead s (p + 16) 4 ∧
    h.srcode.toNat = bitRead s (p + 20) 4 ∧ h.chAssign.toNat = bitRead s (p + 24) 4 ∧
    h.bdcode.toNat = bitRead s (p + 28) 3 ∧ h.number.toNat = numberOf s (p + 32) ∧
    h.blockSize.toNat = blockSizeOf s p ∧ h.rate.toNat = sampleRateOf s p ∧
    h.channels.toNat = channelCount (bitRead s (p + 24) 4) ∧ h.crc8.toNat = bitRead s (crc8At s p) 8 ∧
    (s.params.verifyCrc = true → crc8Of (memRead s (p / 8) (crc8At s p / 8 - p / 8)) = h.crc8) ∧
    s.pos.toNat % 8 = 0 ∧ t.pos.toNat % 8 = 0 ∧ s.pos.toNat + 64 ≤ t.pos.toNat ∧ t.pos.toNat ≤ endPos s ∧
    h.frameStart = s.pos ∧ h.number.toNat < 2 ^ 21 ∧ 1 ≤ h.blockSize.toNat ∧ h.blockSize.toNat ≤ 65536 ∧
    h.chAssign.toNat ≤ 10 ∧ h.channels.toNat = s.streamCh.toNat ∧ 1 ≤ h.channels.toNat ∧ h.channels.toNat ≤ 8 ∧
    (h.bdcode = 0 → h.bps.toNat = s.streamBps.toNat) ∧
    (h.bdcode ≠ 0 → h.bps.toNat ∈ [8, 12, 16, 20, 24, 32]) ∧
    t.frame.channels.length = h.channels.toNat ∧
    (∀ k ch, t.frame.channels[k]? = some ch →
      ch.sfOrder.toNat ≤ 32 ∧ ch.sfWasted.toNat ≤ 32 ∧ 1 ≤ ch.sfWidth.toNat ∧
      ch.sfWidth.toNat + ch.sfWasted.toNat = h.bps.toNat +
        (if (h.chAssign.toNat = 8 ∨ h.chAssign.toNat = 10) ∧ k = 1 ∨ h.chAssign.toNat = 9 ∧ k = 0 then 1 else 0) ∧
      ch.sub.length = h.blockSize.toNat ∧ ch.chan.length = h.blockSize.toNat ∧
      (∀ v ∈ ch.chan, inDr h.bps.toNat v.toInt) ∧
      (ch.sfKind = 3 → 1 ≤ ch.sfOrder.toNat ∧ 1 ≤ ch.lpcPrec.toNat ∧ ch.coef.length = ch.sfOrder.toNat) ∧
      (ch.sfKind = 2 → ch.sfOrder.toNat ≤ 4) ∧ (ch.sfKind = 0 ∨ ch.sfKind = 1 → ch.sfOrder = 0) ∧
      (ch.sfKind = 2 ∨ ch.sfKind = 3 → ch.res.length + ch.sfOrder.toNat = h.blockSize.toNat ∧
        ch.rpart.length = 2 ^ ch.resPorder.toNat)) ∧
    t.outptr.toNat ≤ s.params.outMax ∧ t.outptr.toNat = s.outptr.toNat + h.blockSize.toNat * h.channels.toNat ∧
    (s.params.verifyCrc = true →
      crc16Of (memRead s (s.pos.toNat / 8) ((t.pos.toNat - s.pos.toNat) / 8 - 2)) = h.crc16)

/-- A frame depends only on IN, LEN, POS, the stream parameters and the implementation's parameters: from two states that
agree on those, two decodes that both commit give the same values and move POS to the same place, whatever else differs;
and an error other than OUTPUT_OVERFLOW (which depends on OUTPTR) is the same error at the same position. -/
def Obligations.FramesAreIndependent : Prop :=
  ∀ s₁ s₂ t₁ t₂ : State, sameFrameInput s₁ s₂ → decodeReady s₁ → decodeReady s₂ →
    exec .decodeFrame s₁ = .next t₁ → exec .decodeFrame s₂ = .next t₂ →
    (t₁.fv = true → t₂.fv = true →
      t₁.pos = t₂.pos ∧ t₁.result = t₂.result ∧ t₁.frame.hdr = t₂.frame.hdr ∧
      t₁.frame.channels.length = t₂.frame.channels.length ∧
      (∀ (k : Nat) (ch₁ ch₂ : ChannelRegs), t₁.frame.channels[k]? = some ch₁ → t₂.frame.channels[k]? = some ch₂ →
        ch₁.sfType = ch₂.sfType ∧ ch₁.sfKind = ch₂.sfKind ∧ ch₁.sfOrder = ch₂.sfOrder ∧
        ch₁.sfWasted = ch₂.sfWasted ∧ ch₁.sfWidth = ch₂.sfWidth ∧ ch₁.coef = ch₂.coef ∧ ch₁.rpart = ch₂.rpart ∧
        ch₁.res = ch₂.res ∧ ch₁.sub = ch₂.sub ∧ ch₁.chan = ch₂.chan ∧
        (ch₁.sfKind = 3 → ch₁.lpcPrec = ch₂.lpcPrec ∧ ch₁.lpcShift = ch₂.lpcShift) ∧
        (ch₁.sfKind = 2 ∨ ch₁.sfKind = 3 → ch₁.resMethod = ch₂.resMethod ∧ ch₁.resPorder = ch₂.resPorder)) ∧
      ∀ n < t₁.result.toNat, readCell t₁.out (s₁.outptr.toNat + n) = readCell t₂.out (s₂.outptr.toNat + n)) ∧
    (t₁.fv = false → t₁.errCode ≠ .outputOverflow → t₂.fv = false ∧ t₂.errCode = t₁.errCode ∧ t₂.errPos = t₁.errPos)

/-- DECODE_STREAM completes (R344): at the end of the input it commits nothing and answers RESULT = 0; when the n frames that
stand from POS on decode one after the other and the last ends at 8·LEN, it answers the state with those n frames
committed and RESULT = n, which for one frame is its commit. And it is the sequence of DECODE_FRAMEs: when n runs of
DECODE_FRAME commit and bring POS to 8·LEN, the command leaves the state they leave, with RESULT = n. -/
def Obligations.DecodeStreamWalksToTheEnd : Prop :=
  (∀ s : State, decodeReady s → s.pos.toNat = endPos s →
    exec .decodeStream s = .next { s with result := 0, done := true }) ∧
  (∀ (s : State) (w : Work) (c : Cur), s.params.wf → decodeReady s → s.pos.toNat < endPos s →
    frameBody s (startCur s) = .ok (w, c) → c.cur = endPos s →
    exec .decodeStream s = .next { commit s w c with result := 1, done := true }) ∧
  (∀ (s t : State) (n : Nat), s.params.wf → decodeReady s → decodedFrames n s = some t → t.pos.toNat = endPos s →
    exec .decodeStream s = .next { t with result := BitVec.ofNat 64 n, done := true }) ∧
  ∀ (s t : State) (n : Nat), s.params.wf → decodeReady s → frameRuns n s = some t → t.pos.toNat = endPos s →
    exec .decodeStream s = .next { t with result := BitVec.ofNat 64 n, done := true }

/-- When a frame fails, the frames before it stay committed, the failing frame's error entry applies, and RESULT is left as
it was before the command (R345), which is the model's reading of R345 against R342 (log 12). -/
def Obligations.DecodeStreamKeepsEarlierFrames : Prop :=
  ∀ (s t u : State) (n : Nat), s.params.wf → decodeReady s → frameRuns n s = some t → t.pos.toNat < endPos s →
    exec .decodeFrame t = .next u → u.fv = false →
    exec .decodeStream s = .next { u with result := s.result }

/-- DECODE_STREAM beyond the end of the input raises OUT_OF_BOUNDS at POS (R344), with FV cleared, as R384 says of the decode
commands (log 11). From inside the input it ends, in one of two ways: after n committed frames at 8·LEN, with RESULT = n, or
at the first frame that fails, with that frame's error entered and RESULT as it was before the command (R345; log 12). -/
def Obligations.DecodeStreamEnds : Prop :=
  ∀ s : State, s.params.wf → decodeReady s →
    (endPos s < s.pos.toNat → ∃ t, exec .decodeStream s = .next t ∧ frameFailed s t .outOfBounds s.pos.toNat) ∧
    (s.pos.toNat ≤ endPos s → ∃ n t, frameRuns n s = some t ∧
      (t.pos.toNat = endPos s ∧ exec .decodeStream s = .next { t with result := BitVec.ofNat 64 n, done := true } ∨
        t.pos.toNat < endPos s ∧ ∃ u, exec .decodeFrame t = .next u ∧ u.fv = false ∧
          exec .decodeStream s = .next { u with result := s.result }))

/-! ## The header from NUMBER on -/

/-- The frame header from NUMBER on, as DECODE_FRAME runs it, once the first 32 bits have passed (R200, R209 to R215;
60_exceptions.md rule R383): the first of NUMBER, BS_ESC, SR_ESC, CRC8 and the channel count that fails determines the
error, which is at NUMBER's lead byte, at the escape field or at CRC8; and a header that passes answers the fields its bits
say, with the cursor after CRC8. -/
def Obligations.HeaderErrorsFromNumber : Prop :=
  ∀ s : State, decodeReady s →
    let p := s.pos.toNat
    let raises := fun (e : ErrCode) (at_ : Nat) => ∃ t, exec .decodeFrame s = .next t ∧ frameFailed s t e at_
    let q := p + 32
    let lead := bitRead s q 8
    let legal := lead < 0x80 ∨ 0xC0 ≤ lead ∧ lead < 0xF8
    let n := numberBytes lead
    let cont := ∀ i, 1 ≤ i → i < n → bitRead s (q + 8 * i) 8 / 64 = 0b10
    let crc := crc8At s p
    let checked := s.params.verifyCrc = false ∨ headerCrcGood s p
    let chcode := bitRead s (p + 24) 4
    let bdcode := bitRead s (p + 28) 3
    headerCodesPass s p →
    (¬ bitsAt s q 8 → raises .outOfBounds q) ∧
    (bitsAt s q 8 → ¬ legal → raises .invalidEncoding q) ∧
    (bitsAt s q 8 → legal → ¬ bitsAt s q (8 * n) → raises .outOfBounds q) ∧
    (bitsAt s q (8 * n) → legal → ¬ cont → raises .invalidEncoding q) ∧
    (bitsAt s q (8 * n) → legal → cont →
      (endPos s < srEscAt s p → raises .outOfBounds (bsEscAt s p)) ∧
      (srEscAt s p ≤ endPos s → endPos s < crc → raises .outOfBounds (srEscAt s p)) ∧
      (crc ≤ endPos s → ¬ bitsAt s crc 8 → raises .outOfBounds crc) ∧
      (bitsAt s crc 8 → ¬ checked → raises .headerChecksum crc) ∧
      (bitsAt s crc 8 → checked → channelCount chcode ≠ s.streamCh.toNat → raises .channelMismatch crc) ∧
      (bitsAt s crc 8 → checked → channelCount chcode = s.streamCh.toNat →
        frameHeader s (startCur s) = .ok
          ({ start := p
             strategy := bitRead s (p + 15) 1
             bscode := bitRead s (p + 16) 4
             srcode := bitRead s (p + 20) 4
             chcode := chcode
             bdcode := bdcode
             number := numberOf s q
             bs := blockSizeOf s p
             rate := sampleRateOf s p
             bps := if bdcode = 0 then s.streamBps.toNat else depthTable bdcode
             channels := channelCount chcode
             side := if chcode ≤ 7 then none else if chcode = 9 then some 0 else some 1
             crc8 := bitRead s crc 8
             crc16 := 0 },
            ⟨crc + 8, crc⟩)))
end

