-- ==== Sys2Proof/Laws/State.lean ====
section
/-! SUPPORT. One lemma for each field of State under each named update, true by rfl: no later proof unfolds a record
update. -/

namespace Sys2Proof.Machine

@[simp] theorem finish_host (s : State) : (finish s).host = s.host := rfl
@[simp] theorem finish_cmd (s : State) : (finish s).cmd = s.cmd := rfl
@[simp] theorem finish_arg (s : State) : (finish s).arg = s.arg := rfl
@[simp] theorem finish_done (s : State) : (finish s).done = true := rfl
@[simp] theorem finish_fv (s : State) : (finish s).fv = s.fv := rfl
@[simp] theorem finish_errCode (s : State) : (finish s).errCode = s.errCode := rfl
@[simp] theorem finish_errPos (s : State) : (finish s).errPos = s.errPos := rfl
@[simp] theorem finish_result (s : State) : (finish s).result = s.result := rfl
@[simp] theorem finish_pos (s : State) : (finish s).pos = s.pos := rfl
@[simp] theorem finish_len (s : State) : (finish s).len = s.len := rfl
@[simp] theorem finish_streamRate (s : State) : (finish s).streamRate = s.streamRate := rfl
@[simp] theorem finish_streamCh (s : State) : (finish s).streamCh = s.streamCh := rfl
@[simp] theorem finish_streamBps (s : State) : (finish s).streamBps = s.streamBps := rfl
@[simp] theorem finish_streamTotal (s : State) : (finish s).streamTotal = s.streamTotal := rfl
@[simp] theorem finish_rateWritten (s : State) : (finish s).rateWritten = s.rateWritten := rfl
@[simp] theorem finish_chWritten (s : State) : (finish s).chWritten = s.chWritten := rfl
@[simp] theorem finish_bpsWritten (s : State) : (finish s).bpsWritten = s.bpsWritten := rfl
@[simp] theorem finish_span (s : State) : (finish s).span = s.span := rfl
@[simp] theorem finish_spanLen (s : State) : (finish s).spanLen = s.spanLen := rfl
@[simp] theorem finish_frame (s : State) : (finish s).frame = s.frame := rfl
@[simp] theorem finish_out (s : State) : (finish s).out = s.out := rfl
@[simp] theorem finish_outptr (s : State) : (finish s).outptr = s.outptr := rfl
@[simp] theorem finish_frameCount (s : State) : (finish s).frameCount = s.frameCount := rfl
@[simp] theorem finish_inMem (s : State) : (finish s).inMem = s.inMem := rfl
@[simp] theorem finish_fpos (s : State) : (finish s).fpos = s.fpos := rfl
@[simp] theorem finish_seq (s : State) : (finish s).seq = s.seq := rfl
@[simp] theorem finish_work (s : State) : (finish s).work = s.work := rfl
@[simp] theorem finish_params (s : State) : (finish s).params = s.params := rfl
@[simp] theorem finish_epoch (s : State) : (finish s).epoch = s.epoch := rfl
@[simp] theorem finish_draws (s : State) : (finish s).draws = s.draws := rfl

@[simp] theorem clearError_host (s : State) : (clearError s).host = s.host := rfl
@[simp] theorem clearError_cmd (s : State) : (clearError s).cmd = s.cmd := rfl
@[simp] theorem clearError_arg (s : State) : (clearError s).arg = s.arg := rfl
@[simp] theorem clearError_done (s : State) : (clearError s).done = s.done := rfl
@[simp] theorem clearError_fv (s : State) : (clearError s).fv = s.fv := rfl
@[simp] theorem clearError_errCode (s : State) : (clearError s).errCode = .noError := rfl
@[simp] theorem clearError_errPos (s : State) : (clearError s).errPos = s.errPos := rfl
@[simp] theorem clearError_result (s : State) : (clearError s).result = s.result := rfl
@[simp] theorem clearError_pos (s : State) : (clearError s).pos = s.pos := rfl
@[simp] theorem clearError_len (s : State) : (clearError s).len = s.len := rfl
@[simp] theorem clearError_streamRate (s : State) : (clearError s).streamRate = s.streamRate := rfl
@[simp] theorem clearError_streamCh (s : State) : (clearError s).streamCh = s.streamCh := rfl
@[simp] theorem clearError_streamBps (s : State) : (clearError s).streamBps = s.streamBps := rfl
@[simp] theorem clearError_streamTotal (s : State) : (clearError s).streamTotal = s.streamTotal := rfl
@[simp] theorem clearError_rateWritten (s : State) : (clearError s).rateWritten = s.rateWritten := rfl
@[simp] theorem clearError_chWritten (s : State) : (clearError s).chWritten = s.chWritten := rfl
@[simp] theorem clearError_bpsWritten (s : State) : (clearError s).bpsWritten = s.bpsWritten := rfl
@[simp] theorem clearError_span (s : State) : (clearError s).span = s.span := rfl
@[simp] theorem clearError_spanLen (s : State) : (clearError s).spanLen = s.spanLen := rfl
@[simp] theorem clearError_frame (s : State) : (clearError s).frame = s.frame := rfl
@[simp] theorem clearError_out (s : State) : (clearError s).out = s.out := rfl
@[simp] theorem clearError_outptr (s : State) : (clearError s).outptr = s.outptr := rfl
@[simp] theorem clearError_frameCount (s : State) : (clearError s).frameCount = s.frameCount := rfl
@[simp] theorem clearError_inMem (s : State) : (clearError s).inMem = s.inMem := rfl
@[simp] theorem clearError_fpos (s : State) : (clearError s).fpos = s.fpos := rfl
@[simp] theorem clearError_seq (s : State) : (clearError s).seq = s.seq := rfl
@[simp] theorem clearError_work (s : State) : (clearError s).work = s.work := rfl
@[simp] theorem clearError_params (s : State) : (clearError s).params = s.params := rfl
@[simp] theorem clearError_epoch (s : State) : (clearError s).epoch = s.epoch := rfl
@[simp] theorem clearError_draws (s : State) : (clearError s).draws = s.draws := rfl

@[simp] theorem takeError_host (s : State) (e : Raise) : (takeError s e).host = s.host := rfl
@[simp] theorem takeError_cmd (s : State) (e : Raise) : (takeError s e).cmd = s.cmd := rfl
@[simp] theorem takeError_arg (s : State) (e : Raise) : (takeError s e).arg = s.arg := rfl
@[simp] theorem takeError_done (s : State) (e : Raise) : (takeError s e).done = true := rfl
@[simp] theorem takeError_fv (s : State) (e : Raise) : (takeError s e).fv = s.fv := rfl
@[simp] theorem takeError_errCode (s : State) (e : Raise) : (takeError s e).errCode = e.code := rfl
@[simp] theorem takeError_errPos (s : State) (e : Raise) : (takeError s e).errPos = BitVec.ofNat 64 e.pos := rfl
@[simp] theorem takeError_result (s : State) (e : Raise) : (takeError s e).result = s.result := rfl
@[simp] theorem takeError_pos (s : State) (e : Raise) : (takeError s e).pos = s.pos := rfl
@[simp] theorem takeError_len (s : State) (e : Raise) : (takeError s e).len = s.len := rfl
@[simp] theorem takeError_streamRate (s : State) (e : Raise) : (takeError s e).streamRate = s.streamRate := rfl
@[simp] theorem takeError_streamCh (s : State) (e : Raise) : (takeError s e).streamCh = s.streamCh := rfl
@[simp] theorem takeError_streamBps (s : State) (e : Raise) : (takeError s e).streamBps = s.streamBps := rfl
@[simp] theorem takeError_streamTotal (s : State) (e : Raise) : (takeError s e).streamTotal = s.streamTotal := rfl
@[simp] theorem takeError_rateWritten (s : State) (e : Raise) : (takeError s e).rateWritten = s.rateWritten := rfl
@[simp] theorem takeError_chWritten (s : State) (e : Raise) : (takeError s e).chWritten = s.chWritten := rfl
@[simp] theorem takeError_bpsWritten (s : State) (e : Raise) : (takeError s e).bpsWritten = s.bpsWritten := rfl
@[simp] theorem takeError_span (s : State) (e : Raise) : (takeError s e).span = s.span := rfl
@[simp] theorem takeError_spanLen (s : State) (e : Raise) : (takeError s e).spanLen = s.spanLen := rfl
@[simp] theorem takeError_frame (s : State) (e : Raise) : (takeError s e).frame = s.frame := rfl
@[simp] theorem takeError_out (s : State) (e : Raise) : (takeError s e).out = s.out := rfl
@[simp] theorem takeError_outptr (s : State) (e : Raise) : (takeError s e).outptr = s.outptr := rfl
@[simp] theorem takeError_frameCount (s : State) (e : Raise) : (takeError s e).frameCount = s.frameCount := rfl
@[simp] theorem takeError_inMem (s : State) (e : Raise) : (takeError s e).inMem = s.inMem := rfl
@[simp] theorem takeError_fpos (s : State) (e : Raise) : (takeError s e).fpos = BitVec.ofNat 64 e.pos := rfl
@[simp] theorem takeError_seq (s : State) (e : Raise) : (takeError s e).seq = s.seq := rfl
@[simp] theorem takeError_work (s : State) (e : Raise) : (takeError s e).work = s.work := rfl
@[simp] theorem takeError_params (s : State) (e : Raise) : (takeError s e).params = s.params := rfl
@[simp] theorem takeError_epoch (s : State) (e : Raise) : (takeError s e).epoch = s.epoch := rfl
@[simp] theorem takeError_draws (s : State) (e : Raise) : (takeError s e).draws = s.draws := rfl

@[simp] theorem failFrame_host (s : State) (e : Raise) : (failFrame s e).host = s.host := rfl
@[simp] theorem failFrame_cmd (s : State) (e : Raise) : (failFrame s e).cmd = s.cmd := rfl
@[simp] theorem failFrame_arg (s : State) (e : Raise) : (failFrame s e).arg = s.arg := rfl
@[simp] theorem failFrame_done (s : State) (e : Raise) : (failFrame s e).done = true := rfl
@[simp] theorem failFrame_fv (s : State) (e : Raise) : (failFrame s e).fv = false := rfl
@[simp] theorem failFrame_errCode (s : State) (e : Raise) : (failFrame s e).errCode = e.code := rfl
@[simp] theorem failFrame_errPos (s : State) (e : Raise) : (failFrame s e).errPos = BitVec.ofNat 64 e.pos := rfl
@[simp] theorem failFrame_result (s : State) (e : Raise) : (failFrame s e).result = s.result := rfl
@[simp] theorem failFrame_pos (s : State) (e : Raise) : (failFrame s e).pos = s.pos := rfl
@[simp] theorem failFrame_len (s : State) (e : Raise) : (failFrame s e).len = s.len := rfl
@[simp] theorem failFrame_streamRate (s : State) (e : Raise) : (failFrame s e).streamRate = s.streamRate := rfl
@[simp] theorem failFrame_streamCh (s : State) (e : Raise) : (failFrame s e).streamCh = s.streamCh := rfl
@[simp] theorem failFrame_streamBps (s : State) (e : Raise) : (failFrame s e).streamBps = s.streamBps := rfl
@[simp] theorem failFrame_streamTotal (s : State) (e : Raise) : (failFrame s e).streamTotal = s.streamTotal := rfl
@[simp] theorem failFrame_rateWritten (s : State) (e : Raise) : (failFrame s e).rateWritten = s.rateWritten := rfl
@[simp] theorem failFrame_chWritten (s : State) (e : Raise) : (failFrame s e).chWritten = s.chWritten := rfl
@[simp] theorem failFrame_bpsWritten (s : State) (e : Raise) : (failFrame s e).bpsWritten = s.bpsWritten := rfl
@[simp] theorem failFrame_span (s : State) (e : Raise) : (failFrame s e).span = s.span := rfl
@[simp] theorem failFrame_spanLen (s : State) (e : Raise) : (failFrame s e).spanLen = s.spanLen := rfl
@[simp] theorem failFrame_frame (s : State) (e : Raise) : (failFrame s e).frame = FrameRegs.unspecified s.draws := rfl
@[simp] theorem failFrame_out (s : State) (e : Raise) : (failFrame s e).out = s.out := rfl
@[simp] theorem failFrame_outptr (s : State) (e : Raise) : (failFrame s e).outptr = s.outptr := rfl
@[simp] theorem failFrame_frameCount (s : State) (e : Raise) : (failFrame s e).frameCount = s.frameCount := rfl
@[simp] theorem failFrame_inMem (s : State) (e : Raise) : (failFrame s e).inMem = s.inMem := rfl
@[simp] theorem failFrame_fpos (s : State) (e : Raise) : (failFrame s e).fpos = BitVec.ofNat 64 e.pos := rfl
@[simp] theorem failFrame_seq (s : State) (e : Raise) : (failFrame s e).seq = none := rfl
@[simp] theorem failFrame_work (s : State) (e : Raise) : (failFrame s e).work = Work.idle := rfl
@[simp] theorem failFrame_params (s : State) (e : Raise) : (failFrame s e).params = s.params := rfl
@[simp] theorem failFrame_epoch (s : State) (e : Raise) : (failFrame s e).epoch = s.epoch := rfl
@[simp] theorem failFrame_draws (s : State) (e : Raise) : (failFrame s e).draws = s.draws + 1 := rfl

@[simp] theorem storeCmd_host (s : State) (w : Word16) : (storeCmd s w).host = s.host := rfl
@[simp] theorem storeCmd_cmd (s : State) (w : Word16) : (storeCmd s w).cmd = w := rfl
@[simp] theorem storeCmd_arg (s : State) (w : Word16) : (storeCmd s w).arg = s.arg := rfl
@[simp] theorem storeCmd_done (s : State) (w : Word16) : (storeCmd s w).done = s.done := rfl
@[simp] theorem storeCmd_fv (s : State) (w : Word16) : (storeCmd s w).fv = s.fv := rfl
@[simp] theorem storeCmd_errCode (s : State) (w : Word16) : (storeCmd s w).errCode = s.errCode := rfl
@[simp] theorem storeCmd_errPos (s : State) (w : Word16) : (storeCmd s w).errPos = s.errPos := rfl
@[simp] theorem storeCmd_result (s : State) (w : Word16) : (storeCmd s w).result = s.result := rfl
@[simp] theorem storeCmd_pos (s : State) (w : Word16) : (storeCmd s w).pos = s.pos := rfl
@[simp] theorem storeCmd_len (s : State) (w : Word16) : (storeCmd s w).len = s.len := rfl
@[simp] theorem storeCmd_streamRate (s : State) (w : Word16) : (storeCmd s w).streamRate = s.streamRate := rfl
@[simp] theorem storeCmd_streamCh (s : State) (w : Word16) : (storeCmd s w).streamCh = s.streamCh := rfl
@[simp] theorem storeCmd_streamBps (s : State) (w : Word16) : (storeCmd s w).streamBps = s.streamBps := rfl
@[simp] theorem storeCmd_streamTotal (s : State) (w : Word16) : (storeCmd s w).streamTotal = s.streamTotal := rfl
@[simp] theorem storeCmd_rateWritten (s : State) (w : Word16) : (storeCmd s w).rateWritten = s.rateWritten := rfl
@[simp] theorem storeCmd_chWritten (s : State) (w : Word16) : (storeCmd s w).chWritten = s.chWritten := rfl
@[simp] theorem storeCmd_bpsWritten (s : State) (w : Word16) : (storeCmd s w).bpsWritten = s.bpsWritten := rfl
@[simp] theorem storeCmd_span (s : State) (w : Word16) : (storeCmd s w).span = s.span := rfl
@[simp] theorem storeCmd_spanLen (s : State) (w : Word16) : (storeCmd s w).spanLen = s.spanLen := rfl
@[simp] theorem storeCmd_frame (s : State) (w : Word16) : (storeCmd s w).frame = s.frame := rfl
@[simp] theorem storeCmd_out (s : State) (w : Word16) : (storeCmd s w).out = s.out := rfl
@[simp] theorem storeCmd_outptr (s : State) (w : Word16) : (storeCmd s w).outptr = s.outptr := rfl
@[simp] theorem storeCmd_frameCount (s : State) (w : Word16) : (storeCmd s w).frameCount = s.frameCount := rfl
@[simp] theorem storeCmd_inMem (s : State) (w : Word16) : (storeCmd s w).inMem = s.inMem := rfl
@[simp] theorem storeCmd_fpos (s : State) (w : Word16) : (storeCmd s w).fpos = s.fpos := rfl
@[simp] theorem storeCmd_seq (s : State) (w : Word16) : (storeCmd s w).seq = s.seq := rfl
@[simp] theorem storeCmd_work (s : State) (w : Word16) : (storeCmd s w).work = s.work := rfl
@[simp] theorem storeCmd_params (s : State) (w : Word16) : (storeCmd s w).params = s.params := rfl
@[simp] theorem storeCmd_epoch (s : State) (w : Word16) : (storeCmd s w).epoch = s.epoch := rfl
@[simp] theorem storeCmd_draws (s : State) (w : Word16) : (storeCmd s w).draws = s.draws := rfl

@[simp] theorem beginCommand_host (s : State) : (beginCommand s).host = s.host := rfl
@[simp] theorem beginCommand_cmd (s : State) : (beginCommand s).cmd = s.cmd := rfl
@[simp] theorem beginCommand_arg (s : State) : (beginCommand s).arg = s.arg := rfl
@[simp] theorem beginCommand_done (s : State) : (beginCommand s).done = s.done := rfl
@[simp] theorem beginCommand_fv (s : State) : (beginCommand s).fv = s.fv := rfl
@[simp] theorem beginCommand_errCode (s : State) : (beginCommand s).errCode = s.errCode := rfl
@[simp] theorem beginCommand_errPos (s : State) : (beginCommand s).errPos = s.errPos := rfl
@[simp] theorem beginCommand_result (s : State) : (beginCommand s).result = s.result := rfl
@[simp] theorem beginCommand_pos (s : State) : (beginCommand s).pos = s.pos := rfl
@[simp] theorem beginCommand_len (s : State) : (beginCommand s).len = s.len := rfl
@[simp] theorem beginCommand_streamRate (s : State) : (beginCommand s).streamRate = s.streamRate := rfl
@[simp] theorem beginCommand_streamCh (s : State) : (beginCommand s).streamCh = s.streamCh := rfl
@[simp] theorem beginCommand_streamBps (s : State) : (beginCommand s).streamBps = s.streamBps := rfl
@[simp] theorem beginCommand_streamTotal (s : State) : (beginCommand s).streamTotal = s.streamTotal := rfl
@[simp] theorem beginCommand_rateWritten (s : State) : (beginCommand s).rateWritten = s.rateWritten := rfl
@[simp] theorem beginCommand_chWritten (s : State) : (beginCommand s).chWritten = s.chWritten := rfl
@[simp] theorem beginCommand_bpsWritten (s : State) : (beginCommand s).bpsWritten = s.bpsWritten := rfl
@[simp] theorem beginCommand_span (s : State) : (beginCommand s).span = s.span := rfl
@[simp] theorem beginCommand_spanLen (s : State) : (beginCommand s).spanLen = s.spanLen := rfl
@[simp] theorem beginCommand_frame (s : State) : (beginCommand s).frame = s.frame := rfl
@[simp] theorem beginCommand_out (s : State) : (beginCommand s).out = s.out := rfl
@[simp] theorem beginCommand_outptr (s : State) : (beginCommand s).outptr = s.outptr := rfl
@[simp] theorem beginCommand_frameCount (s : State) : (beginCommand s).frameCount = s.frameCount := rfl
@[simp] theorem beginCommand_inMem (s : State) : (beginCommand s).inMem = s.inMem := rfl
@[simp] theorem beginCommand_fpos (s : State) : (beginCommand s).fpos = s.pos := rfl
@[simp] theorem beginCommand_seq (s : State) : (beginCommand s).seq = s.seq := rfl
@[simp] theorem beginCommand_work (s : State) : (beginCommand s).work = s.work := rfl
@[simp] theorem beginCommand_params (s : State) : (beginCommand s).params = s.params := rfl
@[simp] theorem beginCommand_epoch (s : State) : (beginCommand s).epoch = s.epoch := rfl
@[simp] theorem beginCommand_draws (s : State) : (beginCommand s).draws = s.draws := rfl

@[simp] theorem afterFetch_host (s : State) (c : Cur) : (afterFetch s c).host = s.host := rfl
@[simp] theorem afterFetch_cmd (s : State) (c : Cur) : (afterFetch s c).cmd = s.cmd := rfl
@[simp] theorem afterFetch_arg (s : State) (c : Cur) : (afterFetch s c).arg = s.arg := rfl
@[simp] theorem afterFetch_done (s : State) (c : Cur) : (afterFetch s c).done = s.done := rfl
@[simp] theorem afterFetch_fv (s : State) (c : Cur) : (afterFetch s c).fv = s.fv := rfl
@[simp] theorem afterFetch_errCode (s : State) (c : Cur) : (afterFetch s c).errCode = s.errCode := rfl
@[simp] theorem afterFetch_errPos (s : State) (c : Cur) : (afterFetch s c).errPos = s.errPos := rfl
@[simp] theorem afterFetch_result (s : State) (c : Cur) : (afterFetch s c).result = s.result := rfl
@[simp] theorem afterFetch_pos (s : State) (c : Cur) : (afterFetch s c).pos = s.pos := rfl
@[simp] theorem afterFetch_len (s : State) (c : Cur) : (afterFetch s c).len = s.len := rfl
@[simp] theorem afterFetch_streamRate (s : State) (c : Cur) : (afterFetch s c).streamRate = s.streamRate := rfl
@[simp] theorem afterFetch_streamCh (s : State) (c : Cur) : (afterFetch s c).streamCh = s.streamCh := rfl
@[simp] theorem afterFetch_streamBps (s : State) (c : Cur) : (afterFetch s c).streamBps = s.streamBps := rfl
@[simp] theorem afterFetch_streamTotal (s : State) (c : Cur) : (afterFetch s c).streamTotal = s.streamTotal := rfl
@[simp] theorem afterFetch_rateWritten (s : State) (c : Cur) : (afterFetch s c).rateWritten = s.rateWritten := rfl
@[simp] theorem afterFetch_chWritten (s : State) (c : Cur) : (afterFetch s c).chWritten = s.chWritten := rfl
@[simp] theorem afterFetch_bpsWritten (s : State) (c : Cur) : (afterFetch s c).bpsWritten = s.bpsWritten := rfl
@[simp] theorem afterFetch_span (s : State) (c : Cur) : (afterFetch s c).span = s.span := rfl
@[simp] theorem afterFetch_spanLen (s : State) (c : Cur) : (afterFetch s c).spanLen = s.spanLen := rfl
@[simp] theorem afterFetch_frame (s : State) (c : Cur) : (afterFetch s c).frame = s.frame := rfl
@[simp] theorem afterFetch_out (s : State) (c : Cur) : (afterFetch s c).out = s.out := rfl
@[simp] theorem afterFetch_outptr (s : State) (c : Cur) : (afterFetch s c).outptr = s.outptr := rfl
@[simp] theorem afterFetch_frameCount (s : State) (c : Cur) : (afterFetch s c).frameCount = s.frameCount := rfl
@[simp] theorem afterFetch_inMem (s : State) (c : Cur) : (afterFetch s c).inMem = s.inMem := rfl
@[simp] theorem afterFetch_fpos (s : State) (c : Cur) : (afterFetch s c).fpos = BitVec.ofNat 64 c.fpos := rfl
@[simp] theorem afterFetch_seq (s : State) (c : Cur) : (afterFetch s c).seq = none := rfl
@[simp] theorem afterFetch_work (s : State) (c : Cur) : (afterFetch s c).work = { s.work with cur := c.cur } := rfl
@[simp] theorem afterFetch_params (s : State) (c : Cur) : (afterFetch s c).params = s.params := rfl
@[simp] theorem afterFetch_epoch (s : State) (c : Cur) : (afterFetch s c).epoch = s.epoch := rfl
@[simp] theorem afterFetch_draws (s : State) (c : Cur) : (afterFetch s c).draws = s.draws := rfl

@[simp] theorem storeNat_host (s : State) (v : Nat) : (storeNat s v).host = s.host := rfl
@[simp] theorem storeNat_cmd (s : State) (v : Nat) : (storeNat s v).cmd = s.cmd := rfl
@[simp] theorem storeNat_arg (s : State) (v : Nat) : (storeNat s v).arg = s.arg := rfl
@[simp] theorem storeNat_done (s : State) (v : Nat) : (storeNat s v).done = s.done := rfl
@[simp] theorem storeNat_fv (s : State) (v : Nat) : (storeNat s v).fv = s.fv := rfl
@[simp] theorem storeNat_errCode (s : State) (v : Nat) : (storeNat s v).errCode = s.errCode := rfl
@[simp] theorem storeNat_errPos (s : State) (v : Nat) : (storeNat s v).errPos = s.errPos := rfl
@[simp] theorem storeNat_result (s : State) (v : Nat) : (storeNat s v).result = BitVec.ofNat 64 v := rfl
@[simp] theorem storeNat_pos (s : State) (v : Nat) : (storeNat s v).pos = s.pos := rfl
@[simp] theorem storeNat_len (s : State) (v : Nat) : (storeNat s v).len = s.len := rfl
@[simp] theorem storeNat_streamRate (s : State) (v : Nat) : (storeNat s v).streamRate = s.streamRate := rfl
@[simp] theorem storeNat_streamCh (s : State) (v : Nat) : (storeNat s v).streamCh = s.streamCh := rfl
@[simp] theorem storeNat_streamBps (s : State) (v : Nat) : (storeNat s v).streamBps = s.streamBps := rfl
@[simp] theorem storeNat_streamTotal (s : State) (v : Nat) : (storeNat s v).streamTotal = s.streamTotal := rfl
@[simp] theorem storeNat_rateWritten (s : State) (v : Nat) : (storeNat s v).rateWritten = s.rateWritten := rfl
@[simp] theorem storeNat_chWritten (s : State) (v : Nat) : (storeNat s v).chWritten = s.chWritten := rfl
@[simp] theorem storeNat_bpsWritten (s : State) (v : Nat) : (storeNat s v).bpsWritten = s.bpsWritten := rfl
@[simp] theorem storeNat_span (s : State) (v : Nat) : (storeNat s v).span = s.span := rfl
@[simp] theorem storeNat_spanLen (s : State) (v : Nat) : (storeNat s v).spanLen = s.spanLen := rfl
@[simp] theorem storeNat_frame (s : State) (v : Nat) : (storeNat s v).frame = s.frame := rfl
@[simp] theorem storeNat_out (s : State) (v : Nat) : (storeNat s v).out = s.out := rfl
@[simp] theorem storeNat_outptr (s : State) (v : Nat) : (storeNat s v).outptr = s.outptr := rfl
@[simp] theorem storeNat_frameCount (s : State) (v : Nat) : (storeNat s v).frameCount = s.frameCount := rfl
@[simp] theorem storeNat_inMem (s : State) (v : Nat) : (storeNat s v).inMem = s.inMem := rfl
@[simp] theorem storeNat_fpos (s : State) (v : Nat) : (storeNat s v).fpos = s.fpos := rfl
@[simp] theorem storeNat_seq (s : State) (v : Nat) : (storeNat s v).seq = s.seq := rfl
@[simp] theorem storeNat_work (s : State) (v : Nat) : (storeNat s v).work = s.work := rfl
@[simp] theorem storeNat_params (s : State) (v : Nat) : (storeNat s v).params = s.params := rfl
@[simp] theorem storeNat_epoch (s : State) (v : Nat) : (storeNat s v).epoch = s.epoch := rfl
@[simp] theorem storeNat_draws (s : State) (v : Nat) : (storeNat s v).draws = s.draws := rfl

@[simp] theorem storeInt_host (s : State) (v : Int) : (storeInt s v).host = s.host := rfl
@[simp] theorem storeInt_cmd (s : State) (v : Int) : (storeInt s v).cmd = s.cmd := rfl
@[simp] theorem storeInt_arg (s : State) (v : Int) : (storeInt s v).arg = s.arg := rfl
@[simp] theorem storeInt_done (s : State) (v : Int) : (storeInt s v).done = s.done := rfl
@[simp] theorem storeInt_fv (s : State) (v : Int) : (storeInt s v).fv = s.fv := rfl
@[simp] theorem storeInt_errCode (s : State) (v : Int) : (storeInt s v).errCode = s.errCode := rfl
@[simp] theorem storeInt_errPos (s : State) (v : Int) : (storeInt s v).errPos = s.errPos := rfl
@[simp] theorem storeInt_result (s : State) (v : Int) : (storeInt s v).result = BitVec.ofInt 64 v := rfl
@[simp] theorem storeInt_pos (s : State) (v : Int) : (storeInt s v).pos = s.pos := rfl
@[simp] theorem storeInt_len (s : State) (v : Int) : (storeInt s v).len = s.len := rfl
@[simp] theorem storeInt_streamRate (s : State) (v : Int) : (storeInt s v).streamRate = s.streamRate := rfl
@[simp] theorem storeInt_streamCh (s : State) (v : Int) : (storeInt s v).streamCh = s.streamCh := rfl
@[simp] theorem storeInt_streamBps (s : State) (v : Int) : (storeInt s v).streamBps = s.streamBps := rfl
@[simp] theorem storeInt_streamTotal (s : State) (v : Int) : (storeInt s v).streamTotal = s.streamTotal := rfl
@[simp] theorem storeInt_rateWritten (s : State) (v : Int) : (storeInt s v).rateWritten = s.rateWritten := rfl
@[simp] theorem storeInt_chWritten (s : State) (v : Int) : (storeInt s v).chWritten = s.chWritten := rfl
@[simp] theorem storeInt_bpsWritten (s : State) (v : Int) : (storeInt s v).bpsWritten = s.bpsWritten := rfl
@[simp] theorem storeInt_span (s : State) (v : Int) : (storeInt s v).span = s.span := rfl
@[simp] theorem storeInt_spanLen (s : State) (v : Int) : (storeInt s v).spanLen = s.spanLen := rfl
@[simp] theorem storeInt_frame (s : State) (v : Int) : (storeInt s v).frame = s.frame := rfl
@[simp] theorem storeInt_out (s : State) (v : Int) : (storeInt s v).out = s.out := rfl
@[simp] theorem storeInt_outptr (s : State) (v : Int) : (storeInt s v).outptr = s.outptr := rfl
@[simp] theorem storeInt_frameCount (s : State) (v : Int) : (storeInt s v).frameCount = s.frameCount := rfl
@[simp] theorem storeInt_inMem (s : State) (v : Int) : (storeInt s v).inMem = s.inMem := rfl
@[simp] theorem storeInt_fpos (s : State) (v : Int) : (storeInt s v).fpos = s.fpos := rfl
@[simp] theorem storeInt_seq (s : State) (v : Int) : (storeInt s v).seq = s.seq := rfl
@[simp] theorem storeInt_work (s : State) (v : Int) : (storeInt s v).work = s.work := rfl
@[simp] theorem storeInt_params (s : State) (v : Int) : (storeInt s v).params = s.params := rfl
@[simp] theorem storeInt_epoch (s : State) (v : Int) : (storeInt s v).epoch = s.epoch := rfl
@[simp] theorem storeInt_draws (s : State) (v : Int) : (storeInt s v).draws = s.draws := rfl

@[simp] theorem storeSpan_host (n : Nat) (s : State) (v : Nat) : (storeSpan n s v).host = s.host := rfl
@[simp] theorem storeSpan_cmd (n : Nat) (s : State) (v : Nat) : (storeSpan n s v).cmd = s.cmd := rfl
@[simp] theorem storeSpan_arg (n : Nat) (s : State) (v : Nat) : (storeSpan n s v).arg = s.arg := rfl
@[simp] theorem storeSpan_done (n : Nat) (s : State) (v : Nat) : (storeSpan n s v).done = s.done := rfl
@[simp] theorem storeSpan_fv (n : Nat) (s : State) (v : Nat) : (storeSpan n s v).fv = s.fv := rfl
@[simp] theorem storeSpan_errCode (n : Nat) (s : State) (v : Nat) : (storeSpan n s v).errCode = s.errCode := rfl
@[simp] theorem storeSpan_errPos (n : Nat) (s : State) (v : Nat) : (storeSpan n s v).errPos = s.errPos := rfl
@[simp] theorem storeSpan_result (n : Nat) (s : State) (v : Nat) : (storeSpan n s v).result = BitVec.ofNat 64 ((n + 7) / 8) := rfl
@[simp] theorem storeSpan_pos (n : Nat) (s : State) (v : Nat) : (storeSpan n s v).pos = s.pos := rfl
@[simp] theorem storeSpan_len (n : Nat) (s : State) (v : Nat) : (storeSpan n s v).len = s.len := rfl
@[simp] theorem storeSpan_streamRate (n : Nat) (s : State) (v : Nat) : (storeSpan n s v).streamRate = s.streamRate := rfl
@[simp] theorem storeSpan_streamCh (n : Nat) (s : State) (v : Nat) : (storeSpan n s v).streamCh = s.streamCh := rfl
@[simp] theorem storeSpan_streamBps (n : Nat) (s : State) (v : Nat) : (storeSpan n s v).streamBps = s.streamBps := rfl
@[simp] theorem storeSpan_streamTotal (n : Nat) (s : State) (v : Nat) : (storeSpan n s v).streamTotal = s.streamTotal := rfl
@[simp] theorem storeSpan_rateWritten (n : Nat) (s : State) (v : Nat) : (storeSpan n s v).rateWritten = s.rateWritten := rfl
@[simp] theorem storeSpan_chWritten (n : Nat) (s : State) (v : Nat) : (storeSpan n s v).chWritten = s.chWritten := rfl
@[simp] theorem storeSpan_bpsWritten (n : Nat) (s : State) (v : Nat) : (storeSpan n s v).bpsWritten = s.bpsWritten := rfl
@[simp] theorem storeSpan_span (n : Nat) (s : State) (v : Nat) : (storeSpan n s v).span = spanBytes v ((n + 7) / 8) := rfl
@[simp] theorem storeSpan_spanLen (n : Nat) (s : State) (v : Nat) : (storeSpan n s v).spanLen = BitVec.ofNat 8 ((n + 7) / 8) := rfl
@[simp] theorem storeSpan_frame (n : Nat) (s : State) (v : Nat) : (storeSpan n s v).frame = s.frame := rfl
@[simp] theorem storeSpan_out (n : Nat) (s : State) (v : Nat) : (storeSpan n s v).out = s.out := rfl
@[simp] theorem storeSpan_outptr (n : Nat) (s : State) (v : Nat) : (storeSpan n s v).outptr = s.outptr := rfl
@[simp] theorem storeSpan_frameCount (n : Nat) (s : State) (v : Nat) : (storeSpan n s v).frameCount = s.frameCount := rfl
@[simp] theorem storeSpan_inMem (n : Nat) (s : State) (v : Nat) : (storeSpan n s v).inMem = s.inMem := rfl
@[simp] theorem storeSpan_fpos (n : Nat) (s : State) (v : Nat) : (storeSpan n s v).fpos = s.fpos := rfl
@[simp] theorem storeSpan_seq (n : Nat) (s : State) (v : Nat) : (storeSpan n s v).seq = s.seq := rfl
@[simp] theorem storeSpan_work (n : Nat) (s : State) (v : Nat) : (storeSpan n s v).work = s.work := rfl
@[simp] theorem storeSpan_params (n : Nat) (s : State) (v : Nat) : (storeSpan n s v).params = s.params := rfl
@[simp] theorem storeSpan_epoch (n : Nat) (s : State) (v : Nat) : (storeSpan n s v).epoch = s.epoch := rfl
@[simp] theorem storeSpan_draws (n : Nat) (s : State) (v : Nat) : (storeSpan n s v).draws = s.draws + 1 := rfl

@[simp] theorem commit_host (s : State) (w : Work) (c : Cur) : (commit s w c).host = s.host := rfl
@[simp] theorem commit_cmd (s : State) (w : Work) (c : Cur) : (commit s w c).cmd = s.cmd := rfl
@[simp] theorem commit_arg (s : State) (w : Work) (c : Cur) : (commit s w c).arg = s.arg := rfl
@[simp] theorem commit_done (s : State) (w : Work) (c : Cur) : (commit s w c).done = s.done := rfl
@[simp] theorem commit_fv (s : State) (w : Work) (c : Cur) : (commit s w c).fv = true := rfl
@[simp] theorem commit_errCode (s : State) (w : Work) (c : Cur) : (commit s w c).errCode = s.errCode := rfl
@[simp] theorem commit_errPos (s : State) (w : Work) (c : Cur) : (commit s w c).errPos = s.errPos := rfl
@[simp] theorem commit_result (s : State) (w : Work) (c : Cur) : (commit s w c).result = BitVec.ofNat 64 (w.hdr.bs * w.hdr.channels) := rfl
@[simp] theorem commit_pos (s : State) (w : Work) (c : Cur) : (commit s w c).pos = BitVec.ofNat 64 c.cur := rfl
@[simp] theorem commit_len (s : State) (w : Work) (c : Cur) : (commit s w c).len = s.len := rfl
@[simp] theorem commit_streamRate (s : State) (w : Work) (c : Cur) : (commit s w c).streamRate = s.streamRate := rfl
@[simp] theorem commit_streamCh (s : State) (w : Work) (c : Cur) : (commit s w c).streamCh = s.streamCh := rfl
@[simp] theorem commit_streamBps (s : State) (w : Work) (c : Cur) : (commit s w c).streamBps = s.streamBps := rfl
@[simp] theorem commit_streamTotal (s : State) (w : Work) (c : Cur) : (commit s w c).streamTotal = s.streamTotal := rfl
@[simp] theorem commit_rateWritten (s : State) (w : Work) (c : Cur) : (commit s w c).rateWritten = s.rateWritten := rfl
@[simp] theorem commit_chWritten (s : State) (w : Work) (c : Cur) : (commit s w c).chWritten = s.chWritten := rfl
@[simp] theorem commit_bpsWritten (s : State) (w : Work) (c : Cur) : (commit s w c).bpsWritten = s.bpsWritten := rfl
@[simp] theorem commit_span (s : State) (w : Work) (c : Cur) : (commit s w c).span = s.span := rfl
@[simp] theorem commit_spanLen (s : State) (w : Work) (c : Cur) : (commit s w c).spanLen = s.spanLen := rfl
@[simp] theorem commit_frame (s : State) (w : Work) (c : Cur) : (commit s w c).frame = frameRegs (s.draws + 1) w := rfl
@[simp] theorem commit_out (s : State) (w : Work) (c : Cur) : (commit s w c).out = writeBlock s.out s.outptr.toNat (interleave w.hdr.bs w.chan) := rfl
@[simp] theorem commit_outptr (s : State) (w : Work) (c : Cur) : (commit s w c).outptr = BitVec.ofNat 64 (s.outptr.toNat + w.hdr.bs * w.hdr.channels) := rfl
@[simp] theorem commit_frameCount (s : State) (w : Work) (c : Cur) : (commit s w c).frameCount = s.frameCount + 1 := rfl
@[simp] theorem commit_inMem (s : State) (w : Work) (c : Cur) : (commit s w c).inMem = s.inMem := rfl
@[simp] theorem commit_fpos (s : State) (w : Work) (c : Cur) : (commit s w c).fpos = BitVec.ofNat 64 c.fpos := rfl
@[simp] theorem commit_seq (s : State) (w : Work) (c : Cur) : (commit s w c).seq = none := rfl
@[simp] theorem commit_work (s : State) (w : Work) (c : Cur) : (commit s w c).work = Work.idle := rfl
@[simp] theorem commit_params (s : State) (w : Work) (c : Cur) : (commit s w c).params = s.params := rfl
@[simp] theorem commit_epoch (s : State) (w : Work) (c : Cur) : (commit s w c).epoch = s.epoch := rfl
@[simp] theorem commit_draws (s : State) (w : Work) (c : Cur) : (commit s w c).draws = s.draws + 2 := rfl

@[simp] theorem workDone_host (s : State) (w : Work) (fpos : Nat) : (workDone s w fpos).host = s.host := rfl
@[simp] theorem workDone_cmd (s : State) (w : Work) (fpos : Nat) : (workDone s w fpos).cmd = s.cmd := rfl
@[simp] theorem workDone_arg (s : State) (w : Work) (fpos : Nat) : (workDone s w fpos).arg = s.arg := rfl
@[simp] theorem workDone_done (s : State) (w : Work) (fpos : Nat) : (workDone s w fpos).done = s.done := rfl
@[simp] theorem workDone_fv (s : State) (w : Work) (fpos : Nat) : (workDone s w fpos).fv = s.fv := rfl
@[simp] theorem workDone_errCode (s : State) (w : Work) (fpos : Nat) : (workDone s w fpos).errCode = s.errCode := rfl
@[simp] theorem workDone_errPos (s : State) (w : Work) (fpos : Nat) : (workDone s w fpos).errPos = s.errPos := rfl
@[simp] theorem workDone_result (s : State) (w : Work) (fpos : Nat) : (workDone s w fpos).result = s.result := rfl
@[simp] theorem workDone_pos (s : State) (w : Work) (fpos : Nat) : (workDone s w fpos).pos = s.pos := rfl
@[simp] theorem workDone_len (s : State) (w : Work) (fpos : Nat) : (workDone s w fpos).len = s.len := rfl
@[simp] theorem workDone_streamRate (s : State) (w : Work) (fpos : Nat) : (workDone s w fpos).streamRate = s.streamRate := rfl
@[simp] theorem workDone_streamCh (s : State) (w : Work) (fpos : Nat) : (workDone s w fpos).streamCh = s.streamCh := rfl
@[simp] theorem workDone_streamBps (s : State) (w : Work) (fpos : Nat) : (workDone s w fpos).streamBps = s.streamBps := rfl
@[simp] theorem workDone_streamTotal (s : State) (w : Work) (fpos : Nat) : (workDone s w fpos).streamTotal = s.streamTotal := rfl
@[simp] theorem workDone_rateWritten (s : State) (w : Work) (fpos : Nat) : (workDone s w fpos).rateWritten = s.rateWritten := rfl
@[simp] theorem workDone_chWritten (s : State) (w : Work) (fpos : Nat) : (workDone s w fpos).chWritten = s.chWritten := rfl
@[simp] theorem workDone_bpsWritten (s : State) (w : Work) (fpos : Nat) : (workDone s w fpos).bpsWritten = s.bpsWritten := rfl
@[simp] theorem workDone_span (s : State) (w : Work) (fpos : Nat) : (workDone s w fpos).span = s.span := rfl
@[simp] theorem workDone_spanLen (s : State) (w : Work) (fpos : Nat) : (workDone s w fpos).spanLen = s.spanLen := rfl
@[simp] theorem workDone_frame (s : State) (w : Work) (fpos : Nat) : (workDone s w fpos).frame = s.frame := rfl
@[simp] theorem workDone_out (s : State) (w : Work) (fpos : Nat) : (workDone s w fpos).out = s.out := rfl
@[simp] theorem workDone_outptr (s : State) (w : Work) (fpos : Nat) : (workDone s w fpos).outptr = s.outptr := rfl
@[simp] theorem workDone_frameCount (s : State) (w : Work) (fpos : Nat) : (workDone s w fpos).frameCount = s.frameCount := rfl
@[simp] theorem workDone_inMem (s : State) (w : Work) (fpos : Nat) : (workDone s w fpos).inMem = s.inMem := rfl
@[simp] theorem workDone_fpos (s : State) (w : Work) (fpos : Nat) : (workDone s w fpos).fpos = BitVec.ofNat 64 fpos := rfl
@[simp] theorem workDone_seq (s : State) (w : Work) (fpos : Nat) : (workDone s w fpos).seq = none := rfl
@[simp] theorem workDone_work (s : State) (w : Work) (fpos : Nat) : (workDone s w fpos).work = w := rfl
@[simp] theorem workDone_params (s : State) (w : Work) (fpos : Nat) : (workDone s w fpos).params = s.params := rfl
@[simp] theorem workDone_epoch (s : State) (w : Work) (fpos : Nat) : (workDone s w fpos).epoch = s.epoch := rfl
@[simp] theorem workDone_draws (s : State) (w : Work) (fpos : Nat) : (workDone s w fpos).draws = s.draws := rfl

end Sys2Proof.Machine
end

