-- ==== Sys2Proof/Laws/Stage.lean ====
section
/-! SUPPORT. What a stage can do, once for each shared operation: peeling a sequence of reads and checks apart, what each
primitive answers, and what a cursor command or a bitstream code makes of its stage's answer. -/

namespace Sys2Proof.Machine

variable {α β : Type}

/-- A sequence of two stages, applied. -/
theorem bind_apply (x : Stage α) (f : α → Stage β) (c : Cur) :
    (x >>= f) c = match x c with | .ok (a, c') => f a c' | .error e => .error e := by
  show Except.bind (x c) _ = _
  cases x c <;> rfl

@[simp] theorem pure_apply (a : α) (c : Cur) : (pure a : Stage α) c = .ok (a, c) := rfl

@[simp] theorem get_apply (c : Cur) : (get : Stage Cur) c = .ok (c, c) := rfl

@[simp] theorem raise_apply (e : ErrCode) (c : Cur) : (raise e : Stage α) c = .error ⟨e, c.fpos⟩ := rfl

/-- A sequence succeeds exactly when both parts do. -/
@[simp] theorem bind_eq_ok {x : Stage α} {f : α → Stage β} {c : Cur} {r : β × Cur} :
    (x >>= f) c = .ok r ↔ ∃ a c', x c = .ok (a, c') ∧ f a c' = .ok r := by
  rw [bind_apply]
  cases h : x c with
  | error e => simp
  | ok p => obtain ⟨a, c'⟩ := p; simp

/-- A sequence raises what its first failing part raises. -/
@[simp] theorem bind_eq_error {x : Stage α} {f : α → Stage β} {c : Cur} {e : Raise} :
    (x >>= f) c = .error e ↔ x c = .error e ∨ ∃ a c', x c = .ok (a, c') ∧ f a c' = .error e := by
  rw [bind_apply]
  cases h : x c with
  | error e' => simp
  | ok p => obtain ⟨a, c'⟩ := p; simp

@[simp] theorem map_eq_ok {x : Stage α} {f : α → β} {c c' : Cur} {b : β} :
    (f <$> x) c = .ok (b, c') ↔ ∃ a, x c = .ok (a, c') ∧ f a = b := by
  show Except.bind (x c) _ = _ ↔ _
  cases h : x c with
  | error e => simp [Except.bind]
  | ok p => obtain ⟨a, c''⟩ := p; simp [Except.bind, pure, Except.pure]; tauto

@[simp] theorem map_eq_error {x : Stage α} {f : α → β} {c : Cur} {e : Raise} :
    (f <$> x) c = .error e ↔ x c = .error e := by
  show Except.bind (x c) _ = _ ↔ _
  cases h : x c <;> simp [Except.bind, pure, Except.pure]

@[simp] theorem raiseIf_eq_ok {b : Bool} {e : ErrCode} {c c' : Cur} {u : Unit} :
    raiseIf b e c = .ok (u, c') ↔ b = false ∧ c' = c := by
  cases b <;> simp [raiseIf, eq_comm]

@[simp] theorem raiseIf_eq_error {b : Bool} {e : ErrCode} {c : Cur} {r : Raise} :
    raiseIf b e c = .error r ↔ b = true ∧ r = ⟨e, c.fpos⟩ := by
  cases b <;> simp [raiseIf, eq_comm]

/-- A fixed-width read succeeds exactly when its bits are there (40_cursor.md rule R162). -/
theorem takeBits_eq_ok {s : State} {w : Nat} {f : Nat → α} {c c' : Cur} {a : α} :
    takeBits s w f c = .ok (a, c') ↔ c.cur + w ≤ endPos s ∧ a = f c.cur ∧ c' = ⟨c.cur + w, c.cur⟩ := by
  unfold takeBits
  split
  · simp; omega
  · simp [eq_comm]; omega

theorem takeBits_eq_error {s : State} {w : Nat} {f : Nat → α} {c : Cur} {e : Raise} :
    takeBits s w f c = .error e ↔ endPos s < c.cur + w ∧ e = ⟨.outOfBounds, c.cur⟩ := by
  unfold takeBits
  split
  · simp [eq_comm]; omega
  · simp; omega

@[simp] theorem takeU_eq_ok {s : State} {w : Nat} {c c' : Cur} {v : Nat} :
    takeU s w c = .ok (v, c') ↔ c.cur + w ≤ endPos s ∧ v = bitRead s c.cur w ∧ c' = ⟨c.cur + w, c.cur⟩ :=
  takeBits_eq_ok

@[simp] theorem takeU_eq_error {s : State} {w : Nat} {c : Cur} {e : Raise} :
    takeU s w c = .error e ↔ endPos s < c.cur + w ∧ e = ⟨.outOfBounds, c.cur⟩ := takeBits_eq_error

@[simp] theorem takeS_eq_ok {s : State} {w : Nat} {c c' : Cur} {v : Int} :
    takeS s w c = .ok (v, c') ↔
      c.cur + w ≤ endPos s ∧ v = sext w (bitRead s c.cur w) ∧ c' = ⟨c.cur + w, c.cur⟩ := takeBits_eq_ok

@[simp] theorem takeS_eq_error {s : State} {w : Nat} {c : Cur} {e : Raise} :
    takeS s w c = .error e ↔ endPos s < c.cur + w ∧ e = ⟨.outOfBounds, c.cur⟩ := takeBits_eq_error

/-- A value of `w` bits is below 2^w. -/
theorem bitRead_lt (s : State) (p w : Nat) : bitRead s p w < 2 ^ w := by
  induction w with
  | zero => simp [bitRead]
  | succ w ih =>
    have : (bitAt s (p + w)).toNat ≤ 1 := Bool.toNat_le _
    simp only [bitRead, Nat.pow_succ]
    omega

/-- A read split in two (20_memory.md rule R85). -/
theorem bitRead_add (s : State) (p w v : Nat) :
    bitRead s p (w + v) = bitRead s p w * 2 ^ v + bitRead s (p + w) v := by
  induction v with
  | zero => simp [bitRead]
  | succ v ih =>
    rw [← Nat.add_assoc]
    simp only [bitRead, ih, Nat.pow_succ, Nat.add_assoc]
    ring

/-- The scan for the first 1 bit finds exactly a unary field (40_cursor.md rule R166). -/
theorem zeroRun_eq_some {s : State} {p room n : Nat} :
    zeroRun s p room = some n ↔
      (∀ j < n, bitAt s (p + j) = false) ∧ bitAt s (p + n) = true ∧ n < room := by
  induction room generalizing p n with
  | zero => simp [zeroRun]
  | succ room ih =>
    unfold zeroRun
    split
    · next h =>
      constructor
      · rintro ⟨⟩
        simpa using h
      · rintro ⟨h0, -, -⟩
        cases n with
        | zero => rfl
        | succ n =>
          have := h0 0 (by omega)
          simp_all
    · next h =>
      cases n with
      | zero => simp_all
      | succ n =>
        simp only [Option.map_eq_some_iff, Nat.add_right_cancel_iff, exists_eq_right, ih]
        constructor
        · rintro ⟨h0, h1, h2⟩
          refine ⟨fun j hj => ?_, by rw [← h1]; congr 1; omega, by omega⟩
          cases j with
          | zero => simpa using h
          | succ j => rw [← h0 j (by omega)]; congr 1; omega
        · rintro ⟨h0, h1, h2⟩
          refine ⟨fun j hj => ?_, by rw [← h1]; congr 1; omega, by omega⟩
          rw [← h0 (j + 1) (by omega)]
          congr 1
          omega

theorem zeroRun_eq_none {s : State} {p room : Nat} :
    zeroRun s p room = none ↔ ∀ j < room, bitAt s (p + j) = false := by
  induction room generalizing p with
  | zero => simp [zeroRun]
  | succ room ih =>
    unfold zeroRun
    split
    · next h =>
      simp only [reduceCtorEq, false_iff]
      intro h0
      have := h0 0 (by omega)
      simp_all
    · next h =>
      simp only [Option.map_eq_none_iff, ih]
      constructor
      · intro h0 j hj
        cases j with
        | zero => simpa using h
        | succ j => rw [← h0 j (by omega)]; congr 1; omega
      · intro h0 j hj
        rw [← h0 (j + 1) (by omega)]
        congr 1
        omega

@[simp] theorem takeUnary_eq_ok {s : State} {c c' : Cur} {n : Nat} :
    takeUnary s c = .ok (n, c') ↔ unaryAt s c.cur n ∧ c' = ⟨c.cur + n + 1, c.cur⟩ := by
  unfold takeUnary unaryAt
  cases h : zeroRun s c.cur (endPos s - c.cur) with
  | none =>
    rw [zeroRun_eq_none] at h
    simp only [reduceCtorEq, false_iff]
    rintro ⟨⟨-, h1, h2⟩, -⟩
    have := h n (by omega)
    simp_all
  | some m =>
    rw [zeroRun_eq_some] at h
    obtain ⟨h0, h1, h2⟩ := h
    simp only [Except.ok.injEq, Prod.mk.injEq]
    constructor
    · rintro ⟨rfl, rfl⟩
      exact ⟨⟨h0, h1, by omega⟩, rfl⟩
    · rintro ⟨⟨g0, g1, g2⟩, rfl⟩
      have hmn : m = n := by
        rcases Nat.lt_trichotomy m n with h | h | h
        · have := g0 m h
          simp_all
        · exact h
        · have := h0 n h
          simp_all
      subst hmn
      exact ⟨rfl, rfl⟩

@[simp] theorem takeUnary_eq_error {s : State} {c : Cur} {e : Raise} :
    takeUnary s c = .error e ↔
      (∀ p, c.cur ≤ p → p < endPos s → bitAt s p = false) ∧ e = ⟨.outOfBounds, c.cur⟩ := by
  unfold takeUnary
  cases h : zeroRun s c.cur (endPos s - c.cur) with
  | none =>
    rw [zeroRun_eq_none] at h
    simp only [Except.error.injEq, eq_comm, iff_and_self]
    rintro - p hp hp'
    rw [← h (p - c.cur) (by omega)]
    congr 1
    omega
  | some m =>
    rw [zeroRun_eq_some] at h
    obtain ⟨h0, h1, h2⟩ := h
    simp only [reduceCtorEq, false_iff, not_and]
    intro h3
    have := h3 (c.cur + m) (by omega) (by omega)
    simp_all

theorem signedFields_zero (s : State) (p w : Nat) : signedFields s p w 0 = [] := rfl

theorem signedFields_succ (s : State) (p w n : Nat) :
    signedFields s p w (n + 1) = sext w (bitRead s p w) :: signedFields s (p + w) w n := by
  unfold signedFields
  rw [List.range_succ_eq_map, List.map_cons, List.map_map]
  refine congrArg₂ _ (by simp) (List.map_congr_left fun j _ => ?_)
  simp only [Function.comp_apply]
  rw [show p + w * (j + 1) = p + w + w * j by ring]

@[simp] theorem signedFields_length (s : State) (p w n : Nat) : (signedFields s p w n).length = n := by
  simp [signedFields]

/-- `n` signed fields in a row: they are there, and the last of them is the last read. -/
theorem takeSMany_eq_ok {s : State} {w n : Nat} {c c' : Cur} {vs : List Int} :
    takeSMany s w n c = .ok (vs, c') ↔
      (n = 0 ∨ c.cur + n * w ≤ endPos s) ∧ vs = signedFields s c.cur w n ∧
        c' = if n = 0 then c else ⟨c.cur + n * w, c.cur + (n - 1) * w⟩ := by
  induction n generalizing c c' vs with
  | zero => simp [takeSMany, signedFields_zero, eq_comm]
  | succ n ih =>
    simp only [takeSMany, bind_eq_ok, takeS_eq_ok, ih, pure_apply, Except.ok.injEq, Prod.mk.injEq, signedFields_succ]
    have e1 : c.cur + w + n * w = c.cur + (n + 1) * w := by ring
    have e2 : 1 ≤ n → c.cur + w + (n - 1) * w = c.cur + n * w := by
      intro h
      obtain ⟨m, rfl⟩ : ∃ m, n = m + 1 := ⟨n - 1, by omega⟩
      simp only [Nat.add_sub_cancel]
      ring
    constructor
    · rintro ⟨v, c1, ⟨h1, rfl, rfl⟩, vs', c2, ⟨h2, rfl, rfl⟩, rfl, rfl⟩
      refine ⟨.inr ?_, rfl, ?_⟩
      · rcases h2 with rfl | h2
        · simpa using h1
        · rw [← e1]
          exact h2
      · rcases Nat.eq_zero_or_pos n with rfl | hn
        · simp
        · simp only [show n ≠ 0 by omega, if_false, Nat.add_eq_zero_iff, one_ne_zero, and_false, Nat.add_sub_cancel,
            e1, e2 hn]
    · rintro ⟨h1, rfl, rfl⟩
      have h1 : c.cur + (n + 1) * w ≤ endPos s := by simpa using h1
      have h0 : c.cur + w ≤ endPos s := by
        rw [← e1] at h1
        omega
      refine ⟨_, _, ⟨h0, rfl, rfl⟩, _, _, ⟨.inr (by rw [e1]; exact h1), rfl, rfl⟩, rfl, ?_⟩
      rcases Nat.eq_zero_or_pos n with rfl | hn
      · simp
      · simp only [show n ≠ 0 by omega, if_false, Nat.add_eq_zero_iff, one_ne_zero, and_false, Nat.add_sub_cancel,
          e1, e2 hn]

/-- `n` signed fields in a row raise at the first of them that does not fit. -/
theorem takeSMany_error {s : State} {w n j : Nat} {c : Cur} (hj : j < n) (h : firstMissing s c.cur w j) :
    takeSMany s w n c = .error ⟨.outOfBounds, c.cur + j * w⟩ := by
  obtain ⟨h1, h2⟩ := h
  unfold bitsAt at h1 h2
  induction n generalizing c j with
  | zero => omega
  | succ n ih =>
    unfold takeSMany
    cases j with
    | zero => exact bind_eq_error.2 (.inl (takeS_eq_error.2 ⟨by simpa using h2, by simp⟩))
    | succ j =>
      have e1 : c.cur + w + j * w = c.cur + (j + 1) * w := by ring
      have e2 : c.cur + w + (j + 1) * w = c.cur + (j + 1 + 1) * w := by ring
      have h0 := h1 (by omega)
      refine bind_eq_error.2 (.inr ⟨_, _, takeS_eq_ok.2 ⟨by rw [← e1] at h0; omega, rfl, rfl⟩, bind_eq_error.2 (.inl ?_)⟩)
      rw [ih (j := j) (by omega) (fun _ => by rw [e1]; exact h0) (by rw [e2]; exact h2), e1]

/-- One codeword (43_residual.md rules R266 to R268). -/
theorem riceCodeword_eq_ok {s : State} {k : Nat} {c c' : Cur} {v : Int} :
    riceCodeword s k c = .ok (v, c') ↔
      ∃ q, unaryAt s c.cur q ∧ c.cur + q + 1 + k ≤ endPos s ∧
        q * 2 ^ k + bitRead s (c.cur + q + 1) k < 2 ^ 64 ∧
          v = zigzag (q * 2 ^ k + bitRead s (c.cur + q + 1) k) ∧ c' = ⟨c.cur + q + 1 + k, c.cur + q + 1⟩ := by
  simp only [riceCodeword, bind_eq_ok, takeUnary_eq_ok, takeU_eq_ok, raiseIf_eq_ok, pure_apply, Except.ok.injEq,
    Prod.mk.injEq, ge_iff_le, decide_eq_false_iff_not, Nat.not_le]
  constructor
  · rintro ⟨q, _, ⟨hq, rfl⟩, r, _, ⟨hb, rfl, rfl⟩, _, _, ⟨hlt, rfl⟩, rfl, rfl⟩
    exact ⟨q, hq, hb, hlt, rfl, rfl⟩
  · rintro ⟨q, hq, hb, hlt, rfl, rfl⟩
    exact ⟨q, _, ⟨hq, rfl⟩, _, _, ⟨hb, rfl, rfl⟩, (), _, ⟨hlt, rfl⟩, rfl, rfl⟩

/-- The entry checks of a cursor command pass exactly when ARG is legal and LEN is (40_cursor.md rule R160). -/
theorem cursorEntry_eq_ok {s : State} {legal : Bool} {c c' : Cur} {u : Unit} :
    cursorEntry s legal c = .ok (u, c') ↔ legal = true ∧ lenOk s ∧ c' = c := by
  simp only [cursorEntry, bind_eq_ok, raiseIf_eq_ok, lenOk, Bool.not_eq_false', gt_iff_lt, decide_eq_false_iff_not,
    Nat.not_lt]
  constructor
  · rintro ⟨_, _, ⟨h1, rfl⟩, h2, rfl⟩
    exact ⟨h1, h2, rfl⟩
  · rintro ⟨h1, h2, rfl⟩
    exact ⟨(), _, ⟨h1, rfl⟩, h2, rfl⟩

/-- A cursor command whose read succeeds. -/
theorem runRead_ok {s : State} {legal : Bool} {read : Stage α} {store : State → α → State} {v : α} {c : Cur}
    (hl : legal = true) (hc : lenOk s) (hr : read (startCur s) = .ok (v, c)) :
    runRead s legal read store =
      .next (finish { store s v with pos := BitVec.ofNat 64 c.cur, fpos := BitVec.ofNat 64 c.fpos }) := by
  have h : (do cursorEntry s legal; read : Stage α) (startCur s) = .ok (v, c) :=
    bind_eq_ok.2 ⟨(), startCur s, cursorEntry_eq_ok.2 ⟨hl, hc, rfl⟩, hr⟩
  unfold runRead
  rw [h]

/-- A cursor command always answers a next state: its read's effect, or error entry at POS and nothing else. -/
theorem runRead_cases (s : State) (legal : Bool) (read : Stage α) (store : State → α → State) :
    (∃ v c, legal = true ∧ lenOk s ∧ read (startCur s) = .ok (v, c) ∧
      runRead s legal read store =
        .next (finish { store s v with pos := BitVec.ofNat 64 c.cur, fpos := BitVec.ofNat 64 c.fpos })) ∨
    (legal = false ∧ runRead s legal read store = .next (takeError s ⟨.illegalArgument, s.pos.toNat⟩)) ∨
    (legal = true ∧ ¬ lenOk s ∧ runRead s legal read store = .next (takeError s ⟨.configError, s.pos.toNat⟩)) ∨
    (∃ e, legal = true ∧ lenOk s ∧ read (startCur s) = .error e ∧ runRead s legal read store = .next (takeError s e)) := by
  cases hl : legal with
  | false =>
    refine .inr (.inl ⟨rfl, ?_⟩)
    have h : (do cursorEntry s false; read : Stage α) (startCur s) = .error ⟨.illegalArgument, s.pos.toNat⟩ := by
      simp [cursorEntry, startCur]
    unfold runRead
    rw [h]
  | true =>
    by_cases hc : lenOk s
    · cases hr : read (startCur s) with
      | ok p => exact .inl ⟨p.1, p.2, rfl, hc, rfl, runRead_ok rfl hc hr⟩
      | error e =>
        refine .inr (.inr (.inr ⟨e, rfl, hc, rfl, ?_⟩))
        have h : (do cursorEntry s true; read : Stage α) (startCur s) = .error e :=
          bind_eq_error.2 (.inr ⟨(), startCur s, cursorEntry_eq_ok.2 ⟨rfl, hc, rfl⟩, hr⟩)
        unfold runRead
        rw [h]
    · refine .inr (.inr (.inl ⟨rfl, hc, ?_⟩))
      have h : (do cursorEntry s true; read : Stage α) (startCur s) = .error ⟨.configError, s.pos.toNat⟩ := by
        simp only [lenOk, Nat.not_le] at hc
        simp [cursorEntry, startCur, hc]
      unfold runRead
      rw [h]

/-- A bitstream code whose stage succeeds. -/
theorem runStage_ok {s : State} {stage : Work → Stage Work} {w : Work} {c : Cur}
    (h : stage s.work (workCur s) = .ok (w, c)) :
    runStage s stage = .next (workDone s { w with cur := c.cur } c.fpos) := by
  unfold runStage
  rw [show (⟨s.work.cur, s.fpos.toNat⟩ : Cur) = workCur s from rfl, h]
  rfl

/-- A bitstream code whose stage raises. -/
theorem runStage_error {s : State} {stage : Work → Stage Work} {e : Raise}
    (h : stage s.work (workCur s) = .error e) : runStage s stage = .next (failFrame s e) := by
  unfold runStage
  rw [show (⟨s.work.cur, s.fpos.toNat⟩ : Cur) = workCur s from rfl, h]

/-- A bitstream code always answers a next state. -/
theorem runStage_cases (s : State) (stage : Work → Stage Work) :
    (∃ w c, stage s.work (workCur s) = .ok (w, c) ∧
      runStage s stage = .next (workDone s { w with cur := c.cur } c.fpos)) ∨
    (∃ e, stage s.work (workCur s) = .error e ∧ runStage s stage = .next (failFrame s e)) := by
  cases h : stage s.work (workCur s) with
  | ok p => exact .inl ⟨p.1, p.2, rfl, runStage_ok h⟩
  | error e => exact .inr ⟨e, rfl, runStage_error h⟩

theorem runHdr_ok {s : State} {stage : Hdr → Stage Hdr} {h : Hdr} {c : Cur}
    (hs : stage s.work.hdr (workCur s) = .ok (h, c)) :
    runHdr s stage = .next (workDone s { s.work with cur := c.cur, hdr := h } c.fpos) :=
  runStage_ok (w := { s.work with hdr := h }) (by simp [hs])

theorem runHdr_error {s : State} {stage : Hdr → Stage Hdr} {e : Raise}
    (hs : stage s.work.hdr (workCur s) = .error e) : runHdr s stage = .next (failFrame s e) :=
  runStage_error (by simp [hs])

theorem runSubframe_ok {s : State} {stage : Subframe → Stage Subframe} {f : Subframe} {c : Cur}
    (hs : stage s.work.sub (workCur s) = .ok (f, c)) :
    runSubframe s stage = .next (workDone s { s.work with cur := c.cur, sub := f } c.fpos) :=
  runStage_ok (w := { s.work with sub := f }) (by simp [hs])

theorem runSubframe_error {s : State} {stage : Subframe → Stage Subframe} {e : Raise}
    (hs : stage s.work.sub (workCur s) = .error e) : runSubframe s stage = .next (failFrame s e) :=
  runStage_error (by simp [hs])

@[simp] theorem workCur_cur (s : State) : (workCur s).cur = s.work.cur := rfl

@[simp] theorem workCur_fpos (s : State) : (workCur s).fpos = s.fpos.toNat := rfl

/-- A failed frame decode leaves alone all that R384 and R343 keep. -/
theorem failFrame_failed (s : State) (e : Raise) : frameFailed s (failFrame s e) e.code e.pos :=
  ⟨⟨rfl, rfl, rfl, rfl, rfl, rfl, rfl, rfl, rfl, rfl, rfl, rfl, rfl, rfl, rfl, rfl, rfl, rfl, rfl, rfl, rfl⟩, rfl, rfl,
    rfl, rfl⟩

end Sys2Proof.Machine
end

