-- ==== Sys2Proof/Laws/Step.lean ====
section
/-! SUPPORT. What a step is, by the state it starts in: the sequencer's field, the next host access, or nothing. -/

namespace Sys2Proof.Machine

theorem step_field {s : State} {f : Field} (h : s.seq = some f) : step s = fieldStep s f := by
  unfold step
  rw [h]

theorem step_host {s : State} {a : HostAction} {rest : List HostAction} (h : s.seq = none) (ha : s.host = a :: rest) :
    step s = hostStep { s with host := rest } a := by
  unfold step
  rw [h, ha]

theorem step_idle {s : State} (h : s.seq = none) (ha : s.host = []) : step s = .next s := by
  unfold step
  rw [h, ha]

/-- A write of CMD is the arrival of a command word. -/
theorem hostStep_cmd (s : State) (v : Word64) : hostStep s (.writeReg 0 v) = runWord s (v.setWidth 16) := by
  simp [hostStep]

/-- A word that is not ignored and decodes is a command that begins. -/
theorem runWord_runs {s : State} {w : Word16} {i : Instr} (hi : ignoredWord s w = false) (hd : decodeCmd w = .ok i) :
    runWord s w = exec i (beginCommand (storeCmd s w)) := by
  unfold runWord
  rw [if_neg (by simp [hi]), hd]

/-- A word that is not ignored and does not decode is ILLEGAL_COMMAND. -/
theorem runWord_illegal {s : State} {w : Word16} {r : Reject} (hi : ignoredWord s w = false)
    (hd : decodeCmd w = .error r) : runWord s w = .next (illegalWord (beginCommand (storeCmd s w))) := by
  unfold runWord
  rw [if_neg (by simp [hi]), hd]

/-- The sticky test depends on ERR_CODE and OP alone. -/
theorem ignoredWord_eq_false {s : State} {w : Word16} :
    ignoredWord s w = false ↔ s.errCode = .noError ∨ opField w = 0x1F := by
  unfold ignoredWord
  simp only [decide_eq_false_iff_not, not_and_or, not_not]

/-- A field step whose fetch succeeds. -/
theorem fieldStep_ok {s : State} {f : Field} {i : Instr} {c : Cur} (h : fetchField s f (workCur s) = .ok (i, c)) :
    fieldStep s f = exec i (afterFetch s c) := by
  unfold fieldStep
  rw [show (⟨s.work.cur, s.fpos.toNat⟩ : Cur) = workCur s from rfl, h]

/-- A field step whose fetch raises. -/
theorem fieldStep_error {s : State} {f : Field} {e : Raise} (h : fetchField s f (workCur s) = .error e) :
    fieldStep s f = .next (failFrame s e) := by
  unfold fieldStep
  rw [show (⟨s.work.cur, s.fpos.toNat⟩ : Cur) = workCur s from rfl, h]

end Sys2Proof.Machine
end

