-- ==== Sys2Proof/Laws/Frame.lean ====
section
/-! SUPPORT. What the stages of a frame decode answer when they succeed: one lemma for each stage, cited by the next. -/

namespace Sys2Proof.Machine

/-! ## Header -/

theorem frameStart_eq_ok {c c' : Cur} {p : Nat} :
    frameStart c = .ok (p, c') ↔ c.cur % 8 = 0 ∧ p = c.cur ∧ c' = ⟨c.cur, c.cur⟩ := by
  unfold frameStart
  split
  · simp_all
  · simp_all [eq_comm]

theorem syncField_eq_ok {s : State} {c c' : Cur} {u : Unit} :
    syncField s c = .ok (u, c') ↔
      c.cur + 15 ≤ endPos s ∧ bitRead s c.cur 15 = 0x7FFC ∧ c' = ⟨c.cur + 15, c.cur⟩ := by
  simp only [syncField, bind_eq_ok, takeU_eq_ok, raiseIf_eq_ok, ne_eq, decide_not, Bool.not_eq_false',
    decide_eq_true_eq]
  constructor
  · rintro ⟨v, _, ⟨h1, rfl, rfl⟩, h2, rfl⟩
    exact ⟨h1, h2, rfl⟩
  · rintro ⟨h1, h2, rfl⟩
    exact ⟨_, _, ⟨h1, rfl, rfl⟩, h2, rfl⟩

theorem bscodeField_eq_ok {v : Nat} {h h' : Hdr} {c c' : Cur} :
    bscodeField v h c = .ok (h', c') ↔ v ≠ 0 ∧ h' = { h with bscode := v } ∧ c' = c := by
  simp only [bscodeField, bind_eq_ok, raiseIf_eq_ok, pure_apply, Except.ok.injEq, Prod.mk.injEq,
    decide_eq_false_iff_not]
  constructor
  · rintro ⟨_, _, ⟨h1, rfl⟩, rfl, rfl⟩
    exact ⟨h1, rfl, rfl⟩
  · rintro ⟨h1, rfl, rfl⟩
    exact ⟨(), _, ⟨h1, rfl⟩, rfl, rfl⟩

theorem srcodeField_eq_ok {v : Nat} {h h' : Hdr} {c c' : Cur} :
    srcodeField v h c = .ok (h', c') ↔ v ≠ 15 ∧ h' = { h with srcode := v } ∧ c' = c := by
  simp only [srcodeField, bind_eq_ok, raiseIf_eq_ok, pure_apply, Except.ok.injEq, Prod.mk.injEq,
    decide_eq_false_iff_not]
  constructor
  · rintro ⟨_, _, ⟨h1, rfl⟩, rfl, rfl⟩
    exact ⟨h1, rfl, rfl⟩
  · rintro ⟨h1, rfl, rfl⟩
    exact ⟨(), _, ⟨h1, rfl⟩, rfl, rfl⟩

theorem chcodeField_eq_ok {v : Nat} {h h' : Hdr} {c c' : Cur} :
    chcodeField v h c = .ok (h', c') ↔ v < 11 ∧ h' = { h with chcode := v } ∧ c' = c := by
  simp only [chcodeField, bind_eq_ok, raiseIf_eq_ok, pure_apply, Except.ok.injEq, Prod.mk.injEq,
    decide_eq_false_iff_not, ge_iff_le, Nat.not_le]
  constructor
  · rintro ⟨_, _, ⟨h1, rfl⟩, rfl, rfl⟩
    exact ⟨h1, rfl, rfl⟩
  · rintro ⟨h1, rfl, rfl⟩
    exact ⟨(), _, ⟨h1, rfl⟩, rfl, rfl⟩

theorem bdcodeField_eq_ok {v : Nat} {h h' : Hdr} {c c' : Cur} :
    bdcodeField v h c = .ok (h', c') ↔ v ≠ 3 ∧ h' = { h with bdcode := v } ∧ c' = c := by
  simp only [bdcodeField, bind_eq_ok, raiseIf_eq_ok, pure_apply, Except.ok.injEq, Prod.mk.injEq,
    decide_eq_false_iff_not]
  constructor
  · rintro ⟨_, _, ⟨h1, rfl⟩, rfl, rfl⟩
    exact ⟨h1, rfl, rfl⟩
  · rintro ⟨h1, rfl, rfl⟩
    exact ⟨(), _, ⟨h1, rfl⟩, rfl, rfl⟩

/-- The first 32 bits of a header that passes, field by field (41_frame_header.md rules R201 to R208). -/
theorem headerCodes_ok {s : State} {c c' : Cur} {h : Hdr} (hs : headerCodes s c = .ok (h, c')) :
    c.cur % 8 = 0 ∧ c.cur + 32 ≤ endPos s ∧ c' = ⟨c.cur + 32, c.cur + 31⟩ ∧
      bitRead s c.cur 15 = 0x7FFC ∧ bitRead s (c.cur + 31) 1 = 0 ∧
      h = { Hdr.idle with
        start := c.cur
        strategy := bitRead s (c.cur + 15) 1
        bscode := bitRead s (c.cur + 16) 4
        srcode := bitRead s (c.cur + 20) 4
        chcode := bitRead s (c.cur + 24) 4
        bdcode := bitRead s (c.cur + 28) 3 } ∧
      h.bscode ≠ 0 ∧ h.srcode ≠ 15 ∧ h.chcode < 11 ∧ h.bdcode ≠ 3 := by
  simp only [headerCodes, bind_eq_ok, frameStart_eq_ok, syncField_eq_ok, takeU_eq_ok, bscodeField_eq_ok,
    srcodeField_eq_ok, chcodeField_eq_ok, bdcodeField_eq_ok, reservedBitField, raiseIf_eq_ok, pure_apply,
    Except.ok.injEq, Prod.mk.injEq] at hs
  obtain ⟨_, _, ⟨h0, rfl, rfl⟩, _, _, ⟨_, hsync, rfl⟩, _, _, ⟨_, rfl, rfl⟩, _, _, ⟨_, rfl, rfl⟩, _, _, ⟨hb, rfl, rfl⟩,
    _, _, ⟨_, rfl, rfl⟩, _, _, ⟨hr, rfl, rfl⟩, _, _, ⟨_, rfl, rfl⟩, _, _, ⟨hc, rfl, rfl⟩, _, _, ⟨_, rfl, rfl⟩, _, _,
    ⟨hd, rfl, rfl⟩, _, _, ⟨he, rfl, rfl⟩, _, _, ⟨hz, rfl⟩, rfl, rfl⟩ := hs
  simp only [Nat.add_assoc, Nat.reduceAdd] at *
  refine ⟨h0, he, by trivial, hsync, by simpa using hz, by trivial, hb, hr, hc, hd⟩

/-- What a lead byte announces, against `numberBytes` (30_encoding.md rule R124). -/
theorem leadInfo_eq_some {lead n v : Nat} (h : leadInfo lead = some (n, v)) : n = numberBytes lead ∧
    v = if lead < 0x80 then lead else if lead < 0xE0 then lead % 32 else if lead < 0xF0 then lead % 16 else lead % 8 := by
  unfold leadInfo at h
  unfold numberBytes
  split_ifs at h ⊢ <;> simp only [Option.some.injEq, Prod.mk.injEq] at h <;> omega

/-- A continuation byte that is one adds six bits (R168). -/
theorem continuations_eq_some {s : State} {p v n u : Nat} (h : continuations s p v (n + 1) = some u) :
    continuations s (p + 8) (v * 64 + bitRead s p 8 % 64) n = some u := by
  unfold continuations at h
  split at h
  · next x hx =>
    unfold addContinuation at hx
    split at hx
    · simp only [Option.some.injEq] at hx
      rwa [← hx] at h
    · simp at hx
  · simp at h

/-- NUMBER's value and place (40_cursor.md rule R168). -/
theorem takeUtf8_value {s : State} {c c' : Cur} {v : Nat} (h : takeUtf8 s c = .ok (v, c')) :
    v = numberOf s c.cur ∧ c'.cur = c.cur + 8 * numberBytes (bitRead s c.cur 8) := by
  simp only [takeUtf8, bind_eq_ok, takeU_eq_ok] at h
  obtain ⟨lead, _, ⟨hb, rfl, rfl⟩, h⟩ := h
  cases hi : leadInfo (bitRead s c.cur 8) with
  | none => simp [hi] at h
  | some np =>
    obtain ⟨n, p⟩ := np
    obtain ⟨rfl, rfl⟩ := leadInfo_eq_some hi
    rw [hi] at h
    unfold utf8Rest at h
    simp only at h
    split at h
    · simp at h
    · split at h
      · next y hy =>
        simp only [Except.ok.injEq, Prod.mk.injEq] at h
        obtain ⟨rfl, rfl⟩ := h
        refine ⟨?_, rfl⟩
        unfold numberOf numberBytes at *
        simp only [Nat.mul_zero, Nat.add_zero, Nat.mul_one] at hy ⊢
        split_ifs at hy ⊢ <;> simp only [Nat.reduceSub] at hy
        · simpa [continuations] using hy.symm
        · simpa [continuations] using (continuations_eq_some hy).symm
        · simpa [continuations] using (continuations_eq_some (continuations_eq_some hy)).symm
        · simpa [continuations] using
            (continuations_eq_some (continuations_eq_some (continuations_eq_some hy))).symm
      · simp at h

/-- NUMBER: 1 to 4 bytes, and a value below 2^21 (40_cursor.md rule R168). -/
theorem takeUtf8_ok {s : State} {c c' : Cur} {v : Nat} (h : takeUtf8 s c = .ok (v, c')) :
    ∃ n, 1 ≤ n ∧ n ≤ 4 ∧ c.cur + 8 * n ≤ endPos s ∧ c' = ⟨c.cur + 8 * n, c.cur⟩ ∧ v < 2 ^ 21 := by
  have hcont : ∀ (k p x y : Nat), continuations s p x k = some y → y < (x + 1) * 64 ^ k := by
    intro k
    induction k with
    | zero => intro p x y h; simp only [continuations, Option.some.injEq] at h; omega
    | succ k ih =>
      intro p x y h
      simp only [continuations] at h
      split at h
      · next x' hx =>
        have hx' : x' + 1 ≤ (x + 1) * 64 := by
          unfold addContinuation at hx
          split at hx
          · simp only [Option.some.injEq] at hx
            omega
          · simp at hx
        calc y < (x' + 1) * 64 ^ k := ih _ _ _ h
          _ ≤ (x + 1) * 64 * 64 ^ k := Nat.mul_le_mul_right _ hx'
          _ = (x + 1) * 64 ^ (k + 1) := by ring
      · simp at h
  simp only [takeUtf8, bind_eq_ok, takeU_eq_ok] at h
  obtain ⟨lead, _, ⟨hb, rfl, rfl⟩, h⟩ := h
  have hlead := bitRead_lt s c.cur 8
  have key : ∀ n p, leadInfo (bitRead s c.cur 8) = some (n, p) → 1 ≤ n ∧ n ≤ 4 ∧ (p + 1) * 64 ^ (n - 1) ≤ 2 ^ 21 := by
    intro n p hi
    unfold leadInfo at hi
    split_ifs at hi <;> simp only [Option.some.injEq, Prod.mk.injEq] at hi <;> obtain ⟨rfl, rfl⟩ := hi <;>
      refine ⟨by omega, by omega, ?_⟩ <;> norm_num <;> omega
  cases hi : leadInfo (bitRead s c.cur 8) with
  | none => simp [hi] at h
  | some np =>
    obtain ⟨n, p⟩ := np
    obtain ⟨h1, h4, hp⟩ := key n p hi
    rw [hi] at h
    unfold utf8Rest at h
    simp only at h
    split at h
    · simp at h
    · next hb2 =>
      split at h
      · next y hy =>
        simp only [Except.ok.injEq, Prod.mk.injEq] at h
        obtain ⟨rfl, rfl⟩ := h
        exact ⟨n, h1, h4, by omega, rfl, lt_of_lt_of_le (hcont _ _ _ _ hy) hp⟩
      · simp at h

theorem blockSize_ok {s : State} {h h' : Hdr} {c c' : Cur} (hs : blockSize s h c = .ok (h', c')) 
    (h16 : h.bscode < 16) :
    ∃ bs, h' = { h with bs := bs } ∧ 1 ≤ bs ∧ bs ≤ 65536 ∧
      (c' = c ∨ c' = ⟨c.cur + 8, c.cur⟩ ∧ c.cur + 8 ≤ endPos s ∨ c' = ⟨c.cur + 16, c.cur⟩ ∧ c.cur + 16 ≤ endPos s) := by
  unfold blockSize at hs
  split_ifs at hs with h1 h2 h3 h4
  · simp only [pure_apply, Except.ok.injEq, Prod.mk.injEq] at hs
    exact ⟨192, hs.1.symm, by omega, by omega, .inl hs.2.symm⟩
  · simp only [pure_apply, Except.ok.injEq, Prod.mk.injEq] at hs
    refine ⟨_, hs.1.symm, ?_, ?_, .inl hs.2.symm⟩
    · exact Nat.mul_pos (by omega) (Nat.pos_of_ne_zero (by simp))
    · have : 2 ^ (h.bscode - 2) ≤ 2 ^ 3 := Nat.pow_le_pow_right (by omega) (by omega)
      omega
  · simp only [bind_eq_ok, takeU_eq_ok, pure_apply, Except.ok.injEq, Prod.mk.injEq] at hs
    obtain ⟨v, _, ⟨hb, rfl, rfl⟩, rfl, rfl⟩ := hs
    have := bitRead_lt s c.cur 8
    exact ⟨_, rfl, by omega, by omega, .inr (.inl ⟨rfl, hb⟩)⟩
  · simp only [bind_eq_ok, takeU_eq_ok, pure_apply, Except.ok.injEq, Prod.mk.injEq] at hs
    obtain ⟨v, _, ⟨hb, rfl, rfl⟩, rfl, rfl⟩ := hs
    have := bitRead_lt s c.cur 16
    exact ⟨_, rfl, by omega, by omega, .inr (.inr ⟨rfl, hb⟩)⟩
  · simp only [pure_apply, Except.ok.injEq, Prod.mk.injEq] at hs
    refine ⟨_, hs.1.symm, ?_, ?_, .inl hs.2.symm⟩
    · exact Nat.mul_pos (by omega) (Nat.pos_of_ne_zero (by simp))
    · have : 2 ^ (h.bscode - 8) ≤ 2 ^ 7 := Nat.pow_le_pow_right (by omega) (by omega)
      omega

theorem sampleRate_ok {s : State} {h h' : Hdr} {c c' : Cur} (hs : sampleRate s h c = .ok (h', c')) :
    ∃ rate, h' = { h with rate := rate } ∧ rate < 2 ^ 32 ∧
      (c' = c ∨ c' = ⟨c.cur + 8, c.cur⟩ ∧ c.cur + 8 ≤ endPos s ∨ c' = ⟨c.cur + 16, c.cur⟩ ∧ c.cur + 16 ≤ endPos s) := by
  unfold sampleRate at hs
  split_ifs at hs with h1 h2 h3 h4
  · simp only [pure_apply, Except.ok.injEq, Prod.mk.injEq] at hs
    exact ⟨_, hs.1.symm, s.streamRate.isLt, .inl hs.2.symm⟩
  · simp only [pure_apply, Except.ok.injEq, Prod.mk.injEq] at hs
    refine ⟨_, hs.1.symm, ?_, .inl hs.2.symm⟩
    unfold rateTable
    split <;> norm_num
  · simp only [bind_eq_ok, takeU_eq_ok, pure_apply, Except.ok.injEq, Prod.mk.injEq] at hs
    obtain ⟨v, _, ⟨hb, rfl, rfl⟩, rfl, rfl⟩ := hs
    have := bitRead_lt s c.cur 8
    exact ⟨_, rfl, by omega, .inr (.inl ⟨rfl, hb⟩)⟩
  · simp only [bind_eq_ok, takeU_eq_ok, pure_apply, Except.ok.injEq, Prod.mk.injEq] at hs
    obtain ⟨v, _, ⟨hb, rfl, rfl⟩, rfl, rfl⟩ := hs
    have := bitRead_lt s c.cur 16
    exact ⟨_, rfl, by omega, .inr (.inr ⟨rfl, hb⟩)⟩
  · simp only [bind_eq_ok, takeU_eq_ok, pure_apply, Except.ok.injEq, Prod.mk.injEq] at hs
    obtain ⟨v, _, ⟨hb, rfl, rfl⟩, rfl, rfl⟩ := hs
    have := bitRead_lt s c.cur 16
    exact ⟨_, rfl, by omega, .inr (.inr ⟨rfl, hb⟩)⟩

/-- The block size that BSCODE and BS_ESC give, and the place after BS_ESC (R210). -/
theorem blockSize_value {s : State} {h h' : Hdr} {c c' : Cur} (hs : blockSize s h c = .ok (h', c')) :
    h'.bs = (if h.bscode = 1 then 192
      else if h.bscode ≤ 5 then 576 * 2 ^ (h.bscode - 2)
      else if h.bscode = 6 then bitRead s c.cur 8 + 1
      else if h.bscode = 7 then bitRead s c.cur 16 + 1
      else 256 * 2 ^ (h.bscode - 8)) ∧
    c'.cur = c.cur + if h.bscode = 6 then 8 else if h.bscode = 7 then 16 else 0 := by
  unfold blockSize at hs
  split_ifs at hs ⊢ <;>
    simp only [bind_eq_ok, takeU_eq_ok, pure_apply, Except.ok.injEq, Prod.mk.injEq] at hs <;> try omega
  · exact ⟨by rw [← hs.1], by rw [← hs.2]; rfl⟩
  · exact ⟨by rw [← hs.1], by rw [← hs.2]; rfl⟩
  · obtain ⟨v, _, ⟨-, rfl, rfl⟩, rfl, rfl⟩ := hs
    exact ⟨rfl, rfl⟩
  · obtain ⟨v, _, ⟨-, rfl, rfl⟩, rfl, rfl⟩ := hs
    exact ⟨rfl, rfl⟩
  · exact ⟨by rw [← hs.1], by rw [← hs.2]; rfl⟩

/-- The sample rate that SRCODE and SR_ESC give, and the place after SR_ESC (R211). -/
theorem sampleRate_value {s : State} {h h' : Hdr} {c c' : Cur} (hs : sampleRate s h c = .ok (h', c'))
    (h14 : h.srcode < 15) :
    h'.rate = (if h.srcode = 0 then s.streamRate.toNat
      else if h.srcode ≤ 11 then rateTable h.srcode
      else if h.srcode = 12 then bitRead s c.cur 8 * 1000
      else if h.srcode = 13 then bitRead s c.cur 16
      else bitRead s c.cur 16 * 10) ∧
    c'.cur = c.cur + if h.srcode = 12 then 8 else if h.srcode = 13 ∨ h.srcode = 14 then 16 else 0 := by
  unfold sampleRate at hs
  split_ifs at hs ⊢ <;>
    simp only [bind_eq_ok, takeU_eq_ok, pure_apply, Except.ok.injEq, Prod.mk.injEq] at hs <;> try omega
  · exact ⟨by rw [← hs.1], by rw [← hs.2]; rfl⟩
  · exact ⟨by rw [← hs.1], by rw [← hs.2]; rfl⟩
  · obtain ⟨v, _, ⟨-, rfl, rfl⟩, rfl, rfl⟩ := hs
    exact ⟨rfl, rfl⟩
  · obtain ⟨v, _, ⟨-, rfl, rfl⟩, rfl, rfl⟩ := hs
    exact ⟨rfl, rfl⟩
  · obtain ⟨v, _, ⟨-, rfl, rfl⟩, rfl, rfl⟩ := hs
    exact ⟨rfl, rfl⟩

/-- CRC8 is read, and when VERIFY_CRC holds it is the checksum of the bytes before it (R214). -/
theorem headerCrc_ok {s : State} {h h' : Hdr} {c c' : Cur} (hs : headerCrc s h c = .ok (h', c')) :
    c.cur + 8 ≤ endPos s ∧ h' = { h with crc8 := bitRead s c.cur 8 } ∧ c' = ⟨c.cur + 8, c.cur⟩ ∧
      (s.params.verifyCrc = true →
        (crc8Of (memRead s (h.start / 8) (c.cur / 8 - h.start / 8))).toNat = bitRead s c.cur 8) := by
  simp only [headerCrc, bind_eq_ok, takeU_eq_ok, get_apply, raiseIf_eq_ok, pure_apply, Except.ok.injEq,
    Prod.mk.injEq] at hs
  obtain ⟨v, _, ⟨hb, rfl, rfl⟩, _, _, ⟨rfl, rfl⟩, _, _, ⟨hv, rfl⟩, rfl, rfl⟩ := hs
  refine ⟨hb, rfl, rfl, fun h => ?_⟩
  simpa [h] using hv

/-- What a decoded header satisfies (10_state.md rule R43). -/
structure HdrOk (s : State) (h : Hdr) : Prop where
  strategy : h.strategy < 2
  bscode : h.bscode < 16
  srcode : h.srcode < 16
  chcode : h.chcode ≤ 10
  bdcode : h.bdcode < 8
  number : h.number < 2 ^ 21
  bs_pos : 1 ≤ h.bs
  bs_le : h.bs ≤ 65536
  rate : h.rate < 2 ^ 32
  channels : h.channels = s.streamCh.toNat
  channels_pos : 1 ≤ h.channels
  channels_le : h.channels ≤ 8
  stereo : 8 ≤ h.chcode → h.channels = 2
  bps_inherit : h.bdcode = 0 → h.bps = s.streamBps.toNat
  bps_table : h.bdcode ≠ 0 → h.bps = 8 ∨ h.bps = 12 ∨ h.bps = 16 ∨ h.bps = 20 ∨ h.bps = 24 ∨ h.bps = 32
  crc8 : h.crc8 < 2 ^ 8

/-- What the header's fields are, read from the bits of a header that starts at bit position `p` (R200 to R214). -/
structure HdrBits (s : State) (p : Nat) (h : Hdr) : Prop where
  codes : headerCodesPass s p
  strategy : h.strategy = bitRead s (p + 15) 1
  bscode : h.bscode = bitRead s (p + 16) 4
  srcode : h.srcode = bitRead s (p + 20) 4
  chcode : h.chcode = bitRead s (p + 24) 4
  bdcode : h.bdcode = bitRead s (p + 28) 3
  number : h.number = numberOf s (p + 32)
  bs : h.bs = blockSizeOf s p
  rate : h.rate = sampleRateOf s p
  channels : h.channels = channelCount h.chcode
  crc8 : h.crc8 = bitRead s (crc8At s p) 8
  good : s.params.verifyCrc = true → headerCrcGood s p

/-- A header that passes holds what its bits say, and ends after CRC8 (R200 to R214). -/
theorem frameHeader_bits {s : State} {c c' : Cur} {h : Hdr} (hs : frameHeader s c = .ok (h, c')) :
    HdrBits s c.cur h ∧ c' = ⟨crc8At s c.cur + 8, crc8At s c.cur⟩ := by
  simp only [frameHeader, bind_eq_ok] at hs
  obtain ⟨h1, c1, hc, hr⟩ := hs
  obtain ⟨ha, hb, rfl, hsync, hrsv, hh, hbs, hsr, hch, hbd⟩ := headerCodes_ok hc
  simp only [headerRest, bind_eq_ok] at hr
  obtain ⟨number, c2, hn, h2, c3, hbz, h3, c4, hrt, h4, c5, hcrc, _, c6, hcc, hp⟩ := hr
  obtain ⟨hnum, hc2⟩ := takeUtf8_value hn
  obtain ⟨hbs2, hc3⟩ := blockSize_value hbz
  have e1 : h1.bscode < 16 := by rw [hh]; exact bitRead_lt s _ 4
  have e2 : h1.srcode < 16 := by rw [hh]; exact bitRead_lt s _ 4
  obtain ⟨bs, rfl, -⟩ := blockSize_ok hbz e1
  obtain ⟨hrt2, hc4⟩ := sampleRate_value hrt (by simp only; omega)
  obtain ⟨rate, rfl, -⟩ := sampleRate_ok hrt
  obtain ⟨-, rfl, rfl, hgood⟩ := headerCrc_ok hcrc
  simp only [channelCheck, raiseIf_eq_ok] at hcc
  obtain ⟨-, rfl⟩ := hcc
  simp only [pure_apply, Except.ok.injEq, Prod.mk.injEq] at hp
  obtain ⟨rfl, rfl⟩ := hp
  simp only at hc2 hbs2 hc3 hrt2 hc4 hnum
  have hset : ∀ g : Hdr, channelSetup g = { g with channels := (channelSetup g).channels, side := (channelSetup g).side } := by
    intro g
    unfold channelSetup
    split_ifs <;> rfl
  have b0 : h1.start = c.cur := by rw [hh]
  have b2 : h1.bscode = bitRead s (c.cur + 16) 4 := by rw [hh]
  have b3 : h1.srcode = bitRead s (c.cur + 20) 4 := by rw [hh]
  have b4 : h1.chcode = bitRead s (c.cur + 24) 4 := by rw [hh]
  have b5 : h1.bdcode = bitRead s (c.cur + 28) 3 := by rw [hh]
  rw [b2] at hbs hbs2 hc3
  rw [b3] at hsr hrt2 hc4
  have k1 : c2.cur = bsEscAt s c.cur := hc2
  have k2 : c3.cur = srEscAt s c.cur := by rw [hc3, k1]; rfl
  have k3 : c4.cur = crc8At s c.cur := by rw [hc4, k2]; rfl
  rw [k3] at hgood ⊢
  rw [hset (bitDepth s { h1 with number := number, bs := bs, rate := rate })] at hgood ⊢
  have hbit : bitAt s (c.cur + 31) = false := by
    simpa [bitRead] using hrsv
  refine ⟨⟨⟨ha, hb, hsync, hbs, hsr, by rwa [b4] at hch, by rwa [b5] at hbd, hbit⟩, by simp only [bitDepth, hh], b2, b3,
    b4, b5, hnum, ?_, ?_, ?_, rfl, fun hv => ?_⟩, rfl⟩
  · exact hbs2.trans (by rw [k1]; rfl)
  · exact hrt2.trans (by rw [k2]; rfl)
  · simp only [channelSetup, channelCount]
    split_ifs <;> rfl
  · have := hgood hv
    simp only [bitDepth, b0] at this
    exact this

/-- A header that passes: its fields are in range, it starts and ends on byte boundaries, and it is at least 48 bits long
(R200 to R217). -/
theorem frameHeader_ok {s : State} {c c' : Cur} {h : Hdr} (hs : frameHeader s c = .ok (h, c')) :
    HdrOk s h ∧ h.start = c.cur ∧ c.cur % 8 = 0 ∧ c'.cur % 8 = 0 ∧ c.cur + 48 ≤ c'.cur ∧ c'.cur ≤ endPos s := by
  simp only [frameHeader, bind_eq_ok] at hs
  obtain ⟨h1, c1, hc, hr⟩ := hs
  obtain ⟨ha, hb, rfl, -, -, hh, hbs, hsr, hch, hbd⟩ := headerCodes_ok hc
  have e1 : h1.bscode < 16 := by rw [hh]; exact bitRead_lt s _ 4
  have e2 : h1.srcode < 16 := by rw [hh]; exact bitRead_lt s _ 4
  have e3 : h1.bdcode < 8 := by rw [hh]; exact bitRead_lt s _ 3
  have e4 : h1.strategy < 2 := by rw [hh]; exact bitRead_lt s _ 1
  have e5 : h1.start = c.cur := by rw [hh]
  simp only [headerRest, bind_eq_ok] at hr
  obtain ⟨number, c2, hn, h2, c3, hbz, h3, c4, hrt, h4, c5, hcrc, _, c6, hcc, hp⟩ := hr
  obtain ⟨n, hn1, hn4, hnb, rfl, hnum⟩ := takeUtf8_ok hn
  obtain ⟨bs, rfl, hb1, hb2, hc3⟩ := blockSize_ok hbz e1
  obtain ⟨rate, rfl, hrate, hc4⟩ := sampleRate_ok hrt
  obtain ⟨hcb, rfl, rfl, -⟩ := headerCrc_ok hcrc
  simp only [channelCheck, raiseIf_eq_ok, ne_eq, decide_not, Bool.not_eq_false', decide_eq_true_eq] at hcc
  obtain ⟨hcc, rfl⟩ := hcc
  simp only [pure_apply, Except.ok.injEq, Prod.mk.injEq] at hp
  obtain ⟨rfl, rfl⟩ := hp
  have hcrc8 := bitRead_lt s c4.cur 8
  have hbps : (h1.bdcode = 0 → (bitDepth s { h1 with number := number, bs := bs, rate := rate }).bps = s.streamBps.toNat) ∧
      (h1.bdcode ≠ 0 → let b := (bitDepth s { h1 with number := number, bs := bs, rate := rate }).bps
        b = 8 ∨ b = 12 ∨ b = 16 ∨ b = 20 ∨ b = 24 ∨ b = 32) := by
    constructor
    · intro h0
      simp [bitDepth, h0]
    · intro h0
      simp only [bitDepth, h0, if_false]
      have : h1.bdcode = 1 ∨ h1.bdcode = 2 ∨ h1.bdcode = 4 ∨ h1.bdcode = 5 ∨ h1.bdcode = 6 ∨ h1.bdcode = 7 := by omega
      rcases this with h | h | h | h | h | h <;> simp [h, depthTable]
  have hset : ∀ g : Hdr, channelSetup g = { g with channels := (channelSetup g).channels, side := (channelSetup g).side } := by
    intro g
    unfold channelSetup
    split_ifs <;> rfl
  have hch' : ∀ g : Hdr, g.chcode < 11 →
      1 ≤ (channelSetup g).channels ∧ (channelSetup g).channels ≤ 8 ∧ (8 ≤ g.chcode → (channelSetup g).channels = 2) := by
    intro g hg
    unfold channelSetup
    split_ifs with h
    · exact ⟨by simp, by simp; omega, by simp; omega⟩
    · simp
    · simp
  obtain ⟨k1, k2, k3⟩ := hch' (bitDepth s { h1 with number := number, bs := bs, rate := rate }) hch
  rw [hset (bitDepth s { h1 with number := number, bs := bs, rate := rate })] at hcc ⊢
  refine ⟨⟨e4, e1, e2, by simp [bitDepth]; omega, e3, hnum, hb1, hb2, hrate, hcc, k1, k2, k3, hbps.1, hbps.2, hcrc8⟩, e5, ha,
    ?_, ?_, ?_⟩ <;>
  rcases hc3 with rfl | ⟨rfl, hc3⟩ | ⟨rfl, hc3⟩ <;> rcases hc4 with rfl | ⟨rfl, hc4⟩ | ⟨rfl, hc4⟩ <;> simp only at * <;>
    omega

/-! ## Residual -/

/-- What reading moves: the cursor goes forward and stays inside the input. -/
def Advances (s : State) (c c' : Cur) : Prop := c.cur ≤ c'.cur ∧ (c.cur ≤ endPos s → c'.cur ≤ endPos s)

theorem Advances.refl {s : State} (c : Cur) : Advances s c c := ⟨le_rfl, id⟩

theorem Advances.trans {s : State} {a b c : Cur} (h1 : Advances s a b) (h2 : Advances s b c) : Advances s a c :=
  ⟨h1.1.trans h2.1, fun h => h2.2 (h1.2 h)⟩

theorem takeU_advances {s : State} {w : Nat} {c c' : Cur} {v : Nat} (h : takeU s w c = .ok (v, c')) :
    Advances s c c' := by
  obtain ⟨h1, -, rfl⟩ := takeU_eq_ok.1 h
  exact ⟨by simp, fun _ => h1⟩

theorem takeSMany_advances {s : State} {w n : Nat} {c c' : Cur} {vs : List Int} (h : takeSMany s w n c = .ok (vs, c')) :
    Advances s c c' := by
  obtain ⟨h1, -, rfl⟩ := takeSMany_eq_ok.1 h
  split
  · exact .refl c
  · next hn => exact ⟨by simp, fun _ => h1.resolve_left hn⟩

theorem takeSMany_length {s : State} {w n : Nat} {c c' : Cur} {vs : List Int} (h : takeSMany s w n c = .ok (vs, c')) :
    vs.length = n := by
  rw [(takeSMany_eq_ok.1 h).2.1, signedFields_length]

theorem riceCodeword_advances {s : State} {k : Nat} {c c' : Cur} {v : Int} (h : riceCodeword s k c = .ok (v, c')) :
    Advances s c c' := by
  obtain ⟨q, -, hb, -, -, rfl⟩ := riceCodeword_eq_ok.1 h
  exact ⟨by simp; omega, fun _ => hb⟩

/-- A field of at most 64 bits, sign-extended, fits 64 bits (00_scope.md rule R17). -/
theorem inRange_sext {w v : Nat} (hw : w ≤ 64) (hv : v < 2 ^ w) : inRange 64 (sext w v) = true := by
  unfold inRange sext
  rw [decide_eq_true_eq]
  split_ifs with h0 h1
  · norm_num
  · have h2 : 2 ^ (w - 1) ≤ 2 ^ 63 := Nat.pow_le_pow_right (by omega) (by omega)
    have h3 : (2 : Int) ^ (64 - 1) = ((2 ^ 63 : Nat) : Int) := by norm_num
    rw [h3]
    omega
  · obtain ⟨u, rfl⟩ : ∃ u, w = u + 1 := ⟨w - 1, by omega⟩
    have h2 : 2 ^ u ≤ 2 ^ 63 := Nat.pow_le_pow_right (by omega) (by omega)
    have h3 : (2 : Int) ^ (64 - 1) = ((2 ^ 63 : Nat) : Int) := by norm_num
    have h4 : (2 : Int) ^ (u + 1) = ((2 ^ u * 2 : Nat) : Int) := by push_cast; ring
    rw [Nat.pow_succ] at hv
    rw [h3, h4]
    simp only [Nat.add_sub_cancel] at h1
    omega

theorem inRange_signedFields {s : State} {p w n : Nat} (hw : w ≤ 64) :
    ∀ v ∈ signedFields s p w n, inRange 64 v = true := by
  intro v hv
  obtain ⟨j, -, rfl⟩ := List.mem_map.1 hv
  exact inRange_sext hw (bitRead_lt s _ w)

/-- An accepted codeword unfolds to a 64-bit value (43_residual.md rules R267, R268). -/
theorem inRange_zigzag {u : Nat} (h : u < 2 ^ 64) : inRange 64 (zigzag u) = true := by
  unfold inRange zigzag
  rw [decide_eq_true_eq]
  norm_num at h ⊢
  split_ifs <;> omega

/-- A Rice partition answers as many values as it has codewords, each of 64 bits. -/
theorem rice_ok {s : State} {k n : Nat} {c c' : Cur} {vs : List Int} (h : rice s k n c = .ok (vs, c')) :
    vs.length = n ∧ Advances s c c' ∧ ∀ v ∈ vs, inRange 64 v = true := by
  induction n generalizing c c' vs with
  | zero =>
    simp only [rice, pure_apply, Except.ok.injEq, Prod.mk.injEq] at h
    obtain ⟨rfl, rfl⟩ := h
    exact ⟨rfl, .refl _, by simp⟩
  | succ n ih =>
    simp only [rice, bind_eq_ok, pure_apply, Except.ok.injEq, Prod.mk.injEq] at h
    obtain ⟨v, c1, h1, vs', c2, h2, rfl, rfl⟩ := h
    obtain ⟨h3, h4, h5⟩ := ih h2
    refine ⟨by simp [h3], (riceCodeword_advances h1).trans h4, ?_⟩
    obtain ⟨q, -, -, hlt, rfl, -⟩ := riceCodeword_eq_ok.1 h1
    intro v hv
    rcases List.mem_cons.1 hv with rfl | hv
    · exact inRange_zigzag hlt
    · exact h5 v hv

/-- A partition appends its entry, a 6-bit number, and as many residuals as its count; nothing else of the record
changes (43_residual.md rules R265 to R272). -/
theorem partition_ok {s : State} {bs : Nat} {f g : Subframe} {c c' : Cur} (h : partition s bs f c = .ok (g, c')) :
    Advances s c c' ∧ ∃ entry vs, g = addPartition f entry vs ∧ vs.length = currentCount bs f ∧ entry < 64 ∧
      ∀ v ∈ vs, inRange 64 v = true := by
  simp only [partition, bind_eq_ok] at h
  obtain ⟨param, c1, hp, h⟩ := h
  have hadv := takeU_advances hp
  have hparam : param < 32 := by
    rw [(takeU_eq_ok.1 hp).2.1]
    refine lt_of_lt_of_le (bitRead_lt s _ _) ?_
    unfold paramBits
    split <;> norm_num
  split at h
  · simp only [escapePartition, escapeField, bind_eq_ok, raiseIf_eq_ok] at h
    obtain ⟨bits, c2, h2, _, _, ⟨hneg, rfl⟩, h⟩ := h
    have hadv2 := hadv.trans (takeU_advances h2)
    have hbits : bits < 32 := by
      rw [(takeU_eq_ok.1 h2).2.1]
      exact bitRead_lt s _ 5
    have hw : (escapeWidth s bits).toNat < 32 := by
      unfold escapeWidth sext
      split_ifs <;> omega
    split at h
    · simp only [bind_eq_ok, pure_apply, Except.ok.injEq, Prod.mk.injEq] at h
      obtain ⟨vs, c3, ⟨rfl, rfl⟩, rfl, rfl⟩ := h
      refine ⟨hadv2, _, _, rfl, by simp, by omega, ?_⟩
      intro v hv
      rw [(List.mem_replicate.1 hv).2]
      decide
    · simp only [bind_eq_ok, pure_apply, Except.ok.injEq, Prod.mk.injEq] at h
      obtain ⟨vs, c3, h3, rfl, rfl⟩ := h
      refine ⟨hadv2.trans (takeSMany_advances h3), _, _, rfl, takeSMany_length h3, by omega, ?_⟩
      rw [(takeSMany_eq_ok.1 h3).2.1]
      exact inRange_signedFields (by omega)
  · simp only [ricePartition, bind_eq_ok, pure_apply, Except.ok.injEq, Prod.mk.injEq] at h
    obtain ⟨vs, c2, h2, rfl, rfl⟩ := h
    obtain ⟨h3, h4, h5⟩ := rice_ok h2
    exact ⟨hadv.trans h4, _, _, rfl, h3, by omega, h5⟩

/-- The sum of the counts of partitions `i`, …, `i + n - 1`. -/
def countsFrom (bs order porder i n : Nat) : Nat := ((List.range' i n).map (partitionCount bs order porder)).sum

theorem partitions_ok {s : State} {bs n : Nat} {f g : Subframe} {c c' : Cur} (h : partitions s bs n f c = .ok (g, c')) :
    Advances s c c' ∧ ∃ es vs, g = { f with rpart := f.rpart ++ es, res := f.res ++ vs } ∧ es.length = n ∧
      vs.length = countsFrom bs f.order f.porder f.rpart.length n ∧ (∀ e ∈ es, e < 64) ∧
      ∀ v ∈ vs, inRange 64 v = true := by
  induction n generalizing f c with
  | zero =>
    simp only [partitions, pure_apply, Except.ok.injEq, Prod.mk.injEq] at h
    obtain ⟨rfl, rfl⟩ := h
    exact ⟨.refl _, [], [], by simp, rfl, rfl, by simp, by simp⟩
  | succ n ih =>
    simp only [partitions, bind_eq_ok] at h
    obtain ⟨f1, c1, h1, h2⟩ := h
    obtain ⟨ha, entry, vs, rfl, hl, he, hv⟩ := partition_ok h1
    obtain ⟨hb, es, ws, rfl, hes, hws, hall, hw⟩ := ih h2
    refine ⟨ha.trans hb, entry :: es, vs ++ ws, by simp [addPartition], by simp [hes], ?_, ?_, ?_⟩
    · rw [List.length_append, hl, hws]
      simp [addPartition, countsFrom, currentCount, List.range'_succ]
    · intro e hm
      rcases List.mem_cons.1 hm with rfl | hm
      · exact he
      · exact hall e hm
    · intro v hm
      rcases List.mem_append.1 hm with hm | hm
      · exact hv v hm
      · exact hw v hm

/-- The whole residual (R260 to R264, R272). -/
theorem residual_ok {s : State} {bs : Nat} {f g : Subframe} {c c' : Cur} (h : residual s bs f c = .ok (g, c')) :
    Advances s c c' ∧ c.cur + 6 ≤ endPos s ∧ c.cur + 6 ≤ c'.cur ∧ bitRead s c.cur 2 < 2 ∧
      ∃ es vs, g = { f with
        method := bitRead s c.cur 2, porder := bitRead s (c.cur + 2) 4, rpart := es, res := vs } ∧
        es.length = 2 ^ bitRead s (c.cur + 2) 4 ∧ vs.length + f.order = bs ∧ (∀ e ∈ es, e < 64) ∧
        ∀ v ∈ vs, inRange 64 v = true := by
  simp only [residual, methodField, bind_eq_ok, takeU_eq_ok, raiseIf_eq_ok, pure_apply, Except.ok.injEq,
    Prod.mk.injEq, ge_iff_le, decide_eq_false_iff_not, Nat.not_le, lengthCheck, ne_eq, decide_not,
    Bool.not_eq_false', decide_eq_true_eq] at h
  obtain ⟨m, _, ⟨hb1, rfl, rfl⟩, f1, _, ⟨_, _, ⟨hm, rfl⟩, rfl, rfl⟩, p, _, ⟨hb2, rfl, rfl⟩, _, _, ⟨hl, rfl⟩, h⟩ := h
  obtain ⟨hadv, es, vs, rfl, hes, hvs, hall⟩ := partitions_ok h
  simp only [Nat.add_assoc, Nat.reduceAdd, List.nil_append, List.length_nil] at *
  refine ⟨⟨?_, fun _ => hadv.2 hb2⟩, hb2, hadv.1, hm, es, vs, rfl, hes, ?_, hall⟩
  · have := hadv.1
    simp only at this
    omega
  · have : countsFrom bs f.order (bitRead s (c.cur + 2) 4) 0 (2 ^ bitRead s (c.cur + 2) 4) =
        totalCount bs f.order (bitRead s (c.cur + 2) 4) := by
      unfold countsFrom totalCount
      rw [List.range_eq_range']
    rw [this] at hvs
    omega

/-! ## Subframes -/

theorem rebuild_ok {s : State} {coefs : List Int} {shift : Nat} {warm : List Int} {f g : Subframe} {c c' : Cur}
    (h : rebuild s coefs shift warm f c = .ok (g, c')) :
    c' = c ∧ ∃ vs, reconstruct s.params.datapathBits coefs shift warm.reverse f.res = some vs ∧
      g = { f with samples := warm ++ vs } := by
  unfold rebuild at h
  cases hr : reconstruct s.params.datapathBits coefs shift warm.reverse f.res with
  | none => simp [hr] at h
  | some vs =>
    simp only [hr, pure_apply, Except.ok.injEq, Prod.mk.injEq] at h
    exact ⟨h.2.symm, vs, rfl, h.1.symm⟩

theorem reconstruct_length {d : Nat} {coefs : List Int} {shift : Nat} {past res vs : List Int}
    (h : reconstruct d coefs shift past res = some vs) : vs.length = res.length := by
  induction res generalizing past vs with
  | nil =>
    simp only [reconstruct, Option.some.injEq] at h
    simp [← h]
  | cons r res ih =>
    simp only [reconstruct] at h
    split at h
    · split at h
      · split at h
        · next hr =>
          simp only [Option.some.injEq] at h
          simp [← h, ih hr]
        · simp at h
      · simp at h
    · simp at h

/-- Every reconstructed sample is in DR (44_predictors.md rule R290). -/
theorem reconstruct_inRange {d : Nat} {coefs : List Int} {shift : Nat} {past res vs : List Int}
    (h : reconstruct d coefs shift past res = some vs) : ∀ v ∈ vs, inRange d v = true := by
  induction res generalizing past vs with
  | nil =>
    simp only [reconstruct, Option.some.injEq] at h
    simp [← h]
  | cons r res ih =>
    simp only [reconstruct] at h
    split at h
    · split at h
      · next hv =>
        split at h
        · next hr =>
          simp only [Option.some.injEq] at h
          simp only [checked, Option.ite_none_right_eq_some, Option.some.injEq] at hv
          subst h
          intro v hm
          rcases List.mem_cons.1 hm with rfl | hm
          · exact hv.2 ▸ hv.1
          · exact ih hr v hm
        · simp at h
      · simp at h
    · simp at h

/-- What the record of a decoded subframe satisfies, against the record it was opened with (42_subframe_header.md rules
R248, R249; 10_state.md rules R45 to R50). -/
structure SubframeOk (s : State) (bs : Nat) (f g : Subframe) : Prop where
  type : g.type = f.type
  wasted : g.wasted = f.wasted
  kind : g.kind = f.kind
  order : g.order = f.order
  width : g.width = f.width
  samples : g.samples.length = bs
  residual : g.kind = .fixed ∨ g.kind = .lpc →
    g.method < 2 ∧ g.porder < 16 ∧ g.rpart.length = 2 ^ g.porder ∧ (∀ e ∈ g.rpart, e < 64) ∧
      g.res.length + g.order = bs ∧ ∀ v ∈ g.res, inRange 64 v = true
  lpc : g.kind = .lpc →
    1 ≤ g.prec ∧ g.prec ≤ 15 ∧ g.shift ≤ 15 ∧ ∃ p, g.coef = signedFields s p g.prec g.order

theorem payload_ok {s : State} {bs : Nat} {f g : Subframe} {c c' : Cur} (h : payload s bs f c = .ok (g, c')) :
    Advances s c c' ∧ SubframeOk s bs f g := by
  unfold payload at h
  cases hk : f.kind with
  | constant =>
    simp only [hk, constantPayload, bind_eq_ok, takeS_eq_ok, pure_apply, Except.ok.injEq, Prod.mk.injEq] at h
    obtain ⟨v, _, ⟨hb, rfl, rfl⟩, rfl, rfl⟩ := h
    exact ⟨⟨by simp, fun _ => hb⟩, rfl, rfl, hk.symm, rfl, rfl, by simp, by simp, by simp⟩
  | verbatim =>
    simp only [hk, verbatimPayload, bind_eq_ok, pure_apply, Except.ok.injEq, Prod.mk.injEq] at h
    obtain ⟨vs, _, h1, rfl, rfl⟩ := h
    exact ⟨takeSMany_advances h1, rfl, rfl, hk.symm, rfl, rfl, takeSMany_length h1, by simp, by simp⟩
  | fixed =>
    simp only [hk, fixedPayload, bind_eq_ok] at h
    obtain ⟨warm, c1, h1, g1, c2, h2, h3⟩ := h
    obtain ⟨ha, -, -, hm, es, vs, rfl, hes, hvs, hall, hin⟩ := residual_ok h2
    obtain ⟨rfl, ws, hr, rfl⟩ := rebuild_ok h3
    refine ⟨(takeSMany_advances h1).trans ha, rfl, rfl, rfl, rfl, rfl, ?_, fun _ => ?_, by simp [hk]⟩
    · have := reconstruct_length hr
      simp only [List.length_append, takeSMany_length h1, this]
      omega
    · exact ⟨hm, bitRead_lt s _ 4, hes, hall, hvs, hin⟩
  | lpc =>
    simp only [hk, lpcPayload, precisionField, shiftField, bind_eq_ok, takeU_eq_ok, raiseIf_eq_ok, pure_apply,
      Except.ok.injEq, Prod.mk.injEq, decide_eq_false_iff_not] at h
    obtain ⟨warm, c1, h1, pm, _, ⟨hb1, rfl, rfl⟩, f1, _, ⟨_, _, ⟨hp, rfl⟩, rfl, rfl⟩, sb, _, ⟨hb2, rfl, rfl⟩, f2, _,
      ⟨_, _, ⟨hs, rfl⟩, rfl, rfl⟩, coef, c3, h4, g1, c4, h5, h6⟩ := h
    obtain ⟨ha, -, -, hm, es, vs, rfl, hes, hvs, hall, hin⟩ := residual_ok h5
    obtain ⟨rfl, ws, hr, rfl⟩ := rebuild_ok h6
    have hadv : Advances s c c3 := by
      refine (takeSMany_advances h1).trans (.trans ⟨?_, fun _ => hb2⟩ (takeSMany_advances h4))
      simp only
      omega
    have h4' := (takeSMany_eq_ok.1 h4).2.1
    have hpm := bitRead_lt s c1.cur 4
    have hsb := bitRead_lt s (c1.cur + 4) 5
    refine ⟨hadv.trans ha, rfl, rfl, hk.symm, rfl, rfl, ?_, fun _ => ?_, fun _ => ?_⟩
    · have := reconstruct_length hr
      simp only [List.length_append, takeSMany_length h1, this]
      simp only at hvs
      omega
    · exact ⟨hm, bitRead_lt s _ 4, hes, hall, hvs, hin⟩
    · simp only at hp hs ⊢
      refine ⟨by omega, by omega, ?_, _, h4'⟩
      unfold sext at hs ⊢
      split_ifs at hs ⊢ <;> omega

/-- One subframe: it is appended, and the header stays as it is (R240 to R250). -/
theorem subframe_ok {s : State} {w w' : Work} {c c' : Cur} (h : subframe s w c = .ok (w', c')) :
    Advances s c c' ∧ c.cur + 8 ≤ c'.cur ∧ ∃ f kind order wasted type, classify type = some (kind, order) ∧ type < 64 ∧
      1 ≤ effectiveWidth w.hdr.bps wasted (isSide w.hdr.chcode w.subs.length) ∧
      SubframeOk s w.hdr.bs (openSubframe type wasted kind order
        (effectiveWidth w.hdr.bps wasted (isSide w.hdr.chcode w.subs.length))) f ∧
      (∀ v ∈ f.samples, inRange s.params.datapathBits v = true) ∧
      w' = { w with subs := w.subs ++ [f] } := by
  simp only [subframe, padField, bind_eq_ok, takeU_eq_ok, raiseIf_eq_ok] at h
  obtain ⟨pad, _, ⟨hb1, rfl, rfl⟩, _, _, ⟨hpad, rfl⟩, type, _, ⟨hb2, rfl, rfl⟩, wf, _, ⟨hb3, rfl, rfl⟩, h⟩ := h
  simp only [subframeBody, bind_eq_ok] at h
  obtain ⟨wasted, c1, hw, h⟩ := h
  have htype : bitRead s (c.cur + 1) 6 < 64 := bitRead_lt s _ 6
  have hadv : Advances s c c1 ∧ c.cur + 8 ≤ c1.cur := by
    unfold wastedField at hw
    split at hw
    · simp only [bind_eq_ok, takeUnary_eq_ok, pure_apply, Except.ok.injEq, Prod.mk.injEq] at hw
      obtain ⟨n, _, ⟨hu, rfl⟩, -, rfl⟩ := hw
      refine ⟨⟨?_, fun _ => hu.2.2⟩, ?_⟩ <;> simp only <;> omega
    · simp only [pure_apply, Except.ok.injEq, Prod.mk.injEq] at hw
      obtain ⟨-, rfl⟩ := hw
      refine ⟨⟨?_, fun _ => hb3⟩, ?_⟩ <;> simp only <;> omega
  cases hc : classify (bitRead s (c.cur + 1) 6) with
  | none => simp [hc] at h
  | some ko =>
    obtain ⟨kind, order⟩ := ko
    simp only [hc, bind_eq_ok, raiseIf_eq_ok, decide_eq_false_iff_not, Int.not_lt, wastedShift, pure_apply,
      Except.ok.injEq, Prod.mk.injEq, Bool.not_eq_false'] at h
    obtain ⟨_, _, ⟨hwid, rfl⟩, f, c3, hp, g, c4, ⟨_, _, ⟨hall, rfl⟩, rfl, rfl⟩, rfl, rfl⟩ := h
    obtain ⟨ha, hf⟩ := payload_ok hp
    refine ⟨hadv.1.trans ha, hadv.2.trans ha.1, { f with samples := f.samples.map (· * 2 ^ f.wasted) }, kind, order, wasted, _, hc, htype, hwid,
      ⟨hf.type, hf.wasted, hf.kind, hf.order, hf.width, by simp [hf.samples], hf.residual, hf.lpc⟩, ?_, rfl⟩
    intro v hv
    exact List.all_eq_true.1 hall v hv

/-- What every subframe of a decoded frame satisfies, for channel `k`. -/
def ChannelOk (s : State) (h : Hdr) (k : Nat) (f : Subframe) : Prop :=
  ∃ kind order wasted type, classify type = some (kind, order) ∧ type < 64 ∧
    1 ≤ effectiveWidth h.bps wasted (isSide h.chcode k) ∧
    SubframeOk s h.bs (openSubframe type wasted kind order (effectiveWidth h.bps wasted (isSide h.chcode k))) f ∧
    ∀ v ∈ f.samples, inRange s.params.datapathBits v = true

/-- `n` subframes in channel order (R240). -/
theorem subframes_ok {s : State} {n : Nat} {w w' : Work} {c c' : Cur} (h : subframes s n w c = .ok (w', c')) :
    Advances s c c' ∧ c.cur + 8 * n ≤ c'.cur ∧ ∃ fs, fs.length = n ∧ w' = { w with subs := w.subs ++ fs } ∧
      ∀ k f, fs[k]? = some f → ChannelOk s w.hdr (w.subs.length + k) f := by
  induction n generalizing w c with
  | zero =>
    simp only [subframes, pure_apply, Except.ok.injEq, Prod.mk.injEq] at h
    obtain ⟨rfl, rfl⟩ := h
    exact ⟨.refl _, by simp, [], rfl, by simp, by simp⟩
  | succ n ih =>
    simp only [subframes, bind_eq_ok] at h
    obtain ⟨w1, c1, h1, h2⟩ := h
    obtain ⟨ha, hb, f, kind, order, wasted, type, hcl, ht, hw, hf, hall, rfl⟩ := subframe_ok h1
    obtain ⟨hc, hd, fs, hlen, rfl, hfs⟩ := ih h2
    refine ⟨ha.trans hc, by omega, f :: fs, by simp [hlen], by simp, ?_⟩
    intro k g hg
    cases k with
    | zero =>
      simp only [List.getElem?_cons_zero, Option.some.injEq] at hg
      subst hg
      exact ⟨kind, order, wasted, type, hcl, ht, hw, hf, hall⟩
    | succ k =>
      rw [List.getElem?_cons_succ] at hg
      have := hfs k g hg
      simp only [List.length_append, List.length_cons, List.length_nil] at this
      rwa [show w.subs.length + (0 + 1) + k = w.subs.length + (k + 1) by omega] at this

/-! ## Assembly -/

theorem allChecked_eq_some {d : Nat} {vs ws : List Int} :
    allChecked d vs = some ws ↔ ws = vs ∧ ∀ v ∈ vs, inRange d v = true := by
  unfold allChecked
  split
  · next h =>
    rw [Option.some.injEq]
    exact ⟨fun e => ⟨e.symm, List.all_eq_true.1 h⟩, fun e => e.1.symm⟩
  · next h => exact ⟨fun e => by simp at e, fun e => absurd (List.all_eq_true.2 e.2) h⟩

/-- Decorrelation answers as many channels as it gets, of the same length (45_assembly.md rules R336 to R339). -/
theorem decorrelate_ok {d chcode n : Nat} {subs ch : List (List Int)} (h : decorrelate d chcode subs = some ch)
    (hs : 8 ≤ chcode → chcode ≤ 10 → subs.length = 2) (hc : chcode ≤ 10) (hl : ∀ l ∈ subs, l.length = n) :
    ch.length = subs.length ∧ ∀ l ∈ ch, l.length = n := by
  unfold decorrelate at h
  by_cases h8 : 8 ≤ chcode
  · obtain ⟨a, b, rfl⟩ := List.length_eq_two.1 (hs h8 hc)
    have ha : a.length = n := hl a (by simp)
    have hb : b.length = n := hl b (by simp)
    simp only [List.getD_cons_zero, List.getD_cons_succ] at h
    split_ifs at h with h1 h2 h3
    · unfold leftSide at h
      split at h
      · next r hr =>
        obtain ⟨rfl, -⟩ := allChecked_eq_some.1 hr
        simp only [Option.some.injEq] at h
        subst h
        simp [ha, hb]
      · simp at h
    · unfold rightSide at h
      split at h
      · next r hr =>
        obtain ⟨rfl, -⟩ := allChecked_eq_some.1 hr
        simp only [Option.some.injEq] at h
        subst h
        simp [ha, hb]
      · simp at h
    · unfold midSide at h
      split at h
      · next r h1 h2 h3 =>
        obtain ⟨rfl, -⟩ := allChecked_eq_some.1 h3
        simp only [Option.some.injEq] at h
        subst h
        simp [ha, hb]
      · simp at h
    · omega
  · rw [if_neg (by omega), if_neg (by omega), if_neg (by omega)] at h
    simp only [Option.some.injEq] at h
    subst h
    exact ⟨rfl, hl⟩

theorem framePadding_ok {s : State} {c c' : Cur} {u : Unit} (h : framePadding s c = .ok (u, c')) :
    c'.cur = c.cur + (8 - c.cur % 8) % 8 ∧ c'.cur ≤ endPos s ∧ bitRead s c.cur ((8 - c.cur % 8) % 8) = 0 := by
  simp only [framePadding, bind_eq_ok, get_apply, takeU_eq_ok, raiseIf_eq_ok, Except.ok.injEq, Prod.mk.injEq] at h
  obtain ⟨_, _, ⟨rfl, rfl⟩, p, _, ⟨hb, rfl, rfl⟩, hz, rfl⟩ := h
  exact ⟨rfl, hb, by simpa using hz⟩

theorem frameCrc_ok {s : State} {h h' : Hdr} {c c' : Cur} (hs : frameCrc s h c = .ok (h', c')) :
    c.cur + 16 ≤ endPos s ∧ h' = { h with crc16 := bitRead s c.cur 16 } ∧ c' = ⟨c.cur + 16, c.cur⟩ ∧
      (s.params.verifyCrc = true →
        (crc16Of (memRead s (h.start / 8) (c.cur / 8 - h.start / 8))).toNat = bitRead s c.cur 16) := by
  simp only [frameCrc, bind_eq_ok, takeU_eq_ok, get_apply, raiseIf_eq_ok, pure_apply, Except.ok.injEq,
    Prod.mk.injEq] at hs
  obtain ⟨v, _, ⟨hb, rfl, rfl⟩, _, _, ⟨rfl, rfl⟩, _, _, ⟨hv, rfl⟩, rfl, rfl⟩ := hs
  refine ⟨hb, rfl, rfl, fun h => ?_⟩
  simpa [h] using hv

theorem decorrelateStage_ok {s : State} {w w' : Work} {c c' : Cur} (h : decorrelateStage s w c = .ok (w', c')) :
    c' = c ∧ ∃ ch, decorrelate s.params.datapathBits w.hdr.chcode (w.subs.map Subframe.samples) = some ch ∧
      w' = { w with chan := ch } := by
  unfold decorrelateStage at h
  cases hd : decorrelate s.params.datapathBits w.hdr.chcode (w.subs.map Subframe.samples) with
  | none => simp [hd] at h
  | some ch =>
    simp only [hd, pure_apply, Except.ok.injEq, Prod.mk.injEq] at h
    exact ⟨h.2.symm, ch, rfl, h.1.symm⟩

theorem frameEnd_ok {s : State} {w w' : Work} {c c' : Cur} (h : frameEnd s w c = .ok (w', c')) :
    ∃ q ch, q = c.cur + (8 - c.cur % 8) % 8 ∧ q + 16 ≤ endPos s ∧ c' = ⟨q + 16, q⟩ ∧
      decorrelate s.params.datapathBits w.hdr.chcode (w.subs.map Subframe.samples) = some ch ∧
      w' = { w with hdr := { w.hdr with crc16 := bitRead s q 16 }, chan := ch } ∧
      (s.params.verifyCrc = true →
        (crc16Of (memRead s (w.hdr.start / 8) (q / 8 - w.hdr.start / 8))).toNat = bitRead s q 16) ∧
      (∀ l ∈ ch, ∀ v ∈ l, inRange w.hdr.bps v = true) ∧
      s.outptr.toNat + w.hdr.bs * w.hdr.channels ≤ s.params.outMax := by
  simp only [frameEnd, bind_eq_ok] at h
  obtain ⟨_, c1, h1, hd, c2, h2, w1, c3, h3, _, c4, h4, _, c5, h5, h6⟩ := h
  obtain ⟨e1, -, -⟩ := framePadding_ok h1
  obtain ⟨hb, rfl, rfl, hv⟩ := frameCrc_ok h2
  obtain ⟨rfl, ch, hc, rfl⟩ := decorrelateStage_ok h3
  simp only [rangeCheck, raiseIf_eq_ok, Bool.not_eq_false', List.all_eq_true] at h4
  obtain ⟨hr, rfl⟩ := h4
  simp only [capacityCheck, raiseIf_eq_ok, gt_iff_lt, decide_eq_false_iff_not, Nat.not_lt] at h5
  obtain ⟨ho, rfl⟩ := h5
  simp only [pure_apply, Except.ok.injEq, Prod.mk.injEq] at h6
  obtain ⟨rfl, rfl⟩ := h6
  exact ⟨c1.cur, ch, e1, hb, rfl, hc, rfl, hv, hr, ho⟩

/-- What a decoded frame satisfies before its commit (R330 to R341). -/
structure FrameOk (s : State) (start : Nat) (w : Work) (c : Cur) : Prop where
  hdr : HdrOk s w.hdr
  bits : HdrBits s start w.hdr
  hdr_start : w.hdr.start = start
  aligned : start % 8 = 0
  end_aligned : c.cur % 8 = 0
  long : start + 64 ≤ c.cur
  inside : c.cur ≤ endPos s
  subs_length : w.subs.length = w.hdr.channels
  chan_length : w.chan.length = w.hdr.channels
  channel : ∀ k f, w.subs[k]? = some f → ChannelOk s w.hdr k f
  samples : ∀ l ∈ w.chan, l.length = w.hdr.bs
  range : ∀ l ∈ w.chan, ∀ v ∈ l, inRange w.hdr.bps v = true
  room : s.outptr.toNat + w.hdr.bs * w.hdr.channels ≤ s.params.outMax
  crc16 : w.hdr.crc16 < 2 ^ 16
  checksum : s.params.verifyCrc = true →
    (crc16Of (memRead s (start / 8) ((c.cur - 16) / 8 - start / 8))).toNat = w.hdr.crc16

theorem frameBody_ok {s : State} {w : Work} {c c' : Cur} (h : frameBody s c = .ok (w, c')) :
    FrameOk s c.cur w c' := by
  simp only [frameBody, bind_eq_ok] at h
  obtain ⟨hd, c1, h1, w1, c2, h2, h3⟩ := h
  obtain ⟨hh, hst, ha, hb, hl, hi⟩ := frameHeader_ok h1
  have hbits := (frameHeader_bits h1).1
  obtain ⟨hadv, hlen, fs, hfs, rfl, hch⟩ := subframes_ok h2
  obtain ⟨q, ch, hq, hq16, rfl, hdec, rfl, hcrc, hr, ho⟩ := frameEnd_ok h3
  simp only [Work.idle, List.nil_append, List.length_nil, Nat.zero_add] at *
  have hsl : ∀ l ∈ fs.map Subframe.samples, l.length = hd.bs := by
    intro l hm
    obtain ⟨f, hf, rfl⟩ := List.mem_map.1 hm
    obtain ⟨k, hk⟩ := List.mem_iff_getElem?.1 hf
    obtain ⟨_, _, _, _, -, -, -, hok, -⟩ := hch k f hk
    exact hok.samples
  obtain ⟨d1, d2⟩ := decorrelate_ok hdec (fun h8 _ => by simp [hfs, hh.stereo h8]) hh.chcode hsl
  have h8 : c.cur + 56 ≤ c2.cur := by
    have := hh.channels_pos
    omega
  refine ⟨⟨hh.strategy, hh.bscode, hh.srcode, hh.chcode, hh.bdcode, hh.number, hh.bs_pos, hh.bs_le, hh.rate, hh.channels,
    hh.channels_pos, hh.channels_le, hh.stereo, hh.bps_inherit, hh.bps_table, hh.crc8⟩,
    ⟨hbits.codes, hbits.strategy, hbits.bscode, hbits.srcode, hbits.chcode, hbits.bdcode, hbits.number, hbits.bs,
      hbits.rate, hbits.channels, hbits.crc8, hbits.good⟩, hst, ha, ?_, ?_, hq16, hfs,
    by simp [d1, hfs], hch, d2, hr, ho, bitRead_lt s _ 16, ?_⟩
  · simp only
    omega
  · simp only
    omega
  · intro hv
    have := hcrc hv
    rw [hst] at this
    simpa using this

end Sys2Proof.Machine
end

