-- ==== Sys2Proof/Laws/Input.lean ====
section
/-! SUPPORT. What a decode stage depends on: the bytes of IN, LEN, the stream parameters and the parameters, and nothing
else of the state (45_assembly.md rule R349). -/

namespace Sys2Proof.Machine

/-- Two states with the same input: what 45_assembly.md rule R349 lists, but for POS. -/
structure SameInput (s t : State) : Prop where
  bytes : ∀ a, byteAt s a = byteAt t a
  len : s.len = t.len
  rate : s.streamRate = t.streamRate
  ch : s.streamCh = t.streamCh
  bps : s.streamBps = t.streamBps
  params : s.params = t.params

namespace SameInput

variable {s t : State}

theorem refl (s : State) : SameInput s s := ⟨fun _ => rfl, rfl, rfl, rfl, rfl, rfl⟩

theorem symm (h : SameInput s t) : SameInput t s :=
  ⟨fun a => (h.bytes a).symm, h.len.symm, h.rate.symm, h.ch.symm, h.bps.symm, h.params.symm⟩

/-- The fetch of a field leaves the input alone. -/
theorem afterFetch (s : State) (c : Cur) : SameInput (Machine.afterFetch s c) s := ⟨fun _ => rfl, rfl, rfl, rfl, rfl, rfl⟩

theorem endPos (h : SameInput s t) : Machine.endPos s = Machine.endPos t := by
  unfold Machine.endPos
  rw [h.len]

theorem bitAt (h : SameInput s t) : Machine.bitAt s = Machine.bitAt t := by
  funext p
  unfold Machine.bitAt
  rw [h.bytes]

theorem bitRead (h : SameInput s t) : Machine.bitRead s = Machine.bitRead t := by
  funext p w
  induction w with
  | zero => rfl
  | succ w ih => simp only [Machine.bitRead, ih, h.bitAt]

theorem memRead (h : SameInput s t) : Machine.memRead s = Machine.memRead t := by
  funext a n
  unfold Machine.memRead
  exact List.map_congr_left fun a _ => h.bytes a

theorem takeBits {α : Type} (h : SameInput s t) : Machine.takeBits (α := α) s = Machine.takeBits t := by
  funext w f c
  unfold Machine.takeBits
  rw [h.endPos]

theorem takeU (h : SameInput s t) : Machine.takeU s = Machine.takeU t := by
  funext w
  unfold Machine.takeU
  rw [h.takeBits, h.bitRead]

theorem takeS (h : SameInput s t) : Machine.takeS s = Machine.takeS t := by
  funext w
  unfold Machine.takeS
  rw [h.takeBits, h.bitRead]

theorem takeSMany (h : SameInput s t) : Machine.takeSMany s = Machine.takeSMany t := by
  funext w n
  induction n with
  | zero => rfl
  | succ n ih => simp only [Machine.takeSMany, ih, h.takeS]

theorem zeroRun (h : SameInput s t) : Machine.zeroRun s = Machine.zeroRun t := by
  funext p n
  induction n generalizing p with
  | zero => rfl
  | succ n ih => simp only [Machine.zeroRun, ih, h.bitAt]

theorem takeUnary (h : SameInput s t) : Machine.takeUnary s = Machine.takeUnary t := by
  funext c
  unfold Machine.takeUnary
  rw [h.zeroRun, h.endPos]

theorem continuations (h : SameInput s t) : Machine.continuations s = Machine.continuations t := by
  funext p v n
  induction n generalizing p v with
  | zero => rfl
  | succ n ih => simp only [Machine.continuations, ih, h.bitRead]

theorem utf8Rest (h : SameInput s t) : Machine.utf8Rest s = Machine.utf8Rest t := by
  funext n v c
  unfold Machine.utf8Rest
  rw [h.endPos, h.continuations]

theorem takeUtf8 (h : SameInput s t) : Machine.takeUtf8 s = Machine.takeUtf8 t := by
  unfold Machine.takeUtf8
  rw [h.takeU, h.utf8Rest]

theorem blockSize (h : SameInput s t) : Machine.blockSize s = Machine.blockSize t := by
  funext hd
  unfold Machine.blockSize
  rw [h.takeU]

theorem sampleRate (h : SameInput s t) : Machine.sampleRate s = Machine.sampleRate t := by
  funext hd
  unfold Machine.sampleRate
  rw [h.takeU, h.rate]

theorem bitDepth (h : SameInput s t) : Machine.bitDepth s = Machine.bitDepth t := by
  funext hd
  unfold Machine.bitDepth
  rw [h.bps]

theorem headerCrc (h : SameInput s t) : Machine.headerCrc s = Machine.headerCrc t := by
  funext hd
  unfold Machine.headerCrc
  rw [h.takeU, h.memRead, h.params]

theorem channelCheck (h : SameInput s t) : Machine.channelCheck s = Machine.channelCheck t := by
  funext hd
  unfold Machine.channelCheck
  rw [h.ch]

theorem frameHeader (h : SameInput s t) : Machine.frameHeader s = Machine.frameHeader t := by
  unfold Machine.frameHeader headerCodes headerRest syncField
  rw [h.takeU, h.takeUtf8, h.blockSize, h.sampleRate, h.bitDepth, h.headerCrc, h.channelCheck]

theorem riceCodeword (h : SameInput s t) : Machine.riceCodeword s = Machine.riceCodeword t := by
  funext k
  unfold Machine.riceCodeword
  rw [h.takeUnary, h.takeU]

theorem rice (h : SameInput s t) : Machine.rice s = Machine.rice t := by
  funext k n
  induction n with
  | zero => rfl
  | succ n ih => simp only [Machine.rice, ih, h.riceCodeword]

theorem escapeWidth (h : SameInput s t) : Machine.escapeWidth s = Machine.escapeWidth t := by
  funext b
  unfold Machine.escapeWidth
  rw [h.params]

theorem escapeField (h : SameInput s t) : Machine.escapeField s = Machine.escapeField t := by
  funext bs b f
  unfold Machine.escapeField
  rw [h.escapeWidth, h.takeSMany]

theorem escapePartition (h : SameInput s t) : Machine.escapePartition s = Machine.escapePartition t := by
  funext bs f
  unfold Machine.escapePartition
  rw [h.takeU, h.escapeField]

theorem ricePartition (h : SameInput s t) : Machine.ricePartition s = Machine.ricePartition t := by
  funext bs k f
  unfold Machine.ricePartition
  rw [h.rice]

theorem partition (h : SameInput s t) : Machine.partition s = Machine.partition t := by
  funext bs f
  unfold Machine.partition
  rw [h.takeU, h.escapePartition, h.ricePartition]

theorem partitions (h : SameInput s t) : Machine.partitions s = Machine.partitions t := by
  funext bs n f
  induction n generalizing f with
  | zero => rfl
  | succ n ih => simp only [Machine.partitions, ih, h.partition]

theorem residual (h : SameInput s t) : Machine.residual s = Machine.residual t := by
  funext bs f
  unfold Machine.residual
  rw [h.takeU, h.partitions]

theorem rebuild (h : SameInput s t) : Machine.rebuild s = Machine.rebuild t := by
  funext a k w f
  unfold Machine.rebuild
  rw [h.params]

theorem payload (h : SameInput s t) : Machine.payload s = Machine.payload t := by
  funext bs f
  unfold Machine.payload constantPayload verbatimPayload fixedPayload lpcPayload
  rw [h.takeU, h.takeS, h.takeSMany, h.residual, h.rebuild]

theorem wastedField (h : SameInput s t) : Machine.wastedField s = Machine.wastedField t := by
  funext w
  unfold Machine.wastedField
  rw [h.takeUnary]

theorem wastedShift (h : SameInput s t) : Machine.wastedShift s = Machine.wastedShift t := by
  funext f
  unfold Machine.wastedShift
  rw [h.params]

theorem subframeBody (h : SameInput s t) : Machine.subframeBody s = Machine.subframeBody t := by
  funext type wflag w
  unfold Machine.subframeBody
  rw [h.wastedField, h.payload, h.wastedShift]

theorem subframe (h : SameInput s t) : Machine.subframe s = Machine.subframe t := by
  funext w
  unfold Machine.subframe
  rw [h.takeU, h.subframeBody]

theorem subframes (h : SameInput s t) : Machine.subframes s = Machine.subframes t := by
  funext n w
  induction n generalizing w with
  | zero => rfl
  | succ n ih => simp only [Machine.subframes, ih, h.subframe]

theorem framePadding (h : SameInput s t) : Machine.framePadding s = Machine.framePadding t := by
  unfold Machine.framePadding
  rw [h.takeU]

theorem frameCrc (h : SameInput s t) : Machine.frameCrc s = Machine.frameCrc t := by
  funext hd
  unfold Machine.frameCrc
  rw [h.takeU, h.memRead, h.params]

theorem decorrelateStage (h : SameInput s t) : Machine.decorrelateStage s = Machine.decorrelateStage t := by
  funext w
  unfold Machine.decorrelateStage
  rw [h.params]

end SameInput

/-- A frame's decode up to the capacity check, which alone depends on OUTPTR (45_assembly.md rules R330, R341). -/
def frameUnchecked (s : State) : Stage Work := do
  let h ← frameHeader s
  let w ← subframes s h.channels { Work.idle with hdr := h }
  framePadding s
  let h ← frameCrc s w.hdr
  let w ← decorrelateStage s { w with hdr := h }
  rangeCheck w
  pure w

theorem SameInput.frameUnchecked {s t : State} (h : SameInput s t) : Machine.frameUnchecked s = Machine.frameUnchecked t := by
  unfold Machine.frameUnchecked
  rw [h.frameHeader, h.subframes, h.framePadding, h.frameCrc, h.decorrelateStage]

/-- A frame's decode is that part and then the capacity check. -/
theorem frameBody_eq (s : State) :
    frameBody s = frameUnchecked s >>= fun w => capacityCheck s w >>= fun _ => pure w := by
  unfold frameBody frameEnd frameUnchecked
  simp only [bind_assoc, pure_bind]

end Sys2Proof.Machine
end

