-- ==== Sys2Proof/Laws/Memory.lean ====
section
/-! SUPPORT. The laws of sparse memory: read after write, writes elsewhere, and the canonical form. -/

namespace Sys2Proof.Machine

variable {α : Type}

@[simp] theorem readCell_nil (a : Nat) : readCell ([] : List (Nat × α)) a = none := rfl

theorem readCell_cons (k : Nat) (v : α) (m : List (Nat × α)) (a : Nat) :
    readCell ((k, v) :: m) a = if k = a then some v else readCell m a := rfl

/-- An address that is not listed holds nothing. -/
theorem readCell_eq_none {m : List (Nat × α)} {a : Nat} (h : ∀ c ∈ m, c.1 ≠ a) : readCell m a = none := by
  induction m with
  | nil => rfl
  | cons c m ih =>
    obtain ⟨k, v⟩ := c
    rw [readCell_cons, if_neg (h (k, v) (by simp)), ih (fun c hc => h c (by simp [hc]))]

/-- What a readable address holds is listed. -/
theorem mem_of_readCell {m : List (Nat × α)} {a : Nat} {v : α} (h : readCell m a = some v) : (a, v) ∈ m := by
  induction m with
  | nil => simp at h
  | cons c m ih =>
    obtain ⟨k, w⟩ := c
    rw [readCell_cons] at h
    split at h
    · next hk => simp_all
    · exact List.mem_cons_of_mem _ (ih h)

theorem readCell_append (m n : List (Nat × α)) (a : Nat) :
    readCell (m ++ n) a = (readCell m a).or (readCell n a) := by
  induction m with
  | nil => simp
  | cons c m ih =>
    obtain ⟨k, v⟩ := c
    rw [List.cons_append, readCell_cons, readCell_cons, ih]
    split <;> rfl

/-- Dropping cells by their address leaves the others as they are. -/
theorem readCell_filter (m : List (Nat × α)) (p : Nat → Bool) (a : Nat) :
    readCell (m.filter fun c => p c.1) a = if p a then readCell m a else none := by
  induction m with
  | nil => simp
  | cons c m ih =>
    obtain ⟨k, v⟩ := c
    rw [List.filter_cons, readCell_cons]
    by_cases hk : k = a
    · subst hk
      cases hp : p k <;> simp [hp, ih, readCell_cons]
    · cases hp : p k <;> simp [hk, ih, readCell_cons]

/-- A block of cells holds its values in order and nothing else. -/
theorem readCell_zip_range' (vs : List α) (b a : Nat) :
    readCell ((List.range' b vs.length).zip vs) a = if b ≤ a then vs[a - b]? else none := by
  induction vs generalizing b with
  | nil => simp
  | cons v vs ih =>
    rw [List.length_cons, List.range'_succ, List.zip_cons_cons, readCell_cons, ih]
    rcases Nat.lt_trichotomy b a with h | h | h
    · rw [if_neg (by omega), if_pos (by omega), if_pos (by omega)]
      have : a - b = (a - (b + 1)) + 1 := by omega
      rw [this, List.getElem?_cons_succ]
    · subst h
      simp
    · rw [if_neg (by omega), if_neg (by omega), if_neg (by omega)]

/-- Reading after a block write: the block's addresses hold what was written, every other address what it held. -/
theorem readCell_writeBlock (m : List (Nat × α)) (b : Nat) (vs : List α) (a : Nat) :
    readCell (writeBlock m b vs) a = if b ≤ a ∧ a < b + vs.length then vs[a - b]? else readCell m a := by
  unfold writeBlock
  rw [readCell_append, readCell_append, readCell_filter m (fun k => decide (k < b)),
    readCell_filter m (fun k => decide (b + vs.length ≤ k)), readCell_zip_range']
  rcases Nat.lt_or_ge a b with h | h
  · simp [h, Nat.not_le.mpr h, show ¬ b + vs.length ≤ a by omega]
  · rcases Nat.lt_or_ge a (b + vs.length) with h' | h'
    · have : vs[a - b]? = some vs[a - b] := List.getElem?_eq_getElem (by omega)
      simp [h, h', Nat.not_lt.mpr h, this]
    · have : vs[a - b]? = none := List.getElem?_eq_none (by omega)
      simp [h, h', Nat.not_lt.mpr h, Nat.not_lt.mpr h', this]

/-- Read after write, one cell. -/
theorem readCell_write_same (m : List (Nat × α)) (a : Nat) (v : α) : readCell (writeBlock m a [v]) a = some v := by
  rw [readCell_writeBlock]
  simp

/-- A write leaves every other cell alone. -/
theorem readCell_write_other (m : List (Nat × α)) {a b : Nat} (v : α) (h : b ≠ a) :
    readCell (writeBlock m a [v]) b = readCell m b := by
  rw [readCell_writeBlock, if_neg (by simp; omega)]

theorem map_fst_zip_range' (vs : List α) (b : Nat) :
    ((List.range' b vs.length).zip vs).map Prod.fst = List.range' b vs.length :=
  List.map_fst_zip (by simp)

/-- The addresses of a memory after a block write. -/
theorem map_fst_writeBlock (m : List (Nat × α)) (b : Nat) (vs : List α) :
    (writeBlock m b vs).map Prod.fst =
      (m.map Prod.fst).filter (fun k => decide (k < b)) ++ List.range' b vs.length ++
        (m.map Prod.fst).filter (fun k => decide (b + vs.length ≤ k)) := by
  unfold writeBlock
  rw [List.map_append, List.map_append, map_fst_zip_range', List.filter_map, List.filter_map]
  rfl

/-- Every memory operation keeps the canonical form. -/
theorem writeBlock_wf {m : List (Nat × α)} (h : Memory.wf m) (b : Nat) (vs : List α) :
    Memory.wf (writeBlock m b vs) := by
  unfold Memory.wf
  rw [map_fst_writeBlock, List.pairwise_append, List.pairwise_append]
  refine ⟨⟨h.filter _, List.pairwise_lt_range', ?_⟩, h.filter _, ?_⟩
  · intro x hx y hy
    simp only [List.mem_filter, decide_eq_true_eq, List.mem_range'_1] at hx hy
    omega
  · intro x hx y hy
    simp only [List.mem_append, List.mem_filter, decide_eq_true_eq, List.mem_range'_1] at hx hy
    omega

/-- A written memory lists only what it listed and the block. -/
theorem mem_writeBlock {m : List (Nat × α)} {b : Nat} {vs : List α} {c : Nat × α} (h : c ∈ writeBlock m b vs) :
    c ∈ m ∨ (b ≤ c.1 ∧ c.1 < b + vs.length) := by
  unfold writeBlock at h
  simp only [List.mem_append, List.mem_filter] at h
  obtain (⟨h, -⟩ | h) | ⟨h, -⟩ := h
  · exact .inl h
  · have := (List.of_mem_zip (a := c.1) (b := c.2) h).1
    simp only [List.mem_range'_1] at this
    exact .inr this
  · exact .inl h

/-- Reset lists nothing, which is canonical. -/
theorem reset_inMem_wf : Memory.wf State.reset.inMem := by decide

theorem reset_out_wf : Memory.wf State.reset.out := by decide

end Sys2Proof.Machine
end

