-- ==== Sys2Proof/Laws/Commit.lean ====
section
/-! SUPPORT. What DECODE_FRAME makes of a decoded frame: the registers hold the decoded numbers whole, and OUT the interleaved
samples. -/

namespace Sys2Proof.Machine

/-- A number that fits `d` bits survives a signed register of at least `d` bits. -/
theorem toInt_ofInt {n d : Nat} {v : Int} (hd : d ≤ n) (h1 : 1 ≤ n) (h : inRange d v = true) :
    (BitVec.ofInt n v).toInt = v := by
  unfold inRange at h
  rw [decide_eq_true_eq] at h
  rw [BitVec.toInt_ofInt]
  have h2 : 2 ^ (d - 1) ≤ 2 ^ (n - 1) := Nat.pow_le_pow_right (by omega) (by omega)
  have h3 : (2 : Int) ^ (d - 1) = ((2 ^ (d - 1) : Nat) : Int) := by push_cast; rfl
  rw [h3] at h
  apply Int.bmod_eq_of_le <;>
  · have h5 : 2 ^ n = 2 ^ (n - 1) * 2 := by rw [← Nat.pow_succ]; congr 1; omega
    rw [h5]
    omega

/-- … and so does a whole memory of them. -/
theorem map_toInt {n d : Nat} {l : List Int} (hd : d ≤ n) (h1 : 1 ≤ n) (h : ∀ v ∈ l, inRange d v = true) :
    (l.map (BitVec.ofInt n)).map BitVec.toInt = l := by
  rw [List.map_map]
  conv_rhs => rw [← List.map_id l]
  exact List.map_congr_left fun v hv => toInt_ofInt hd h1 (h v hv)

/-- The start checks pass (45_assembly.md rule R331). -/
theorem startChecks_ok {s : State} (h : decodeReady s) {c c' : Cur} : startChecks s c = .ok ((), c') ↔ c' = c := by
  obtain ⟨h1, h2, h3, h4, h5, h6, h7, h8⟩ := h
  unfold lenOk at h1
  simp [startChecks, bind_eq_ok, streamParamsOk, h2, h3, h4, h5, h6, h7, h8, h1]

/-- A frame that decodes is committed (R342). -/
theorem decodeFrame_ok {s : State} {w : Work} {c : Cur} (h : decodeReady s) (hb : frameBody s (startCur s) = .ok (w, c)) :
    exec .decodeFrame s = .next (finish (commit s w c)) := by
  show execDecodeFrame s = _
  unfold execDecodeFrame
  rw [show (do startChecks s; frameBody s : Stage Work) (startCur s) = .ok (w, c) from
    bind_eq_ok.2 ⟨(), startCur s, (startChecks_ok h).2 rfl, hb⟩]

/-- A frame whose decode raises fails (R343). -/
theorem decodeFrame_error {s : State} {e : Raise} (h : decodeReady s) (hb : frameBody s (startCur s) = .error e) :
    exec .decodeFrame s = .next (failFrame s e) := by
  show execDecodeFrame s = _
  unfold execDecodeFrame
  rw [show (do startChecks s; frameBody s : Stage Work) (startCur s) = .error e from
    bind_eq_error.2 (.inr ⟨(), startCur s, (startChecks_ok h).2 rfl, hb⟩)]

/-- A frame's output is n·C words (R98). -/
theorem interleave_length (bs : Nat) (chan : List (List Int)) : (interleave bs chan).length = bs * chan.length := by
  simp [interleave, List.length_flatMap]

/-- Word n·C + k of a frame's output is sample n of channel k (20_memory.md rule R98). -/
theorem interleave_get (bs : Nat) (chan : List (List Int)) (n k : Nat) (hn : n < bs) (hk : k < chan.length) :
    (interleave bs chan)[n * chan.length + k]? = some (BitVec.ofInt 32 ((chan.getD k []).getD n 0)) := by
  have key : ∀ (m b : Nat), n < m →
      ((List.range' b m).flatMap fun n => chan.map fun l => BitVec.ofInt 32 (l.getD n 0))[n * chan.length + k]? =
        some (BitVec.ofInt 32 ((chan.getD k []).getD (b + n) 0)) := by
    clear hn
    induction n with
    | zero =>
      intro m b hm
      obtain ⟨m, rfl⟩ : ∃ u, m = u + 1 := ⟨m - 1, by omega⟩
      rw [List.range'_succ, List.flatMap_cons, List.getElem?_append_left (by simpa using hk)]
      simp [List.getD_eq_getElem?_getD, hk]
    | succ n ih =>
      intro m b hm
      obtain ⟨m, rfl⟩ : ∃ u, m = u + 1 := ⟨m - 1, by omega⟩
      rw [List.range'_succ, List.flatMap_cons, List.getElem?_append_right (by simp; ring_nf; omega)]
      have := ih m (b + 1) (by omega)
      rw [show b + 1 + n = b + (n + 1) by omega] at this
      rw [← this]
      congr 1
      simp
      ring_nf
      omega
  have h := key bs 0 hn
  rw [Nat.zero_add] at h
  rw [interleave, List.range_eq_range']
  exact h

/-- The orders that a type code gives (42_subframe_header.md rule R244). -/
theorem classify_range {type order : Nat} {kind : Kind} (h : classify type = some (kind, order)) (ht : type < 64) :
    order ≤ 32 ∧ (kind = .lpc → 1 ≤ order) ∧ (kind = .fixed → order ≤ 4) ∧
      (kind = .constant ∨ kind = .verbatim → order = 0) := by
  unfold classify at h
  split_ifs at h <;> simp only [Option.some.injEq, Prod.mk.injEq] at h <;> obtain ⟨rfl, rfl⟩ := h <;> simp <;> omega

/-- What the record of channel `k` satisfies, in its own fields. -/
structure RecOk (s : State) (h : Hdr) (k : Nat) (f : Subframe) : Prop where
  type : f.type < 64
  order : f.order ≤ 32
  lpc1 : f.kind = .lpc → 1 ≤ f.order
  fix4 : f.kind = .fixed → f.order ≤ 4
  o0 : f.kind = .constant ∨ f.kind = .verbatim → f.order = 0
  width1 : 1 ≤ f.width
  sum : f.width + f.wasted = h.bps + (isSide h.chcode k).toNat
  len : f.samples.length = h.bs
  samples : ∀ v ∈ f.samples, inRange s.params.datapathBits v = true
  residual : f.kind = .fixed ∨ f.kind = .lpc →
    f.method < 2 ∧ f.porder < 16 ∧ f.rpart.length = 2 ^ f.porder ∧ (∀ e ∈ f.rpart, e < 64) ∧
      f.res.length + f.order = h.bs ∧ ∀ v ∈ f.res, inRange 64 v = true
  lpc : f.kind = .lpc →
    1 ≤ f.prec ∧ f.prec ≤ 15 ∧ f.shift ≤ 15 ∧ ∃ p, f.coef = signedFields s p f.prec f.order

theorem ChannelOk.recOk {s : State} {h : Hdr} {k : Nat} {f : Subframe} (hc : ChannelOk s h k f) : RecOk s h k f := by
  obtain ⟨kind, order, wasted, type, h1, h2, h3, h4, h5⟩ := hc
  obtain ⟨a, b, c, d⟩ := classify_range h1 h2
  have e1 := h4.type
  have e2 := h4.wasted
  have e3 := h4.kind
  have e4 := h4.order
  have e5 := h4.width
  simp only [openSubframe] at e1 e2 e3 e4 e5
  refine ⟨by omega, by omega, by rw [e3, e4]; exact b, by rw [e3, e4]; exact c, by rw [e3, e4]; exact d, by omega, ?_,
    h4.samples, h5, h4.residual, h4.lpc⟩
  rw [e5, e2]
  unfold effectiveWidth at *
  omega

end Sys2Proof.Machine
end

