-- ==== Sys2Proof/Laws/Codes.lean ====
section
/-! SUPPORT. What a bitstream code and a cursor command make of the parts of their stage: a sequence's first part, the
continuation bytes of a number, a subframe's header and body, an error of a read. -/

namespace Sys2Proof.Machine

/-- A sequence whose first part succeeds goes on with the rest. -/
theorem ok_bind {α β : Type} {x : Stage α} {f : α → Stage β} {c c' : Cur} {a : α} (h : x c = .ok (a, c')) :
    (x >>= f) c = f a c' := by rw [bind_apply, h]

/-- A sequence whose first part raises raises that. -/
theorem er_bind {α β : Type} {x : Stage α} {f : α → Stage β} {c : Cur} {e : Raise} (h : x c = .error e) :
    (x >>= f) c = .error e := by rw [bind_apply, h]

theorem takeU_ok {s : State} {w a b : Nat} (h : a + w ≤ endPos s) :
    takeU s w ⟨a, b⟩ = .ok (bitRead s a w, ⟨a + w, a⟩) := takeU_eq_ok.2 ⟨h, rfl, rfl⟩

theorem takeU_er {s : State} {w a b : Nat} (h : ¬ a + w ≤ endPos s) : takeU s w ⟨a, b⟩ = .error ⟨.outOfBounds, a⟩ :=
  takeU_eq_error.2 ⟨by simp; omega, rfl⟩

/-- The DR test as a proposition (44_predictors.md rule R290). -/
theorem inRange_iff (d : Nat) (v : Int) : inRange d v = true ↔ inDr d v := by
  unfold inRange inDr
  rw [decide_eq_true_eq]
  omega

/-- What DECODE_FRAME answers: a commit, a frame's error, or CONFIG_ERROR (45_assembly.md rules R330, R331, R342, R343). -/
theorem decodeFrame_cases {s t : State} (h : exec .decodeFrame s = .next t) :
    (decodeReady s ∧ ∃ w c, frameBody s (startCur s) = .ok (w, c) ∧ t = finish (commit s w c)) ∨
    (decodeReady s ∧ ∃ e, frameBody s (startCur s) = .error e ∧ t = failFrame s e) ∨
    (¬ decodeReady s ∧ t = failFrame s ⟨.configError, s.pos.toNat⟩) := by
  by_cases hr : decodeReady s
  · cases hb : frameBody s (startCur s) with
    | ok p =>
      rw [decodeFrame_ok hr hb] at h
      exact .inl ⟨hr, p.1, p.2, rfl, by simpa using h.symm⟩
    | error e =>
      rw [decodeFrame_error hr hb] at h
      exact .inr (.inl ⟨hr, e, rfl, by simpa using h.symm⟩)
  · refine .inr (.inr ⟨hr, ?_⟩)
    have hs : startChecks s (startCur s) = .error ⟨.configError, s.pos.toNat⟩ := by
      unfold decodeReady at hr
      by_cases hl : lenOk s
      · have hp : streamParamsOk s = false := by
          unfold streamParamsOk
          rw [← Bool.not_eq_true]
          simp only [Bool.and_eq_true, decide_eq_true_eq]
          tauto
        unfold lenOk at hl
        simp [startChecks, hp, startCur, show ¬ (s.len.toNat > s.params.inMax) by omega]
      · unfold lenOk at hl
        simp [startChecks, startCur, show (s.len.toNat > s.params.inMax) by omega]
    have : execDecodeFrame s = .next t := h
    unfold execDecodeFrame at this
    rw [show (do startChecks s; frameBody s : Stage Work) (startCur s) = .error _ from
      bind_eq_error.2 (.inl hs)] at this
    simpa using this.symm

/-- A frame's decode is its part that does not depend on OUTPTR, and then the capacity check (R341). -/
theorem frameBody_split {s : State} {c0 : Cur} :
    (∀ w c, frameBody s c0 = .ok (w, c) ↔
      frameUnchecked s c0 = .ok (w, c) ∧ s.outptr.toNat + w.hdr.bs * w.hdr.channels ≤ s.params.outMax) ∧
    (∀ e, frameBody s c0 = .error e ↔ frameUnchecked s c0 = .error e ∨
      ∃ w c, frameUnchecked s c0 = .ok (w, c) ∧ e = ⟨.outputOverflow, c.fpos⟩ ∧
        ¬ (s.outptr.toNat + w.hdr.bs * w.hdr.channels ≤ s.params.outMax)) := by
  rw [frameBody_eq]
  constructor
  · intro w c
    cases h : frameUnchecked s c0 with
    | error e => simp [h]
    | ok p =>
      obtain ⟨w', c'⟩ := p
      simp only [bind_eq_ok, h, capacityCheck, raiseIf_eq_ok, pure_apply, Except.ok.injEq, Prod.mk.injEq, gt_iff_lt, decide_eq_false_iff_not, Nat.not_lt]
      constructor
      · rintro ⟨_, _, ⟨rfl, rfl⟩, _, _, ⟨h2, rfl⟩, rfl, rfl⟩; exact ⟨⟨rfl, rfl⟩, h2⟩
      · rintro ⟨⟨rfl, rfl⟩, h2⟩; exact ⟨_, _, ⟨rfl, rfl⟩, (), _, ⟨h2, rfl⟩, rfl, rfl⟩
  · intro e
    cases h : frameUnchecked s c0 with
    | error e => simp [h]
    | ok p =>
      obtain ⟨w', c'⟩ := p
      simp only [bind_eq_error, h, capacityCheck, raiseIf_eq_error, pure_apply, Except.ok.injEq, Prod.mk.injEq, gt_iff_lt, decide_eq_true_eq, reduceCtorEq, false_or, and_false, exists_false, or_false]
      constructor
      · rintro ⟨_, _, ⟨rfl, rfl⟩, h1, h2⟩; exact ⟨_, _, ⟨rfl, rfl⟩, h2, by omega⟩
      · rintro ⟨_, _, ⟨rfl, rfl⟩, h1, h2⟩; exact ⟨_, _, ⟨rfl, rfl⟩, by omega, h1⟩

/-! ## Headers -/

/-- A header whose first 32 bits pass goes on at NUMBER (41_frame_header.md rules R201 to R208). -/
theorem headerCodes_pass {s : State} {p fp : Nat} (h : headerCodesPass s p) :
    headerCodes s ⟨p, fp⟩ = .ok ({ Hdr.idle with
        start := p
        strategy := bitRead s (p + 15) 1
        bscode := bitRead s (p + 16) 4
        srcode := bitRead s (p + 20) 4
        chcode := bitRead s (p + 24) 4
        bdcode := bitRead s (p + 28) 3 }, ⟨p + 32, p + 31⟩) := by
  obtain ⟨h0, h1, h2, h3, h4, h5, h6, h7⟩ := h
  unfold bitsAt at h1
  have b1 : ∀ (f : Nat → Unit → Nat → Stage Hdr), (do
    let start ← frameStart
    let u ← syncField s
    let strategy ← takeU s 1
    f start u strategy : Stage Hdr) ⟨p, fp⟩ = f p () (bitRead s (p + 15) 1) ⟨p + 16, p + 15⟩ := by
    intro f
    have f0 : frameStart ⟨p, fp⟩ = .ok (p, ⟨p, p⟩) := frameStart_eq_ok.2 ⟨h0, rfl, rfl⟩
    have f1 : syncField s ⟨p, p⟩ = .ok ((), ⟨p + 15, p⟩) := syncField_eq_ok.2 ⟨by simp only; omega, h2, rfl⟩
    rw [ok_bind f0, ok_bind f1, ok_bind (takeU_ok (by omega))]
  have b2 : ∀ h0 (f : Hdr → Stage Hdr), (do
    let bscode ← takeU s 4
    let h ← bscodeField bscode h0
    f h : Stage Hdr) ⟨p + 16, p + 15⟩ = f { h0 with bscode := bitRead s (p + 16) 4 } ⟨p + 20, p + 16⟩ := by
    intro h0 f
    rw [ok_bind (takeU_ok (by omega)), ok_bind (bscodeField_eq_ok.2 ⟨h3, rfl, rfl⟩)]
  have b3 : ∀ h0 (f : Hdr → Stage Hdr), (do
    let bscode ← takeU s 4
    let h ← srcodeField bscode h0
    f h : Stage Hdr) ⟨p + 20, p + 16⟩ = f { h0 with srcode := bitRead s (p + 20) 4 } ⟨p + 24, p + 20⟩ := by
    intro h0 f
    rw [ok_bind (takeU_ok (by omega)), ok_bind (srcodeField_eq_ok.2 ⟨h4, rfl, rfl⟩)]
  have b4 : ∀ h0 (f : Hdr → Stage Hdr), (do
    let bscode ← takeU s 4
    let h ← chcodeField bscode h0
    f h : Stage Hdr) ⟨p + 24, p + 20⟩ = f { h0 with chcode := bitRead s (p + 24) 4 } ⟨p + 28, p + 24⟩ := by
    intro h0 f
    rw [ok_bind (takeU_ok (by omega)), ok_bind (chcodeField_eq_ok.2 ⟨h5, rfl, rfl⟩)]
  have b5 : ∀ h0 (f : Hdr → Stage Hdr), (do
    let bscode ← takeU s 3
    let h ← bdcodeField bscode h0
    f h : Stage Hdr) ⟨p + 28, p + 24⟩ = f { h0 with bdcode := bitRead s (p + 28) 3 } ⟨p + 31, p + 28⟩ := by
    intro h0 f
    rw [ok_bind (takeU_ok (by omega)), ok_bind (bdcodeField_eq_ok.2 ⟨h6, rfl, rfl⟩)]
  unfold headerCodes
  rw [b1, b2, b3, b4, b5, ok_bind (takeU_ok (by omega))]
  unfold reservedBitField
  rw [show bitRead s (p + 31) 1 = 0 by simp [bitRead, h7]]
  rfl

/-- A DECODE_FRAME whose header raises fails with that error (R343). -/
theorem decodeFrame_headerError {s : State} {r : Raise} (hr : decodeReady s)
    (h : frameHeader s (startCur s) = .error r) :
    ∃ t, exec .decodeFrame s = .next t ∧ frameFailed s t r.code r.pos :=
  ⟨_, decodeFrame_error hr (er_bind h), failFrame_failed _ _⟩

/-- A legal lead byte announces `numberBytes` bytes (30_encoding.md rule R124). -/
theorem leadInfo_legal {lead : Nat} (h : lead < 0x80 ∨ 0xC0 ≤ lead ∧ lead < 0xF8) :
    ∃ v, leadInfo lead = some (numberBytes lead, v) := by
  unfold leadInfo numberBytes
  split_ifs <;> first | exact ⟨_, rfl⟩ | omega

theorem leadInfo_illegal {lead : Nat} (h : ¬ (lead < 0x80 ∨ 0xC0 ≤ lead ∧ lead < 0xF8)) : leadInfo lead = none := by
  unfold leadInfo
  split_ifs <;> first | rfl | omega

/-! ## Numbers -/

/-- A continuation byte that is one (40_cursor.md rule R168). -/
theorem continuations_good {s : State} {p v : Nat} (h : bitRead s p 8 / 64 = 2) (n : Nat) :
    continuations s p v (n + 1) = continuations s (p + 8) (v * 64 + bitRead s p 8 % 64) n := by
  simp [continuations, addContinuation, h]

theorem continuations_bad {s : State} {p v : Nat} (h : bitRead s p 8 / 64 ≠ 2) (n : Nat) :
    continuations s p v (n + 1) = none := by
  simp [continuations, addContinuation, h]

/-- One byte that is none spoils the number. -/
theorem continuations_none (s : State) (n : Nat) :
    ∀ p v, ¬ (∀ i < n, bitRead s (p + 8 * i) 8 / 64 = 2) → continuations s p v n = none := by
  induction n with
  | zero => intro p v h; exact absurd (fun i hi => absurd hi (by omega)) h
  | succ n ih =>
    intro p v h
    by_cases h0 : bitRead s p 8 / 64 = 2
    · rw [continuations_good h0]
      apply ih
      intro H
      apply h
      intro i hi
      cases i with
      | zero => exact h0
      | succ i => have := H i (by omega); rwa [show p + 8 + 8 * i = p + 8 * (i + 1) by ring] at this
    · exact continuations_bad h0 n

theorem utf8Rest_ok (s : State) (n pl v p cur : Nat) (hb : p + 8 * n ≤ endPos s) (hc : continuations s (p + 8) pl (n - 1) = some v) :
   utf8Rest s n pl ⟨cur, p⟩ = .ok (v, ⟨p + 8 * n, p⟩) := by
  unfold utf8Rest
  simp only
  rw [if_neg (by omega), hc]
theorem utf8Rest_oob (s : State) (n pl p cur : Nat) (hb : ¬ p + 8 * n ≤ endPos s)  :
   utf8Rest s n pl ⟨cur, p⟩ = .error ⟨.outOfBounds, p⟩ := by
  unfold utf8Rest
  simp only
  rw [if_pos (by omega)]
theorem utf8Rest_bad (s : State) (n pl p cur : Nat) (hb : p + 8 * n ≤ endPos s) (hc : ¬ ∀ i, 1 ≤ i → i < n → bitRead s (p + 8 * i) 8 / 64 = 2) :
   utf8Rest s n pl ⟨cur, p⟩ = .error ⟨.invalidEncoding, p⟩ := by
  unfold utf8Rest
  simp only
  rw [if_neg (by omega), continuations_none]
  intro H
  apply hc
  intro i h1 h2
  have := H (i - 1) (by omega)
  rwa [show p + 8 + 8 * (i - 1) = p + 8 * i by omega] at this

/-! ## Cursor commands -/

/-- A cursor command whose read raises at POS. -/
theorem runRead_error {s : State} {legal : Bool} {α : Type} {read : Stage α} {store : State → α → State} {r : Raise}
    (hl : legal = true) (hc : lenOk s) (hr : read (startCur s) = .error r) (hp : r.pos = s.pos.toNat) :
    runRead s legal read store = .next (erredAt s r.code) := by
  rcases runRead_cases s legal read store with ⟨v, c, -, -, h, -⟩ | ⟨h, -⟩ | ⟨-, h, -⟩ | ⟨e, -, -, h, he⟩
  · rw [hr] at h; simp at h
  · rw [hl] at h; simp at h
  · exact absurd hc h
  · rw [hr] at h; simp at h; subst h
    rw [he]; unfold takeError erredAt; rw [hp]; simp

/-- A cursor command with LEN beyond IN_MAX (R160). -/
theorem runRead_len {s : State} {legal : Bool} {α : Type} {read : Stage α} {store : State → α → State} (hl : legal = true)
    (hc : ¬ lenOk s) : runRead s legal read store = .next (erredAt s .configError) := by
  rcases runRead_cases s legal read store with ⟨v, c, -, h, -, -⟩ | ⟨h, -⟩ | ⟨-, h, he⟩ | ⟨e, -, h, -, he⟩
  · exact absurd h hc
  · rw [hl] at h; simp at h
  · rw [he]; unfold takeError erredAt; simp
  · exact absurd h hc

/-! ## Subframes -/

/-- The WASTED field where `wastedAt` says it stands (42_subframe_header.md rule R243). -/
theorem wastedField_ok {s : State} {wflag : Bool} {wasted e : Nat} (h : wastedAt s wflag wasted e) :
    wastedField s wflag (workCur s) = .ok (wasted, ⟨e, lastHeaderField s wflag⟩) := by
  unfold wastedAt at h
  unfold wastedField lastHeaderField
  cases wflag with
  | true =>
    simp only [if_true] at h ⊢
    obtain ⟨n, rfl, hu, rfl⟩ := h
    exact bind_eq_ok.2 ⟨n, _, takeUnary_eq_ok.2 ⟨hu, rfl⟩, rfl⟩
  | false =>
    simp only [Bool.false_eq_true, if_false] at h ⊢
    obtain ⟨rfl, rfl⟩ := h
    rfl

/-- A WASTED field that runs off the input. -/
theorem wastedField_error {s : State} (h : ∀ n, ¬ unaryAt s s.work.cur n) :
    wastedField s true (workCur s) = .error ⟨.outOfBounds, s.work.cur⟩ := by
  unfold wastedField
  simp only [if_true]
  refine bind_eq_error.2 (.inl ?_)
  cases hu : takeUnary s (workCur s) with
  | ok p => obtain ⟨n, c⟩ := p; exact absurd (takeUnary_eq_ok.1 hu).1 (h n)
  | error e => rw [(takeUnary_eq_error.1 hu).2]; rfl

/-- … and the subframe with it. -/
theorem subframeBody_outOfBounds {s : State} {type : Nat} {w : Work} (h : ∀ n, ¬ unaryAt s s.work.cur n) :
    subframeBody s type true w (workCur s) = .error ⟨.outOfBounds, s.work.cur⟩ := by
  unfold subframeBody
  exact bind_eq_error.2 (.inl (wastedField_error h))

/-- The effective width (R246). -/
theorem effectiveWidth_eq (s : State) (wasted : Nat) :
    effectiveWidth s.work.hdr.bps wasted (isSide s.work.hdr.chcode s.work.subs.length) = subframeWidth s wasted := by
  unfold effectiveWidth subframeWidth isSide
  simp only
  split_ifs with h <;> simp only [h, decide_true, decide_false, Bool.toNat_true, Bool.toNat_false] <;> rfl

/-- A reserved type code (R245). -/
theorem subframeBody_reserved {s : State} {type : Nat} {wflag : Bool} {wasted e : Nat}
    (h : wastedAt s wflag wasted e) (hc : classify type = none) :
    subframeBody s type wflag s.work (workCur s) = .error ⟨.reservedSubframeType, lastHeaderField s wflag⟩ := by
  unfold subframeBody
  refine bind_eq_error.2 (.inr ⟨_, _, wastedField_ok h, ?_⟩)
  rw [hc]; rfl

/-- A width below 1 (R247). -/
theorem subframeBody_narrow {s : State} {type : Nat} {wflag : Bool} {wasted e : Nat}
    (h : wastedAt s wflag wasted e) {ko : Kind × Nat} (hc : classify type = some ko)
    (hw : subframeWidth s wasted < 1) :
    subframeBody s type wflag s.work (workCur s) = .error ⟨.invalidWastedBits, lastHeaderField s wflag⟩ := by
  unfold subframeBody
  refine bind_eq_error.2 (.inr ⟨_, _, wastedField_ok h, ?_⟩)
  obtain ⟨k, o⟩ := ko
  rw [hc]
  simp only
  refine bind_eq_error.2 (.inl (raiseIf_eq_error.2 ⟨?_, rfl⟩))
  rw [effectiveWidth_eq]; simpa using hw

/-- A subframe whose payload decodes and whose shifted samples stay in DR (R248, R249). -/
theorem subframeBody_ok {s : State} {type : Nat} {wflag : Bool} {wasted e : Nat}
    (h : wastedAt s wflag wasted e) {k : Kind} {o : Nat} (hc : classify type = some (k, o)) 
    (hw : 1 ≤ subframeWidth s wasted) {f : Subframe} {c : Cur}
    (hp : payload s s.work.hdr.bs (openSubframe type wasted k o (subframeWidth s wasted))
      ⟨e, lastHeaderField s wflag⟩ = .ok (f, c))
    (hf : ∀ v ∈ f.samples, inDr s.params.datapathBits (v * 2 ^ f.wasted)) :
    runStage s (subframeBody s type wflag) = .next (workDone s
      { s.work with
        cur := c.cur
        subs := s.work.subs ++ [{ f with samples := f.samples.map (· * 2 ^ f.wasted) }] } c.fpos) := by
  refine runStage_ok (w := { s.work with subs := s.work.subs ++ [{f with samples := f.samples.map (· * 2 ^ f.wasted)}]}) ?_
  unfold subframeBody
  refine bind_eq_ok.2 ⟨_, _, wastedField_ok h, ?_⟩
  rw [hc]
  simp only
  refine bind_eq_ok.2 ⟨(), _, raiseIf_eq_ok.2 ⟨by rw [effectiveWidth_eq]; simpa using hw, rfl⟩, bind_eq_ok.2 ⟨f, c, by rw [effectiveWidth_eq]; exact hp, ?_⟩⟩
  refine bind_eq_ok.2 ⟨{f with samples := f.samples.map (· * 2 ^ f.wasted)}, c, ?_, rfl⟩
  refine bind_eq_ok.2 ⟨(), c, raiseIf_eq_ok.2 ⟨?_, rfl⟩, rfl⟩
  simp only [Bool.not_eq_false', List.all_eq_true, List.mem_map]
  rintro _ ⟨v, hv, rfl⟩
  exact (inRange_iff _ _).2 (hf v hv)

/-- A shifted sample outside DR (R249). -/
theorem subframeBody_overflow {s : State} {type : Nat} {wflag : Bool} {wasted e : Nat}
    (h : wastedAt s wflag wasted e) {k : Kind} {o : Nat} (hc : classify type = some (k, o)) 
    (hw : 1 ≤ subframeWidth s wasted) {f : Subframe} {c : Cur}
    (hp : payload s s.work.hdr.bs (openSubframe type wasted k o (subframeWidth s wasted))
      ⟨e, lastHeaderField s wflag⟩ = .ok (f, c))
    (hf : ∃ v ∈ f.samples, ¬ inDr s.params.datapathBits (v * 2 ^ f.wasted)) :
    subframeBody s type wflag s.work (workCur s) = .error ⟨.arithmeticOverflow, c.fpos⟩ := by
  unfold subframeBody
  refine bind_eq_error.2 (.inr ⟨_, _, wastedField_ok h, ?_⟩)
  rw [hc]
  simp only
  refine bind_eq_error.2 (.inr ⟨(), _, raiseIf_eq_ok.2 ⟨by rw [effectiveWidth_eq]; simpa using hw, rfl⟩, bind_eq_error.2 (.inr ⟨f, c, by rw [effectiveWidth_eq]; exact hp, ?_⟩)⟩)
  refine bind_eq_error.2 (.inl (bind_eq_error.2 (.inl (raiseIf_eq_error.2 ⟨?_, rfl⟩))))
  obtain ⟨v, hv, hn⟩ := hf
  rw [Bool.not_eq_true', ← Bool.not_eq_true, List.all_eq_true]
  intro H
  exact hn ((inRange_iff _ _).1 (H _ (List.mem_map_of_mem hv)))

/-- A payload that raises. -/
theorem subframeBody_error {s : State} {type : Nat} {wflag : Bool} {wasted e : Nat}
    (h : wastedAt s wflag wasted e) {k : Kind} {o : Nat} (hc : classify type = some (k, o)) 
    (hw : 1 ≤ subframeWidth s wasted) {r : Raise}
    (hp : payload s s.work.hdr.bs (openSubframe type wasted k o (subframeWidth s wasted))
      ⟨e, lastHeaderField s wflag⟩ = .error r) :
    subframeBody s type wflag s.work (workCur s) = .error r := by
  unfold subframeBody
  refine bind_eq_error.2 (.inr ⟨_, _, wastedField_ok h, ?_⟩)
  rw [hc]
  simp only
  exact bind_eq_error.2 (.inr ⟨(), _, raiseIf_eq_ok.2 ⟨by rw [effectiveWidth_eq]; simpa using hw, rfl⟩, bind_eq_error.2 (.inl (by rw [effectiveWidth_eq]; exact hp))⟩)

end Sys2Proof.Machine
end

