-- ==== Sys2Proof/Laws/PerInstr.lean ====
section
/-! SUPPORT. Facts about every instruction as syntax, one lemma for each constructor. -/

namespace Sys2Proof.Laws.EncodingFits

/-- The encoder sets no bit outside the instruction's own word: bits 15:9 of a command word are 0 (30_encoding.md rule
R110), and a field's value fits the field's width. -/
def Statement (i : Instr) : Prop :=
  match encode i with
  | .cmd w => reservedField w = 0
  | .field f v => v < 2 ^ f.width

theorem wflagBit_le (w : Bool) : wflagBit w ≤ 1 := by cases w <;> decide

theorem nop : Statement .nop := (rfl : reservedField 0x0000 = 0)

theorem readU : Statement .readU := (rfl : reservedField 0x0001 = 0)

theorem readULe : Statement .readULe := (rfl : reservedField 0x0101 = 0)

theorem readS : Statement .readS := (rfl : reservedField 0x0002 = 0)

theorem readSLe : Statement .readSLe := (rfl : reservedField 0x0102 = 0)

theorem readBit : Statement .readBit := (rfl : reservedField 0x0003 = 0)

theorem readUnary : Statement .readUnary := (rfl : reservedField 0x0004 = 0)

theorem readUtf8 : Statement .readUtf8 := (rfl : reservedField 0x0005 = 0)

theorem readRaw : Statement .readRaw := (rfl : reservedField 0x0006 = 0)

theorem readBytes : Statement .readBytes := (rfl : reservedField 0x0007 = 0)

theorem seek : Statement .seek := (rfl : reservedField 0x0008 = 0)

theorem decodeFrame : Statement .decodeFrame := (rfl : reservedField 0x0010 = 0)

theorem decodeStream : Statement .decodeStream := (rfl : reservedField 0x0011 = 0)

theorem outReset : Statement .outReset := (rfl : reservedField 0x001E = 0)

theorem clear : Statement .clear := (rfl : reservedField 0x001F = 0)

theorem subframePadSet (rest : BitVec 7) : Statement (.subframePadSet rest) := by
  have := rest.isLt
  show 0b10000000 + rest.toNat < 2 ^ 8
  omega

theorem subframeConstant (wflag : Bool) : Statement (.subframeConstant wflag) := by
  have := wflagBit_le wflag
  show 0b00000000 + wflagBit wflag < 2 ^ 8
  omega

theorem subframeVerbatim (wflag : Bool) : Statement (.subframeVerbatim wflag) := by
  have := wflagBit_le wflag
  show 0b00000010 + wflagBit wflag < 2 ^ 8
  omega

theorem subframeReserved0203 (low : BitVec 1) (wflag : Bool) : Statement (.subframeReserved0203 low wflag) := by
  have := low.isLt
  have := wflagBit_le wflag
  show 0b00000100 + low.toNat * 2 + wflagBit wflag < 2 ^ 8
  omega

theorem subframeReserved0407 (low : BitVec 2) (wflag : Bool) : Statement (.subframeReserved0407 low wflag) := by
  have := low.isLt
  have := wflagBit_le wflag
  show 0b00001000 + low.toNat * 2 + wflagBit wflag < 2 ^ 8
  omega

theorem subframeFixed0 (wflag : Bool) : Statement (.subframeFixed0 wflag) := by
  have := wflagBit_le wflag
  show 0b00010000 + wflagBit wflag < 2 ^ 8
  omega

theorem subframeFixed1 (wflag : Bool) : Statement (.subframeFixed1 wflag) := by
  have := wflagBit_le wflag
  show 0b00010010 + wflagBit wflag < 2 ^ 8
  omega

theorem subframeFixed2 (wflag : Bool) : Statement (.subframeFixed2 wflag) := by
  have := wflagBit_le wflag
  show 0b00010100 + wflagBit wflag < 2 ^ 8
  omega

theorem subframeFixed3 (wflag : Bool) : Statement (.subframeFixed3 wflag) := by
  have := wflagBit_le wflag
  show 0b00010110 + wflagBit wflag < 2 ^ 8
  omega

theorem subframeFixed4 (wflag : Bool) : Statement (.subframeFixed4 wflag) := by
  have := wflagBit_le wflag
  show 0b00011000 + wflagBit wflag < 2 ^ 8
  omega

theorem subframeReserved0D (wflag : Bool) : Statement (.subframeReserved0D wflag) := by
  have := wflagBit_le wflag
  show 0b00011010 + wflagBit wflag < 2 ^ 8
  omega

theorem subframeReserved0E0F (low : BitVec 1) (wflag : Bool) : Statement (.subframeReserved0E0F low wflag) := by
  have := low.isLt
  have := wflagBit_le wflag
  show 0b00011100 + low.toNat * 2 + wflagBit wflag < 2 ^ 8
  omega

theorem subframeReserved101F (low : BitVec 4) (wflag : Bool) : Statement (.subframeReserved101F low wflag) := by
  have := low.isLt
  have := wflagBit_le wflag
  show 0b00100000 + low.toNat * 2 + wflagBit wflag < 2 ^ 8
  omega

theorem subframeLpc (orderM1 : BitVec 5) (wflag : Bool) : Statement (.subframeLpc orderM1 wflag) := by
  have := orderM1.isLt
  have := wflagBit_le wflag
  show 0b01000000 + orderM1.toNat * 2 + wflagBit wflag < 2 ^ 8
  omega

theorem residualRice4 : Statement .residualRice4 := (by decide : 0b00 < 2 ^ 2)

theorem residualRice5 : Statement .residualRice5 := (by decide : 0b01 < 2 ^ 2)

theorem residualReserved (low : BitVec 1) : Statement (.residualReserved low) := by
  have := low.isLt
  show 0b10 + low.toNat < 2 ^ 2
  omega

theorem partitionRice4 (param : BitVec 4) : Statement (.partitionRice4 param) := by
  have := param.isLt
  show 0b0000 + param.toNat < 2 ^ 4
  omega

theorem partitionEscape4 : Statement .partitionEscape4 := (by decide : 0b1111 < 2 ^ 4)

theorem partitionRice5 (param : BitVec 5) : Statement (.partitionRice5 param) := by
  have := param.isLt
  show 0b00000 + param.toNat < 2 ^ 5
  omega

theorem partitionEscape5 : Statement .partitionEscape5 := (by decide : 0b11111 < 2 ^ 5)

theorem escapeWidth (ew : BitVec 5) : Statement (.escapeWidth ew) := by
  have := ew.isLt
  show 0b00000 + ew.toNat < 2 ^ 5
  omega

theorem lpcPrecision (precM1 : BitVec 4) : Statement (.lpcPrecision precM1) := by
  have := precM1.isLt
  show 0b0000 + precM1.toNat < 2 ^ 4
  omega

theorem lpcPrecisionInvalid : Statement .lpcPrecisionInvalid := (by decide : 0b1111 < 2 ^ 4)

theorem lpcShift (shift : BitVec 4) : Statement (.lpcShift shift) := by
  have := shift.isLt
  show 0b00000 + shift.toNat < 2 ^ 5
  omega

theorem lpcShiftNegative (low : BitVec 4) : Statement (.lpcShiftNegative low) := by
  have := low.isLt
  show 0b10000 + low.toNat < 2 ^ 5
  omega

theorem frameSync : Statement .frameSync := (by decide : 0b1111111111111000 < 2 ^ 16)

theorem frameSyncVariable : Statement .frameSyncVariable := (by decide : 0b1111111111111001 < 2 ^ 16)

theorem blocksizeReserved : Statement .blocksizeReserved := (by decide : 0b0000 < 2 ^ 4)

theorem blocksize192 : Statement .blocksize192 := (by decide : 0b0001 < 2 ^ 4)

theorem blocksize576 : Statement .blocksize576 := (by decide : 0b0010 < 2 ^ 4)

theorem blocksize1152 : Statement .blocksize1152 := (by decide : 0b0011 < 2 ^ 4)

theorem blocksize2304 : Statement .blocksize2304 := (by decide : 0b0100 < 2 ^ 4)

theorem blocksize4608 : Statement .blocksize4608 := (by decide : 0b0101 < 2 ^ 4)

theorem blocksizeEsc8 : Statement .blocksizeEsc8 := (by decide : 0b0110 < 2 ^ 4)

theorem blocksizeEsc16 : Statement .blocksizeEsc16 := (by decide : 0b0111 < 2 ^ 4)

theorem blocksize256Shift (low : BitVec 3) : Statement (.blocksize256Shift low) := by
  have := low.isLt
  show 0b1000 + low.toNat < 2 ^ 4
  omega

theorem samplerateInherit : Statement .samplerateInherit := (by decide : 0b0000 < 2 ^ 4)

theorem samplerate88200 : Statement .samplerate88200 := (by decide : 0b0001 < 2 ^ 4)

theorem samplerate176400 : Statement .samplerate176400 := (by decide : 0b0010 < 2 ^ 4)

theorem samplerate192000 : Statement .samplerate192000 := (by decide : 0b0011 < 2 ^ 4)

theorem samplerate8000 : Statement .samplerate8000 := (by decide : 0b0100 < 2 ^ 4)

theorem samplerate16000 : Statement .samplerate16000 := (by decide : 0b0101 < 2 ^ 4)

theorem samplerate22050 : Statement .samplerate22050 := (by decide : 0b0110 < 2 ^ 4)

theorem samplerate24000 : Statement .samplerate24000 := (by decide : 0b0111 < 2 ^ 4)

theorem samplerate32000 : Statement .samplerate32000 := (by decide : 0b1000 < 2 ^ 4)

theorem samplerate44100 : Statement .samplerate44100 := (by decide : 0b1001 < 2 ^ 4)

theorem samplerate48000 : Statement .samplerate48000 := (by decide : 0b1010 < 2 ^ 4)

theorem samplerate96000 : Statement .samplerate96000 := (by decide : 0b1011 < 2 ^ 4)

theorem samplerateEscKhz8 : Statement .samplerateEscKhz8 := (by decide : 0b1100 < 2 ^ 4)

theorem samplerateEscHz16 : Statement .samplerateEscHz16 := (by decide : 0b1101 < 2 ^ 4)

theorem samplerateEscTenHz16 : Statement .samplerateEscTenHz16 := (by decide : 0b1110 < 2 ^ 4)

theorem samplerateInvalid : Statement .samplerateInvalid := (by decide : 0b1111 < 2 ^ 4)

theorem channelsIndependent (code : BitVec 3) : Statement (.channelsIndependent code) := by
  have := code.isLt
  show 0b0000 + code.toNat < 2 ^ 4
  omega

theorem channelsLeftSide : Statement .channelsLeftSide := (by decide : 0b1000 < 2 ^ 4)

theorem channelsRightSide : Statement .channelsRightSide := (by decide : 0b1001 < 2 ^ 4)

theorem channelsMidSide : Statement .channelsMidSide := (by decide : 0b1010 < 2 ^ 4)

theorem channelsReserved11 : Statement .channelsReserved11 := (by decide : 0b1011 < 2 ^ 4)

theorem channelsReserved1215 (low : BitVec 2) : Statement (.channelsReserved1215 low) := by
  have := low.isLt
  show 0b1100 + low.toNat < 2 ^ 4
  omega

theorem bitdepthInherit : Statement .bitdepthInherit := (by decide : 0b000 < 2 ^ 3)

theorem bitdepth8 : Statement .bitdepth8 := (by decide : 0b001 < 2 ^ 3)

theorem bitdepth12 : Statement .bitdepth12 := (by decide : 0b010 < 2 ^ 3)

theorem bitdepthReserved : Statement .bitdepthReserved := (by decide : 0b011 < 2 ^ 3)

theorem bitdepth16 : Statement .bitdepth16 := (by decide : 0b100 < 2 ^ 3)

theorem bitdepth20 : Statement .bitdepth20 := (by decide : 0b101 < 2 ^ 3)

theorem bitdepth24 : Statement .bitdepth24 := (by decide : 0b110 < 2 ^ 3)

theorem bitdepth32 : Statement .bitdepth32 := (by decide : 0b111 < 2 ^ 3)

theorem headerReservedBit : Statement .headerReservedBit := (by decide : 0b0 < 2 ^ 1)

theorem utf8OneByte (payload : BitVec 7) : Statement (.utf8OneByte payload) := by
  have := payload.isLt
  show 0b00000000 + payload.toNat < 2 ^ 8
  omega

theorem utf8ContinuationAsLead (low : BitVec 6) : Statement (.utf8ContinuationAsLead low) := by
  have := low.isLt
  show 0b10000000 + low.toNat < 2 ^ 8
  omega

theorem utf8TwoByte (payload : BitVec 5) : Statement (.utf8TwoByte payload) := by
  have := payload.isLt
  show 0b11000000 + payload.toNat < 2 ^ 8
  omega

theorem utf8ThreeByte (payload : BitVec 4) : Statement (.utf8ThreeByte payload) := by
  have := payload.isLt
  show 0b11100000 + payload.toNat < 2 ^ 8
  omega

theorem utf8FourByte (payload : BitVec 3) : Statement (.utf8FourByte payload) := by
  have := payload.isLt
  show 0b11110000 + payload.toNat < 2 ^ 8
  omega

theorem utf8LongLead (low : BitVec 3) : Statement (.utf8LongLead low) := by
  have := low.isLt
  show 0b11111000 + low.toNat < 2 ^ 8
  omega

theorem utf8Continuation (payload : BitVec 6) : Statement (.utf8Continuation payload) := by
  have := payload.isLt
  show 0b10000000 + payload.toNat < 2 ^ 8
  omega

end Sys2Proof.Laws.EncodingFits
end

