-- ==== Sys2Proof/Laws/Predictor.lean ====
section
/-! SUPPORT. The predictors' checked sum is the exact sum, and the sum of the recurrence (44_predictors.md rule R304). -/

namespace Sys2Proof.Machine

/-- The weighted sum of the past, the latest sample first. -/
def dot (a p : List Int) : Int := ((List.range a.length).map fun j => a.getD j 0 * p.getD j 0).sum

theorem dot_cons (a : Int) (l : List Int) (x : Int) (p : List Int) : dot (a :: l) (x :: p) = a * x + dot l p := by
  simp [dot, List.range_succ_eq_map, Function.comp_def]

/-- The checked sum answers the exact sum, and answers exactly when every product and every partial sum is in DR
(44_predictors.md rules R290, R294, R304). -/
theorem predict_eq_some (d : Nat) (a p : List Int) (acc r : Int) (h : a.length ≤ p.length) :
    predict d a p acc = some r ↔
      r = acc + dot a p ∧
        ∀ j < a.length, inDr d (a.getD j 0 * p.getD j 0) ∧ inDr d (acc + dot (a.take (j + 1)) p) := by
  induction a generalizing p acc with
  | nil => simp [predict, dot, eq_comm]
  | cons a l ih =>
    cases p with
    | nil => simp at h
    | cons x p =>
      simp only [List.length_cons, Nat.add_le_add_iff_right] at h
      simp only [predict, checked]
      by_cases h1 : inRange d (a * x) = true
      · by_cases h2 : inRange d (acc + a * x) = true
        · simp only [h1, h2, if_true]
          rw [ih _ _ h, dot_cons, Int.add_assoc]
          refine and_congr_right fun _ => ⟨fun H j hj => ?_, fun H j hj => ?_⟩
          · cases j with
            | zero => 
              simp only [List.take_succ_cons, List.take_zero, dot_cons]
              exact ⟨(inRange_iff _ _).1 h1, by simpa [dot] using (inRange_iff _ _).1 h2⟩
            | succ j => 
              have := H j (by simpa using hj)
              simp only [List.take_succ_cons, dot_cons, List.getD_cons_succ]
              rw [← Int.add_assoc]; exact this
          · have := H (j + 1) (by simpa using hj)
            simp only [List.take_succ_cons, dot_cons, List.getD_cons_succ] at this
            rw [← Int.add_assoc] at this; exact this
        · simp only [h1, h2, if_true]
          simp only [Bool.false_eq_true, if_false, reduceCtorEq, false_iff, not_and]
          intro _ H
          have := (H 0 (by simp)).2
          simp only [List.take_succ_cons, List.take_zero, dot_cons] at this
          simp only [dot, List.length_nil, List.range_zero, List.map_nil, List.sum_nil, Int.add_zero] at this
          exact h2 ((inRange_iff _ _).2 this)
      · simp only [h1, Bool.false_eq_true, if_false, reduceCtorEq, false_iff, not_and]
        intro _ H
        exact h1 ((inRange_iff _ _).2 (H 0 (by simp)).1)

/-- That sum over the samples before sample `n` is `prediction`. -/
theorem dot_take_reverse (a x : List Int) (n : Nat) (h : a.length ≤ n) (hn : n ≤ x.length) :
    dot a (x.take n).reverse = prediction a x n := by
  unfold dot prediction
  congr 1
  refine List.map_congr_left fun j hj => ?_
  have hj : j < a.length := by simpa using hj
  congr 1
  rw [List.getD_eq_getElem?_getD, List.getD_eq_getElem?_getD, List.getElem?_reverse (by simp; omega), List.getElem?_take]
  simp only [List.length_take]
  rw [if_pos (by omega), Nat.min_eq_left hn]

end Sys2Proof.Machine
end

