-- ==== Sys2Proof/Tests/Slice0.lean ====
section
/-! SUPPORT. Tests: expected values come from spec/95_test_vectors.md (P2, P3, P5 and its tables), from the rules' own
examples or from the encoding tables; and the witnesses that the hypotheses of the statements can be met. -/

namespace Sys2Proof.Tests

open Sys2Proof Sys2Proof.Machine

set_option Elab.async false

/-! ## Well-formedness -/

theorem test_wellFormed_rice4 : (Instr.partitionRice4 15).wellFormed = false ∧ (Instr.partitionRice4 14).wellFormed = true := by
  decide

theorem test_wellFormed_rice5 : (Instr.partitionRice5 31).wellFormed = false ∧ (Instr.partitionRice5 15).wellFormed = true := by
  decide

theorem test_wellFormed_precision : (Instr.lpcPrecision 15).wellFormed = false ∧ (Instr.lpcPrecision 14).wellFormed = true := by
  decide

/-! ## Decoding: one word for every row, its fixed bits from the opcode table and its free bits mixed -/

theorem test_decode_command :
    decode (.cmd 0x0000) = .ok .nop ∧
    decode (.cmd 0x0001) = .ok .readU ∧
    decode (.cmd 0x0101) = .ok .readULe ∧
    decode (.cmd 0x0002) = .ok .readS ∧
    decode (.cmd 0x0102) = .ok .readSLe ∧
    decode (.cmd 0x0003) = .ok .readBit ∧
    decode (.cmd 0x0004) = .ok .readUnary ∧
    decode (.cmd 0x0005) = .ok .readUtf8 ∧
    decode (.cmd 0x0006) = .ok .readRaw ∧
    decode (.cmd 0x0007) = .ok .readBytes ∧
    decode (.cmd 0x0008) = .ok .seek ∧
    decode (.cmd 0x0010) = .ok .decodeFrame ∧
    decode (.cmd 0x0011) = .ok .decodeStream ∧
    decode (.cmd 0x001E) = .ok .outReset ∧
    decode (.cmd 0x001F) = .ok .clear := by
  decide +kernel

theorem test_decode_subframeHeader8 :
    decode (.field .subframeHeader8 0b11001101) = .ok (.subframePadSet 77) ∧
    decode (.field .subframeHeader8 0b00000001) = .ok (.subframeConstant true) ∧
    decode (.field .subframeHeader8 0b00000011) = .ok (.subframeVerbatim true) ∧
    decode (.field .subframeHeader8 0b00000110) = .ok (.subframeReserved0203 1 false) ∧
    decode (.field .subframeHeader8 0b00001100) = .ok (.subframeReserved0407 2 false) ∧
    decode (.field .subframeHeader8 0b00010001) = .ok (.subframeFixed0 true) ∧
    decode (.field .subframeHeader8 0b00010011) = .ok (.subframeFixed1 true) ∧
    decode (.field .subframeHeader8 0b00010101) = .ok (.subframeFixed2 true) ∧
    decode (.field .subframeHeader8 0b00010111) = .ok (.subframeFixed3 true) ∧
    decode (.field .subframeHeader8 0b00011001) = .ok (.subframeFixed4 true) ∧
    decode (.field .subframeHeader8 0b00011011) = .ok (.subframeReserved0D true) ∧
    decode (.field .subframeHeader8 0b00011110) = .ok (.subframeReserved0E0F 1 false) ∧
    decode (.field .subframeHeader8 0b00110011) = .ok (.subframeReserved101F 9 true) ∧
    decode (.field .subframeHeader8 0b01100110) = .ok (.subframeLpc 19 false) := by
  decide +kernel

theorem test_decode_residualMethod2 :
    decode (.field .residualMethod2 0b00) = .ok .residualRice4 ∧
    decode (.field .residualMethod2 0b01) = .ok .residualRice5 ∧
    decode (.field .residualMethod2 0b11) = .ok (.residualReserved 1) := by
  decide +kernel

theorem test_decode_param4 :
    decode (.field .param4 0b1001) = .ok (.partitionRice4 9) ∧
    decode (.field .param4 0b1111) = .ok .partitionEscape4 := by
  decide +kernel

theorem test_decode_param5 :
    decode (.field .param5 0b10011) = .ok (.partitionRice5 19) ∧
    decode (.field .param5 0b11111) = .ok .partitionEscape5 := by
  decide +kernel

theorem test_decode_ew5 :
    decode (.field .ew5 0b10011) = .ok (.escapeWidth 19) := by
  decide +kernel

theorem test_decode_precM14 :
    decode (.field .precM14 0b1001) = .ok (.lpcPrecision 9) ∧
    decode (.field .precM14 0b1111) = .ok .lpcPrecisionInvalid := by
  decide +kernel

theorem test_decode_shift5 :
    decode (.field .shift5 0b01001) = .ok (.lpcShift 9) ∧
    decode (.field .shift5 0b11001) = .ok (.lpcShiftNegative 9) := by
  decide +kernel

theorem test_decode_sync16 :
    decode (.field .sync16 0b1111111111111000) = .ok .frameSync ∧
    decode (.field .sync16 0b1111111111111001) = .ok .frameSyncVariable := by
  decide +kernel

theorem test_decode_bscode4 :
    decode (.field .bscode4 0b0000) = .ok .blocksizeReserved ∧
    decode (.field .bscode4 0b0001) = .ok .blocksize192 ∧
    decode (.field .bscode4 0b0010) = .ok .blocksize576 ∧
    decode (.field .bscode4 0b0011) = .ok .blocksize1152 ∧
    decode (.field .bscode4 0b0100) = .ok .blocksize2304 ∧
    decode (.field .bscode4 0b0101) = .ok .blocksize4608 ∧
    decode (.field .bscode4 0b0110) = .ok .blocksizeEsc8 ∧
    decode (.field .bscode4 0b0111) = .ok .blocksizeEsc16 ∧
    decode (.field .bscode4 0b1100) = .ok (.blocksize256Shift 4) := by
  decide +kernel

theorem test_decode_srcode4 :
    decode (.field .srcode4 0b0000) = .ok .samplerateInherit ∧
    decode (.field .srcode4 0b0001) = .ok .samplerate88200 ∧
    decode (.field .srcode4 0b0010) = .ok .samplerate176400 ∧
    decode (.field .srcode4 0b0011) = .ok .samplerate192000 ∧
    decode (.field .srcode4 0b0100) = .ok .samplerate8000 ∧
    decode (.field .srcode4 0b0101) = .ok .samplerate16000 ∧
    decode (.field .srcode4 0b0110) = .ok .samplerate22050 ∧
    decode (.field .srcode4 0b0111) = .ok .samplerate24000 ∧
    decode (.field .srcode4 0b1000) = .ok .samplerate32000 ∧
    decode (.field .srcode4 0b1001) = .ok .samplerate44100 ∧
    decode (.field .srcode4 0b1010) = .ok .samplerate48000 ∧
    decode (.field .srcode4 0b1011) = .ok .samplerate96000 ∧
    decode (.field .srcode4 0b1100) = .ok .samplerateEscKhz8 ∧
    decode (.field .srcode4 0b1101) = .ok .samplerateEscHz16 ∧
    decode (.field .srcode4 0b1110) = .ok .samplerateEscTenHz16 ∧
    decode (.field .srcode4 0b1111) = .ok .samplerateInvalid := by
  decide +kernel

theorem test_decode_chcode4 :
    decode (.field .chcode4 0b0100) = .ok (.channelsIndependent 4) ∧
    decode (.field .chcode4 0b1000) = .ok .channelsLeftSide ∧
    decode (.field .chcode4 0b1001) = .ok .channelsRightSide ∧
    decode (.field .chcode4 0b1010) = .ok .channelsMidSide ∧
    decode (.field .chcode4 0b1011) = .ok .channelsReserved11 ∧
    decode (.field .chcode4 0b1110) = .ok (.channelsReserved1215 2) := by
  decide +kernel

theorem test_decode_bdcode3 :
    decode (.field .bdcode3 0b000) = .ok .bitdepthInherit ∧
    decode (.field .bdcode3 0b001) = .ok .bitdepth8 ∧
    decode (.field .bdcode3 0b010) = .ok .bitdepth12 ∧
    decode (.field .bdcode3 0b011) = .ok .bitdepthReserved ∧
    decode (.field .bdcode3 0b100) = .ok .bitdepth16 ∧
    decode (.field .bdcode3 0b101) = .ok .bitdepth20 ∧
    decode (.field .bdcode3 0b110) = .ok .bitdepth24 ∧
    decode (.field .bdcode3 0b111) = .ok .bitdepth32 := by
  decide +kernel

theorem test_decode_rsv1 :
    decode (.field .rsv1 0b0) = .ok .headerReservedBit := by
  decide +kernel

theorem test_decode_utf8Lead8 :
    decode (.field .utf8Lead8 0b01001101) = .ok (.utf8OneByte 77) ∧
    decode (.field .utf8Lead8 0b10100110) = .ok (.utf8ContinuationAsLead 38) ∧
    decode (.field .utf8Lead8 0b11010011) = .ok (.utf8TwoByte 19) ∧
    decode (.field .utf8Lead8 0b11101001) = .ok (.utf8ThreeByte 9) ∧
    decode (.field .utf8Lead8 0b11110100) = .ok (.utf8FourByte 4) ∧
    decode (.field .utf8Lead8 0b11111100) = .ok (.utf8LongLead 4) := by
  decide +kernel

theorem test_decode_utf8Cont8 :
    decode (.field .utf8Cont8 0b10100110) = .ok (.utf8Continuation 38) := by
  decide +kernel

theorem test_decode_rejects :
    decode (.cmd 0x0009) = .error .unassignedOpcode ∧ decode (.cmd 0x0110) = .error .endianBit ∧
    decode (.cmd 0x0200) = .error .reservedBits ∧ decode (.cmd 0x0012) = .error .unassignedOpcode ∧
    decode (.field .sync16 0b1111111111111010) = .error .syncMismatch ∧ decode (.field .rsv1 1) = .error .reservedBitSet ∧
    decode (.field .utf8Cont8 0b11000000) = .error .notContinuation ∧ decode (.field .bdcode3 8) = .error .tooWide := by
  decide +kernel

theorem test_decodeTableWord : decodeTableWord 16 0x0011 = some .decodeStream ∧
    decodeTableWord 16 0b1111111111111000 = some .frameSync ∧ decodeTableWord 8 0b00010000 = some (.subframeFixed0 false) := by
  decide +kernel

/-! ## Small states -/

/-- The input holds `bytes` and the cursor stands at `pos`. -/
def holding (bytes : List Byte) (pos : Nat) : State :=
  { State.reset with
    inMem := (List.range bytes.length).zip bytes
    len := BitVec.ofNat 64 bytes.length
    pos := BitVec.ofNat 64 pos }

/-- The host has written the stream parameters. -/
def withStream (s : State) (ch bps : Byte) : State :=
  { s with
    streamRate := 44100, streamCh := ch, streamBps := bps, rateWritten := true, chWritten := true, bpsWritten := true }

/-- What a test asks of an outcome: a next state of which `f` holds. -/
def outcome (o : Host.Outcome State Fault Refusal) (f : State → Bool) : Bool :=
  match o with
  | .next t => f t
  | _ => false

/-- A command has raised `e` at `pos`. -/
def raised (o : Host.Outcome State Fault Refusal) (e : ErrCode) (pos : Nat) : Bool :=
  outcome o fun t => t.errCode = e ∧ t.errPos = BitVec.ofNat 64 pos ∧ t.done

/-- Frame 0 of P2, its first 12 bytes. -/
def p2Body : List Byte := [0xFF, 0xF8, 0x60, 0x00, 0x00, 0x03, 0xE3, 0x10, 0x00, 0x9B, 0xC3, 0x00]

/-- P2: the stream of two mono frames. -/
def p2 : State :=
  withStream (holding (p2Body ++ [0xC6, 0xF5, 0xFF, 0xF8, 0x60, 0x00, 0x01, 0x03, 0xF6, 0x10, 0x00, 0x09, 0x60, 0xC1, 0x8D]) 0) 1 16

/-- P3: mid-side, LPC, FIXED with wasted bits, the 5-bit method. -/
def p3 : State :=
  withStream (holding [0xFF, 0xF9, 0x69, 0xA8, 0x10, 0x07, 0x75, 0x42, 0x00, 0x63, 0x00, 0x66, 0x30, 0x9F, 0x82, 0x21, 0x02,
    0x2B, 0xE9, 0x44, 0xE0, 0x00, 0x28, 0x05, 0x25, 0x4F, 0x4E, 0xC4] 0) 2 16

/-- P5: CONSTANT, FIXED 2, escaped partitions. -/
def p5 : State :=
  withStream (holding [0xFF, 0xF8, 0x6C, 0x12, 0x05, 0x05, 0x30, 0x54, 0x00, 0xFD, 0x14, 0x0A, 0x0C, 0x07, 0xC1, 0xE4, 0x01,
    0xF0, 0x62, 0x5E] 0) 2 16

/-! ## Commands (95_test_vectors.md 2.1, 2.7) -/

theorem test_withFetchWord : outcome (step (State.reset.withFetchWord 16 0x0008)) (fun t => t.cmd = 8 ∧ t.done) := by
  decide +kernel

theorem test_readU : outcome (exec .readU { holding [0xA5, 0x3C, 0xE2, 0x0F] 3 with arg := 10 })
    (fun t => t.result = 0xA7 ∧ t.pos = 13) := by decide +kernel

theorem test_readULe : outcome (exec .readULe { holding [0x34, 0x12] 0 with arg := 16 }) (fun t => t.result = 0x1234) := by
  decide +kernel

theorem test_readS : outcome (exec .readS { holding [0x80] 0 with arg := 1 }) (fun t => t.result = -1 ∧ t.pos = 1) := by
  decide +kernel

theorem test_readSLe : outcome (exec .readSLe { holding [0xFF, 0xFE] 0 with arg := 16 })
    (fun t => t.result = 0xFFFFFFFFFFFFFEFF) := by decide +kernel

theorem test_readBit : outcome (exec .readBit (holding [0x80] 0)) (fun t => t.result = 1 ∧ t.pos = 1) := by decide +kernel

theorem test_readUnary : outcome (exec .readUnary (holding [0x00, 0x01] 0)) (fun t => t.result = 15 ∧ t.pos = 16) := by
  decide +kernel

theorem test_readUnary_end : raised (exec .readUnary (holding [0, 0] 0)) .outOfBounds 0 := by decide +kernel

theorem test_readUtf8 : outcome (exec .readUtf8 (holding [0xE4, 0x80, 0x80] 0)) (fun t => t.result = 16384 ∧ t.pos = 24) := by
  decide +kernel

theorem test_readUtf8_continuation : raised (exec .readUtf8 (holding [0xC2, 0x41] 0)) .invalidEncoding 0 := by decide +kernel

theorem test_readRaw : outcome (exec .readRaw { holding [0xA5, 0x3C, 0xE2, 0x0F] 1 with arg := 16 })
    (fun t => t.span = [0x4A, 0x79] ∧ t.spanLen = 2 ∧ t.pos = 17) := by decide +kernel

theorem test_readBytes : outcome (exec .readBytes { holding [0xA5, 0x3C, 0xE2] 4 with arg := 2 })
    (fun t => t.span = [0x53, 0xCE] ∧ t.result = 2 ∧ t.pos = 20) := by decide +kernel

theorem test_readBytes_tooMany : raised (exec .readBytes { holding [0xA5] 0 with arg := 9 }) .illegalArgument 0 := by
  decide +kernel

theorem test_seek : outcome (exec .seek { holding [0xA5] 0 with arg := 0x1000 }) (fun t => t.pos = 4096 ∧ t.errCode = .noError) := by
  decide +kernel

/-- R346: NOP after reset gives STATUS = 0x09. -/
theorem test_nop : outcome (exec .nop State.reset) (fun t => statusWord t = 0x09) := by decide +kernel

theorem test_clear : outcome (exec .clear { p2 with errCode := .invalidPadding, errPos := 89 })
    (fun t => t.errCode = .noError ∧ t.errPos = 89) := by decide +kernel

theorem test_outReset : outcome (exec .outReset { p2 with outptr := 8, frameCount := 2 })
    (fun t => t.outptr = 0 ∧ t.frameCount = 0 ∧ t.pos = 0) := by decide +kernel

theorem test_illegalWord : outcome (step { p2 with pos := 216, host := [.writeReg 0 9] })
    (fun t => t.errCode = .illegalCommand ∧ t.errPos = 216 ∧ t.cmd = 9) := by decide +kernel

theorem test_stickyWord : outcome (step { p2 with errCode := .invalidPadding, arg := 8, host := [.writeReg 0 1] })
    (fun t => t.errCode = .invalidPadding ∧ t.pos = 0 ∧ t.result = 0) := by decide +kernel

/-! ## Frames (95_test_vectors.md 2.3 to 2.7 and section 3) -/

theorem test_p2_frame : outcome (exec .decodeFrame p2)
    (fun t => t.pos = 112 ∧ t.out = [(0, 3), (1, -2), (2, 0), (3, 5)] ∧ t.result = 4 ∧ t.frameCount = 1 ∧
      statusWord t = 0x15) := by decide +kernel

theorem test_p2_stream : outcome (exec .decodeStream p2)
    (fun t => t.pos = 216 ∧ t.out = [(0, 3), (1, -2), (2, 0), (3, 5), (4, 1), (5, 1), (6, -1), (7, 0)] ∧ t.result = 2 ∧
      statusWord t = 0x1D ∧ t.frame.hdr.crc16 = 0xC18D ∧ t.frame.hdr.frameStart = 112) := by decide +kernel

theorem test_p3 : outcome (exec .decodeFrame p3)
    (fun t => t.pos = 224 ∧
      t.out.map Prod.snd = [100, 98, 104, 100, 110, 104, 118, 110, 120, 112, 119, 111, 115, 111, 108, 106] ∧
      t.frame.channels.map (fun ch => (ch.sfKind, ch.sfOrder, ch.sfWasted, ch.sfWidth)) = [(3, 2, 0, 16), (2, 1, 1, 16)] ∧
      t.frame.channels.map ChannelRegs.coef = [[3, -1], []] ∧
      t.frame.channels.map ChannelRegs.res = [[4, 5, -1, -2, -1, -5], [1, 1, 1, 0, 0, -2, -1]]) := by decide +kernel

theorem test_p5 : outcome (exec .decodeFrame p5)
    (fun t => t.pos = 160 ∧ t.out.map Prod.snd = [-3, 10, -3, 12, -3, 14, -3, 16, -3, 19, -3, 21] ∧
      t.frame.hdr.rate = 48000 ∧ t.frame.hdr.bps = 8 ∧ t.frame.channels.map ChannelRegs.rpart = [[], [0x20, 0x24]]) := by
  decide +kernel

theorem test_paddingError : raised
    (exec .decodeFrame (withStream (holding (p2Body.take 11 ++ [0x01, 0xC6, 0xF5]) 0) 1 16)) .invalidPadding 89 := by
  decide +kernel

theorem test_frameChecksum : raised (exec .decodeFrame (withStream (holding (p2Body ++ [0xC6, 0xF4]) 0) 1 16)) .frameChecksum 96 := by
  decide +kernel

theorem test_outputOverflow : raised (exec .decodeFrame { p2 with params := { p2.params with outMax := 3 } }) .outputOverflow 96 := by
  decide +kernel

theorem test_channelMismatch : raised (exec .decodeFrame { p2 with streamCh := 2 }) .channelMismatch 48 := by decide +kernel

theorem test_reservedType : raised
    (exec .decodeFrame (withStream (holding [0xFF, 0xF8, 0x60, 0x00, 0x00, 0x03, 0xE3, 0x04, 0x00, 0x00, 0xA0, 0x62] 0) 1 16))
    .reservedSubframeType 63 := by decide +kernel

theorem test_invalidWasted : raised
    (exec .decodeFrame (withStream (holding [0xFF, 0xF8, 0x60, 0x02, 0x00, 0x03, 0x35, 0x01, 0x01, 0x00, 0x9C, 0x22] 0) 1 16))
    .invalidWastedBits 64 := by decide +kernel

theorem test_residualLength : raised
    (exec .decodeFrame (withStream (holding [0xFF, 0xF8, 0x60, 0x00, 0x00, 0x03, 0xE3, 0x10, 0x0C, 0x00, 0x00, 0xF1, 0x35] 0) 1 16))
    .residualLength 66 := by decide +kernel

theorem test_escapeWidth : raised
    (exec .decodeFrame (withStream (holding [0xFF, 0xF8, 0x60, 0x00, 0x00, 0x03, 0xE3, 0x10, 0x03, 0xE0, 0x29, 0x31] 0) 1 16))
    .invalidEscapeWidth 74 := by decide +kernel

theorem test_shift : raised
    (exec .decodeFrame (withStream (holding [0xFF, 0xF8, 0x60, 0x00, 0x00, 0x03, 0xE3, 0x40, 0x00, 0x05, 0x3F, 0x80, 0x5F, 0xE2] 0)
      1 16)) .invalidShift 84 := by decide +kernel

/-- R290's example: the same frame overflows a 16-bit datapath and leaves the sample range of a 64-bit one. -/
def overflowing : State :=
  withStream (holding [0xFF, 0xF8, 0x60, 0x00, 0x00, 0x03, 0xE3, 0x12, 0x7F, 0xFF, 0x00, 0x0E, 0xC7, 0xEA] 0) 1 16

theorem test_sampleRange : raised (exec .decodeFrame overflowing) .sampleRange 96 := by decide +kernel

theorem test_arithmeticOverflow : raised
    (exec .decodeFrame { overflowing with params := { overflowing.params with datapathBits := 16 } }) .arithmeticOverflow 95 := by
  decide +kernel

theorem test_streamTrailingByte : outcome
    (exec .decodeStream { p2 with inMem := writeBlock p2.inMem 27 [0, 0], len := 29, result := 7 })
    (fun t => t.errCode = .syncError ∧ t.errPos = 216 ∧ t.pos = 216 ∧ t.outptr = 8 ∧ t.frameCount = 2 ∧ t.result = 7) := by
  decide +kernel

theorem test_configError : raised (exec .decodeFrame { p2 with chWritten := false }) .configError 0 := by decide +kernel

/-! ## Header fields and predictors on their own -/

/-- The header rows of 95_test_vectors.md 2.3: number, block size, rate, channels, bit depth, end. -/
def header (bytes : List Byte) (ch : Byte) : List Nat :=
  match frameHeader (withStream (holding bytes 0) ch 16) ⟨0, 0⟩ with
  | .ok (h, c) => [h.number, h.bs, h.rate, h.channels, h.bps, c.cur]
  | .error _ => []

theorem test_headers :
    header [0xFF, 0xF8, 0xC9, 0x18, 0x00, 0xC2] 2 = [0, 4096, 44100, 2, 16, 48] ∧
    header [0xFF, 0xF8, 0x11, 0x02, 0x00, 0x69] 1 = [0, 192, 88200, 1, 8, 48] ∧
    header [0xFF, 0xF8, 0x5A, 0x8A, 0x00, 0x1D] 2 = [0, 4608, 48000, 2, 20, 48] ∧
    header [0xFF, 0xF9, 0x7D, 0x9C, 0xF0, 0x92, 0x8D, 0x85, 0xFF, 0xFF, 0x56, 0x22, 0xCC] 2 =
      [74565, 65536, 22050, 2, 24, 104] ∧
    header [0xFF, 0xF8, 0x8C, 0xAE, 0x03, 0x60, 0x1A] 2 = [3, 256, 96000, 2, 32, 56] ∧
    header [0xFF, 0xF8, 0x8E, 0x00, 0x01, 0x11, 0x3A, 0x7E] 1 = [1, 256, 44100, 1, 16, 64] := by
  decide +kernel

theorem test_predictors :
    reconstruct 64 [2, -1] 0 [4, 1] [2, 2, 2] = some [9, 16, 25] ∧
    reconstruct 64 [3, -3, 1] 0 [9, 4, 1] [0, 0] = some [16, 25] ∧
    reconstruct 64 [4, -6, 4, -1] 0 [0, 0, 0, 0] [1, 0, 0] = some [1, 4, 10] ∧
    reconstruct 64 [3, -1] 1 [-3, -7] [3, 1, -3] = some [2, 5, 3] := by decide +kernel

theorem test_midSide : midLeft 5 1 = 6 ∧ midRight 5 1 = 5 ∧ midLeft (-3) (-1) = -3 ∧ midRight (-3) (-1) = -2 := by decide +kernel

/-! ## Witnesses: states and operands that meet the hypotheses of the statements, clause by clause -/

theorem of_outcome {o : Host.Outcome State Fault Refusal} {p : State → Prop} [DecidablePred p]
    (h : outcome o (fun t => decide (p t)) = true) : ∃ t, o = .next t ∧ p t := by
  cases o with
  | next t => exact ⟨t, rfl, of_decide_eq_true h⟩
  | fault f => cases h
  | refused r => cases h

/-- A stage has answered. -/
def answered {α : Type} (x : Except Raise (α × Cur)) (p : α → Cur → Bool) : Bool :=
  match x with
  | .ok (v, c) => p v c
  | .error _ => false

theorem of_answered {α : Type} {x : Except Raise (α × Cur)} {p : α → Cur → Prop} [∀ v c, Decidable (p v c)]
    (h : answered x (fun v c => decide (p v c)) = true) : ∃ v c, x = .ok (v, c) ∧ p v c := by
  cases x with
  | ok vc => exact ⟨vc.1, vc.2, rfl, of_decide_eq_true h⟩
  | error e => cases h

/-- A stage has raised. -/
def refusedWith {α : Type} (x : Except Raise α) (e : ErrCode) : Bool :=
  match x with
  | .ok _ => false
  | .error r => r.code = e

theorem of_refusedWith {α : Type} {x : Except Raise α} {e : ErrCode} (h : refusedWith x e = true) :
    ∃ r, x = .error r ∧ r.code = e := by
  cases x with
  | ok v => cases h
  | error r => exact ⟨r, rfl, of_decide_eq_true h⟩

/-- No capacity at all: every LEN but 0 is beyond it. -/
def noInput (s : State) : State := { s with params := { s.params with inMax := 0 } }

theorem witness_DecodeOfEncode : (Instr.partitionRice4 14).wellFormed = true ∧ (Instr.partitionRice5 30).wellFormed = true ∧
    (Instr.lpcPrecision 14).wellFormed = true ∧ (Instr.escapeWidth 31).wellFormed = true ∧ Instr.clear.wellFormed = true := by
  decide

theorem witness_EncodeOfDecode : decode (.field .param5 30) = .ok (.partitionRice5 30) ∧
    decode (.field .utf8Lead8 255) = .ok (.utf8LongLead 7) ∧ decode (.cmd 0x001F) = .ok .clear := by decide +kernel

theorem witness_StepRunsCommand :
    (let s := { p2 with host := [.writeReg 0 0xFFFF0011, .reset] }
     s.seq = none ∧ s.host = .writeReg 0 0xFFFF0011 :: [.reset] ∧ s.errCode = .noError ∧
      decode (.cmd ((0xFFFF0011 : Word64).setWidth 16)) = .ok .decodeStream) ∧
    (let s := { p2 with host := [.writeReg 0 0x1F], errCode := .syncError }
     s.seq = none ∧ s.host = .writeReg 0 0x1F :: [] ∧ opField ((0x1F : Word64).setWidth 16) = 0x1F ∧
      decode (.cmd ((0x1F : Word64).setWidth 16)) = .ok .clear) := by decide +kernel

/-- The field's last bit is the input's last bit. -/
theorem witness_StepRunsField :
    let s := { p2 with seq := some .bscode4, work := { Work.idle with cur := 212 } }
    s.seq = some .bscode4 ∧ s.work.cur + Field.width .bscode4 ≤ endPos s ∧
      decode (.field .bscode4 (bitRead s s.work.cur (Field.width .bscode4))) = .ok (.blocksize256Shift 5) := by
  decide +kernel

theorem witness_CodesAreTheDecodersStages :
    (∀ f : Field, ({ p2 with seq := some f } : State).seq = some f) ∧ p2.params.wf ∧ lenOk p2 ∧ p2.work.sub.method = 0 ∧
      ({ Subframe.idle with method := 1 } : Subframe).method = 1 ∧
      (let s := { holding [0x80] 0 with seq := some .utf8Cont8, work := { Work.idle with cur := 1 } }
       s.params.wf ∧ lenOk s ∧ ¬ bitsAt s s.work.cur 8) ∧
      (let s := { holding [0xBF] 0 with seq := some .utf8Cont8 }
       bitsAt s s.work.cur 8 ∧ addContinuation s.work.hdr.number (bitRead s s.work.cur 8) = some 63) ∧
      (let s := { holding [0xC0] 0 with seq := some .utf8Cont8 }
       bitsAt s s.work.cur 8 ∧ addContinuation s.work.hdr.number (bitRead s s.work.cur 8) = none) := by
  unfold lenOk bitsAt
  exact ⟨fun _ => rfl, by decide +kernel, by decide +kernel, rfl, rfl, by decide +kernel, by decide +kernel, by decide +kernel⟩

theorem witness_IllegalCommandWords :
    (let s := { p2 with host := [.writeReg 0 0x0110] }
     s.seq = none ∧ s.host = .writeReg 0 0x0110 :: [] ∧ s.errCode = .noError ∧
      (0x0110 : Word64).setWidth 16 ∉ commandWords) ∧
    (let s := { p2 with host := [.writeReg 0 0x011F], errCode := .syncError }
     s.seq = none ∧ s.host = .writeReg 0 0x011F :: [] ∧ opField ((0x011F : Word64).setWidth 16) = 0x1F ∧
      (0x011F : Word64).setWidth 16 ∉ commandWords) := by decide +kernel

theorem witness_StickyErrorIgnoresCommands :
    let s := { p2 with host := [.writeReg 0 0x1E], errCode := .illegalArgument }
    s.seq = none ∧ s.host = .writeReg 0 0x1E :: [] ∧ s.errCode ≠ .noError ∧
      opField ((0x1E : Word64).setWidth 16) ≠ 0x1F := by decide +kernel

theorem witness_IdleChangesNothing : p2.seq = none ∧ p2.host = [] := by decide +kernel

theorem witness_ResetValues :
    let s := { p2 with host := [.reset, .writeReg 1 2] }
    s.seq = none ∧ s.host = .reset :: [.writeReg 1 2] := by decide +kernel

theorem witness_StepKeepsInvariant :
    let s := { State.reset with host := [.writeReg 6 27] }
    Inv s ∧ ∃ t, step s = .next t := by
  exact ⟨⟨by decide +kernel, by decide +kernel, by decide +kernel, rfl, by decide +kernel, by decide +kernel, rfl,
    by decide +kernel, rfl, rfl, by decide +kernel, by intro h; cases h⟩, _, rfl⟩

theorem witness_StatusBitsAndErrorNumbers : p2.seq = none ∧ (5 ≤ 7 ∧ 7 < 8) := by decide +kernel

/-- A channel record with every memory full. -/
def fullChannel : ChannelRegs where
  sfType := 0x3F
  sfKind := 3
  sfOrder := 32
  sfWasted := 1
  sfWidth := 15
  lpcPrec := 15
  lpcShift := 0
  resMethod := 1
  resPorder := 15
  coef := List.replicate 32 (-1)
  rpart := List.replicate 32768 0x21
  res := List.replicate 65536 (-1)
  sub := List.replicate 65536 (-1)
  chan := List.replicate 65536 (-1)

/-- Eight such channels. -/
def fullFrame : State := { p2 with fv := true, frame := ⟨HeaderRegs.zero, List.replicate 8 fullChannel⟩, span := [1, 2] }

theorem witness_RegisterMap : 255 < 256 ∧ fullFrame.fv = true ∧ fullFrame.frame.channels[7]? = some fullChannel :=
  ⟨by decide, rfl, rfl⟩

theorem witness_WindowMap :
    readCell fullFrame.inMem 26 = some 0x8D ∧ fullFrame.span[1]? = some 2 ∧
    readCell (writeBlock fullFrame.out 7 [(-1 : Word32)]) 7 = some (-1) ∧ fullFrame.fv = true ∧
    fullFrame.frame.channels[7]? = some fullChannel ∧ fullChannel.coef[31]? = some (-1 : BitVec 15) ∧
    fullChannel.rpart[32767]? = some (0x21 : BitVec 6) ∧ fullChannel.res[65535]? = some (-1 : Word64) ∧
    fullChannel.sub[65535]? = some (-1 : Word64) ∧ fullChannel.chan[65535]? = some (-1 : Word64) :=
  ⟨by decide +kernel, rfl, by decide +kernel, rfl, rfl, List.getElem?_replicate_of_lt (by decide),
    List.getElem?_replicate_of_lt (by decide), List.getElem?_replicate_of_lt (by decide),
    List.getElem?_replicate_of_lt (by decide), List.getElem?_replicate_of_lt (by decide)⟩

theorem witness_HostWrites :
    let write := fun a => ({ p2 with host := [a] } : State)
    (∀ k ∈ [1, 6, 7, 8, 9, 10, 255], (write (.writeReg k 5)).seq = none ∧ (write (.writeReg k 5)).host = .writeReg k 5 :: [] ∧
      0 < k ∧ k < 256) ∧
    255 ∉ [0x01, 0x06, 0x07, 0x08, 0x09, 0x0A] ∧
    (write (.writeMem .input (2 ^ 60 - 1) 7)).host = .writeMem .input (2 ^ 60 - 1) 7 :: [] ∧
    2 ^ 60 - 1 < windowSize p2.params .input ∧ Window.out ≠ .input ∧ 0 < windowSize p2.params .out := by
  decide +kernel

theorem witness_BlockNeverWritesItsInputs : (∃ t, exec .decodeFrame p2 = .next t ∧ t.fv = true) ∧
    ∃ t, exec .readUnary p2 = .next t ∧ t.result = 0 := by
  exact ⟨of_outcome (by decide +kernel), of_outcome (by decide +kernel)⟩

theorem witness_WhoWritesWhat :
    (∃ t, exec .seek { p2 with arg := 5 } = .next t ∧ t.pos ≠ p2.pos) ∧
    (∃ t, exec .decodeFrame p2 = .next t ∧ t.pos ≠ p2.pos ∧ t.out ≠ p2.out ∧ t.outptr ≠ p2.outptr) ∧
    (∃ t, exec .readRaw { p2 with arg := 8 } = .next t ∧ t.span ≠ p2.span ∧ t.pos ≠ p2.pos) ∧
    (∃ t, exec .clear { p2 with errCode := .syncError } = .next t ∧ t.errCode ≠ .syncError ∧ t.errCode = .noError) :=
  ⟨of_outcome (by decide +kernel), of_outcome (by decide +kernel), of_outcome (by decide +kernel),
    of_outcome (by decide +kernel)⟩

theorem witness_ErrorEntry :
    (∃ t, exec .readU { p2 with arg := 65 } = .next t ∧ t.errCode ≠ .noError ∧ t.errCode ≠ p2.errCode) ∧
    (∃ t, exec .decodeFrame { p2 with streamCh := 2 } = .next t ∧ t.errCode ≠ .noError ∧ t.errCode ≠ p2.errCode) ∧
    (∃ t, exec (.residualReserved 0) p2 = .next t ∧ t.errCode ≠ .noError ∧ t.errCode ≠ p2.errCode) :=
  ⟨of_outcome (by decide +kernel), of_outcome (by decide +kernel), of_outcome (by decide +kernel)⟩

theorem witness_WhichCommandRaisesWhat : p2.errCode = .noError ∧ (∃ t, exec .outReset p2 = .next t ∧ t.errCode = .noError) ∧
    (∃ t, exec .readBytes { p2 with arg := 9 } = .next t ∧ t.errCode = .illegalArgument) ∧
    (∃ t, exec .readBit { p2 with pos := 216 } = .next t ∧ t.errCode = .outOfBounds) ∧
    (∃ t, exec .readUtf8 p2 = .next t ∧ t.errCode = .invalidEncoding) ∧
    (∃ t, exec .decodeStream { p2 with streamCh := 2 } = .next t ∧ t.errCode = .channelMismatch) :=
  ⟨by decide +kernel, of_outcome (by decide +kernel), of_outcome (by decide +kernel), of_outcome (by decide +kernel),
    of_outcome (by decide +kernel), of_outcome (by decide +kernel)⟩

theorem witness_MixedWidthReads :
    let s := holding [1, 2, 3, 4, 5, 6, 7, 8, 9] 3
    1 + 63 ≤ 64 ∧ s.params.wf ∧ lenOk s ∧ s.pos.toNat + (1 + 63) ≤ endPos s ∧
    outcome (exec .readU { s with arg := BitVec.ofNat 64 1 })
      (fun t => outcome (exec .readU { t with arg := BitVec.ofNat 64 63 }) fun _ => true) = true ∧
    outcome (exec .readU { s with arg := BitVec.ofNat 64 (1 + 63) }) (fun _ => true) = true := by
  unfold lenOk
  decide +kernel

/-- The widths 64, 65 and 0 at the edges of each check of READ_U and READ_S. -/
theorem witness_ReadUnsigned :
    (let s := { p2 with arg := 65 }; 64 < s.arg.toNat) ∧
    (let s := noInput { p2 with arg := 64 }; s.arg.toNat ≤ 64 ∧ s.arg.toNat % 8 = 0 ∧ ¬ lenOk s) ∧
    (let s := { p2 with arg := 64, pos := 153 }; s.arg.toNat ≤ 64 ∧ s.arg.toNat % 8 = 0 ∧ lenOk s ∧ ¬ bitsAt s s.pos.toNat s.arg.toNat) ∧
    (let s := { p2 with arg := 64, pos := 152 }; s.arg.toNat ≤ 64 ∧ s.arg.toNat % 8 = 0 ∧ lenOk s ∧ bitsAt s s.pos.toNat s.arg.toNat) ∧
    (let s := { p2 with arg := 0, pos := 216 }; s.arg.toNat ≤ 64 ∧ s.arg.toNat % 8 = 0 ∧ lenOk s ∧ bitsAt s s.pos.toNat s.arg.toNat) ∧
    (let s := { p2 with arg := 63 }; s.arg.toNat ≤ 64 ∧ s.arg.toNat % 8 ≠ 0) := by
  unfold lenOk bitsAt
  decide +kernel

/-- READ_S has READ_U's hypotheses. -/
theorem witness_ReadSigned :
    (let s := { p2 with arg := 8, pos := 208 }; s.arg.toNat ≤ 64 ∧ s.arg.toNat % 8 = 0 ∧ lenOk s ∧ bitsAt s s.pos.toNat s.arg.toNat) ∧
    (let s := { p2 with arg := 16, pos := 208 }; s.arg.toNat ≤ 64 ∧ s.arg.toNat % 8 = 0 ∧ lenOk s ∧ ¬ bitsAt s s.pos.toNat s.arg.toNat) ∧
    (let s := noInput { p2 with arg := 0 }; s.arg.toNat ≤ 64 ∧ s.arg.toNat % 8 = 0 ∧ ¬ lenOk s) ∧
    (let s := { p2 with arg := 65 }; 64 < s.arg.toNat ∧ s.arg.toNat % 8 ≠ 0) := by
  unfold lenOk bitsAt
  decide +kernel

theorem witness_ReadBitAndReadUnary :
    ¬ lenOk (noInput p2) ∧ lenOk p2 ∧ ¬ bitsAt { p2 with pos := 216 } 216 1 ∧ bitsAt { p2 with pos := 215 } 215 1 ∧
    (let s := holding [0x01, 0x00] 8
     lenOk s ∧ ∀ p, s.pos.toNat ≤ p → p < endPos s → bitAt s p = false) ∧
    (let s := holding [0x00, 0x01] 0
     lenOk s ∧ unaryAt s s.pos.toNat 15) := by
  unfold lenOk bitsAt unaryAt
  decide +kernel

theorem witness_ReadUtf8Number :
    (let s := noInput p2; ¬ lenOk s) ∧
    (let s := holding [0x7F] 1; lenOk s ∧ ¬ bitsAt s 1 8) ∧
    (let s := holding [0xF8] 0; lenOk s ∧ bitsAt s 0 8 ∧ ¬ (bitRead s 0 8 < 0x80 ∨ 0xC0 ≤ bitRead s 0 8 ∧ bitRead s 0 8 < 0xF8)) ∧
    (let s := holding [0xF7, 0xBF, 0xBF] 0; lenOk s ∧ bitRead s 0 8 = 0xF7 ∧ ¬ bitsAt s 0 (8 * 4)) ∧
    (let s := holding [0xE0, 0x80, 0x7F] 0; lenOk s ∧ bitRead s 0 8 = 0xE0 ∧ bitsAt s 0 (8 * 3) ∧
      ¬ ∀ i, 1 ≤ i → i < 3 → bitRead s (8 * i) 8 / 64 = 0b10) ∧
    (let s := holding [0x7F] 0; lenOk s ∧ bitsAt s 0 8 ∧ bitRead s 0 8 < 0x80) ∧
    (let s := holding [0xC0, 0x80] 0; lenOk s ∧ bitsAt s 0 16 ∧ 0xC0 ≤ bitRead s 0 8 ∧ bitRead s 0 8 < 0xE0 ∧
      ∀ i, 1 ≤ i → i < 2 → bitRead s (8 * i) 8 / 64 = 0b10) ∧
    (let s := holding [0xEF, 0xBF, 0x80] 0; lenOk s ∧ bitsAt s 0 24 ∧ 0xE0 ≤ bitRead s 0 8 ∧ bitRead s 0 8 < 0xF0 ∧
      ∀ i, 1 ≤ i → i < 3 → bitRead s (8 * i) 8 / 64 = 0b10) ∧
    (let s := holding [0xF7, 0xBF, 0xBF, 0xBF] 0; lenOk s ∧ bitsAt s 0 32 ∧ 0xF0 ≤ bitRead s 0 8 ∧ bitRead s 0 8 < 0xF8 ∧
      (∀ i, 1 ≤ i → i < 4 → bitRead s (8 * i) 8 / 64 = 0b10)) := by
  unfold lenOk bitsAt
  decide +kernel

theorem witness_ReadUtf8Number_internal :
    (∃ v c, takeUtf8 (holding [0xC2, 0x80] 0) ⟨0, 7⟩ = .ok (v, c) ∧ v = 128 ∧ c = ⟨16, 0⟩) ∧
    ∃ e, takeUtf8 (holding [0xC2, 0x41] 0) ⟨0, 7⟩ = .error e ∧ e.code = .invalidEncoding :=
  ⟨of_answered (p := fun v c => v = 128 ∧ c = ⟨16, 0⟩) (by decide +kernel), of_refusedWith (by decide +kernel)⟩

theorem witness_ReadSpans :
    (let s := { p2 with arg := 65 }; 8 * s.params.spanMax < s.arg.toNat ∧ s.params.spanMax < s.arg.toNat) ∧
    (let s := noInput { p2 with arg := 8 }; s.arg.toNat ≤ 8 * s.params.spanMax ∧ s.arg.toNat ≤ s.params.spanMax ∧ ¬ lenOk s) ∧
    (let s := { p2 with arg := 8, pos := 209 }
     s.arg.toNat ≤ s.params.spanMax ∧ lenOk s ∧ ¬ bitsAt s s.pos.toNat s.arg.toNat ∧ ¬ bitsAt s s.pos.toNat (8 * s.arg.toNat)) ∧
    (let s := { p2 with arg := 64, pos := 152 }
     s.arg.toNat ≤ 8 * s.params.spanMax ∧ lenOk s ∧ bitsAt s s.pos.toNat s.arg.toNat) ∧
    (let s := { p2 with arg := 8, pos := 152 }
     s.arg.toNat ≤ s.params.spanMax ∧ lenOk s ∧ bitsAt s s.pos.toNat (8 * s.arg.toNat)) := by
  unfold lenOk bitsAt
  decide +kernel

/-- 95_test_vectors.md S11. -/
theorem witness_BoundsLaw :
    let s := { holding [0xFF] 7 with arg := 2 }
    s.errCode = .noError ∧ (∃ t, exec .readU s = .next t ∧ t.errCode = .outOfBounds) ∧ 1 ≤ 64 ∧ bitsAt s s.pos.toNat 1 := by
  unfold bitsAt
  exact ⟨by decide +kernel, of_outcome (by decide +kernel), by decide, by decide +kernel⟩

theorem witness_AliasCommands :
    (∃ t, exec .readBit p2 = .next t ∧ t.result = 1) ∧ (∃ u, exec .readU { p2 with arg := 1 } = .next u ∧ u.result = 1) ∧
    8 * 8 < 2 ^ 64 ∧ (∃ t, exec .readBytes { p2 with arg := BitVec.ofNat 64 8 } = .next t ∧ t.spanLen = 8) ∧
    ∃ u, exec .readRaw { p2 with arg := BitVec.ofNat 64 (8 * 8) } = .next u ∧ u.spanLen = 8 :=
  ⟨of_outcome (by decide +kernel), of_outcome (by decide +kernel), by decide, of_outcome (by decide +kernel),
    of_outcome (by decide +kernel)⟩

/-- The working cursor stands at `cur`, and the last read began at `fpos`. -/
def workingAt (s : State) (cur fpos : Nat) : State :=
  { s with work := { s.work with cur := cur }, fpos := BitVec.ofNat 64 fpos }

theorem witness_BlockSizeCodes :
    bitsAt (workingAt p2 208 0) 208 8 ∧ bitsAt (workingAt p2 200 0) 200 16 ∧ ¬ bitsAt (workingAt p2 209 0) 209 8 ∧
      ¬ bitsAt (workingAt p2 201 0) 201 16 := by
  unfold bitsAt
  decide +kernel

theorem witness_SampleRateCodes :
    bitsAt (workingAt p2 208 0) 208 8 ∧ bitsAt (workingAt p2 200 0) 200 16 ∧ ¬ bitsAt (workingAt p2 209 0) 209 8 ∧
      ¬ bitsAt (workingAt p2 201 0) 201 16 := by
  unfold bitsAt
  decide +kernel

/-- Two subframes have been decoded, and the datapath has `d` bits. -/
def pair (d : Nat) (a b : List Int) : State :=
  { p2 with
    params := { p2.params with datapathBits := d }
    work := { Work.idle with subs := [{ Subframe.idle with samples := a }, { Subframe.idle with samples := b }] } }

/-- 95_test_vectors.md 2.7: (10, 3), (3, 7) and (5, 1), in the narrowest datapath that holds them. -/
theorem witness_ChannelAssignments :
    (pair 5 [10] [3]).work.subs.map Subframe.samples = [[10], [3]] ∧ inDr 5 7 ∧ (7 : Int) = 10 - 3 ∧
    (pair 5 [3] [7]).work.subs.map Subframe.samples = [[3], [7]] ∧ inDr 5 10 ∧ (10 : Int) = 7 + 3 ∧
    (pair 5 [5] [1]).work.subs.map Subframe.samples = [[5], [1]] ∧
    (∀ n < ([5] : List Int).length,
      let m := 2 * ([5] : List Int).getD n 0 + ([1] : List Int).getD n 0 % 2
      inDr 5 m ∧ inDr 5 (m + ([1] : List Int).getD n 0) ∧ ([6] : List Int).getD n 0 = (m + ([1] : List Int).getD n 0) / 2 ∧
        ([5] : List Int).getD n 0 = ([6] : List Int).getD n 0 - ([1] : List Int).getD n 0 ∧ inDr 5 (([5] : List Int).getD n 0)) := by
  unfold inDr
  decide +kernel

/-- One step beyond DR = [-8, 7] in each case. -/
theorem witness_DecorrelationOverflows :
    (pair 4 [7] [-1]).work.subs.map Subframe.samples = [[7], [-1]] ∧ 0 < ([7] : List Int).length ∧ ¬ inDr 4 (7 - (-1)) ∧
    ¬ inDr 4 (7 + 1) ∧ ¬ inDr 4 (2 * 4 + 0 % 2) ∧ (inDr 4 (2 * 3 + 2 % 2) ∧ ¬ inDr 4 (2 * 3 + 2 % 2 + 2)) ∧
    ¬ inDr 4 ((2 * (-3) + 7 % 2 + 7) / 2 - (-8)) := by
  unfold inDr
  decide +kernel

theorem witness_NumberCodes :
    (let s := holding [0x7F] 0; bitsAt s s.fpos.toNat 8 ∧ ¬ bitsAt s s.fpos.toNat (8 * 2)) ∧
    (let s := holding [0xC2, 0x80] 0; bitsAt s s.fpos.toNat 16 ∧ ∀ i, 1 ≤ i → i < 2 → bitRead s (s.fpos.toNat + 8 * i) 8 / 64 = 0b10) ∧
    (let s := holding [0xE4, 0x80, 0x80] 0
     bitsAt s s.fpos.toNat 24 ∧ ∀ i, 1 ≤ i → i < 3 → bitRead s (s.fpos.toNat + 8 * i) 8 / 64 = 0b10) ∧
    (let s := holding [0xF7, 0xBF, 0xBF, 0xBF] 0
     bitsAt s s.fpos.toNat 32 ∧ ∀ i, 1 ≤ i → i < 4 → bitRead s (s.fpos.toNat + 8 * i) 8 / 64 = 0b10) ∧
    (let s := holding [0xE4, 0x80, 0xC0] 0
     bitsAt s s.fpos.toNat (8 * 3) ∧ ¬ ∀ i, 1 ≤ i → i < 3 → bitRead s (s.fpos.toNat + 8 * i) 8 / 64 = 0b10) := by
  unfold bitsAt
  decide +kernel

theorem witness_ReservedCodesRaise :
    (p2.params.escapeWidthSigned = true ∧ 16 ≤ (16 : BitVec 5).toNat) ∧
    (let s := { holding [0xFF, 0xFA] 0 with seq := some .sync16 }
     s.seq = some .sync16 ∧ bitsAt s s.work.cur 15 ∧ bitRead s s.work.cur 15 ≠ 0x7FFC) ∧
    (let s := { holding [0x80] 0 with seq := some .rsv1 }
     s.seq = some .rsv1 ∧ bitsAt s s.work.cur 1 ∧ bitAt s s.work.cur = true) ∧
    (let s := { holding [0xC0] 0 with seq := some .utf8Cont8 }
     s.seq = some .utf8Cont8 ∧ bitsAt s s.work.cur 8 ∧ bitRead s s.work.cur 8 / 64 ≠ 0b10) := by
  unfold bitsAt
  decide +kernel

theorem no_unaryAt_zeros (n : Nat) : ¬ unaryAt (holding [0] 0) 0 n := by
  rintro ⟨-, h, hb⟩
  have hn : n < 8 := by
    have : endPos (holding [0] 0) = 8 := by decide +kernel
    omega
  revert h
  have : ∀ n < 8, ¬ bitAt (holding [0] 0) (0 + n) = true := by decide +kernel
  exact this n hn

/-- An 8-bit sample width in the working header. -/
def eightBits (s : State) (bs : Nat) : State := { s with work := { s.work with hdr := { s.work.hdr with bps := 8, bs := bs } } }

theorem witness_SubframeHeaderChecks :
    (∃ wasted e, wastedAt p2 false wasted e) ∧ (∃ wasted e, wastedAt (holding [0x01] 0) true wasted e) ∧
    (∀ n, ¬ unaryAt (holding [0] 0) (holding [0] 0).work.cur n) ∧
    (let s := eightBits (holding [0x01] 0) 4
     wastedAt s true 8 8 ∧ subframeWidth s 8 < 1) ∧
    (wastedAt p2 false 0 0 ∧ subframeWidth p2 0 < 1) := by
  refine ⟨⟨0, 0, rfl, rfl⟩, ⟨8, 8, 7, rfl, ?_, rfl⟩, no_unaryAt_zeros, ⟨⟨7, rfl, ?_, rfl⟩, by decide +kernel⟩, ⟨rfl, rfl⟩,
    by decide +kernel⟩ <;> unfold unaryAt <;> decide +kernel

theorem witness_ConstantAndVerbatimSubframes :
    (let s := eightBits (holding [0xFD] 0) 6
     wastedAt s false 0 0 ∧ 1 ≤ subframeWidth s 0 ∧ bitsAt s 0 8 ∧ (-3 : Int) = sext 8 (bitRead s 0 8) * 2 ^ 0 ∧
       inDr s.params.datapathBits (-3) ∧ 1 ≤ s.work.hdr.bs) ∧
    (let s := eightBits (holding [] 0) 6
     wastedAt s false 0 0 ∧ 1 ≤ subframeWidth s 0 ∧ ¬ bitsAt s 0 8) ∧
    (let s := { eightBits (holding [0x81] 0) 1 with params := { Params.default with datapathBits := 8 } }
     wastedAt s true 1 1 ∧ 1 ≤ subframeWidth s 1 ∧ bitsAt s 1 7 ∧ sext 7 (bitRead s 1 7) * 2 ^ 1 = (2 : Int) ∧
       inDr s.params.datapathBits 2) ∧
    (let s := { eightBits (holding [0x20] 0) 1 with params := { Params.default with datapathBits := 6 } }
     wastedAt s false 0 0 ∧ bitsAt s 0 8 ∧ sext 8 (bitRead s 0 8) * 2 ^ 0 = (32 : Int) ∧ ¬ inDr s.params.datapathBits 32) ∧
    (let s := eightBits (holding [0x07, 0xF8, 0x01] 0) 3
     wastedAt s false 0 0 ∧ 1 ≤ subframeWidth s 0 ∧ bitsAt s 0 (3 * 8) ∧
       ∀ v ∈ signedFields s 0 8 3, inDr s.params.datapathBits (v * 2 ^ 0)) := by
  refine ⟨⟨⟨rfl, rfl⟩, ?_⟩, ⟨⟨rfl, rfl⟩, ?_⟩, ⟨⟨0, rfl, ?_, rfl⟩, ?_⟩, ⟨⟨rfl, rfl⟩, ?_⟩, ⟨⟨rfl, rfl⟩, ?_⟩⟩ <;>
    simp only [bitsAt, inDr, unaryAt] <;> decide +kernel

/-- A datapath of `d` bits. -/
def narrow (d : Nat) (s : State) : State := { s with params := { s.params with datapathBits := d } }

/-- The third of three VERBATIM fields is missing; and 64 · 2 leaves an 8-bit DR. -/
theorem witness_ConstantAndVerbatimSubframes_raise :
    (let s := eightBits (holding [0x07, 0xF8] 0) 3
     wastedAt s false 0 0 ∧ 1 ≤ subframeWidth s 0 ∧ 2 < s.work.hdr.bs ∧ firstMissing s 0 (subframeWidth s 0).toNat 2) ∧
    (let s := narrow 7 (eightBits (holding [0xA0] 0) 1)
     wastedAt s true 1 1 ∧ 1 ≤ subframeWidth s 1 ∧ bitsAt s 1 (1 * 7) ∧
       ∃ v ∈ signedFields s 1 7 1, ¬ inDr s.params.datapathBits (v * 2 ^ 1)) := by
  refine ⟨⟨⟨rfl, rfl⟩, ?_⟩, ⟨⟨0, rfl, ?_, rfl⟩, ?_⟩⟩ <;> simp only [firstMissing, bitsAt, inDr, unaryAt] <;> decide +kernel

/-- P5's second subframe after its header: FIXED 2. -/
def fixed2 : State := eightBits (holding [0x0A, 0x0C, 0x07, 0xC1, 0xE4, 0x01, 0xF0] 0) 6

theorem witness_FixedSubframes :
    (2, Instr.subframeFixed2 false, [2, -1]) ∈ ([(2, .subframeFixed2 false, [2, -1])] : List (Nat × Instr × List Int)) ∧
    wastedAt fixed2 false 0 0 ∧ 1 ≤ subframeWidth fixed2 0 ∧
    (∃ g c, residual fixed2 6 { Subframe.idle with type := 10, kind := .fixed, order := 2, width := 8 } ⟨0 + 2 * 8, 0⟩ = .ok (g, c) ∧
      g.res = [0, 0, 1, -1]) ∧
    reconstructs fixed2.params.datapathBits [2, -1] 0 (signedFields fixed2 0 8 2) [0, 0, 1, -1] [10, 12, 14, 16, 19, 21] ∧
    ∀ v ∈ ([10, 12, 14, 16, 19, 21] : List Int), inDr fixed2.params.datapathBits (v * 2 ^ 0) := by
  refine ⟨by decide, ⟨rfl, rfl⟩, by decide +kernel, of_answered (p := fun (g : Subframe) _ => g.res = [0, 0, 1, -1]) (by decide +kernel), ?_,
    ?_⟩ <;> simp only [reconstructs, predictionInDr, inDr] <;> decide +kernel

/-- With no prediction the residual 200 is the sample, and leaves an 8-bit DR. -/
theorem no_reconstruction {a warm : List Int} (h : ∀ x, prediction a x warm.length = 0) (x : List Int) :
    ¬ reconstructs 8 a 0 warm [200] x := by
  rintro ⟨hl, -, hr⟩
  obtain ⟨-, hd, he⟩ := hr warm.length le_rfl (by simp [hl])
  rw [he, h x] at hd
  simp [inDr] at hd

/-- A missing second warm-up; a reserved residual method; an escaped residual of 200 (9 bits), and one of 100 shifted
left once, in an 8-bit datapath. -/
theorem witness_FixedSubframes_raise :
    (let s := eightBits (holding [0x0A] 0) 6
     wastedAt s false 0 0 ∧ 1 ≤ subframeWidth s 0 ∧ firstMissing s 0 (subframeWidth s 0).toNat 1 ∧ 1 < 2) ∧
    (let s := eightBits (holding [0x0A, 0xC0] 0) 6
     wastedAt s false 0 0 ∧ 1 ≤ subframeWidth s 0 ∧ bitsAt s 0 (1 * 8) ∧
       ∃ r, residual s 6 { Subframe.idle with type := 9, kind := .fixed, order := 1, width := 8 } ⟨0 + 1 * 8, 0⟩ = .error r ∧
         r.code = .reservedResidualMethod) ∧
    (let s := narrow 8 (eightBits (holding [0x03, 0xD2, 0xC8] 0) 1)
     wastedAt s false 0 0 ∧ 1 ≤ subframeWidth s 0 ∧
       (∃ g c, residual s 1 { Subframe.idle with type := 8, kind := .fixed, order := 0, width := 8 } ⟨0 + 0 * 8, 0⟩ = .ok (g, c) ∧
         g.res = [200]) ∧
       ∀ x, ¬ reconstructs s.params.datapathBits [] 0 (signedFields s 0 8 0) [200] x) ∧
    (let s := narrow 8 (eightBits (holding [0x81, 0xE8, 0x64] 0) 1)
     wastedAt s true 1 1 ∧ 1 ≤ subframeWidth s 1 ∧
       (∃ g c, residual s 1 { Subframe.idle with type := 8, wasted := 1, kind := .fixed, order := 0, width := 7 }
          ⟨1 + 0 * 7, 0⟩ = .ok (g, c) ∧ g.res = [100]) ∧
       reconstructs s.params.datapathBits [] 0 (signedFields s 1 7 0) [100] [100] ∧
       ∃ v ∈ ([100] : List Int), ¬ inDr s.params.datapathBits (v * 2 ^ 1)) := by
  refine ⟨⟨⟨rfl, rfl⟩, by decide +kernel, ?_⟩, ⟨⟨rfl, rfl⟩, by decide +kernel, ?_, of_refusedWith (by decide +kernel)⟩,
    ⟨⟨rfl, rfl⟩, by decide +kernel, of_answered (p := fun (g : Subframe) _ => g.res = [200]) (by decide +kernel),
      no_reconstruction fun x => rfl⟩,
    ⟨⟨0, rfl, ?_, rfl⟩, by decide +kernel, of_answered (p := fun (g : Subframe) _ => g.res = [100]) (by decide +kernel), ?_, ?_⟩⟩ <;>
    simp only [firstMissing, bitsAt, unaryAt, reconstructs, predictionInDr, inDr] <;> decide +kernel

/-- 95_test_vectors.md 2.6, orders 0 to 4 and LPC 2. -/
theorem witness_ReconstructionIsTheRecurrence :
    reconstructs 64 [] 0 [] [3, -2, 0, 5] [3, -2, 0, 5] ∧
    reconstructs 64 [1] 0 [1] [1, 1, 1, 0, 0, -2, -1] [1, 2, 3, 4, 4, 4, 2, 1] ∧
    reconstructs 64 [2, -1] 0 [1, 4] [2, 2, 2] [1, 4, 9, 16, 25] ∧
    reconstructs 64 [3, -3, 1] 0 [1, 4, 9] [0, 0] [1, 4, 9, 16, 25] ∧
    reconstructs 64 [4, -6, 4, -1] 0 [0, 0, 0, 0] [1, 0, 0] [0, 0, 0, 0, 1, 4, 10] ∧
    reconstructs 64 [3, -1] 1 [-7, -3] [3, 1, -3] [-7, -3, 2, 5, 3] ∧ ([3, -1] : List Int).length = ([-7, -3] : List Int).length := by
  refine ⟨?_, ?_, ?_, ?_, ?_, ?_, rfl⟩ <;> simp only [reconstructs, predictionInDr, inDr] <;> decide +kernel

/-- P3's first subframe after its header: LPC 2. -/
def lpc2 : State :=
  { p3 with work := { p3.work with cur := 64, hdr := { p3.work.hdr with bps := 16, bs := 8, chcode := 10 } } }

theorem witness_LpcSubframe :
    wastedAt lpc2 false 0 64 ∧ 1 ≤ subframeWidth lpc2 0 ∧ bitRead lpc2 96 4 + 1 ≤ 15 ∧ bitRead lpc2 100 5 ≤ 15 ∧
    (∃ g c, residual lpc2 8
        { Subframe.idle with type := 33, kind := .lpc, order := 2, width := 16, prec := 4, shift := 1, coef := [3, -1] }
        ⟨96 + 9 + 2 * 4, 0⟩ = .ok (g, c) ∧ g.res = [4, 5, -1, -2, -1, -5]) ∧
    reconstructs lpc2.params.datapathBits [3, -1] 1 (signedFields lpc2 64 16 2) [4, 5, -1, -2, -1, -5]
      [99, 102, 107, 114, 116, 115, 113, 107] ∧
    (∀ v ∈ ([99, 102, 107, 114, 116, 115, 113, 107] : List Int), inDr lpc2.params.datapathBits (v * 2 ^ 0)) ∧
    (let s := eightBits (holding [0x05, 0xF0] 0) 4
     wastedAt s false 0 0 ∧ 1 ≤ subframeWidth s 0 ∧ bitsAt s 0 (1 * 8 + 4) ∧ bitRead s 8 4 + 1 = 16) ∧
    (let s := eightBits (holding [0x05, 0xE8, 0x00] 0) 4
     bitsAt s 0 (1 * 8 + 9) ∧ bitRead s 8 4 + 1 ≤ 15 ∧ 16 ≤ bitRead s 12 5) := by
  refine ⟨⟨rfl, rfl⟩, by decide +kernel, by decide +kernel, by decide +kernel,
    of_answered (p := fun (g : Subframe) _ => g.res = [4, 5, -1, -2, -1, -5]) (by decide +kernel), ?_, ?_, ⟨⟨rfl, rfl⟩, ?_⟩, ?_⟩ <;>
    simp only [reconstructs, predictionInDr, inDr, bitsAt] <;> decide +kernel

/-- LPC 1 cut inside each of its fields; a reserved residual method; and, with the coefficient 0, an escaped residual of 200,
and one of 100 shifted left once, in an 8-bit datapath. -/
theorem witness_LpcSubframe_raise :
    (let s := eightBits (holding [] 0) 4
     wastedAt s false 0 0 ∧ 1 ≤ subframeWidth s 0 ∧ 0 < 1 ∧ firstMissing s 0 8 0) ∧
    (let s := eightBits (holding [0x05] 0) 4; bitsAt s 0 (1 * 8) ∧ ¬ bitsAt s 8 4) ∧
    (let s := eightBits (holding [0x05, 0x00] 0) 4
     bitsAt s 0 (1 * 8 + 4) ∧ bitRead s 8 4 + 1 ≤ 15 ∧ ¬ bitsAt s (8 + 4) 5) ∧
    (let s := eightBits (holding [0x05, 0xE0, 0x00] 0) 4
     bitsAt s 0 (1 * 8 + 9) ∧ bitRead s 8 4 + 1 = 15 ∧ bitRead s 12 5 ≤ 15 ∧ firstMissing s (8 + 9) 15 0) ∧
    (let s := eightBits (holding [0x05, 0x00, 0x30] 0) 4
     bitsAt s 0 (1 * 8 + 9 + 1 * 1) ∧ bitRead s 8 4 + 1 = 1 ∧ bitRead s 12 5 = 0 ∧
       ∃ r, residual s 4 { Subframe.idle with type := 32, kind := .lpc, order := 1, width := 8, prec := 1, coef := [0] }
          ⟨8 + 9 + 1 * 1, 0⟩ = .error r ∧ r.code = .reservedResidualMethod) ∧
    (let s := narrow 8 (eightBits (holding [0x05, 0x00, 0x00, 0xF4, 0xB2, 0x00] 0) 2)
     wastedAt s false 0 0 ∧ bitRead s 8 4 + 1 = 1 ∧ bitRead s 12 5 = 0 ∧ signedFields s (8 + 9) 1 1 = [0] ∧
       (∃ g c, residual s 2 { Subframe.idle with type := 32, kind := .lpc, order := 1, width := 8, prec := 1, coef := [0] }
          ⟨8 + 9 + 1 * 1, 0⟩ = .ok (g, c) ∧ g.res = [200]) ∧
       ∀ x, ¬ reconstructs s.params.datapathBits [0] 0 (signedFields s 0 8 1) [200] x) ∧
    (let s := narrow 8 (eightBits (holding [0x85, 0x00, 0x00, 0xF4, 0x32, 0x00] 0) 2)
     wastedAt s true 1 1 ∧ 1 ≤ subframeWidth s 1 ∧ bitRead s 8 4 + 1 = 1 ∧ bitRead s 12 5 = 0 ∧
       signedFields s (8 + 9) 1 1 = [0] ∧
       (∃ g c, residual s 2 { Subframe.idle with type := 32, wasted := 1, kind := .lpc, order := 1, width := 7, prec := 1, coef := [0] }
          ⟨8 + 9 + 1 * 1, 0⟩ = .ok (g, c) ∧ g.res = [100]) ∧
       reconstructs s.params.datapathBits [0] 0 (signedFields s 1 7 1) [100] [5, 100] ∧
       ∃ v ∈ ([5, 100] : List Int), ¬ inDr s.params.datapathBits (v * 2 ^ 1)) := by
  refine ⟨⟨⟨rfl, rfl⟩, by decide +kernel, by decide, ?_⟩, ?_, ?_, ?_,
    ⟨?_, by decide +kernel, by decide +kernel, of_refusedWith (by decide +kernel)⟩,
    ⟨⟨rfl, rfl⟩, by decide +kernel, by decide +kernel, by decide +kernel,
      of_answered (p := fun (g : Subframe) _ => g.res = [200]) (by decide +kernel),
      no_reconstruction fun x => by simp [prediction]⟩,
    ⟨⟨0, rfl, ?_, rfl⟩, by decide +kernel, by decide +kernel, by decide +kernel, by decide +kernel,
      of_answered (p := fun (g : Subframe) _ => g.res = [100]) (by decide +kernel), ?_, ?_⟩⟩ <;>
    simp only [firstMissing, bitsAt, unaryAt, reconstructs, predictionInDr, inDr] <;> decide +kernel

theorem witness_RecordFields : (14 : BitVec 4) ≠ 15 := by decide

/-- P2's first partition after its PARAM. -/
def rice2 : State := { p2 with work := { p2.work with cur := 74, hdr := { p2.work.hdr with bs := 4 } } }

theorem witness_RicePartitions : (∃ v : BitVec 4, v ≠ 15 ∧ Instr.partitionRice4 2 = .partitionRice4 v ∧ 2 = v.toNat) ∧
    ([6, 3, 0, 10] : List Nat).length = nextCount rice2 ∧ riceAt rice2 2 rice2.work.cur [6, 3, 0, 10] 89 ∧
    ∀ u ∈ ([6, 3, 0, 10] : List Nat), u < 2 ^ 64 := by
  refine ⟨⟨2, by decide, rfl, rfl⟩, by decide +kernel, ?_, by decide⟩
  simp only [riceAt, unaryAt]
  decide +kernel

/-- An empty partition; a quotient of zeros only; a remainder of 2 bits after the input's last bit. -/
theorem witness_RicePartitions_edges :
    (let s : State := { rice2 with work := { rice2.work with hdr := { rice2.work.hdr with bs := 0 } } }
     ([] : List Nat).length = nextCount s ∧ riceAt s 2 s.work.cur [] s.work.cur) ∧
    (let s := eightBits (holding [0] 0) 1
     ([] : List Nat).length < nextCount s ∧ riceAt s 2 s.work.cur [] 0 ∧ ∀ q, ¬ unaryAt s 0 q) ∧
    (let s := eightBits (holding [0x01] 0) 1
     ([] : List Nat).length < nextCount s ∧ riceAt s 2 s.work.cur [] 0 ∧ unaryAt s 0 7 ∧ ¬ bitsAt s (0 + 7 + 1) 2) := by
  refine ⟨⟨by decide +kernel, rfl⟩, ⟨by decide +kernel, rfl, no_unaryAt_zeros⟩, ⟨by decide +kernel, rfl, ?_⟩⟩
  simp only [unaryAt, bitsAt]
  decide +kernel

theorem readCell_map_range {f : Nat → Byte} {n m a : Nat} (ha : a < n) :
    readCell ((List.range' m n).map fun i => (i, f i)) (m + a) = some (f (m + a)) := by
  induction n generalizing m a with
  | zero => omega
  | succ n ih =>
    rw [List.range'_succ, List.map_cons, readCell]
    cases a with
    | zero => simp
    | succ a =>
      rw [if_neg (by omega), show m + (a + 1) = m + 1 + a by omega]
      exact ih (by omega)

/-- A unary quotient of 2^34 zeros: 2^31 bytes of zeros, then a byte 0x80, then zeros. -/
def longRun : State :=
  { State.reset with
    inMem := (List.range' 0 (2 ^ 31 + 8)).map fun i => (i, if i = 2 ^ 31 then 0x80 else 0)
    len := BitVec.ofNat 64 (2 ^ 31 + 8)
    work := { Work.idle with hdr := { Hdr.idle with bs := 1 } } }

theorem endPos_longRun : endPos longRun = 2 ^ 34 + 64 := by decide +kernel

theorem bitAt_longRun {p : Nat} (h : p < 2 ^ 34 + 64) : bitAt longRun p = decide (p = 2 ^ 34) := by
  have hb : byteAt longRun (p / 8) = if p / 8 = 2 ^ 31 then 0x80 else 0 := by
    unfold byteAt
    have := readCell_map_range (f := fun i => if i = 2 ^ 31 then 0x80 else 0) (n := 2 ^ 31 + 8) (m := 0) (a := p / 8) (by omega)
    rw [Nat.zero_add] at this
    rw [show longRun.inMem = (List.range' 0 (2 ^ 31 + 8)).map fun i => (i, if i = 2 ^ 31 then 0x80 else 0) from rfl, this]
    rfl
  rw [bitAt, hb]
  by_cases hq : p / 8 = 2 ^ 31
  · rw [if_pos hq]
    have h80 : ∀ k < 8, (0x80 : Byte).getLsbD (7 - k) = decide (k = 0) := by decide
    rw [h80 _ (Nat.mod_lt _ (by decide))]
    exact decide_eq_decide.2 (by omega)
  · rw [if_neg hq]
    rw [show ∀ k, (0 : Byte).getLsbD k = false from fun k => BitVec.getLsbD_zero, decide_eq_false (by omega)]

/-- R267: with K = 30 the number 2^64 needs a quotient of 2^34. -/
theorem witness_RicePartitions_overflow :
    (∃ v : BitVec 5, v ≠ 31 ∧ Instr.partitionRice5 30 = .partitionRice5 v ∧ 30 = v.toNat) ∧
    ([] : List Nat).length < nextCount longRun ∧ riceAt longRun 30 longRun.work.cur [] 0 ∧
    riceAt longRun 30 0 [2 ^ 64] (2 ^ 34 + 31) := by
  refine ⟨⟨30, by decide, rfl, rfl⟩, by decide +kernel, rfl, ?_⟩
  have hz : ∀ w, w ≤ 63 → bitRead longRun (2 ^ 34 + 1) w = 0 := by
    intro w hw
    induction w with
    | zero => rfl
    | succ w ih =>
      rw [bitRead, ih (by omega), bitAt_longRun (by omega), decide_eq_false (by omega)]
      rfl
  have hq : (2 ^ 64 / 2 ^ 30 : Nat) = 2 ^ 34 := by norm_num
  have he := endPos_longRun
  simp only [riceAt, unaryAt, hq, Nat.zero_add, he]
  refine ⟨⟨fun j hj => ?_, ?_, by norm_num⟩, ?_, by norm_num, by norm_num⟩
  · rw [bitAt_longRun (by omega), decide_eq_false (by omega)]
  · rw [bitAt_longRun (by omega), decide_eq_true rfl]
  · rw [hz 30 (by omega)]
    norm_num

theorem witness_EscapedPartitions :
    (let s := workingAt p2 212 0; ¬ bitsAt s s.work.cur 5) ∧
    (let s := holding [0x80] 0; bitsAt s s.work.cur 5 ∧ escapeWidthOf s (bitRead s s.work.cur 5) < 0) ∧
    (let s := holding [0x00] 0; bitsAt s s.work.cur 5 ∧ escapeWidthOf s (bitRead s s.work.cur 5) = 0) ∧
    (let s := eightBits (holding [0x20, 0x08, 0xF8] 0) 3
     bitsAt s s.work.cur 5 ∧ 0 < escapeWidthOf s (bitRead s s.work.cur 5) ∧
       bitsAt s (s.work.cur + 5) (nextCount s * (escapeWidthOf s (bitRead s s.work.cur 5)).toNat)) ∧
    escapeWidthOf p2 (0 : BitVec 5).toNat = 0 ∧
    (let s := eightBits (holding [0x08, 0xF8] 0) 3
     0 < escapeWidthOf s (4 : BitVec 5).toNat ∧ bitsAt s s.work.cur (nextCount s * (escapeWidthOf s (4 : BitVec 5).toNat).toNat)) ∧
    (let s := eightBits (holding [0x20, 0x08] 0) 3
     bitsAt s s.work.cur 5 ∧ 2 < nextCount s ∧ escapeWidthOf s (bitRead s s.work.cur 5) = 4 ∧ firstMissing s (s.work.cur + 5) 4 2) ∧
    (let s := eightBits (holding [0x08] 0) 3
     2 < nextCount s ∧ escapeWidthOf s (4 : BitVec 5).toNat = 4 ∧ firstMissing s s.work.cur 4 2) ∧
    (let s := eightBits (holding [0x20] 0) 0
     nextCount s = 0 ∧ bitsAt s s.work.cur 5 ∧ 0 < escapeWidthOf s (bitRead s s.work.cur 5) ∧ bitsAt s (s.work.cur + 5) 0) := by
  unfold firstMissing bitsAt
  decide +kernel

theorem witness_ZigZagIsABijection : 2 ^ 64 - 1 < 2 ^ 64 ∧ -(2 ^ 63) ≤ (-(2 ^ 63) : Int) ∧ (2 ^ 63 - 1 : Int) ≤ 2 ^ 63 - 1 := by
  decide

theorem witness_ResidualField :
    (let s := holding [0x80] 0; bitsAt s 0 2 ∧ 2 ≤ bitRead s 0 2) ∧
    (let s := holding [0x10] 0
     bitsAt s 0 6 ∧ bitRead s 0 2 < 2 ∧ ((∑ _i ∈ Finset.range (2 ^ bitRead s 2 4), 8 / 2 ^ bitRead s 2 4 : Nat) : Int) ≠ (8 : Int) - 0) ∧
    (bitsAt p2 64 6 ∧ bitRead p2 64 2 < 2 ∧ ((∑ _i ∈ Finset.range (2 ^ bitRead p2 66 4), 4 / 2 ^ bitRead p2 66 4 : Nat) : Int) = (4 : Int) - 0) ∧
    ∃ g c, residual p2 4 Subframe.idle ⟨64, 0⟩ = .ok (g, c) ∧ g.res = [3, -2, 0, 5] := by
  unfold bitsAt
  exact ⟨by decide +kernel, by decide +kernel, by decide +kernel,
    of_answered (p := fun (g : Subframe) _ => g.res = [3, -2, 0, 5]) (by decide +kernel)⟩

theorem witness_HeaderEndChecks :
    ¬ bitsAt (holding (p2Body.take 6) 0) 48 8 ∧
    (let s := holding [0xFF, 0xF8, 0x60, 0x00, 0x00, 0x03, 0xE2] 0
     bitsAt s 48 8 ∧ s.params.verifyCrc = true ∧ (crc8Of (memRead s 0 6)).toNat ≠ bitRead s 48 8) ∧
    (bitsAt p2 48 8 ∧ (crc8Of (memRead p2 0 6)).toNat = bitRead p2 48 8) ∧
    (let s := { p2 with params := { p2.params with verifyCrc := false } }
     bitsAt s 48 8 ∧ s.params.verifyCrc = false) ∧
    ({ Hdr.idle with channels := 2 } : Hdr).channels ≠ p2.streamCh.toNat ∧
    ({ Hdr.idle with channels := 1 } : Hdr).channels = p2.streamCh.toNat := by
  unfold bitsAt
  decide +kernel

/-- The working state of P2's first frame before its padding. -/
def p2Work : Work :=
  { Work.idle with
    hdr := { Hdr.idle with bs := 4, channels := 1, bps := 16 }
    subs := [{ Subframe.idle with samples := [3, -2, 0, 5] }] }

theorem witness_FrameEndChecks :
    ¬ bitsAt (holding (p2Body.take 11) 0) 89 7 ∧
    (let s := holding (p2Body.take 11 ++ [0x01]) 0; bitsAt s 89 7 ∧ bitRead s 89 7 ≠ 0) ∧
    (let s := holding (p2Body ++ [0xC6]) 0; bitsAt s 89 7 ∧ bitRead s 89 7 = 0 ∧ ¬ bitsAt s 96 16) ∧
    (let s := holding (p2Body ++ [0xC6, 0xF4]) 0
     bitsAt s 96 16 ∧ ¬ (s.params.verifyCrc = false ∨ (crc16Of (memRead s 0 12)).toNat = bitRead s 96 16)) ∧
    (bitsAt p2 89 7 ∧ bitRead p2 89 7 = 0 ∧ bitsAt p2 96 16 ∧ (crc16Of (memRead p2 0 12)).toNat = bitRead p2 96 16 ∧
      decorrelate p2.params.datapathBits p2Work.hdr.chcode (p2Work.subs.map Subframe.samples) = some [[3, -2, 0, 5]] ∧
      (∀ l ∈ ([[3, -2, 0, 5]] : List (List Int)), ∀ v ∈ l, inDr p2Work.hdr.bps v) ∧
      p2.outptr.toNat + p2Work.hdr.bs * p2Work.hdr.channels ≤ p2.params.outMax) ∧
    (¬ ∀ l ∈ ([[8]] : List (List Int)), ∀ v ∈ l, inDr 4 v) ∧
    (let s := { p2 with params := { p2.params with outMax := 3 } }
     ¬ s.outptr.toNat + p2Work.hdr.bs * p2Work.hdr.channels ≤ s.params.outMax) ∧
    decorrelate 4 8 [[7], [-1]] = none := by
  simp only [bitsAt, inDr]
  decide +kernel

/-- The header errors of 95_test_vectors.md 2.3, and the input cut after each byte. -/
theorem witness_HeaderErrorsInOrder :
    let at_ := fun (bytes : List Byte) (pos : Nat) => withStream (holding bytes pos) 1 16
    (let s := at_ [0xFF, 0xF8] 4; decodeReady s ∧ s.pos.toNat % 8 ≠ 0) ∧
    (let s := at_ [0xFF] 0; decodeReady s ∧ s.pos.toNat % 8 = 0 ∧ ¬ bitsAt s 0 16) ∧
    (let s := at_ [0xFF, 0xFA] 0; decodeReady s ∧ bitsAt s 0 16 ∧ ¬ bitRead s 0 15 = 0x7FFC) ∧
    (let s := at_ [0xFF, 0xF8] 0; decodeReady s ∧ bitsAt s 0 16 ∧ bitRead s 0 15 = 0x7FFC ∧ ¬ bitsAt s 0 24) ∧
    (let s := at_ [0xFF, 0xF8, 0x09] 0; decodeReady s ∧ bitsAt s 0 24 ∧ bitRead s 0 15 = 0x7FFC ∧ ¬ bitRead s 16 4 ≠ 0) ∧
    (let s := at_ [0xFF, 0xF8, 0xCF] 0; decodeReady s ∧ bitsAt s 0 24 ∧ bitRead s 16 4 ≠ 0 ∧ ¬ bitRead s 20 4 ≠ 15) ∧
    (let s := at_ [0xFF, 0xF8, 0xC9] 0; decodeReady s ∧ bitsAt s 0 24 ∧ bitRead s 20 4 ≠ 15 ∧ ¬ bitsAt s 0 32) ∧
    (let s := at_ [0xFF, 0xF8, 0xC9, 0xB8] 0; decodeReady s ∧ bitsAt s 0 32 ∧ ¬ bitRead s 24 4 < 11) ∧
    (let s := at_ [0xFF, 0xF8, 0xC9, 0x06] 0; decodeReady s ∧ bitsAt s 0 32 ∧ bitRead s 24 4 < 11 ∧ ¬ bitRead s 28 3 ≠ 3) ∧
    (let s := at_ [0xFF, 0xF8, 0xC9, 0xA9] 0
     decodeReady s ∧ bitsAt s 0 32 ∧ bitRead s 24 4 < 11 ∧ bitRead s 28 3 ≠ 3 ∧ bitAt s 31 = true) := by
  refine ⟨?_, ?_, ?_, ?_, ?_, ?_, ?_, ?_, ?_, ?_⟩ <;> simp only [decodeReady, lenOk, bitsAt] <;> decide +kernel

theorem witness_DecodeFrameFails :
    ¬ decodeReady { p2 with streamBps := 3 } ∧ ¬ decodeReady { p2 with streamCh := 9 } ∧ decodeReady { p2 with streamCh := 2 } ∧
    ∃ e, frameBody { p2 with streamCh := 2 } (startCur { p2 with streamCh := 2 }) = .error e ∧ e.code = .channelMismatch := by
  simp only [decodeReady, lenOk]
  exact ⟨by decide +kernel, by decide +kernel, by decide +kernel, of_refusedWith (by decide +kernel)⟩

theorem witness_DecodeFrameCommits : p3.params.wf ∧ decodeReady p3 ∧
    ∃ w c, frameBody p3 (startCur p3) = .ok (w, c) ∧ (w.hdr.bs = 8 ∧ w.hdr.channels = 2 ∧ c.cur = 224) := by
  simp only [decodeReady, lenOk]
  exact ⟨by decide +kernel, by decide +kernel,
    of_answered (p := fun (w : Work) c => w.hdr.bs = 8 ∧ w.hdr.channels = 2 ∧ c.cur = 224) (by decide +kernel)⟩

theorem witness_CommittedFrames : p3.params.wf ∧ (∃ t, exec .decodeFrame p3 = .next t ∧ t.fv = true) ∧
    p3.params.verifyCrc = true ∧ ∃ t, exec .decodeFrame p5 = .next t ∧ t.fv = true :=
  ⟨by decide +kernel, of_outcome (by decide +kernel), by decide +kernel, of_outcome (by decide +kernel)⟩

/-- P2 with other history: an earlier result, other output, another ARG. -/
def p2Later : State := { p2 with outptr := 8, result := 9, arg := 3, done := true, frameCount := 2 }

theorem witness_FramesAreIndependent : sameFrameInput p2 p2Later ∧ decodeReady p2 ∧ decodeReady p2Later ∧
    (∃ t, exec .decodeFrame p2 = .next t ∧ t.fv = true) ∧ (∃ t, exec .decodeFrame p2Later = .next t ∧ t.fv = true) ∧
    sameFrameInput { p2 with pos := 8 } { p2Later with pos := 8 } ∧ decodeReady { p2 with pos := 8 } ∧
    (∃ t, exec .decodeFrame { p2 with pos := 8 } = .next t ∧ (t.fv = false ∧ t.errCode ≠ .outputOverflow)) ∧
    ∃ t, exec .decodeFrame { p2Later with pos := 8 } = .next t ∧ t.fv = false := by
  simp only [decodeReady, lenOk]
  exact ⟨⟨fun _ => rfl, rfl, rfl, rfl, rfl, rfl, rfl⟩, by decide +kernel, by decide +kernel, of_outcome (by decide +kernel),
    of_outcome (by decide +kernel), ⟨fun _ => rfl, rfl, rfl, rfl, rfl, rfl, rfl⟩, by decide +kernel,
    of_outcome (by decide +kernel), of_outcome (by decide +kernel)⟩

theorem of_runs {o : Option State} {p : State → Prop} [DecidablePred p] (h : (o.any fun t => decide (p t)) = true) :
    ∃ t, o = some t ∧ p t := by
  cases o with
  | none => cases h
  | some t => exact ⟨t, rfl, of_decide_eq_true h⟩

/-- P2 from its first frame, from its second, and from its end. -/
theorem witness_DecodeStreamWalksToTheEnd : p2.params.wf ∧ decodeReady p2 ∧
    (decodeReady { p2 with pos := 216 } ∧ (216 : Word64).toNat = endPos p2) ∧
    (decodeReady { p2 with pos := 112 } ∧ (112 : Word64).toNat < endPos p2 ∧
      ∃ w c, frameBody { p2 with pos := 112 } (startCur { p2 with pos := 112 }) = .ok (w, c) ∧ c.cur = endPos p2) ∧
    (∃ t, decodedFrames 2 p2 = some t ∧ t.pos.toNat = endPos p2) ∧
    (∃ t, frameRuns 2 p2 = some t ∧ t.pos.toNat = endPos p2) ∧
    ∃ t, frameRuns 0 { p2 with pos := 216 } = some t ∧ t.pos.toNat = endPos p2 := by
  simp only [decodeReady, lenOk]
  exact ⟨by decide +kernel, by decide +kernel, by decide +kernel,
    ⟨by decide +kernel, by decide +kernel, of_answered (p := fun (_ : Work) c => c.cur = endPos p2) (by decide +kernel)⟩,
    of_runs (by decide +kernel), of_runs (by decide +kernel), of_runs (by decide +kernel)⟩

/-- P2 with one trailing byte. -/
def p2Trailing : State := { p2 with inMem := writeBlock p2.inMem 27 [0], len := 28 }

theorem witness_DecodeStreamKeepsEarlierFrames : p2Trailing.params.wf ∧ decodeReady p2Trailing ∧
    ∃ t, frameRuns 2 p2Trailing = some t ∧
      (t.pos.toNat < endPos p2Trailing ∧ outcome (exec .decodeFrame t) (fun u => !u.fv) = true) := by
  simp only [decodeReady, lenOk]
  exact ⟨by decide +kernel, by decide +kernel, of_runs (by decide +kernel)⟩

theorem witness_DecodeStreamEnds : p2.params.wf ∧ decodeReady { p2 with pos := 217 } ∧ endPos p2 < 217 ∧
    decodeReady { p2 with pos := 216 } ∧ 216 ≤ endPos p2 := by
  simp only [decodeReady, lenOk]
  decide +kernel

/-- The header errors from NUMBER on, the input cut in each field; P2's own header, a wrong CRC8, and another STREAM_CH. -/
theorem witness_HeaderErrorsFromNumber :
    let at_ := fun (bytes : List Byte) => withStream (holding bytes 0) 1 16
    let lead := fun (s : State) => bitRead s 32 8
    (let s := at_ [0xFF, 0xF8, 0xC9, 0x08]; decodeReady s ∧ headerCodesPass s 0 ∧ ¬ bitsAt s 32 8) ∧
    (let s := at_ [0xFF, 0xF8, 0xC9, 0x08, 0x80]
     decodeReady s ∧ headerCodesPass s 0 ∧ bitsAt s 32 8 ∧ ¬ (lead s < 0x80 ∨ 0xC0 ≤ lead s ∧ lead s < 0xF8)) ∧
    (let s := at_ [0xFF, 0xF8, 0xC9, 0x08, 0xC2]
     decodeReady s ∧ headerCodesPass s 0 ∧ bitsAt s 32 8 ∧ 0xC0 ≤ lead s ∧ lead s < 0xF8 ∧ ¬ bitsAt s 32 (8 * numberBytes (lead s))) ∧
    (let s := at_ [0xFF, 0xF8, 0xC9, 0x08, 0xC2, 0x41]
     decodeReady s ∧ headerCodesPass s 0 ∧ bitsAt s 32 (8 * numberBytes (lead s)) ∧ bitRead s (32 + 8 * 1) 8 / 64 ≠ 0b10 ∧
       1 < numberBytes (lead s)) ∧
    (let s := at_ [0xFF, 0xF8, 0x69, 0x08, 0x00]
     decodeReady s ∧ headerCodesPass s 0 ∧ bitsAt s 32 (8 * numberBytes (lead s)) ∧ lead s < 0x80 ∧ endPos s < srEscAt s 0) ∧
    (let s := at_ [0xFF, 0xF8, 0xCE, 0x08, 0x00, 0x01]
     decodeReady s ∧ headerCodesPass s 0 ∧ lead s < 0x80 ∧ srEscAt s 0 ≤ endPos s ∧ endPos s < crc8At s 0) ∧
    (let s := at_ [0xFF, 0xF8, 0xC9, 0x08, 0x00]
     decodeReady s ∧ headerCodesPass s 0 ∧ lead s < 0x80 ∧ crc8At s 0 ≤ endPos s ∧ ¬ bitsAt s (crc8At s 0) 8) ∧
    (let s := at_ [0xFF, 0xF8, 0x60, 0x00, 0x00, 0x03, 0xE2]
     decodeReady s ∧ headerCodesPass s 0 ∧ bitsAt s (crc8At s 0) 8 ∧ ¬ (s.params.verifyCrc = false ∨ headerCrcGood s 0)) ∧
    (decodeReady p2 ∧ headerCodesPass p2 0 ∧ bitsAt p2 (crc8At p2 0) 8 ∧ headerCrcGood p2 0 ∧ channelCount (bitRead p2 24 4) = p2.streamCh.toNat ∧
      channelCount (bitRead p2 24 4) ≠ ({ p2 with streamCh := 2 } : State).streamCh.toNat ∧ decodeReady { p2 with streamCh := 2 }) ∧
    (let s : State := { p2 with params := { p2.params with verifyCrc := false } }
     decodeReady s ∧ headerCodesPass s 0 ∧ bitsAt s (crc8At s 0) 8 ∧ s.params.verifyCrc = false) := by
  refine ⟨?_, ?_, ?_, ?_, ?_, ?_, ?_, ?_, ?_, ?_⟩ <;>
    simp only [decodeReady, lenOk, headerCodesPass, headerCrcGood, bitsAt] <;> decide +kernel

end Sys2Proof.Tests
end

/-! The stream read as sums of its bits and bytes (00_scope.md rule R18; 20_memory.md rules R82, R83), and O22. -/

namespace Sys2Proof.Machine

/-- One bit more doubles the place value of every bit before it. -/
theorem bitRead_eq_sum (s : State) (p w : Nat) :
    bitRead s p w = ∑ j ∈ Finset.range w, (bitAt s (p + j)).toNat * 2 ^ (w - 1 - j) := by
  induction w with
  | zero => simp [bitRead]
  | succ w ih =>
    have place (j : Nat) (hj : j < w) : 2 ^ (w - j) = 2 * 2 ^ (w - 1 - j) := by
      rw [← Nat.pow_succ']
      congr 1
      omega
    have doubled : 2 * bitRead s p w = ∑ j ∈ Finset.range w, (bitAt s (p + j)).toNat * 2 ^ (w - j) := by
      rw [ih, Finset.mul_sum]
      refine Finset.sum_congr rfl fun j hj => ?_
      rw [place j (Finset.mem_range.mp hj), Nat.mul_left_comm]
    simp [bitRead, Finset.sum_range_succ, doubled]

/-- The byte at index i weighs 2^(8·i) (20_memory.md rule R83). -/
theorem bitReadLe_eq_sum (s : State) (p k : Nat) :
    bitReadLe s p k = ∑ i ∈ Finset.range k, bitRead s (p + 8 * i) 8 * 2 ^ (8 * i) := by
  induction k with
  | zero => simp [bitReadLe]
  | succ k ih => rw [bitReadLe, ih, Finset.sum_range_succ]

/-- `MemRead` counted from its first address (00_scope.md rule R18). -/
theorem memRead_eq_map_range (s : State) (a n : Nat) :
    memRead s a n = (List.range n).map fun j => byteAt s (a + j) := by
  rw [memRead, List.range'_eq_map_range, List.map_map]
  rfl

/-- Settles O22: the bit by definition, the two sums by induction on the width and on the bytes. -/
theorem bitReadIsTheSumOfItsBits : Obligations.BitReadIsTheSumOfItsBits := fun s p w =>
  ⟨rfl, bitRead_eq_sum s p w, bitReadLe_eq_sum s p w, memRead_eq_map_range s p w⟩

end Sys2Proof.Machine

/-! Which errors the stages of a decode can raise (60_exceptions.md rules R380, R382). -/

namespace Sys2Proof.Machine

/-- The errors a decode can raise: not NONE, and not the two that belong to a command word and its argument. -/
def decodeError : ErrCode → Bool
  | .noError | .illegalCommand | .illegalArgument => false
  | _ => true

theorem decodeError_ne_noError {e : ErrCode} (h : decodeError e = true) : e ≠ .noError := by
  rintro rfl
  cases h

/-- A stage that raises nothing but decode errors. -/
def OnlyDecodeErrors {α : Type} (x : Stage α) : Prop := ∀ c e, x c = .error e → decodeError e.code = true

namespace OnlyDecodeErrors

variable {α β : Type} {s : State}

protected theorem pure (a : α) : OnlyDecodeErrors (pure a) := fun _ _ h => by cases h

theorem get : OnlyDecodeErrors (get : Stage Cur) := fun _ _ h => by cases h

protected theorem bind {x : Stage α} {f : α → Stage β} (hx : OnlyDecodeErrors x) (hf : ∀ a, OnlyDecodeErrors (f a)) :
    OnlyDecodeErrors (x >>= f) := fun c e h => by
  rcases bind_eq_error.1 h with h | ⟨a, c', -, h⟩
  · exact hx c e h
  · exact hf a c' e h

protected theorem ite {p : Prop} [Decidable p] {x y : Stage α} (hx : OnlyDecodeErrors x) (hy : OnlyDecodeErrors y) :
    OnlyDecodeErrors (if p then x else y) := by
  split
  · exact hx
  · exact hy

theorem raise {e : ErrCode} (he : decodeError e = true) : OnlyDecodeErrors (raise e : Stage α) := fun c r h => by
  cases h
  exact he

theorem raiseIf {b : Bool} {e : ErrCode} (he : decodeError e = true) : OnlyDecodeErrors (raiseIf b e) := fun c r h => by
  rw [(raiseIf_eq_error.1 h).2]
  exact he

/-- The shape of the checks on a field already read. -/
theorem check {b : Bool} {e : ErrCode} (he : decodeError e = true) (a : α) :
    OnlyDecodeErrors (do Machine.raiseIf b e; pure a : Stage α) := .bind (.raiseIf he) fun _ => .pure a

theorem takeBits {w : Nat} {f : Nat → α} : OnlyDecodeErrors (takeBits s w f) := fun c e h => by
  rw [(takeBits_eq_error.1 h).2]
  rfl

theorem takeU {w : Nat} : OnlyDecodeErrors (takeU s w) := .takeBits

theorem takeS {w : Nat} : OnlyDecodeErrors (takeS s w) := .takeBits

theorem takeSMany {w n : Nat} : OnlyDecodeErrors (takeSMany s w n) := by
  induction n with
  | zero => exact .pure _
  | succ n ih => exact .bind .takeS fun _ => .bind ih fun _ => .pure _

theorem takeUnary : OnlyDecodeErrors (takeUnary s) := fun c e h => by
  rw [(takeUnary_eq_error.1 h).2]
  rfl

theorem utf8Rest {n v : Nat} : OnlyDecodeErrors (utf8Rest s n v) := fun c e h => by
  unfold Machine.utf8Rest at h
  split at h
  · cases h
    rfl
  · split at h <;> cases h
    rfl

theorem takeUtf8 : OnlyDecodeErrors (takeUtf8 s) := by
  refine .bind .takeU fun lead => ?_
  split
  · exact .utf8Rest
  · exact .raise rfl

/-! ### Header -/

theorem frameStart : OnlyDecodeErrors frameStart := fun c e h => by
  unfold Machine.frameStart at h
  split at h <;> cases h
  rfl

theorem syncField : OnlyDecodeErrors (syncField s) := .bind .takeU fun _ => .raiseIf rfl

theorem bscodeField {v : Nat} {h : Hdr} : OnlyDecodeErrors (bscodeField v h) := .check rfl _

theorem srcodeField {v : Nat} {h : Hdr} : OnlyDecodeErrors (srcodeField v h) := .check rfl _

theorem chcodeField {v : Nat} {h : Hdr} : OnlyDecodeErrors (chcodeField v h) := .check rfl _

theorem bdcodeField {v : Nat} {h : Hdr} : OnlyDecodeErrors (bdcodeField v h) := .check rfl _

theorem reservedBitField {v : Nat} : OnlyDecodeErrors (reservedBitField v) := .raiseIf rfl

theorem blockSize {h : Hdr} : OnlyDecodeErrors (blockSize s h) :=
  .ite (.pure _) (.ite (.pure _) (.ite (.bind .takeU fun _ => .pure _) (.ite (.bind .takeU fun _ => .pure _) (.pure _))))

theorem sampleRate {h : Hdr} : OnlyDecodeErrors (sampleRate s h) :=
  .ite (.pure _) (.ite (.pure _) (.ite (.bind .takeU fun _ => .pure _)
    (.ite (.bind .takeU fun _ => .pure _) (.bind .takeU fun _ => .pure _))))

theorem headerCrc {h : Hdr} : OnlyDecodeErrors (headerCrc s h) := .bind .takeU fun _ => .bind .get fun _ => .check rfl _

theorem headerCodes : OnlyDecodeErrors (headerCodes s) :=
  .bind .frameStart fun _ => .bind .syncField fun _ => .bind .takeU fun _ =>
    .bind .takeU fun _ => .bind .bscodeField fun _ => .bind .takeU fun _ => .bind .srcodeField fun _ =>
    .bind .takeU fun _ => .bind .chcodeField fun _ => .bind .takeU fun _ => .bind .bdcodeField fun _ =>
    .bind .takeU fun _ => .bind .reservedBitField fun _ => .pure _

theorem frameHeader : OnlyDecodeErrors (frameHeader s) :=
  .bind .headerCodes fun _ => .bind .takeUtf8 fun _ => .bind .blockSize fun _ => .bind .sampleRate fun _ =>
    .bind .headerCrc fun _ => .check rfl _

/-! ### Subframes -/

theorem methodField {v : Nat} {f : Subframe} : OnlyDecodeErrors (methodField v f) := .check rfl _

theorem rice {k n : Nat} : OnlyDecodeErrors (rice s k n) := by
  induction n with
  | zero => exact .pure _
  | succ n ih =>
    have codeword : OnlyDecodeErrors (riceCodeword s k) := .bind .takeUnary fun _ => .bind .takeU fun _ => .check rfl _
    exact .bind codeword fun _ => .bind ih fun _ => .pure _

theorem ricePartition {bs k : Nat} {f : Subframe} : OnlyDecodeErrors (ricePartition s bs k f) :=
  .bind .rice fun _ => .pure _

theorem escapeField {bs bits : Nat} {f : Subframe} : OnlyDecodeErrors (escapeField s bs bits f) :=
  .bind (.raiseIf rfl) fun _ => .ite (.bind (.pure _) fun _ => .pure _) (.bind .takeSMany fun _ => .pure _)

theorem escapePartition {bs : Nat} {f : Subframe} : OnlyDecodeErrors (escapePartition s bs f) :=
  .bind .takeU fun _ => .escapeField

theorem partitions {bs n : Nat} {f : Subframe} : OnlyDecodeErrors (partitions s bs n f) := by
  induction n generalizing f with
  | zero => exact .pure _
  | succ n ih =>
    have partition : OnlyDecodeErrors (partition s bs f) := .bind .takeU fun _ => .ite .escapePartition .ricePartition
    exact .bind partition fun _ => ih

theorem residual {bs : Nat} {f : Subframe} : OnlyDecodeErrors (residual s bs f) :=
  .bind .takeU fun _ => .bind .methodField fun _ => .bind .takeU fun _ => .bind (.raiseIf rfl) fun _ => .partitions

theorem rebuild {a : List Int} {k : Nat} {warm : List Int} {f : Subframe} : OnlyDecodeErrors (rebuild s a k warm f) := by
  unfold Machine.rebuild
  split
  · exact .pure _
  · exact .raise rfl

theorem precisionField {v : Nat} {f : Subframe} : OnlyDecodeErrors (precisionField v f) := .check rfl _

theorem shiftField {v : Nat} {f : Subframe} : OnlyDecodeErrors (shiftField v f) := .check rfl _

theorem payload {bs : Nat} {f : Subframe} : OnlyDecodeErrors (payload s bs f) := by
  unfold Machine.payload
  split
  case h_1 => exact .bind .takeS fun _ => .pure _
  case h_2 => exact .bind .takeSMany fun _ => .pure _
  case h_3 => exact .bind .takeSMany fun _ => .bind .residual fun _ => .rebuild
  case h_4 =>
    exact .bind .takeSMany fun _ => .bind .takeU fun _ => .bind .precisionField fun _ => .bind .takeU fun _ =>
      .bind .shiftField fun _ => .bind .takeSMany fun _ => .bind .residual fun _ => .rebuild

theorem subframeBody {type : Nat} {wflag : Bool} {w : Work} : OnlyDecodeErrors (subframeBody s type wflag w) := by
  have wasted : OnlyDecodeErrors (wastedField s wflag) := .ite (.bind .takeUnary fun _ => .pure _) (.pure _)
  refine .bind wasted fun _ => ?_
  split
  · exact .raise rfl
  · exact .bind (.raiseIf rfl) fun _ => .bind .payload fun _ => .bind (.check rfl _) fun _ => .pure _

theorem subframes {n : Nat} {w : Work} : OnlyDecodeErrors (subframes s n w) := by
  induction n generalizing w with
  | zero => exact .pure _
  | succ n ih =>
    have subframe : OnlyDecodeErrors (subframe s w) :=
      .bind .takeU fun _ => .bind (.raiseIf rfl) fun _ => .bind .takeU fun _ => .bind .takeU fun _ => .subframeBody
    exact .bind subframe fun _ => ih

/-! ### Frames -/

theorem decorrelateStage {w : Work} : OnlyDecodeErrors (decorrelateStage s w) := by
  unfold Machine.decorrelateStage
  split
  · exact .pure _
  · exact .raise rfl

theorem frameEnd {w : Work} : OnlyDecodeErrors (frameEnd s w) := by
  have padding : OnlyDecodeErrors (framePadding s) := .bind .get fun _ => .bind .takeU fun _ => .raiseIf rfl
  have crc (h : Hdr) : OnlyDecodeErrors (frameCrc s h) := .bind .takeU fun _ => .bind .get fun _ => .check rfl _
  exact .bind padding fun _ => .bind (crc _) fun _ => .bind .decorrelateStage fun _ =>
    .bind (.raiseIf rfl) fun _ => .check rfl _

theorem frameBody : OnlyDecodeErrors (frameBody s) := .bind .frameHeader fun _ => .bind .subframes fun _ => .frameEnd

theorem startChecks : OnlyDecodeErrors (startChecks s) := .bind (.raiseIf rfl) fun _ => .raiseIf rfl

theorem streamChecks : OnlyDecodeErrors (streamChecks s) := .bind .startChecks fun _ => .raiseIf rfl

/-! ### Bitstream codes -/

theorem blockSizeCode {v : Nat} {h : Hdr} : OnlyDecodeErrors (blockSizeCode s v h) := .bind .bscodeField fun _ => .blockSize

theorem sampleRateCode {v : Nat} {h : Hdr} : OnlyDecodeErrors (sampleRateCode s v h) :=
  .bind .srcodeField fun _ => .sampleRate

theorem channelsCode {v : Nat} {w : Work} : OnlyDecodeErrors (channelsCode s v w) :=
  .bind .chcodeField fun _ => .decorrelateStage

theorem bitDepthCode {v : Nat} {h : Hdr} : OnlyDecodeErrors (bitDepthCode s v h) := .bind .bdcodeField fun _ => .pure _

theorem numberCode {n v : Nat} {h : Hdr} : OnlyDecodeErrors (numberCode s n v h) := .bind .utf8Rest fun _ => .pure _

end OnlyDecodeErrors

end Sys2Proof.Machine

/-! What an instruction can do, said once: every next state of `exec` is one of the constructors of `Effect`. -/

namespace Sys2Proof.Machine

/-- `u` is `s` after some frames committed by DECODE_STREAM, RESULT left alone (45_assembly.md rules R344, R345). -/
inductive FramesCommitted : State → State → Prop
  | none (s : State) : FramesCommitted s s
  | frame {s u : State} {w : Work} {c : Cur} (decoded : FrameOk s s.pos.toNat w c)
      (rest : FramesCommitted { commit s w c with result := s.result } u) : FramesCommitted s u

/-- The cursor commands that leave their value in RESULT (40_cursor.md rules R161 to R168). -/
def resultReads : List Instr := [.readU, .readULe, .readS, .readSLe, .readBit, .readUnary, .readUtf8]

/-- The cursor commands that leave their value in SPAN (R169, R170). -/
def spanReads : List Instr := [.readRaw, .readBytes]

/-- What instruction `i` can do in state `s`, and the state it answers. -/
inductive Effect (s : State) : Instr → State → Prop
  | nop : Effect s .nop (finish s)
  | clear : Effect s .clear (finish (clearError s))
  | outReset : Effect s .outReset (finish { s with outptr := 0, frameCount := 0, out := [], draws := s.draws + 1 })
  | seek : Effect s .seek (finish { s with pos := s.arg })
  | readFailed {i : Instr} {e : Raise} (read : i ∈ resultReads ∨ i ∈ spanReads) (named : e.code ≠ .noError) :
      Effect s i (takeError s e)
  | readResult {i : Instr} (read : i ∈ resultReads) (v p f : Word64) :
      Effect s i (finish { s with result := v, pos := p, fpos := f })
  | readSpan {i : Instr} (read : i ∈ spanReads) {n : Nat} (fits : (n + 7) / 8 ≤ s.params.spanMax) (v : Nat)
      (p f : Word64) : Effect s i (finish { storeSpan n s v with pos := p, fpos := f })
  | frameCommitted {w : Work} {c : Cur} (decoded : FrameOk s s.pos.toNat w c) :
      Effect s .decodeFrame (finish (commit s w c))
  | frameFailed {e : Raise} (named : e.code ≠ .noError) : Effect s .decodeFrame (failFrame s e)
  | streamEnded {u : State} (frames : FramesCommitted s u) (n : Word64) :
      Effect s .decodeStream (finish { u with result := n })
  | streamFailed {u : State} {e : Raise} (frames : FramesCommitted s u) (named : e.code ≠ .noError) :
      Effect s .decodeStream (failFrame u e)
  | codeDone {i : Instr} (code : ∃ f v, encode i = .field f v) (w : Work) (p : Nat) : Effect s i (workDone s w p)
  | codeFailed {i : Instr} {e : Raise} (code : ∃ f v, encode i = .field f v) (named : e.code ≠ .noError) :
      Effect s i (failFrame s e)

theorem runRead_next {α : Type} {s t : State} {legal : Bool} {read : Stage α} {store : State → α → State}
    (hread : OnlyDecodeErrors read) (h : runRead s legal read store = .next t) :
    (∃ e : Raise, e.code ≠ .noError ∧ t = takeError s e) ∨
    ∃ v p f, legal = true ∧ t = finish { store s v with pos := p, fpos := f } := by
  rcases runRead_cases s legal read store with ⟨v, c, hl, -, -, hr⟩ | ⟨-, hr⟩ | ⟨-, -, hr⟩ | ⟨e, -, -, he, hr⟩ <;>
    rw [hr] at h <;> cases h
  · exact .inr ⟨v, _, _, hl, rfl⟩
  · exact .inl ⟨_, by simp, rfl⟩
  · exact .inl ⟨_, by simp, rfl⟩
  · exact .inl ⟨e, decodeError_ne_noError (hread _ _ he), rfl⟩

namespace Effect

variable {s t : State} {i : Instr}

theorem of_readNat {legal : Bool} {read : Stage Nat} (hi : i ∈ resultReads) (hread : OnlyDecodeErrors read)
    (h : runRead s legal read storeNat = .next t) : Effect s i t := by
  obtain ⟨e, he, rfl⟩ | ⟨v, p, f, -, rfl⟩ := runRead_next hread h
  · exact .readFailed (.inl hi) he
  · exact .readResult hi _ p f

theorem of_readInt {legal : Bool} {read : Stage Int} (hi : i ∈ resultReads) (hread : OnlyDecodeErrors read)
    (h : runRead s legal read storeInt = .next t) : Effect s i t := by
  obtain ⟨e, he, rfl⟩ | ⟨v, p, f, -, rfl⟩ := runRead_next hread h
  · exact .readFailed (.inl hi) he
  · exact .readResult hi _ p f

theorem of_readSpan {legal : Bool} {n : Nat} (hi : i ∈ spanReads) (hn : legal = true → (n + 7) / 8 ≤ s.params.spanMax)
    (h : runRead s legal (takeU s n) (storeSpan n) = .next t) : Effect s i t := by
  obtain ⟨e, he, rfl⟩ | ⟨v, p, f, hl, rfl⟩ := runRead_next .takeU h
  · exact .readFailed (.inr hi) he
  · exact .readSpan hi (hn hl) v p f

theorem of_decodeFrame (h : exec .decodeFrame s = .next t) : Effect s .decodeFrame t := by
  obtain ⟨-, w, c, hb, rfl⟩ | ⟨-, e, hb, rfl⟩ | ⟨-, rfl⟩ := decodeFrame_cases h
  · exact .frameCommitted (frameBody_ok hb)
  · exact .frameFailed (decodeError_ne_noError (OnlyDecodeErrors.frameBody _ _ hb))
  · exact .frameFailed (by simp)

/-- The walk of DECODE_STREAM commits frames and then ends or fails. -/
theorem walkFrames_cases (room n : Nat) (s : State) : ∃ u, FramesCommitted s u ∧
    ((∃ k, walkFrames room n s = finish { u with result := k }) ∨
      ∃ e : Raise, e.code ≠ .noError ∧ walkFrames room n s = failFrame u e) := by
  induction room generalizing n s with
  | zero => exact ⟨s, .none s, .inl ⟨_, rfl⟩⟩
  | succ room ih =>
    unfold walkFrames
    split
    · cases hb : frameBody s (startCur s) with
      | ok p =>
        obtain ⟨w, c⟩ := p
        obtain ⟨u, hu, h⟩ := ih (n + 1) { commit s w c with result := s.result }
        exact ⟨u, .frame (frameBody_ok hb) hu, h⟩
      | error e =>
        exact ⟨s, .none s, .inr ⟨e, decodeError_ne_noError (OnlyDecodeErrors.frameBody _ _ hb), rfl⟩⟩
    · exact ⟨s, .none s, .inl ⟨_, rfl⟩⟩

theorem of_decodeStream (h : exec .decodeStream s = .next t) : Effect s .decodeStream t := by
  change execDecodeStream s = .next t at h
  unfold execDecodeStream at h
  cases hc : streamChecks s (startCur s) with
  | ok p =>
    rw [hc] at h
    cases h
    obtain ⟨u, hu, ⟨k, hk⟩ | ⟨e, he, hk⟩⟩ := walkFrames_cases (endPos s - s.pos.toNat) 0 s
    · exact hk ▸ .streamEnded hu k
    · exact hk ▸ .streamFailed hu he
  | error e =>
    rw [hc] at h
    cases h
    exact .streamFailed (.none s) (decodeError_ne_noError (OnlyDecodeErrors.streamChecks _ _ hc))

theorem of_runStage {stage : Work → Stage Work} (hi : ∃ f v, encode i = .field f v)
    (h : runStage s stage = .next t) (hstage : ∀ w, OnlyDecodeErrors (stage w)) : Effect s i t := by
  rcases runStage_cases s stage with ⟨w, c, -, hr⟩ | ⟨e, he, hr⟩ <;> rw [hr] at h <;> cases h
  · exact .codeDone hi _ _
  · exact .codeFailed hi (decodeError_ne_noError (hstage _ _ _ he))

theorem of_runHdr {stage : Hdr → Stage Hdr} (hi : ∃ f v, encode i = .field f v)
    (h : runHdr s stage = .next t) (hstage : ∀ h, OnlyDecodeErrors (stage h)) : Effect s i t :=
  of_runStage hi h fun _ => .bind (hstage _) fun _ => .pure _

theorem of_runSubframe {stage : Subframe → Stage Subframe} (hi : ∃ f v, encode i = .field f v)
    (h : runSubframe s stage = .next t) (hstage : ∀ f, OnlyDecodeErrors (stage f)) : Effect s i t :=
  of_runStage hi h fun _ => .bind (hstage _) fun _ => .pure _

end Effect

/-- Every instruction does what `Effect` says of it. -/
theorem exec_effect {i : Instr} {s t : State} (h : exec i s = .next t) : Effect s i t := by
  cases i with dsimp only [exec] at h
  | nop => cases h; exact .nop
  | clear => cases h; exact .clear
  | outReset => cases h; exact .outReset
  | seek => cases h; exact .seek
  | readU | readULe => exact .of_readNat (by decide) .takeBits h
  | readS | readSLe => exact .of_readInt (by decide) .takeBits h
  | readBit => exact .of_readNat (by decide) .takeBits h
  | readUnary => exact .of_readNat (by decide) .takeUnary h
  | readUtf8 => exact .of_readNat (by decide) .takeUtf8 h
  | readRaw =>
    refine .of_readSpan (by decide) (fun hl => ?_) h
    have := of_decide_eq_true hl
    omega
  | readBytes =>
    refine .of_readSpan (by decide) (fun hl => ?_) h
    have := of_decide_eq_true hl
    omega
  | decodeFrame => exact .of_decodeFrame h
  | decodeStream => exact .of_decodeStream h
  | subframePadSet => exact .of_runStage ⟨_, _, rfl⟩ h fun _ => .check rfl _
  | subframeConstant | subframeVerbatim | subframeReserved0203 | subframeReserved0407 | subframeFixed0 | subframeFixed1
  | subframeFixed2 | subframeFixed3 | subframeFixed4 | subframeReserved0D | subframeReserved0E0F | subframeReserved101F
  | subframeLpc => exact .of_runStage ⟨_, _, rfl⟩ h fun _ => .subframeBody
  | residualRice4 | residualRice5 | residualReserved => exact .of_runSubframe ⟨_, _, rfl⟩ h fun _ => .methodField
  | partitionRice4 | partitionRice5 => exact .of_runSubframe ⟨_, _, rfl⟩ h fun _ => .ricePartition
  | partitionEscape4 | partitionEscape5 => exact .of_runSubframe ⟨_, _, rfl⟩ h fun _ => .escapePartition
  | escapeWidth => exact .of_runSubframe ⟨_, _, rfl⟩ h fun _ => .escapeField
  | lpcPrecision | lpcPrecisionInvalid => exact .of_runSubframe ⟨_, _, rfl⟩ h fun _ => .precisionField
  | lpcShift | lpcShiftNegative => exact .of_runSubframe ⟨_, _, rfl⟩ h fun _ => .shiftField
  | frameSync | frameSyncVariable => exact .of_runHdr ⟨_, _, rfl⟩ h fun _ => .pure _
  | blocksizeReserved | blocksize192 | blocksize576 | blocksize1152 | blocksize2304 | blocksize4608 | blocksizeEsc8
  | blocksizeEsc16 | blocksize256Shift => exact .of_runHdr ⟨_, _, rfl⟩ h fun _ => .blockSizeCode
  | samplerateInherit | samplerate88200 | samplerate176400 | samplerate192000 | samplerate8000 | samplerate16000
  | samplerate22050 | samplerate24000 | samplerate32000 | samplerate44100 | samplerate48000 | samplerate96000
  | samplerateEscKhz8 | samplerateEscHz16 | samplerateEscTenHz16 | samplerateInvalid =>
    exact .of_runHdr ⟨_, _, rfl⟩ h fun _ => .sampleRateCode
  | channelsIndependent | channelsLeftSide | channelsRightSide | channelsMidSide | channelsReserved11
  | channelsReserved1215 => exact .of_runStage ⟨_, _, rfl⟩ h fun _ => .channelsCode
  | bitdepthInherit | bitdepth8 | bitdepth12 | bitdepthReserved | bitdepth16 | bitdepth20 | bitdepth24 | bitdepth32 =>
    exact .of_runHdr ⟨_, _, rfl⟩ h fun _ => .bitDepthCode
  | headerReservedBit => exact .of_runStage ⟨_, _, rfl⟩ h fun _ => .check rfl _
  | utf8OneByte | utf8TwoByte | utf8ThreeByte | utf8FourByte =>
    exact .of_runHdr ⟨_, _, rfl⟩ h fun _ => .numberCode
  | utf8ContinuationAsLead | utf8LongLead => exact .of_runStage ⟨_, _, rfl⟩ h fun _ => .raise rfl
  | utf8Continuation => exact .of_runHdr ⟨_, _, rfl⟩ h fun _ => .pure _

end Sys2Proof.Machine

/-! The invariant of the block between commands (Safety.lean), kept by every command and every host access: O12, O13. -/

namespace Sys2Proof.Machine

/-- The part of the state that the invariant speaks of, everything else being at its reset value. -/
def invPart (s : State) : State :=
  { State.reset with
    done := s.done
    fv := s.fv
    errCode := s.errCode
    span := s.span
    spanLen := s.spanLen
    frame := s.frame
    out := s.out
    outptr := s.outptr
    frameCount := s.frameCount
    inMem := s.inMem
    seq := s.seq
    work := s.work
    params := s.params }

/-- `FrameInv` speaks of the frame results alone. -/
theorem FrameInv.of_frame {s t : State} (h : FrameInv s) (e : t.frame = s.frame) : FrameInv t := by
  obtain ⟨h1, h2, h3, h4, h5, h6, h7⟩ := h
  rw [← e] at h1 h2 h3 h4 h5 h6 h7
  exact ⟨h1, h2, h3, h4, h5, h6, h7⟩

theorem inv_invPart (s : State) : Inv (invPart s) ↔ Inv s :=
  ⟨fun h => { h with frame := fun hf => (h.frame hf).of_frame rfl },
    fun h => { h with frame := fun hf => (h.frame hf).of_frame rfl }⟩

/-- The registers of a committed frame are in their ranges (10_state.md rules R43, R45, R50, R51). -/
theorem frameInv_commit {s : State} {w : Work} {c : Cur} {start : Nat} (ok : FrameOk s start w c) :
    FrameInv (commit s w c) := by
  have hbs : (BitVec.ofNat 17 w.hdr.bs).toNat = w.hdr.bs := by
    have := ok.hdr.bs_le
    exact Nat.mod_eq_of_lt (by omega)
  have hch : (BitVec.ofNat 4 w.hdr.channels).toNat = w.hdr.channels := by
    have := ok.hdr.channels_le
    exact Nat.mod_eq_of_lt (by omega)
  have record (ch : ChannelRegs) (hm : ch ∈ (commit s w c).frame.channels) :
      ch.sub.length = w.hdr.bs ∧ ch.chan.length = w.hdr.bs := by
    obtain ⟨k, hk, rfl⟩ := List.mem_mapIdx.mp hm
    obtain ⟨hf, hl⟩ := List.of_mem_zip (List.getElem_mem hk)
    obtain ⟨j, hj⟩ := List.mem_iff_getElem?.mp hf
    exact ⟨(List.length_map _).trans (ok.channel j _ hj).recOk.len, (List.length_map _).trans (ok.samples _ hl)⟩
  refine ⟨?_, ?_, ?_, ?_, ?_, fun ch hm => ?_, fun ch hm => ?_⟩
  · exact hbs ▸ ok.hdr.bs_pos
  · exact hbs ▸ ok.hdr.bs_le
  · exact hch ▸ ok.hdr.channels_pos
  · exact hch ▸ ok.hdr.channels_le
  · change (List.mapIdx _ _).length = (BitVec.ofNat 4 w.hdr.channels).toNat
    rw [hch, List.length_mapIdx, List.length_zip, ok.subs_length, ok.chan_length, Nat.min_self]
  · exact (record ch hm).1.trans hbs.symm
  · exact (record ch hm).2.trans hbs.symm

/-- A block written right after the last listed address (10_state.md rule R52). -/
theorem map_fst_writeBlock_end {α : Type} {m : List (Nat × α)} {n : Nat} (h : m.map Prod.fst = List.range n)
    (vs : List α) : (writeBlock m n vs).map Prod.fst = List.range (n + vs.length) := by
  have below : (List.range n).filter (fun k => decide (k < n)) = List.range n :=
    List.filter_eq_self.mpr fun k hk => decide_eq_true (List.mem_range.mp hk)
  have beyond : (List.range n).filter (fun k => decide (n + vs.length ≤ k)) = [] := by
    refine List.filter_eq_nil_iff.mpr fun k hk => ?_
    have := List.mem_range.mp hk
    simp only [decide_eq_true_eq]
    omega
  rw [map_fst_writeBlock, h, below, beyond, List.append_nil, List.range_add, List.range'_eq_map_range]

namespace Inv

variable {s t : State}

/-- A change to a part of the state that the invariant does not speak of keeps it. -/
theorem of_invPart (h : Inv s) (e : invPart t = invPart s) : Inv t := by
  rwa [← inv_invPart, e, inv_invPart]

/-! ### What a command does -/

protected theorem finish (h : Inv s) : Inv (finish s) :=
  { h with error_done := fun _ => rfl, frame := fun hf => (h.frame hf).of_frame rfl }

protected theorem clearError (h : Inv s) : Inv (clearError s) :=
  { h with error_done := fun he => absurd rfl he, frame := fun hf => (h.frame hf).of_frame rfl }

protected theorem takeError (h : Inv s) (e : Raise) : Inv (takeError s e) :=
  { h with error_done := fun _ => rfl, frame := fun hf => (h.frame hf).of_frame rfl }

protected theorem failFrame (h : Inv s) (e : Raise) : Inv (failFrame s e) :=
  { h with boundary := rfl, working := rfl, error_done := fun _ => rfl, frame := fun hf => by cases hf }

theorem outReset (h : Inv s) : Inv { s with outptr := 0, frameCount := 0, out := [], draws := s.draws + 1 } :=
  { h with
    out_words := rfl
    outptr_le := Nat.zero_le _
    frameCount_le := Nat.le_refl 0
    frame := fun hf => (h.frame hf).of_frame rfl }

protected theorem storeSpan (h : Inv s) {n : Nat} (fits : (n + 7) / 8 ≤ s.params.spanMax) (v : Nat) :
    Inv (storeSpan n s v) := by
  obtain ⟨-, -, hmax, -⟩ := h.params
  have hk : (BitVec.ofNat 8 ((n + 7) / 8)).toNat = (n + 7) / 8 := Nat.mod_eq_of_lt (by omega)
  exact { h with
    span_length := by simp only [storeSpan_span, storeSpan_spanLen, hk, spanBytes, List.length_map, List.length_range]
    span_le := hk ▸ fits
    frame := fun hf => (h.frame hf).of_frame rfl }

/-- The OUT words below OUTPTR stay listed, neither counter wraps, and the frame results are the frame's (R342). -/
protected theorem commit (h : Inv s) {w : Work} {c : Cur} {start : Nat} (ok : FrameOk s start w c) :
    Inv (commit s w c) := by
  obtain ⟨-, hmax, -⟩ := h.params
  have hroom := ok.room
  have hptr : (commit s w c).outptr.toNat = s.outptr.toNat + w.hdr.bs * w.hdr.channels :=
    Nat.mod_eq_of_lt (by omega)
  have hword : 1 ≤ w.hdr.bs * w.hdr.channels := Nat.mul_pos ok.hdr.bs_pos ok.hdr.channels_pos
  have hcount : (commit s w c).frameCount.toNat ≤ s.frameCount.toNat + 1 := by
    change (s.frameCount + 1).toNat ≤ _
    rw [BitVec.toNat_add]
    exact Nat.mod_le _ _
  have hcounts := h.frameCount_le
  exact { h with
    out_words := by
      rw [hptr, ← ok.chan_length, ← interleave_length]
      exact map_fst_writeBlock_end h.out_words _
    outptr_le := hptr ▸ hroom
    frameCount_le := by omega
    boundary := rfl
    working := rfl
    frame := fun _ => frameInv_commit ok }

theorem framesCommitted {u : State} (h : Inv s) (hu : FramesCommitted s u) : Inv u := by
  induction hu with
  | none => exact h
  | frame decoded _ ih => exact ih ((h.commit decoded).of_invPart rfl)

/-- Every command keeps the invariant. -/
theorem of_exec {i : Instr} {word : Word16} (h : Inv s) (hi : encode i = .cmd word) (hx : exec i s = .next t) :
    Inv t := by
  cases exec_effect hx with
  | nop => exact h.finish
  | clear => exact h.clearError.finish
  | outReset => exact h.outReset.finish
  | seek => exact Inv.finish (h.of_invPart rfl)
  | readFailed => exact h.takeError _
  | readResult => exact Inv.finish (h.of_invPart rfl)
  | readSpan _ fits v => exact Inv.finish ((h.storeSpan fits v).of_invPart rfl)
  | frameCommitted decoded => exact (h.commit decoded).finish
  | frameFailed => exact h.failFrame _
  | streamEnded frames => exact Inv.finish ((h.framesCommitted frames).of_invPart rfl)
  | streamFailed frames => exact (h.framesCommitted frames).failFrame _
  | codeDone code => obtain ⟨f, v, hf⟩ := code; rw [hi] at hf; cases hf
  | codeFailed code => obtain ⟨f, v, hf⟩ := code; rw [hi] at hf; cases hf

end Inv

/-- What a command word decodes to is a command, no bitstream code. -/
theorem encode_of_decodeCmd {w : Word16} {i : Instr} (h : decodeCmd w = .ok i) : ∃ word, encode i = .cmd word := by
  unfold decodeCmd decodeOp at h
  split_ifs at h <;> split at h <;> cases h <;> exact ⟨_, rfl⟩

namespace Inv

variable {s t : State}

/-! ### What a host access does -/

theorem of_runWord {w : Word16} (h : Inv s) (hr : runWord s w = .next t) : Inv t := by
  have begun : Inv (beginCommand (storeCmd s w)) := h.of_invPart rfl
  by_cases hi : ignoredWord s w = true
  · rw [runWord, if_pos hi] at hr
    cases hr
    exact h.of_invPart rfl
  · cases hd : decodeCmd w with
    | ok i =>
      rw [runWord_runs (Bool.eq_false_of_not_eq_true hi) hd] at hr
      obtain ⟨word, hword⟩ := encode_of_decodeCmd hd
      exact begun.of_exec hword hr
    | error r =>
      rw [runWord_illegal (Bool.eq_false_of_not_eq_true hi) hd] at hr
      cases hr
      exact begun.takeError _

protected theorem writeReg (h : Inv s) (k : Nat) (v : Word64) : Inv (writeReg s k v) := by
  unfold Machine.writeReg
  split <;> exact h.of_invPart rfl

/-- A write of IN lists one more byte that exists, in canonical form (10_state.md rule R34). -/
theorem of_writeMem {w : Window} {i : Nat} {v : Word64} (h : Inv s) (hw : writeMem s w i v = .next t) : Inv t := by
  unfold writeMem at hw
  split at hw
  · cases hw
  · next hsize =>
    split at hw <;> cases hw
    · exact { h with
        inMem_wf := writeBlock_wf h.inMem_wf _ _
        inMem_inside := fun c hc => by
          obtain hc | ⟨-, hc⟩ := mem_writeBlock hc
          · exact h.inMem_inside c hc
          · have hsize : i < s.params.inMax := Nat.lt_of_not_le hsize
            have hc : c.1 < i + 1 := hc
            exact Nat.lt_of_lt_of_le hc hsize
        frame := fun hf => (h.frame hf).of_frame rfl }
    · exact h

end Inv

/-- Settles O12, field by field: reset lists nothing, counts nothing and has no frame. -/
theorem invariantAtReset : Obligations.InvariantAtReset where
  params := by decide
  inMem_wf := reset_inMem_wf
  inMem_inside := fun c hc => by cases hc
  out_words := rfl
  outptr_le := Nat.zero_le _
  frameCount_le := Nat.le_refl 0
  span_length := rfl
  span_le := Nat.zero_le _
  boundary := rfl
  working := rfl
  error_done := fun he => absurd rfl he
  frame := fun hf => by cases hf

namespace Inv

variable {s t : State}

/-- Reset keeps the parameters and makes every other part what it is right after reset (log 19). -/
protected theorem platformReset (h : Inv s) : Inv (platformReset s) :=
  { invariantAtReset with
    params := h.params
    outptr_le := Nat.zero_le _
    span_le := Nat.zero_le _
    inMem_inside := fun c hc => by cases hc
    frame := fun hf => by cases hf }

theorem of_hostStep {a : HostAction} (h : Inv s) (ha : hostStep s a = .next t) : Inv t := by
  cases a with
  | writeReg k v =>
    unfold hostStep at ha
    dsimp only at ha
    split_ifs at ha
    · exact h.of_runWord ha
    · cases ha
      exact h.writeReg k v
  | writeMem => exact h.of_writeMem ha
  | reset =>
    cases ha
    exact h.platformReset

end Inv

/-- Settles O13: at a command boundary a step is nothing or one host access, and every access keeps the invariant. -/
theorem stepKeepsInvariant : Obligations.StepKeepsInvariant := by
  intro s t hs ht
  cases hh : s.host with
  | nil =>
    rw [step_idle hs.boundary hh] at ht
    cases ht
    exact hs
  | cons a rest =>
    rw [step_host hs.boundary hh] at ht
    have taken : Inv { s with host := rest } := hs.of_invPart rfl
    exact taken.of_hostStep ht

end Sys2Proof.Machine

/-! Who writes POS, SPAN, OUT, the counters and ERR_CODE (10_state.md rules R31, R42, R52, R53): O19. -/

namespace Sys2Proof.Machine

theorem FramesCommitted.span_eq {s u : State} (h : FramesCommitted s u) : u.span = s.span ∧ u.spanLen = s.spanLen := by
  induction h with
  | none => exact ⟨rfl, rfl⟩
  | frame _ _ ih => exact ih

theorem FramesCommitted.errCode_eq {s u : State} (h : FramesCommitted s u) : u.errCode = s.errCode := by
  induction h with
  | none => rfl
  | frame _ _ ih => exact ih

namespace Effect

variable {s t : State} {i : Instr}

theorem pos_written (h : Effect s i t) (hp : t.pos ≠ s.pos) :
    i = .seek ∨ i = .decodeFrame ∧ t.fv = true ∨ i = .decodeStream ∨
      i ∈ [.readU, .readULe, .readS, .readSLe, .readBit, .readUnary, .readUtf8, .readRaw, .readBytes] ∧
        t.errCode = s.errCode := by
  cases h with
  | seek => exact .inl rfl
  | frameCommitted => exact .inr (.inl ⟨rfl, rfl⟩)
  | streamEnded | streamFailed => exact .inr (.inr (.inl rfl))
  | readResult read => exact .inr (.inr (.inr ⟨List.mem_append_left spanReads read, rfl⟩))
  | readSpan read => exact .inr (.inr (.inr ⟨List.mem_append_right resultReads read, rfl⟩))
  | _ => exact absurd rfl hp

theorem span_written (h : Effect s i t) (hs : t.span ≠ s.span ∨ t.spanLen ≠ s.spanLen) :
    (i = .readRaw ∨ i = .readBytes) ∧ t.errCode = s.errCode := by
  cases h with
  | readSpan read => exact ⟨by simpa [spanReads] using read, rfl⟩
  | streamEnded frames | streamFailed frames =>
    obtain ⟨h1, h2⟩ := frames.span_eq
    exact absurd hs (by simp [h1, h2])
  | _ => exact absurd hs (by simp [workDone, commit])

theorem out_written (h : Effect s i t) (ho : t.out ≠ s.out ∨ t.outptr ≠ s.outptr ∨ t.frameCount ≠ s.frameCount) :
    i = .outReset ∨ i = .decodeFrame ∧ t.fv = true ∨ i = .decodeStream := by
  cases h with
  | outReset => exact .inl rfl
  | frameCommitted => exact .inr (.inl ⟨rfl, rfl⟩)
  | streamEnded | streamFailed => exact .inr (.inr rfl)
  | _ => exact absurd ho (by simp [workDone])

theorem error_cleared (h : Effect s i t) (hc : t.errCode ≠ s.errCode) (hn : t.errCode = .noError) : i = .clear := by
  cases h with
  | clear => rfl
  | readFailed _ named | frameFailed named | streamFailed _ named | codeFailed _ named => exact absurd hn named
  | streamEnded frames => exact absurd frames.errCode_eq hc
  | _ => exact absurd rfl hc

end Effect

/-- Settles O19: each part is read off what an instruction can do. -/
theorem whoWritesWhat : Obligations.WhoWritesWhat := fun _ _ _ h =>
  have effect := exec_effect h
  ⟨effect.pos_written, effect.span_written, effect.out_written, effect.error_cleared⟩

end Sys2Proof.Machine

/-! The host's view (10_state.md rules R37, R54, R55): STATUS, the register map, the windows, writes and reset; O11, O14 to
O17. -/

namespace Sys2Proof.Machine

/-! ### STATUS -/

/-- The number of the flags that STATUS shows in bits 4:0 (10_state.md rule R37). -/
def statusFlags (s : State) : Nat :=
  s.done.toNat + 2 * (busyFlag s).toNat + 4 * s.fv.toNat + 8 * (eosFlag s).toNat + 16 * (cfgFlag s).toNat

theorem statusFlags_lt (s : State) : statusFlags s < 32 := by
  have h0 := Bool.toNat_le s.done
  have h1 := Bool.toNat_le (busyFlag s)
  have h2 := Bool.toNat_le s.fv
  have h3 := Bool.toNat_le (eosFlag s)
  have h4 := Bool.toNat_le (cfgFlag s)
  unfold statusFlags
  omega

theorem statusWord_toNat (s : State) : (statusWord s).toNat = statusFlags s + 256 * (errNumber s.errCode).toNat := by
  have hf := statusFlags_lt s
  have he := (errNumber s.errCode).isLt
  have hlt : statusFlags s + 256 * (errNumber s.errCode).toNat < 2 ^ 32 := by omega
  exact Nat.mod_eq_of_lt hlt

/-- Bit `k` of STATUS is the parity of its number shifted right by `k`. -/
theorem statusWord_bit (s : State) (k : Nat) : (statusWord s).getLsbD k =
    decide ((statusFlags s + 256 * (errNumber s.errCode).toNat) / 2 ^ k % 2 = 1) := by
  rw [BitVec.getLsbD, statusWord_toNat, Nat.testBit_eq_decide_div_mod_eq]

/-- A parity that is the bit `b`. -/
theorem decide_eq_of_toNat {n : Nat} {b : Bool} (h : n = b.toNat) : decide (n = 1) = b := by
  subst h
  cases b <;> rfl

/-- The five flags of STATUS. -/
theorem statusWord_flags (s : State) :
    (statusWord s).getLsbD 0 = s.done ∧ (statusWord s).getLsbD 1 = busyFlag s ∧ (statusWord s).getLsbD 2 = s.fv ∧
      (statusWord s).getLsbD 3 = eosFlag s ∧ (statusWord s).getLsbD 4 = cfgFlag s := by
  have h0 := Bool.toNat_le s.done
  have h1 := Bool.toNat_le (busyFlag s)
  have h2 := Bool.toNat_le s.fv
  have h3 := Bool.toNat_le (eosFlag s)
  have h4 := Bool.toNat_le (cfgFlag s)
  simp only [statusWord_bit, statusFlags]
  exact ⟨decide_eq_of_toNat (by omega), decide_eq_of_toNat (by omega), decide_eq_of_toNat (by omega),
    decide_eq_of_toNat (by omega), decide_eq_of_toNat (by omega)⟩

/-- Bits 15:8 of STATUS are the error number. -/
theorem statusWord_error (s : State) : (statusWord s).extractLsb' 8 8 = errNumber s.errCode := by
  have hf := statusFlags_lt s
  have he := (errNumber s.errCode).isLt
  apply BitVec.eq_of_toNat_eq
  rw [BitVec.extractLsb'_toNat, statusWord_toNat, Nat.shiftRight_eq_div_pow]
  omega

/-- Bits 7:5 of STATUS read 0. -/
theorem statusWord_middle (s : State) {k : Nat} (h5 : 5 ≤ k) (h8 : k < 8) : (statusWord s).getLsbD k = false := by
  have hf := statusFlags_lt s
  rw [statusWord_bit, decide_eq_false_iff_not]
  obtain rfl | rfl | rfl : k = 5 ∨ k = 6 ∨ k = 7 := by omega
  all_goals omega

/-- Bits 31:16 of STATUS read 0. -/
theorem statusWord_high (s : State) {k : Nat} (h : 16 ≤ k) : (statusWord s).getLsbD k = false := by
  have hf := statusFlags_lt s
  have he := (errNumber s.errCode).isLt
  have hk : 2 ^ 16 ≤ 2 ^ k := Nat.pow_le_pow_right (by decide) h
  rw [statusWord_bit, Nat.div_eq_of_lt (by omega)]
  rfl

theorem eosFlag_iff (s : State) : eosFlag s = true ↔ s.pos.toNat = 8 * s.len.toNat := decide_eq_true_iff

theorem cfgFlag_iff (s : State) : cfgFlag s = true ↔
    s.rateWritten = true ∧ s.chWritten = true ∧ s.bpsWritten = true ∧ 1 ≤ s.streamCh.toNat ∧ s.streamCh.toNat ≤ 8 ∧
      4 ≤ s.streamBps.toNat ∧ s.streamBps.toNat ≤ 32 ∧ s.len.toNat ≤ s.params.inMax := by
  simp only [cfgFlag, streamParamsOk, Bool.and_eq_true, decide_eq_true_eq, and_assoc]

/-- The error codes by their numbers (60_exceptions.md rule R380). -/
def errOfNumber (n : Byte) : ErrCode :=
  [ErrCode.noError, .outOfBounds, .invalidEncoding, .syncError, .reservedBlockSize, .invalidSampleRate,
    .reservedChannelAssignment, .reservedBitDepth, .reservedBit, .headerChecksum, .channelMismatch, .missingPadding,
    .reservedSubframeType, .invalidWastedBits, .reservedResidualMethod, .residualLength, .invalidEscapeWidth,
    .invalidPrecision, .invalidShift, .arithmeticOverflow, .invalidPadding, .frameChecksum, .sampleRange,
    .outputOverflow, .configError, .illegalCommand, .illegalArgument].getD n.toNat .noError

theorem errOfNumber_errNumber (e : ErrCode) : errOfNumber (errNumber e) = e := by
  cases e <;> rfl

/-- Settles O14: STATUS as a number, bit by bit; the error numbers have an inverse. -/
theorem statusBitsAndErrorNumbers : Obligations.StatusBitsAndErrorNumbers := by
  refine ⟨fun s hs => ?_, by decide, fun a b h => ?_⟩
  · obtain ⟨h0, h1, h2, h3, h4⟩ := statusWord_flags s
    have idle : busyFlag s = false := by rw [busyFlag, hs]; rfl
    exact ⟨h0, h1.trans idle, h2, h3 ▸ eosFlag_iff s, h4 ▸ cfgFlag_iff s, fun k => statusWord_middle s,
      statusWord_error s, fun k => statusWord_high s⟩
  · rw [← errOfNumber_errNumber a, h, errOfNumber_errNumber]

/-! ### The register map -/

theorem regNumber_regAddress (p : Params) {k : Nat} (hk : k < 256) : regNumber p (p.baseReg + 8 * k) = some k := by
  have hd : p.baseReg + 8 * k - p.baseReg = 8 * k := by omega
  unfold regNumber
  rw [hd, Nat.mul_div_cancel_left k (by decide), if_pos ⟨Nat.le_add_right _ _, Nat.mul_mod_right 8 k, hk⟩]

/-- A frame header result register while FV = 1 (10_state.md rule R43). -/
theorem headerReg_of_fv {w : Nat} {s : State} (h : s.fv = true) (k : Nat) (field : HeaderRegs → BitVec w) :
    headerReg s k field = (field s.frame.hdr).setWidth 64 := by
  rw [headerReg, if_pos h]

/-- A per-channel register of a committed channel while FV = 1 (R45). -/
theorem channelReg_of_fv {w c : Nat} {s : State} {ch : ChannelRegs} (h : s.fv = true)
    (hc : s.frame.channels[c]? = some ch) (base : Nat) (field : ChannelRegs → BitVec w) :
    channelReg s base (base + c) field = (field ch).setWidth 64 := by
  rw [channelReg, Nat.add_sub_cancel_left, h, hc]

/-- The numbers after the last per-channel register are reserved (R55). -/
theorem hostReadReg_after_channels (s : State) {k : Nat} (h1 : 0x68 ≤ k) (h2 : k < 256) : hostReadReg s k = 0 := by
  unfold hostReadReg
  split
  case h_28 =>
    rw [if_neg (by omega), if_neg (by omega), if_neg (by omega), if_neg (by omega), if_neg (by omega),
      if_neg (by omega), if_neg (by omega), if_neg (by omega), if_neg (by omega), if_pos h2]
  all_goals omega

/-- The reserved numbers (R55). -/
theorem hostReadReg_reserved (s : State) {k : Nat}
    (h : k = 0x0E ∨ k = 0x0F ∨ (0x1D ≤ k ∧ k ≤ 0x1F) ∨ (0x68 ≤ k ∧ k ≤ 0xFF)) : hostReadReg s k = 0 := by
  obtain rfl | rfl | ⟨h1, h2⟩ | ⟨h1, h2⟩ := h
  · rfl
  · rfl
  · obtain rfl | rfl | rfl : k = 0x1D ∨ k = 0x1E ∨ k = 0x1F := by omega
    all_goals rfl
  · exact hostReadReg_after_channels s h1 (by omega)

/-- Each row of per-channel registers (R55). -/
theorem hostReadReg_channel (s : State) {c : Nat} (hc : c < 8) :
    hostReadReg s (0x20 + c) = channelReg s 0x20 (0x20 + c) ChannelRegs.sfType ∧
    hostReadReg s (0x28 + c) = channelReg s 0x28 (0x28 + c) ChannelRegs.sfKind ∧
    hostReadReg s (0x30 + c) = channelReg s 0x30 (0x30 + c) ChannelRegs.sfOrder ∧
    hostReadReg s (0x38 + c) = channelReg s 0x38 (0x38 + c) ChannelRegs.sfWasted ∧
    hostReadReg s (0x40 + c) = channelReg s 0x40 (0x40 + c) ChannelRegs.sfWidth ∧
    hostReadReg s (0x48 + c) = channelReg s 0x48 (0x48 + c) ChannelRegs.lpcPrec ∧
    hostReadReg s (0x50 + c) = channelReg s 0x50 (0x50 + c) ChannelRegs.lpcShift ∧
    hostReadReg s (0x58 + c) = channelReg s 0x58 (0x58 + c) ChannelRegs.resMethod ∧
    hostReadReg s (0x60 + c) = channelReg s 0x60 (0x60 + c) ChannelRegs.resPorder := by
  interval_cases c <;> exact ⟨rfl, rfl, rfl, rfl, rfl, rfl, rfl, rfl, rfl⟩

/-- Settles O15: the header registers and the rows of per-channel registers are read at their numbers while FV = 1. -/
theorem registerMap : Obligations.RegisterMap := by
  refine ⟨fun p k hk => ⟨rfl, regNumber_regAddress p hk⟩, fun s => ⟨rfl, rfl, rfl, rfl, rfl, rfl, rfl, rfl, rfl, rfl, rfl,
    rfl, rfl, rfl, fun k => hostReadReg_reserved s, fun hf => ?_⟩⟩
  have hdr {w : Nat} (k : Nat) (field : HeaderRegs → BitVec w) := headerReg_of_fv hf k field
  have wide (k : Nat) (field : HeaderRegs → BitVec 64) : headerReg s k field = field s.frame.hdr :=
    (hdr k field).trans (BitVec.setWidth_eq _)
  refine ⟨hdr 0x10 _, wide 0x11 _, hdr 0x12 _, hdr 0x13 _, hdr 0x14 _, hdr 0x15 _, hdr 0x16 _, hdr 0x17 _, hdr 0x18 _,
    hdr 0x19 _, hdr 0x1A _, hdr 0x1B _, wide 0x1C _, fun c ch hc hch => ?_⟩
  obtain ⟨h1, h2, h3, h4, h5, h6, h7, h8, h9⟩ := hostReadReg_channel s hc
  have reg {w : Nat} (base : Nat) (field : ChannelRegs → BitVec w) := channelReg_of_fv hf hch base field
  exact ⟨h1.trans (reg _ _), h2.trans (reg _ _), h3.trans (reg _ _), h4.trans (reg _ _), h5.trans (reg _ _),
    h6.trans (reg _ _), h7.trans (reg _ _), h8.trans (reg _ _), h9.trans (reg _ _)⟩

/-! ### The windows -/

/-- Row-major layout (10_state.md rule R55): element `j` of a channel's row while FV = 1. -/
theorem channelElem_of_fv {w c j : Nat} {s : State} {ch : ChannelRegs} {win : Window}
    {field : ChannelRegs → List (BitVec w)} {v : BitVec w} (h : s.fv = true) (hc : s.frame.channels[c]? = some ch)
    (hj : j < rowLength win) (hv : (field ch)[j]? = some v) :
    channelElem s win (rowLength win * c + j) field = v.signExtend 64 := by
  have row : (rowLength win * c + j) / rowLength win = c := by
    rw [Nat.mul_add_div (by omega), Nat.div_eq_of_lt hj, Nat.add_zero]
  have column : (rowLength win * c + j) % rowLength win = j := by
    rw [Nat.mul_add_mod, Nat.mod_eq_of_lt hj]
  rw [channelElem, row, column, hc, Option.bind_some, hv, h]

/-- … of 64-bit elements. -/
theorem channelElem_wide_of_fv {c j : Nat} {s : State} {ch : ChannelRegs} {win : Window}
    {field : ChannelRegs → List Word64} {v : Word64} (h : s.fv = true) (hc : s.frame.channels[c]? = some ch)
    (hj : j < rowLength win) (hv : (field ch)[j]? = some v) : channelElem s win (rowLength win * c + j) field = v :=
  (channelElem_of_fv h hc hj hv).trans (BitVec.signExtend_eq _)

/-- Settles O16: a row-major index splits into its channel and its element. -/
theorem windowMap : Obligations.WindowMap := by
  refine fun s => ⟨fun a v h => ?_, fun i b h => ?_, fun i v h => ?_, fun hf c ch hc => ⟨?_, ?_, ?_, ?_, ?_⟩⟩
  · rw [hostReadMem, byteAt, h, Option.getD_some]
  · rw [hostReadMem, h]
  · rw [hostReadMem, h]
  · exact fun j v hj hv => channelElem_of_fv (win := .coef) hf hc hj hv
  · intro j v hj hv
    refine channelElem_wide_of_fv (win := .rpart) hf hc hj ?_
    rw [List.getElem?_map, hv, Option.map_some]
  · exact fun n v hn hv => channelElem_wide_of_fv (win := .res) hf hc hn hv
  · exact fun n v hn hv => channelElem_wide_of_fv (win := .sub) hf hc hn hv
  · exact fun n v hn hv => channelElem_wide_of_fv (win := .chan) hf hc hn hv

/-! ### Host writes and reset -/

/-- A host write of a register other than CMD (R54). -/
theorem step_writeReg {s : State} {k : Nat} {v : Word64} {rest : List HostAction} (hs : s.seq = none)
    (hh : s.host = .writeReg k v :: rest) (h0 : 0 < k) (hk : k < 256) :
    step s = .next (writeReg { s with host := rest } k v) := by
  rw [step_host hs hh, hostStep, if_neg (by omega), if_pos hk]

/-- A register that the host cannot write ignores the write (R54). -/
theorem writeReg_ignored (s : State) {k : Nat} (v : Word64) (h : k ∉ [0x01, 0x06, 0x07, 0x08, 0x09, 0x0A]) :
    writeReg s k v = s := by
  unfold writeReg
  split
  case h_7 => rfl
  all_goals exact absurd (by decide) h

/-- A host write of an element that exists (R80). -/
theorem step_writeMem {s : State} {w : Window} {i : Nat} {v : Word64} {rest : List HostAction} (hs : s.seq = none)
    (hh : s.host = .writeMem w i v :: rest) :
    step s = writeMem { s with host := rest } w i v := by
  rw [step_host hs hh, hostStep]

theorem writeMem_input {s : State} {i : Nat} (v : Word64) (hi : i < windowSize s.params .input) :
    writeMem s .input i v = .next { s with inMem := writeBlock s.inMem i [v.setWidth 8] } :=
  if_neg (Nat.not_le.mpr hi)

/-- A window that the host cannot write ignores the write (R54). -/
theorem writeMem_ignored {s : State} {w : Window} {i : Nat} (v : Word64) (hi : i < windowSize s.params w)
    (hw : w ≠ .input) : writeMem s w i v = .next s := by
  refine (if_neg (Nat.not_le.mpr hi)).trans ?_
  cases w with
  | input => exact absurd rfl hw
  | _ => rfl

/-- Settles O17: a step is the host's write, which changes one register, one byte of IN or nothing. -/
theorem hostWrites : Obligations.HostWrites := by
  refine fun s rest hs => ⟨fun k v hh h0 hk => ?_, fun w i v hh hi => ?_⟩
  · rw [step_writeReg hs hh h0 hk]
    refine ⟨?_, ?_, ?_, ?_, ?_, ?_, fun h => by rw [writeReg_ignored _ v h]⟩
    all_goals
      rintro rfl
      rfl
  · rw [step_writeMem hs hh]
    refine ⟨writeMem_ignored v hi, ?_⟩
    rintro rfl
    refine ⟨_, writeMem_input v hi, ?_, fun a ha => ?_⟩
    · rw [byteAt, readCell_write_same, Option.getD_some]
    · rw [byteAt, readCell_write_other _ _ ha]
      rfl

/-- After a reset STATUS shows EOS alone: POS = 8·LEN = 0 (10_state.md rule R59). -/
theorem statusWord_platformReset (s : State) : statusWord (platformReset s) = 0x8 := rfl

/-- Settles O11: a step at the platform's reset. -/
theorem resetValues : Obligations.ResetValues := by
  refine fun s rest hs hh => ⟨platformReset { s with host := rest }, by rw [step_host hs hh]; rfl, rfl, rfl, ?_⟩
  exact ⟨rfl, rfl, rfl, rfl, rfl, statusWord_platformReset _, rfl, rfl, rfl, rfl, rfl, rfl, rfl, rfl, rfl, rfl, rfl, rfl,
    rfl, rfl, rfl⟩

end Sys2Proof.Machine

/-! The fetch of a bitstream field (41_frame_header.md rules R202, R203; 42_subframe_header.md rules R241 to R243;
40_cursor.md rule R168): O5. -/

namespace Sys2Proof.Machine

theorem fieldInstr_ok {f : Field} {v : Nat} {i : Instr} (h : decodeField f v = .ok i) : fieldInstr f v = pure i := by
  rw [fieldInstr, h]

/-- A field that is one read. -/
theorem fetch_one_read {s : State} {f : Field} {i : Instr} (hb : s.work.cur + f.width ≤ endPos s)
    (hd : decodeField f (bitRead s s.work.cur f.width) = .ok i) :
    (do let v ← takeU s f.width; fieldInstr f v : Stage Instr) (workCur s) =
      .ok (i, ⟨s.work.cur + f.width, s.work.cur⟩) := by
  rw [ok_bind (takeU_eq_ok.2 ⟨hb, rfl, rfl⟩), workCur_cur, fieldInstr_ok hd, pure_apply]

/-- SYNC16 decodes to an instruction only when its first 15 bits are the sync pattern (R202). -/
theorem sync_of_decodeField {sync strategy : Nat} {i : Instr} (h1 : strategy < 2)
    (hd : decodeField .sync16 (2 * sync + strategy) = .ok i) : sync = 0x7FFC := by
  unfold decodeField decodeFieldValue at hd
  dsimp only at hd
  split_ifs at hd <;> omega

/-- SYNC and STRATEGY are two reads. -/
theorem fetchField_sync16 {s : State} {i : Instr} (hb : s.work.cur + 16 ≤ endPos s)
    (hd : decodeField .sync16 (bitRead s s.work.cur 16) = .ok i) :
    fetchField s .sync16 (workCur s) = .ok (i, ⟨s.work.cur + 16, s.work.cur + 15⟩) := by
  have split : bitRead s s.work.cur 16 = 2 * bitRead s s.work.cur 15 + bitRead s (s.work.cur + 15) 1 := by
    rw [bitRead_add s _ 15 1, Nat.pow_one, Nat.mul_comm]
  rw [split] at hd
  have hsync := sync_of_decodeField (bitRead_lt s _ 1) hd
  refine (ok_bind (takeU_eq_ok.2 ⟨by rw [workCur_cur]; omega, rfl, rfl⟩)).trans ?_
  rw [workCur_cur, ok_bind (raiseIf_eq_ok (u := ()).2 ⟨by simp [hsync], rfl⟩), ok_bind (takeU_ok (by omega)), fieldInstr_ok hd, pure_apply]

/-- A set PAD ends the reading; otherwise TYPE and WFLAG are two more reads. -/
theorem fetchField_subframeHeader8 {s : State} {i : Instr} (hb : s.work.cur + 8 ≤ endPos s)
    (hd : decodeField .subframeHeader8 (bitRead s s.work.cur 8) = .ok i) :
    fetchField s .subframeHeader8 (workCur s) = .ok (i, fieldEnd s .subframeHeader8) := by
  have pad : bitRead s s.work.cur 1 = (bitAt s s.work.cur).toNat := by simp [bitRead]
  refine (ok_bind (takeU_eq_ok.2 ⟨by rw [workCur_cur]; omega, rfl, rfl⟩)).trans ?_
  rw [workCur_cur, ok_bind (get_apply _), pad, fieldEnd]
  rw [bitRead_add s _ 1 7, pad] at hd
  cases hp : bitAt s s.work.cur with
  | true =>
    rw [hp, Bool.toNat_true, Nat.one_mul] at hd
    simp only [Bool.toNat_true, if_true]
    exact congrFun (fieldInstr_ok hd) _
  | false =>
    rw [hp, bitRead_add s _ 6 1] at hd
    have value : bitRead s (s.work.cur + 1) 6 * 2 ^ 1 = 2 * bitRead s (s.work.cur + 1) 6 := Nat.mul_comm _ _
    simp only [Bool.toNat_false, Nat.zero_mul, Nat.zero_add, value, Nat.add_assoc, Nat.reduceAdd] at hd
    simp only [Bool.toNat_false, zero_ne_one, if_false, Bool.false_eq_true]
    rw [ok_bind (takeU_ok (by omega)), ok_bind (takeU_ok (by omega))]
    simp only [Nat.add_assoc, Nat.reduceAdd]
    rw [fieldInstr_ok hd, pure_apply]

/-- A continuation byte is no read of its own. -/
theorem fetchField_utf8Cont8 {s : State} {i : Instr} (hb : s.work.cur + 8 ≤ endPos s)
    (hd : decodeField .utf8Cont8 (bitRead s s.work.cur 8) = .ok i) :
    fetchField s .utf8Cont8 (workCur s) = .ok (i, ⟨s.work.cur + 8, s.fpos.toNat⟩) := by
  refine (if_neg (Nat.not_lt.mpr hb)).trans ?_
  rw [workCur_cur, fieldInstr_ok hd, pure_apply, workCur_fpos]

/-- A field whose bits are inside the input and decode is fetched, and the cursor is at its end. -/
theorem fetchField_ok {s : State} {f : Field} {i : Instr} (hb : s.work.cur + f.width ≤ endPos s)
    (hd : decodeField f (bitRead s s.work.cur f.width) = .ok i) :
    fetchField s f (workCur s) = .ok (i, fieldEnd s f) := by
  cases f with
  | sync16 => exact fetchField_sync16 hb hd
  | subframeHeader8 => exact fetchField_subframeHeader8 hb hd
  | utf8Cont8 => exact fetchField_utf8Cont8 hb hd
  | _ => exact fetch_one_read hb hd

/-- Settles O5: the field's step runs what the fetch answers. -/
theorem stepRunsField : Obligations.StepRunsField := fun s f _ hf hb hd => by
  rw [step_field hf, fieldStep_ok (fetchField_ok hb hd)]
  rfl

end Sys2Proof.Machine

/-! What no instruction writes (20_memory.md rule R81; 10_state.md rules R36, R41, R54): O18. -/

namespace Sys2Proof.Machine

/-- The part of the state that the block only reads, everything else being at its reset value. -/
def inputPart (s : State) : State :=
  { State.reset with
    host := s.host
    cmd := s.cmd
    arg := s.arg
    len := s.len
    streamRate := s.streamRate
    streamCh := s.streamCh
    streamBps := s.streamBps
    streamTotal := s.streamTotal
    rateWritten := s.rateWritten
    chWritten := s.chWritten
    bpsWritten := s.bpsWritten
    inMem := s.inMem
    params := s.params
    epoch := s.epoch }

theorem FramesCommitted.inputPart_eq {s u : State} (h : FramesCommitted s u) : inputPart u = inputPart s := by
  induction h with
  | none => rfl
  | frame _ _ ih => exact ih

theorem Effect.inputPart_eq {s t : State} {i : Instr} (h : Effect s i t) : inputPart t = inputPart s := by
  cases h with
  | streamEnded frames | streamFailed frames => exact frames.inputPart_eq
  | _ => rfl

/-- Settles O18: no effect of an instruction reaches the part of the state that the block only reads, and a byte of IN is
read from that part. -/
theorem blockNeverWritesItsInputs : Obligations.BlockNeverWritesItsInputs := fun i s t h => by
  have kept {α : Type} (field : State → α) : field (inputPart t) = field (inputPart s) :=
    congrArg field (exec_effect h).inputPart_eq
  exact ⟨fun a => kept (byteAt · a), kept (·.inMem), kept (·.arg), kept (·.len), kept (·.streamRate),
    kept (·.streamCh), kept (·.streamBps), kept (·.streamTotal), kept (·.rateWritten), kept (·.chWritten),
    kept (·.bpsWritten), kept (·.cmd), kept (·.host), kept (·.params)⟩

end Sys2Proof.Machine

/-! Reads in a row and reads of whole bytes (20_memory.md rules R82, R85; 40_cursor.md rules R161, R162): O23. -/

namespace Sys2Proof.Machine

/-- A number's bits from bit `k` up are those from bit `k + 1` up, doubled, and bit `k`. -/
theorem div_two_pow_eq_bit (n k : Nat) : n / 2 ^ k = 2 * (n / 2 ^ (k + 1)) + (n.testBit k).toNat := by
  rw [Nat.toNat_testBit, Nat.pow_succ, ← Nat.div_div_eq_div_mul, Nat.div_add_mod]

/-- The first `w` bits of a byte of the stream are its top bits (20_memory.md rule R82). -/
theorem bitRead_top (s : State) (a : Nat) {w : Nat} (hw : w ≤ 8) :
    bitRead s (8 * a) w = (byteAt s a).toNat / 2 ^ (8 - w) := by
  induction w with
  | zero => exact (Nat.div_eq_of_lt (byteAt s a).isLt).symm
  | succ w ih =>
    have address : (8 * a + w) / 8 = a := by omega
    have bit : 7 - (8 * a + w) % 8 = 8 - (w + 1) := by omega
    have width_succ : 8 - w = 8 - (w + 1) + 1 := by omega
    rw [div_two_pow_eq_bit, ← width_succ, ← ih (by omega), bitRead, bitAt, address, bit]
    rfl

/-- A byte of the stream, read at its boundary. -/
theorem bitRead_byte (s : State) (a : Nat) : bitRead s (8 * a) 8 = (byteAt s a).toNat :=
  (bitRead_top s a (Nat.le_refl 8)).trans (Nat.div_one _)

/-- Bytes of the stream read as one number, the first byte most significant (20_memory.md rule R85). -/
theorem bitRead_bytes (s : State) (a k : Nat) :
    bitRead s (8 * a) (8 * k) = ∑ i ∈ Finset.range k, (byteAt s (a + i)).toNat * 256 ^ (k - 1 - i) := by
  induction k with
  | zero => rfl
  | succ k ih =>
    have shifted : bitRead s (8 * a) (8 * k) * 256 =
        ∑ i ∈ Finset.range k, (byteAt s (a + i)).toNat * 256 ^ (k - i) := by
      rw [ih, Finset.sum_mul]
      refine Finset.sum_congr rfl fun i hi => ?_
      have place : 256 ^ (k - i) = 256 ^ (k - 1 - i) * 256 := by
        have := Finset.mem_range.mp hi
        rw [← Nat.pow_succ]
        congr 1
        omega
      rw [place, Nat.mul_assoc]
    have last : bitRead s (8 * a + 8 * k) 8 = (byteAt s (a + k)).toNat := by rw [← Nat.mul_add, bitRead_byte]
    rw [Nat.mul_succ, bitRead_add, last]
    simp [Finset.sum_range_succ, shifted]

/-- While LEN is legal every bit position of the input fits 64 bits (10_state.md rule R33; 92_eei_decisions.md D3). -/
theorem endPos_lt {s : State} (hp : s.params.wf) (hl : lenOk s) : endPos s < 2 ^ 64 := by
  obtain ⟨hmax, -⟩ := hp
  unfold lenOk at hl
  unfold endPos
  omega

/-- A READ_U whose width is legal and whose bits are there (40_cursor.md rules R160 to R162). -/
theorem readU_done {s : State} {w : Nat} (ha : s.arg.toNat = w) (hw : w ≤ 64) (hl : lenOk s)
    (hb : bitsAt s s.pos.toNat w) :
    exec .readU s = .next (readDone s w (BitVec.ofNat 64 (bitRead s s.pos.toNat w))) := by
  subst ha
  have read : takeU s s.arg.toNat (startCur s) = .ok _ := takeU_ok hb
  refine (runRead_ok (decide_eq_true hw) hl read).trans ?_
  simp [finish, storeNat, readDone]

/-- What a READ_U of `w` bits leaves: the bits in RESULT, POS behind them, and the input as it was. -/
theorem readU_next {s t : State} {w : Nat} (hw : w ≤ 64) (hl : lenOk s) (hb : bitsAt s s.pos.toNat w)
    (h : exec .readU { s with arg := BitVec.ofNat 64 w } = .next t) :
    t.result.toNat = bitRead s s.pos.toNat w ∧ t.pos = BitVec.ofNat 64 (s.pos.toNat + w) ∧ SameInput t s := by
  have width : (BitVec.ofNat 64 w).toNat = w := Nat.mod_eq_of_lt (by omega)
  have same : SameInput { s with arg := BitVec.ofNat 64 w } s := ⟨fun _ => rfl, rfl, rfl, rfl, rfl, rfl⟩
  have fits : bitRead s s.pos.toNat w < 2 ^ 64 :=
    (bitRead_lt s _ w).trans_le (Nat.pow_le_pow_right (by decide) hw)
  have answer := h.symm.trans (readU_done width hw hl hb)
  rw [same.bitRead] at answer
  cases answer
  exact ⟨Nat.mod_eq_of_lt fits, rfl, fun _ => rfl, rfl, rfl, rfl, rfl, rfl⟩

/-- Settles O23: the second read starts where the first ended and reads the same input, and a read splits at any bit. -/
theorem mixedWidthReads : Obligations.MixedWidthReads := by
  refine ⟨fun s t₁ t₂ t₃ w v hwv hp hl hb h₁ h₂ h₃ => ?_, bitRead_bytes⟩
  have reached : s.pos.toNat + w < 2 ^ 64 := by
    have := endPos_lt hp hl
    omega
  obtain ⟨result₁, pos₁, same⟩ := readU_next (by omega) hl (by unfold bitsAt; omega) h₁
  have start₂ : t₁.pos.toNat = s.pos.toNat + w := by rw [pos₁]; exact Nat.mod_eq_of_lt reached
  have room₂ : bitsAt t₁ t₁.pos.toNat v := by
    unfold bitsAt
    rw [start₂, same.endPos]
    omega
  have len₂ : lenOk t₁ := by rwa [lenOk, same.len, same.params]
  obtain ⟨result₂, pos₂, -⟩ := readU_next (by omega) len₂ room₂ h₂
  obtain ⟨result₃, pos₃, -⟩ := readU_next hwv hl hb h₃
  rw [start₂] at result₂ pos₂
  refine ⟨?_, by rw [pos₃, pos₂, Nat.add_assoc]⟩
  rw [result₃, result₁, result₂, same.bitRead, bitRead_add]

end Sys2Proof.Machine

/-! What a committed frame satisfies: its place, its header's registers and its channels' records (20_memory.md rule R87;
10_state.md rules R43, R45, R46; 45_assembly.md rules R340 to R342): O55. -/

namespace Sys2Proof.Machine

/-- DECODE_FRAME leaves FV = 1 only by a commit (45_assembly.md rules R342, R343). -/
theorem decodeFrame_committed {s t : State} (h : exec .decodeFrame s = .next t) (hv : t.fv = true) :
    ∃ w c, decodeReady s ∧ FrameOk s s.pos.toNat w c ∧ t = finish (commit s w c) := by
  obtain ⟨ready, w, c, body, ht⟩ | ⟨-, e, -, rfl⟩ | ⟨-, rfl⟩ := decodeFrame_cases h
  · exact ⟨w, c, ready, frameBody_ok body, ht⟩
  · cases hv
  · cases hv

/-! ### The header's registers -/

/-- Registers that hold the numbers of a header whole (41_frame_header.md rule R217). -/
structure HeaderRegs.Hold (r : HeaderRegs) (h : Hdr) : Prop where
  strategy : r.strategy.toNat = h.strategy
  number : r.number.toNat = h.number
  bscode : r.bscode.toNat = h.bscode
  blockSize : r.blockSize.toNat = h.bs
  srcode : r.srcode.toNat = h.srcode
  rate : r.rate.toNat = h.rate
  chAssign : r.chAssign.toNat = h.chcode
  channels : r.channels.toNat = h.channels
  bdcode : r.bdcode.toNat = h.bdcode
  bps : r.bps.toNat = h.bps
  crc8 : r.crc8.toNat = h.crc8
  crc16 : r.crc16.toNat = h.crc16

/-- The bit depth of a header decoded after the start checks (10_state.md rule R43; 45_assembly.md rule R331). -/
theorem HdrOk.bps_le {s : State} {h : Hdr} (ok : HdrOk s h) (ready : decodeReady s) : h.bps ≤ 32 := by
  obtain ⟨-, -, -, -, -, -, -, hbps⟩ := ready
  by_cases h0 : h.bdcode = 0
  · exact (ok.bps_inherit h0).trans_le hbps
  · have := ok.bps_table h0
    omega

/-- No number of a decoded header is cut by its register. -/
theorem headerRegs_hold {s : State} {h : Hdr} (ok : HdrOk s h) (hbps : h.bps ≤ 32) (hcrc : h.crc16 < 2 ^ 16) :
    (headerRegs h).Hold h where
  strategy := Nat.mod_eq_of_lt ok.strategy
  number := Nat.mod_eq_of_lt (ok.number.trans (by decide))
  bscode := Nat.mod_eq_of_lt ok.bscode
  blockSize := Nat.mod_eq_of_lt (ok.bs_le.trans_lt (by decide))
  srcode := Nat.mod_eq_of_lt ok.srcode
  rate := Nat.mod_eq_of_lt ok.rate
  chAssign := Nat.mod_eq_of_lt (ok.chcode.trans_lt (by decide))
  channels := Nat.mod_eq_of_lt (ok.channels_le.trans_lt (by decide))
  bdcode := Nat.mod_eq_of_lt ok.bdcode
  bps := Nat.mod_eq_of_lt (hbps.trans_lt (by decide))
  crc8 := Nat.mod_eq_of_lt ok.crc8
  crc16 := Nat.mod_eq_of_lt hcrc

/-! ### The channels' records -/

/-- The record of channel `k` is made of the subframe and the samples of channel `k` (R342). -/
theorem frameRegs_channel {draw k : Nat} {w : Work} {ch : ChannelRegs}
    (h : (frameRegs draw w).channels[k]? = some ch) :
    ∃ f l, w.subs[k]? = some f ∧ w.chan[k]? = some l ∧ ch = channelRegs draw k f l := by
  simp only [frameRegs, List.getElem?_mapIdx, Option.map_eq_some_iff, List.getElem?_zip_eq_some] at h
  obtain ⟨⟨f, l⟩, ⟨hf, hl⟩, rfl⟩ := h
  exact ⟨f, l, hf, hl, rfl⟩

theorem kindNumber_eq_lpc {k : Kind} : kindNumber k = 3 ↔ k = .lpc := by cases k <;> decide

theorem kindNumber_eq_fixed {k : Kind} : kindNumber k = 2 ↔ k = .fixed := by cases k <;> decide

theorem kindNumber_unpredicted {k : Kind} : kindNumber k = 0 ∨ kindNumber k = 1 ↔ k = .constant ∨ k = .verbatim := by
  cases k <;> decide

/-- The side channel as a number of bits (42_subframe_header.md rule R246). -/
theorem isSide_toNat (chcode k : Nat) :
    (isSide chcode k).toNat = if (chcode = 8 ∨ chcode = 10) ∧ k = 1 ∨ chcode = 9 ∧ k = 0 then 1 else 0 := by
  unfold isSide
  split_ifs with h <;> simp [h]

section

variable {s : State} {h : Hdr} {k draw : Nat} {f : Subframe} {l : List Int}

/-- One channel's widths fit the bit depth: at most 33 bits with the side channel's (R246). -/
theorem RecOk.width_wasted_le (ok : RecOk s h k f) (hbps : h.bps ≤ 32) : f.width + f.wasted ≤ 33 := by
  have := ok.sum
  have := Bool.toNat_le (isSide h.chcode k)
  omega

theorem channelRegs_order (ok : RecOk s h k f) : (channelRegs draw k f l).sfOrder.toNat = f.order :=
  Nat.mod_eq_of_lt (ok.order.trans_lt (by decide))

theorem channelRegs_wasted (ok : RecOk s h k f) (hbps : h.bps ≤ 32) :
    (channelRegs draw k f l).sfWasted.toNat = f.wasted := by
  have := ok.width_wasted_le hbps
  exact Nat.mod_eq_of_lt (by omega)

theorem channelRegs_width (ok : RecOk s h k f) (hbps : h.bps ≤ 32) :
    (channelRegs draw k f l).sfWidth.toNat = f.width := by
  have := ok.width_wasted_le hbps
  exact Nat.mod_eq_of_lt (by omega)

theorem channelRegs_prec (ok : RecOk s h k f) (hk : f.kind = .lpc) :
    (channelRegs draw k f l).lpcPrec.toNat = f.prec := by
  obtain ⟨-, hprec, -⟩ := ok.lpc hk
  simp only [channelRegs, hk, specifiedIf, decide_true, if_true]
  exact Nat.mod_eq_of_lt (by omega)

theorem channelRegs_porder (ok : RecOk s h k f) (hk : f.kind = .fixed ∨ f.kind = .lpc) :
    (channelRegs draw k f l).resPorder.toNat = f.porder := by
  obtain ⟨-, hporder, -⟩ := ok.residual hk
  simp only [channelRegs, hasResidual, hk, specifiedIf, decide_true, if_true]
  exact Nat.mod_eq_of_lt hporder

/-- The record of channel `k` of a committed frame (10_state.md rules R45, R46, R48 to R51). -/
theorem channelRegs_law (ok : RecOk s h k f) (hbps : h.bps ≤ 32) (hl : l.length = h.bs)
    (hr : ∀ v ∈ l, inRange h.bps v = true) :
    let ch := channelRegs draw k f l
    ch.sfOrder.toNat ≤ 32 ∧ ch.sfWasted.toNat ≤ 32 ∧ 1 ≤ ch.sfWidth.toNat ∧
      ch.sfWidth.toNat + ch.sfWasted.toNat = h.bps +
        (if (h.chcode = 8 ∨ h.chcode = 10) ∧ k = 1 ∨ h.chcode = 9 ∧ k = 0 then 1 else 0) ∧
      ch.sub.length = h.bs ∧ ch.chan.length = h.bs ∧ (∀ v ∈ ch.chan, inDr h.bps v.toInt) ∧
      (ch.sfKind = 3 → 1 ≤ ch.sfOrder.toNat ∧ 1 ≤ ch.lpcPrec.toNat ∧ ch.coef.length = ch.sfOrder.toNat) ∧
      (ch.sfKind = 2 → ch.sfOrder.toNat ≤ 4) ∧ (ch.sfKind = 0 ∨ ch.sfKind = 1 → ch.sfOrder = 0) ∧
      (ch.sfKind = 2 ∨ ch.sfKind = 3 → ch.res.length + ch.sfOrder.toNat = h.bs ∧
        ch.rpart.length = 2 ^ ch.resPorder.toNat) := by
  intro ch
  have order : ch.sfOrder.toNat = f.order := channelRegs_order ok
  have wasted : ch.sfWasted.toNat = f.wasted := channelRegs_wasted ok hbps
  have width : ch.sfWidth.toNat = f.width := channelRegs_width ok hbps
  have widths := ok.width_wasted_le hbps
  have width1 := ok.width1
  refine ⟨order.trans_le ok.order, by omega, by omega, ?_, (List.length_map _).trans ok.len,
    (List.length_map _).trans hl, fun v hv => ?_, fun hk => ?_, fun hk => ?_, fun hk => ?_, fun hk => ?_⟩
  · rw [width, wasted, ok.sum, isSide_toNat]
  · obtain ⟨x, hx, rfl⟩ := List.mem_map.mp hv
    rw [toInt_ofInt (hbps.trans (by decide)) (by decide) (hr x hx), ← inRange_iff]
    exact hr x hx
  · have lpc := kindNumber_eq_lpc.mp hk
    obtain ⟨hprec, -, -, p, hcoef⟩ := ok.lpc lpc
    have coefs : ch.coef.length = f.order := by
      rw [← signedFields_length s p f.prec f.order, ← hcoef]
      exact List.length_map _
    exact ⟨order ▸ ok.lpc1 lpc, (channelRegs_prec ok lpc).symm ▸ hprec, coefs.trans order.symm⟩
  · exact order.trans_le (ok.fix4 (kindNumber_eq_fixed.mp hk))
  · exact BitVec.eq_of_toNat_eq (order.trans (ok.o0 (kindNumber_unpredicted.mp hk)))
  · have predicted : f.kind = .fixed ∨ f.kind = .lpc := hk.imp kindNumber_eq_fixed.mp kindNumber_eq_lpc.mp
    obtain ⟨-, -, hparts, -, hres, -⟩ := ok.residual predicted
    have porder : ch.resPorder.toNat = f.porder := channelRegs_porder ok predicted
    rw [order, porder]
    exact ⟨(congrArg (· + f.order) (List.length_map _)).trans hres, (List.length_map _).trans hparts⟩

end

/-- Settles O55: what the decoded frame satisfies, read from the registers that hold it. -/
theorem committedFrames : Obligations.CommittedFrames := by
  intro s t hp hx hv h p
  obtain ⟨w, c, ready, ok, rfl⟩ := decodeFrame_committed hx hv
  have ⟨_, houtMax, _⟩ := hp
  have ⟨hlen, _⟩ := ready
  have inside := endPos_lt hp hlen
  have hbps := ok.hdr.bps_le ready
  have regs : h.Hold w.hdr := headerRegs_hold ok.hdr hbps ok.crc16
  have frame : FrameInv (commit s w c) := frameInv_commit ok
  have bits := ok.bits
  have cursor : (commit s w c).pos.toNat = c.cur := Nat.mod_eq_of_lt (ok.inside.trans_lt inside)
  have words : (commit s w c).outptr.toNat = s.outptr.toNat + w.hdr.bs * w.hdr.channels :=
    Nat.mod_eq_of_lt (ok.room.trans_lt houtMax)
  have aligned := ok.aligned
  have end_aligned := ok.end_aligned
  have long := ok.long
  have bytes : (c.cur - 16) / 8 - p / 8 = ((commit s w c).pos.toNat - p) / 8 - 2 := by omega
  refine ⟨bits.codes, regs.strategy.trans bits.strategy, regs.bscode.trans bits.bscode, regs.srcode.trans bits.srcode,
    regs.chAssign.trans bits.chcode, regs.bdcode.trans bits.bdcode, regs.number.trans bits.number,
    regs.blockSize.trans bits.bs, regs.rate.trans bits.rate, ?_, regs.crc8.trans bits.crc8, fun verify => ?_, aligned,
    cursor ▸ end_aligned, cursor ▸ long, cursor ▸ ok.inside, ?_, regs.number.trans_lt ok.hdr.number,
    frame.blockSize_pos, frame.blockSize_le, regs.chAssign.trans_le ok.hdr.chcode, regs.channels.trans ok.hdr.channels,
    frame.channels_pos, frame.channels_le, fun h0 => ?_, fun h0 => ?_, frame.records, ?_, words.trans_le ok.room, ?_,
    fun verify => ?_⟩
  · exact regs.channels.trans (bits.channels.trans (congrArg channelCount bits.chcode))
  · exact BitVec.eq_of_toNat_eq ((bits.good verify).trans (bits.crc8.symm.trans regs.crc8.symm))
  · exact (congrArg (BitVec.ofNat 64) ok.hdr_start).trans (by simp)
  · exact regs.bps.trans (ok.hdr.bps_inherit (regs.bdcode.symm.trans (congrArg BitVec.toNat h0)))
  · have coded : w.hdr.bdcode ≠ 0 := fun e => h0 (BitVec.eq_of_toNat_eq (regs.bdcode.trans e))
    simpa [regs.bps] using ok.hdr.bps_table coded
  · rw [regs.bps, regs.chAssign, regs.blockSize]
    intro k ch hch
    obtain ⟨f, l, hf, hl, rfl⟩ := frameRegs_channel hch
    have hl := List.mem_of_getElem? hl
    exact channelRegs_law (ok.channel k f hf).recOk hbps (ok.samples l hl) (ok.range l hl)
  · rw [regs.blockSize, regs.channels]
    exact words
  · have sum := ok.checksum verify
    rw [bytes] at sum
    exact BitVec.eq_of_toNat_eq (sum.trans regs.crc16.symm)

end Sys2Proof.Machine

/-! Decoding and encoding are inverse to each other (30_encoding.md rules R110 to R136): O1, O2, O3. -/

namespace Sys2Proof

open Laws.EncodingFits (wflagBit_le)

/-! ### From an instruction to its code and back -/

/-- The free bits of a field value that begins with fixed bits. -/
theorem ofNat_fixed_add_toNat {n k : Nat} (hk : k % 2 ^ n = 0) (x : BitVec n) : BitVec.ofNat n (k + x.toNat) = x := by
  apply BitVec.eq_of_toNat_eq
  rw [BitVec.toNat_ofNat, Nat.add_mod, hk, Nat.zero_add, Nat.mod_mod, Nat.mod_eq_of_lt x.isLt]

/-- The free bits of TYPE, between its fixed bits and WFLAG (R125). -/
theorem ofNat_type {n k : Nat} (hk : k % (2 ^ n * 2) = 0) (x : BitVec n) (w : Bool) :
    BitVec.ofNat n ((k + x.toNat * 2 + wflagBit w) / 2) = x := by
  obtain ⟨m, rfl⟩ := Nat.dvd_of_mod_eq_zero hk
  have type : (2 ^ n * 2 * m + x.toNat * 2 + wflagBit w) / 2 = 2 ^ n * m + x.toNat := by
    have := wflagBit_le w
    rw [Nat.mul_right_comm]
    omega
  rw [type, ofNat_fixed_add_toNat (Nat.mul_mod_right _ _)]

/-- WFLAG is the last bit of its byte (R125). -/
theorem decide_wflag {k : Nat} (hk : k % 2 = 0) (w : Bool) : decide ((k + wflagBit w) % 2 = 1) = w := by
  rw [Nat.add_mod, hk]
  cases w <;> rfl

theorem wflagBit_odd (v : Nat) : wflagBit (decide (v % 2 = 1)) = v % 2 := by
  obtain h | h := Nat.mod_two_eq_zero_or_one v <;> rw [h] <;> rfl

/-- BSCODE 1xxx (R120). -/
theorem decodeBscode_shift {v : Nat} (h : 8 ≤ v) : decodeBscode v = .blocksize256Shift (BitVec.ofNat 3 v) := by
  unfold decodeBscode
  split
  case h_9 => rfl
  all_goals omega

/-- Row by row: the fixed bits lead the decoder to the row, and it gives the free bits back. -/
theorem decode_encode {i : Instr} (h : i.wellFormed = true) : decode (encode i) = .ok i := by
  cases i with
  | subframePadSet x =>
    have := x.isLt
    simp (disch := omega) only [encode, decode, decodeField, Field.width, decodeFieldValue, decodeSubframe, if_pos,
      ofNat_fixed_add_toNat]
  | subframeConstant w | subframeVerbatim w | subframeFixed0 w | subframeFixed1 w | subframeFixed2 w | subframeFixed3 w
  | subframeFixed4 w | subframeReserved0D w => cases w <;> rfl
  | subframeReserved0203 x w | subframeReserved0407 x w | subframeReserved0E0F x w | subframeReserved101F x w
  | subframeLpc x w =>
    have := x.isLt
    have := wflagBit_le w
    simp (disch := omega) only [encode, decode, decodeField, Field.width, decodeFieldValue, decodeSubframe, if_pos,
      if_neg, ofNat_type, decide_wflag]
  | partitionRice4 x | partitionRice5 x | lpcPrecision x =>
    have := x.isLt
    have plain := of_decide_eq_true h
    simp only [ne_eq, ← BitVec.toNat_inj, BitVec.reduceToNat] at plain
    simp (disch := omega) only [encode, decode, decodeField, Field.width, decodeFieldValue, if_pos, if_neg,
      ofNat_fixed_add_toNat]
  | residualReserved x | escapeWidth x | lpcShift x | lpcShiftNegative x | utf8Continuation x =>
    have := x.isLt
    simp (disch := omega) only [encode, decode, decodeField, Field.width, decodeFieldValue, if_pos, if_neg,
      ofNat_fixed_add_toNat]
  | blocksize256Shift x =>
    have := x.isLt
    simp (disch := omega) only [encode, decode, decodeField, Field.width, decodeFieldValue, decodeBscode_shift, if_pos,
      ofNat_fixed_add_toNat]
  | channelsIndependent x | channelsReserved1215 x =>
    have := x.isLt
    simp (disch := omega) only [encode, decode, decodeField, Field.width, decodeFieldValue, decodeChcode, if_pos, if_neg,
      ofNat_fixed_add_toNat]
  | utf8OneByte x | utf8ContinuationAsLead x | utf8TwoByte x | utf8ThreeByte x | utf8FourByte x | utf8LongLead x =>
    have := x.isLt
    simp (disch := omega) only [encode, decode, decodeField, Field.width, decodeFieldValue, decodeUtf8Lead, if_pos,
      if_neg, ofNat_fixed_add_toNat]
  | _ => rfl

/-- Settles O1: the decoder finds every row. -/
theorem decodeOfEncode : Obligations.DecodeOfEncode := fun _ => decode_encode

/-! ### From a code to its instruction and back -/

/-- A code that the decoder finds by a test. -/
theorem encode_ite {p : Prop} [Decidable p] {i j : Instr} {c : Code} (hi : p → encode i = c)
    (hj : ¬ p → encode j = c) : encode (if p then i else j) = c := by
  split
  · exact hi ‹_›
  · exact hj ‹_›

theorem encode_decodeSubframe {v : Nat} (h : v < 2 ^ 8) : encode (decodeSubframe v) = .field .subframeHeader8 v := by
  unfold decodeSubframe
  dsimp only
  repeat' refine encode_ite (fun _ => ?_) fun _ => ?_
  all_goals
    simp only [encode, wflagBit_odd, BitVec.toNat_ofNat, Code.field.injEq, true_and]
    omega

theorem encode_decodeUtf8Lead {v : Nat} (h : v < 2 ^ 8) : encode (decodeUtf8Lead v) = .field .utf8Lead8 v := by
  unfold decodeUtf8Lead
  repeat' refine encode_ite (fun _ => ?_) fun _ => ?_
  all_goals
    simp only [encode, BitVec.toNat_ofNat, Code.field.injEq, true_and]
    omega

theorem encode_decodeChcode {v : Nat} (h : v < 2 ^ 4) : encode (decodeChcode v) = .field .chcode4 v := by
  unfold decodeChcode
  repeat' refine encode_ite (fun _ => ?_) fun _ => ?_
  all_goals
    simp only [encode, BitVec.toNat_ofNat, Code.field.injEq, true_and]
    omega

theorem encode_decodeBscode {v : Nat} (h : v < 2 ^ 4) : encode (decodeBscode v) = .field .bscode4 v := by
  interval_cases v <;> rfl

theorem encode_decodeSrcode {v : Nat} (h : v < 2 ^ 4) : encode (decodeSrcode v) = .field .srcode4 v := by
  interval_cases v <;> rfl

theorem encode_decodeBdcode {v : Nat} (h : v < 2 ^ 3) : encode (decodeBdcode v) = .field .bdcode3 v := by
  interval_cases v <;> rfl

/-- A field's decoder answers a row only for that row's own value. -/
theorem encode_of_decodeFieldValue {f : Field} {v : Nat} {i : Instr} (hv : v < 2 ^ f.width)
    (h : decodeFieldValue f v = .ok i) : encode i = .field f v := by
  cases f with
  | subframeHeader8 => cases h; exact encode_decodeSubframe hv
  | bscode4 => cases h; exact encode_decodeBscode hv
  | srcode4 => cases h; exact encode_decodeSrcode hv
  | chcode4 => cases h; exact encode_decodeChcode hv
  | bdcode3 => cases h; exact encode_decodeBdcode hv
  | utf8Lead8 => cases h; exact encode_decodeUtf8Lead hv
  | residualMethod2 | param4 | param5 | ew5 | precM14 | shift5 | sync16 | rsv1 | utf8Cont8 =>
    unfold Field.width at hv
    unfold decodeFieldValue at h
    dsimp only at h hv
    repeat' split at h
    all_goals cases h
    all_goals
      simp only [encode, BitVec.toNat_ofNat, Code.field.injEq, true_and]
      omega

/-- A command word whose bits 15:9 are 0 is its E and its OP (R110). -/
theorem word_eq_of_fields {w : Word16} {e op : Nat} (hr : reservedField w = 0) (he : endianField w = e)
    (ho : opField w = op) : w = BitVec.ofNat 16 (256 * e + op) := by
  unfold reservedField endianField opField at *
  apply BitVec.eq_of_toNat_eq
  rw [BitVec.toNat_ofNat]
  omega

theorem encode_of_decodeOp {op : Nat} {i : Instr} (h : decodeOp op = .ok i) :
    encode i = .cmd (BitVec.ofNat 16 op) := by
  unfold decodeOp at h
  split at h <;> cases h <;> rfl

theorem encode_of_decodeCmd_ok {w : Word16} {i : Instr} (h : decodeCmd w = .ok i) : encode i = .cmd w := by
  unfold decodeCmd at h
  split_ifs at h with hr he
  · rw [word_eq_of_fields (not_not.mp hr) he rfl, Nat.mul_zero, Nat.zero_add]
    exact encode_of_decodeOp h
  · have he : endianField w = 1 := by
      unfold endianField at he ⊢
      omega
    split at h
    next ho => cases h; rw [word_eq_of_fields (not_not.mp hr) he ho]; rfl
    next ho => cases h; rw [word_eq_of_fields (not_not.mp hr) he ho]; rfl
    next => cases h

theorem encode_of_decode {c : Code} {i : Instr} (h : decode c = .ok i) : encode i = c := by
  cases c with
  | cmd w => exact encode_of_decodeCmd_ok h
  | field f v =>
    unfold decode decodeField at h
    dsimp only at h
    split at h
    next hv => exact encode_of_decodeFieldValue hv h
    next => cases h

/-- An operand that its row leaves out is encoded as another row's code (R130 to R132). -/
theorem wellFormed_of_decode_encode {i : Instr} (h : decode (encode i) = .ok i) : i.wellFormed = true := by
  cases i with
  | partitionRice4 | partitionRice5 | lpcPrecision =>
    refine decide_eq_true ?_
    rintro rfl
    cases h
  | _ => rfl

/-- Settles O2: each row found is encoded as the code it was found by. -/
theorem encodeOfDecode : Obligations.EncodeOfDecode := fun c i h => by
  have code := encode_of_decode h
  exact ⟨code, wellFormed_of_decode_encode (code ▸ h)⟩

/-- Settles O3: the words that the decoder takes are the encodings of their instructions; two are rejected by a test. -/
theorem writtenWordsDecode : Obligations.WrittenWordsDecode := by
  unfold Obligations.WrittenWordsDecode
  exact ⟨rfl, rfl, rfl, rfl, rfl, rfl, rfl, rfl, rfl, rfl, rfl, rfl, rfl, rfl, rfl, rfl, rfl, rfl, rfl, rfl⟩

end Sys2Proof

/-! The arrival of a command word (30_encoding.md rules R110, R113; 60_exceptions.md rule R386): O4, O7. -/

namespace Sys2Proof.Machine

/-- A write of CMD at a command boundary is the arrival of its word. -/
theorem step_writeCmd {s : State} {v : Word64} {rest : List HostAction} (hs : s.seq = none)
    (hh : s.host = .writeReg 0 v :: rest) : step s = runWord { s with host := rest } (v.setWidth 16) :=
  (step_host hs hh).trans (hostStep_cmd _ v)

/-- The command words are the codes of the commands (R112). -/
theorem mem_commandWords_of_encode {w : Word16} {i : Instr} (h : encode i = .cmd w) : w ∈ commandWords := by
  cases i with
  | nop | readU | readULe | readS | readSLe | readBit | readUnary | readUtf8 | readRaw | readBytes | seek | decodeFrame
  | decodeStream | outReset | clear => cases h; decide
  | _ => cases h

theorem decodeCmd_rejects {w : Word16} (h : w ∉ commandWords) : ∃ r, decodeCmd w = .error r := by
  cases hd : decodeCmd w with
  | ok i => exact absurd (mem_commandWords_of_encode (encode_of_decodeCmd_ok hd)) h
  | error r => exact ⟨r, rfl⟩

/-- Settles O4: the word passes the sticky test and the word test. -/
theorem stepRunsCommand : Obligations.StepRunsCommand := by
  intro s v rest i hs hh hi hd
  have heeded : ignoredWord { s with host := rest } (v.setWidth 16) = false := ignoredWord_eq_false.mpr hi
  rw [step_writeCmd hs hh, runWord_runs heeded hd]
  rfl

/-- Settles O7: the word passes the sticky test and fails the word test. -/
theorem illegalCommandWords : Obligations.IllegalCommandWords := by
  intro s v rest hs hh hi hw
  have heeded : ignoredWord { s with host := rest } (v.setWidth 16) = false := ignoredWord_eq_false.mpr hi
  obtain ⟨r, hd⟩ := decodeCmd_rejects hw
  rw [step_writeCmd hs hh, runWord_illegal heeded hd]
  simp [illegalWord, beginCommand, storeCmd, takeError]

end Sys2Proof.Machine

/-! The cursor commands that are another one with a fixed or scaled ARG (30_encoding.md rule R115): O31. -/

namespace Sys2Proof.Machine

/-- ARG is no part of the input. -/
theorem sameInput_arg (s : State) (a : Word64) : SameInput { s with arg := a } s :=
  ⟨fun _ => rfl, rfl, rfl, rfl, rfl, rfl⟩

/-- A cursor command uses ARG in its legality, its read and its store alone. -/
theorem runRead_arg {α : Type} {s t : State} {legal : Bool} {read : Stage α} {store : State → α → State}
    (a : Word64) (hstore : ∀ v, store { s with arg := a } v = { store s v with arg := a })
    (h : runRead s legal read store = .next t) :
    runRead { s with arg := a } legal read store = .next { t with arg := a } := by
  have entry : (do cursorEntry { s with arg := a } legal; read : Stage α) (startCur { s with arg := a }) =
      (do cursorEntry s legal; read : Stage α) (startCur s) := rfl
  unfold runRead at h ⊢
  rw [entry]
  split at h
  · cases h
    dsimp only
    rw [hstore]
    rfl
  · cases h
    rfl

/-- READ_BIT (R164). -/
theorem exec_readBit (s : State) : exec .readBit s = runRead s true (takeU s 1) storeNat := by
  have bit : (fun p => (bitAt s p).toNat) = fun p => bitRead s p 1 := by
    funext p
    simp [bitRead]
  show runRead s true (takeBits s 1 _) storeNat = _
  rw [bit]
  rfl

/-- READ_U (R161). -/
theorem exec_readU (s : State) {w : Nat} (h : w < 2 ^ 64) :
    exec .readU { s with arg := BitVec.ofNat 64 w } =
      runRead { s with arg := BitVec.ofNat 64 w } (decide (w ≤ 64)) (takeU s w) storeNat := by
  have width : (BitVec.ofNat 64 w).toNat = w := Nat.mod_eq_of_lt h
  show execReadU _ = _
  rw [execReadU, widthLegal, (sameInput_arg s _).takeU, width]

/-- READ_RAW (R169). -/
theorem exec_readRaw (s : State) {w : Nat} (h : w < 2 ^ 64) :
    exec .readRaw { s with arg := BitVec.ofNat 64 w } =
      runRead { s with arg := BitVec.ofNat 64 w } (decide (w ≤ 8 * s.params.spanMax)) (takeU s w) (storeSpan w) := by
  have width : (BitVec.ofNat 64 w).toNat = w := Nat.mod_eq_of_lt h
  show execReadRaw _ = _
  rw [execReadRaw, rawLegal, (sameInput_arg s _).takeU, width]

/-- READ_BYTES (R170). -/
theorem exec_readBytes (s : State) {n : Nat} (h : n < 2 ^ 64) :
    exec .readBytes { s with arg := BitVec.ofNat 64 n } =
      runRead { s with arg := BitVec.ofNat 64 n } (decide (n ≤ s.params.spanMax)) (takeU s (8 * n))
        (storeSpan (8 * n)) := by
  have count : (BitVec.ofNat 64 n).toNat = n := Nat.mod_eq_of_lt h
  show execReadBytes _ = _
  rw [execReadBytes, bytesLegal, (sameInput_arg s _).takeU, count]

/-- Settles O31: the two commands of a pair are the same read, run with another ARG. -/
theorem aliasCommands : Obligations.AliasCommands := by
  refine ⟨fun s t u ht hu => ?_, fun s t u n hn ht hu => ?_⟩
  · rw [exec_readBit] at ht
    have same := (exec_readU s (w := 1) (by decide)).trans (runRead_arg 1 (fun _ => rfl) ht)
    cases hu.symm.trans same
    exact ⟨rfl, rfl, rfl⟩
  · rw [exec_readBytes s (by omega)] at ht
    have legal : decide (8 * n ≤ 8 * s.params.spanMax) = decide (n ≤ s.params.spanMax) :=
      decide_eq_decide.mpr (by omega)
    have same := (exec_readRaw s hn).trans (legal ▸ runRead_arg (BitVec.ofNat 64 (8 * n)) (fun _ => rfl) ht)
    cases hu.symm.trans same
    exact ⟨rfl, rfl, rfl, rfl⟩

end Sys2Proof.Machine

/-! Reserved codes and the values that are no code of their field (30_encoding.md rule R136): O38. -/

namespace Sys2Proof.Machine

/-! ### Codes of a reserved row -/

/-- A check on a field already read that fails. -/
theorem check_error {α : Type} {bad : Bool} {e : ErrCode} {next : Unit → Stage α} {c : Cur} (h : bad = true) :
    (raiseIf bad e >>= next) c = .error ⟨e, c.fpos⟩ := er_bind (raiseIf_eq_error.2 ⟨h, rfl⟩)

/-- A 5-bit number with its top bit set is negative (00_scope.md rule R17). -/
theorem sext_five_neg {v : Nat} (h : 16 ≤ v) (hv : v < 32) : sext 5 v < 0 := by
  have top : ¬ v < 2 ^ (5 - 1) := Nat.not_lt.mpr h
  rw [sext, if_neg (by decide), if_neg top]
  omega

/-- A code that fails the frame at the start of its field (60_exceptions.md rule R384). -/
theorem code_raises {s : State} {i : Instr} {e : ErrCode} (h : exec i s = .next (failFrame s ⟨e, s.fpos.toNat⟩)) :
    ∃ t, exec i s = .next t ∧ frameFailed s t e s.fpos.toNat :=
  ⟨_, h, failFrame_failed _ _⟩

/-! ### Values that are no row -/

/-- A field whose fetch raises fails the frame. -/
theorem step_fetch_error {s : State} {f : Field} {e : ErrCode} {p : Nat} (hf : s.seq = some f)
    (h : fetchField s f (workCur s) = .error ⟨e, p⟩) : ∃ t, step s = .next t ∧ frameFailed s t e p :=
  ⟨_, (step_field hf).trans (fieldStep_error h), failFrame_failed _ _⟩

theorem fetchField_syncMismatch {s : State} (hb : bitsAt s s.work.cur 15) (h : bitRead s s.work.cur 15 ≠ 0x7FFC) :
    fetchField s .sync16 (workCur s) = .error ⟨.syncError, s.work.cur⟩ :=
  (ok_bind (takeU_eq_ok.2 ⟨hb, rfl, rfl⟩)).trans (check_error (decide_eq_true h))

theorem fetchField_reservedBitSet {s : State} (hb : bitsAt s s.work.cur 1) (h : bitAt s s.work.cur = true) :
    fetchField s .rsv1 (workCur s) = .error ⟨.reservedBit, s.work.cur⟩ := by
  have bit : bitRead s s.work.cur 1 = 1 := by simp [bitRead, h]
  have read : takeU s 1 (workCur s) = .ok (1, ⟨s.work.cur + 1, s.work.cur⟩) := takeU_eq_ok.2 ⟨hb, bit.symm, rfl⟩
  exact ok_bind read

/-- The fetch of a continuation byte reads no primitive, so FPOS stays (40_cursor.md rule R168). -/
theorem fetchField_notContinuation {s : State} (hb : bitsAt s s.work.cur 8) (h : bitRead s s.work.cur 8 / 64 ≠ 0b10) :
    fetchField s .utf8Cont8 (workCur s) = .error ⟨.invalidEncoding, s.fpos.toNat⟩ := by
  have rejected : decodeField .utf8Cont8 (bitRead s s.work.cur 8) = .error .notContinuation :=
    (if_pos (bitRead_lt s _ 8)).trans (if_neg h)
  refine (if_neg (Nat.not_lt.mpr hb)).trans ?_
  rw [workCur_cur, fieldInstr, rejected]
  rfl

/-- Settles O38: the stage of a reserved row fails its check, and the fetch of a value that is no row fails. -/
theorem reservedCodesRaise : Obligations.ReservedCodesRaise := by
  refine ⟨fun s => ⟨?_, ?_, ?_, fun x => ?_, ?_, fun x => ?_, fun x => ?_, fun x => ?_, fun x => ?_, ?_, fun x => ?_,
    fun ew signed negative => ?_⟩, fun s => ⟨fun hf hb h => ?_, fun hf hb h => ?_, fun hf hb h => ?_⟩⟩
  · exact code_raises (runHdr_error (stage := blockSizeCode s 0) (er_bind (check_error rfl)))
  · exact code_raises (runHdr_error (stage := sampleRateCode s 15) (er_bind (check_error rfl)))
  · exact code_raises (runStage_error (stage := channelsCode s 11) (er_bind (check_error rfl)))
  · have reserved : 11 ≤ 12 + x.toNat := by omega
    exact code_raises (runStage_error (stage := channelsCode s (12 + x.toNat))
      (er_bind (check_error (decide_eq_true reserved))))
  · exact code_raises (runHdr_error (stage := bitDepthCode s 3) (er_bind (check_error rfl)))
  · exact code_raises (runStage_error (stage := fun _ => raise .invalidEncoding) rfl)
  · exact code_raises (runStage_error (stage := fun _ => raise .invalidEncoding) rfl)
  · exact code_raises (runStage_error (stage := fun w => do padField 1; pure w) (check_error rfl))
  · have reserved : 2 ≤ 2 + x.toNat := by omega
    exact code_raises (runSubframe_error (stage := methodField (2 + x.toNat)) (check_error (decide_eq_true reserved)))
  · exact code_raises (runSubframe_error (stage := precisionField 15) (check_error rfl))
  · have negative : sext 5 (16 + x.toNat) < 0 := sext_five_neg (by omega) (by omega)
    exact code_raises (runSubframe_error (stage := shiftField (16 + x.toNat)) (check_error (decide_eq_true negative)))
  · have negative : escapeWidth s ew.toNat < 0 := by
      rw [escapeWidth, if_pos signed]
      exact sext_five_neg negative ew.isLt
    exact code_raises (runSubframe_error (stage := escapeField s s.work.hdr.bs ew.toNat)
      (check_error (decide_eq_true negative)))
  · exact step_fetch_error hf (fetchField_syncMismatch hb h)
  · exact step_fetch_error hf (fetchField_reservedBitSet hb h)
  · exact step_fetch_error hf (fetchField_notContinuation hb h)

end Sys2Proof.Machine

/-! The two checksums as shift registers over GF(2) (30_encoding.md rules R139, R140): O49. -/

namespace Sys2Proof.Machine

section

variable {w : Nat} {poly : BitVec w}

/-- A register with a clear top bit is shifted without feedback. -/
theorem crcShift_of_msb_false {x : BitVec w} (h : x.msb = false) : crcShift poly x = x <<< 1 := by
  rw [crcShift, h]
  rfl

theorem crcShift_of_msb_true {x : BitVec w} (h : x.msb = true) : crcShift poly x = x <<< 1 ^^^ poly := by
  rw [crcShift, h]
  rfl

theorem crcShift_xor (x y : BitVec w) : crcShift poly (x ^^^ y) = crcShift poly x ^^^ crcShift poly y := by
  have feedback : (if (x ^^^ y).msb then poly else 0) = (if x.msb then poly else 0) ^^^ (if y.msb then poly else 0) := by
    rw [BitVec.msb_xor]
    cases x.msb <;> cases y.msb <;> simp
  have shift (z : BitVec w) : crcShift poly z = z <<< 1 ^^^ (if z.msb then poly else 0) := by
    unfold crcShift
    split <;> simp
  rw [shift, shift, shift, feedback, BitVec.shiftLeft_xor_distrib]
  ac_rfl

theorem crcShifts_xor (x y : BitVec w) (n : Nat) :
    crcShifts poly (x ^^^ y) n = crcShifts poly x n ^^^ crcShifts poly y n := by
  induction n generalizing x y with
  | zero => rfl
  | succ n ih => rw [crcShifts, crcShift_xor, ih]; rfl

theorem crcShifts_add (x : BitVec w) (m n : Nat) :
    crcShifts poly x (m + n) = crcShifts poly (crcShifts poly x m) n := by
  induction m generalizing x with
  | zero => rw [Nat.zero_add]; rfl
  | succ m ih => rw [Nat.succ_add]; exact ih _

/-- The feedback of a polynomial with constant term 1 sets bit 0, which a shift leaves clear. -/
theorem crcShift_eq_zero (hp : poly.getLsbD 0 = true) {x : BitVec w} : crcShift poly x = 0 ↔ x = 0 := by
  constructor
  · intro h
    cases hm : x.msb with
    | true =>
      rw [crcShift_of_msb_true hm] at h
      have bit := congrArg (BitVec.getLsbD · 0) h
      simp [hp] at bit
    | false =>
      rw [crcShift_of_msb_false hm] at h
      have small := BitVec.msb_eq_false_iff_two_mul_lt.mp hm
      have double : x.toNat * 2 % 2 ^ w = 0 := by simpa [Nat.shiftLeft_eq] using congrArg BitVec.toNat h
      rw [Nat.mod_eq_of_lt (by omega)] at double
      exact BitVec.eq_of_toNat_eq (by simpa using double)
  · rintro rfl
    rw [crcShift_of_msb_false (by simp)]
    simp

theorem crcShifts_eq_zero (hp : poly.getLsbD 0 = true) {x : BitVec w} {n : Nat} : crcShifts poly x n = 0 ↔ x = 0 := by
  induction n generalizing x with
  | zero => rfl
  | succ n ih => exact ih.trans (crcShift_eq_zero hp)

/-- While no set bit reaches the top, the register is only shifted. -/
theorem crcShifts_of_lt {x : BitVec w} {n : Nat} (h : x.toNat * 2 ^ n < 2 ^ w) : crcShifts poly x n = x <<< n := by
  induction n generalizing x with
  | zero => exact (BitVec.shiftLeft_zero x).symm
  | succ n ih =>
    rw [Nat.pow_succ', ← Nat.mul_assoc] at h
    have small : x.toNat * 2 < 2 ^ w := (Nat.le_mul_of_pos_right _ (Nat.two_pow_pos n)).trans_lt h
    have once : (x <<< 1).toNat = x.toNat * 2 := by
      rw [BitVec.toNat_shiftLeft, Nat.shiftLeft_eq, Nat.mod_eq_of_lt (by simpa using small), Nat.pow_one]
    rw [crcShifts, crcShift_of_msb_false (BitVec.msb_eq_false_iff_two_mul_lt.mpr (by omega)), ih (once ▸ h),
      ← BitVec.shiftLeft_add, Nat.add_comm]

end

theorem crc8Of_append (m : List Byte) (c : Byte) : crc8Of (m ++ [c]) = crcByte 0x07 (crc8Of m) c := List.foldl_concat ..

theorem crc16Of_append (m : List Byte) (h l : Byte) :
    crc16Of (m ++ [h, l]) = crcByte 0x8005 (crcByte 0x8005 (crc16Of m) h) l := List.foldl_append ..

/-- A byte that leaves CRC-8's register zero is the register's content. -/
theorem crc8Byte_eq_zero (r : BitVec 8) (c : Byte) : crcByte 0x07 r c = 0 ↔ c = r := by
  have top : c.setWidth 8 <<< (8 - 8) = c := by simp
  rw [crcByte, top, crcShifts_eq_zero (by decide)]
  exact BitVec.xor_eq_zero_iff.trans eq_comm

theorem append_eq_xor (h l : Byte) : h ++ l = h.setWidth 16 <<< 8 ^^^ l.setWidth 16 := by
  apply BitVec.eq_of_getLsbD_eq
  intro i hi
  rw [BitVec.getLsbD_append]
  by_cases low : i < 8
  · simp [low, hi]
  · simp [low, hi, BitVec.getLsbD_of_ge l i (Nat.not_lt.mp low)]

/-- Two bytes entered one after the other are the 16-bit number they make, entered at once: the second waits in the lower
half of the register while the first is shifted out. -/
theorem crc16Bytes_eq (r : BitVec 16) (h l : Byte) :
    crcByte 0x8005 (crcByte 0x8005 r h) l = crcShifts 0x8005 (r ^^^ (h ++ l)) 16 := by
  have waits : l.setWidth 16 <<< 8 = crcShifts 0x8005 (l.setWidth 16) 8 := by
    refine (crcShifts_of_lt ?_).symm
    rw [BitVec.toNat_setWidth]
    omega
  rw [crcByte, crcByte, waits, ← crcShifts_xor, ← crcShifts_add, append_eq_xor, BitVec.xor_assoc]

theorem crc16Bytes_eq_zero (r : BitVec 16) (h l : Byte) :
    crcByte 0x8005 (crcByte 0x8005 r h) l = 0 ↔ h ++ l = r := by
  rw [crc16Bytes_eq, crcShifts_eq_zero (by decide)]
  exact BitVec.xor_eq_zero_iff.trans eq_comm

/-- Settles O49: the register is linear and no shift loses a set bit, so it becomes zero only from zero. -/
theorem checksums : Obligations.Checksums := by
  refine ⟨by decide +kernel, by decide +kernel, fun m => ⟨fun c => ?_, fun h l => ?_⟩⟩
  · rw [crc8Of_append, crc8Byte_eq_zero]
  · rw [crc16Of_append, crc16Bytes_eq_zero]

end Sys2Proof.Machine

/-! The cursor commands (40_cursor.md rules R160 to R171): O24 to O30. -/

namespace Sys2Proof.Machine

/-! ### What a cursor command makes of its read -/

/-- An error raised at POS leaves ERR_POS and FPOS at POS (60_exceptions.md rules R381, R384). -/
theorem takeError_at_pos (s : State) (e : ErrCode) : takeError s ⟨e, s.pos.toNat⟩ = erredAt s e := by
  simp [takeError, erredAt]

section Reads

variable {α : Type} {s : State} {legal : Bool} {w : Nat} {value : Nat → α} {read : Stage α} {store : State → α → State}

/-- ARG is checked first of all (40_cursor.md rule R160). -/
theorem runRead_illegal (hl : legal = false) : runRead s legal read store = .next (erredAt s .illegalArgument) := by
  subst hl
  rw [← takeError_at_pos]
  rfl

/-- A cursor command whose read succeeds `w` bits further on. -/
theorem runRead_done {v : α} (hl : legal = true) (hc : lenOk s)
    (hr : read (startCur s) = .ok (v, ⟨s.pos.toNat + w, s.pos.toNat⟩)) :
    runRead s legal read store =
      .next (finish { store s v with pos := BitVec.ofNat 64 (s.pos.toNat + w), fpos := s.pos }) := by
  simp [runRead_ok hl hc hr]

theorem takeBits_there {c : Cur} (hb : bitsAt s c.cur w) :
    takeBits s w value c = .ok (value c.cur, ⟨c.cur + w, c.cur⟩) := takeBits_eq_ok.2 ⟨hb, rfl, rfl⟩

theorem takeBits_missing {c : Cur} (hb : ¬ bitsAt s c.cur w) :
    takeBits s w value c = .error ⟨.outOfBounds, c.cur⟩ := takeBits_eq_error.2 ⟨Nat.lt_of_not_le hb, rfl⟩

/-- The bounds law of a fixed-width command (40_cursor.md rule R162). -/
theorem runRead_missing (hl : legal = true) (hc : lenOk s) (hb : ¬ bitsAt s s.pos.toNat w) :
    runRead s legal (takeBits s w value) store = .next (erredAt s .outOfBounds) :=
  runRead_error hl hc (takeBits_missing (c := startCur s) hb) rfl

/-- A fixed-width command whose bits are there. -/
theorem runRead_there (hl : legal = true) (hc : lenOk s) (hb : bitsAt s s.pos.toNat w) :
    runRead s legal (takeBits s w value) store = .next
      (finish { store s (value s.pos.toNat) with pos := BitVec.ofNat 64 (s.pos.toNat + w), fpos := s.pos }) :=
  runRead_done hl hc (takeBits_there (c := startCur s) hb)

end Reads

/-- RESULT of a signed read (40_cursor.md rule R163). -/
theorem sext_eq_toInt {w v : Nat} (hv : v < 2 ^ w) : sext w v = (BitVec.ofNat w v).toInt := by
  have toNat : (BitVec.ofNat w v).toNat = v := Nat.mod_eq_of_lt hv
  rw [BitVec.toInt_eq_toNat_cond, toNat]
  cases w with
  | zero =>
    have : v = 0 := by omega
    simp [sext, this]
  | succ w =>
    have half : 2 ^ (w + 1) = 2 * 2 ^ w := Nat.pow_succ'
    have top : 2 * v < 2 ^ (w + 1) ↔ v < 2 ^ w := by omega
    simp [sext, top]

theorem storeInt_sext (s : State) {w v : Nat} (hv : v < 2 ^ w) :
    storeInt s (sext w v) = { s with result := (BitVec.ofNat w v).signExtend 64 } := by
  rw [sext_eq_toInt hv]
  rfl

/-- A value of `k` bytes is below 2^(8·k). -/
theorem bitReadLe_lt (s : State) (p k : Nat) : bitReadLe s p k < 2 ^ (8 * k) := by
  induction k with
  | zero => simp [bitReadLe]
  | succ k ih =>
    have byte := bitRead_lt s (p + 8 * k) 8
    have place : 2 ^ (8 * (k + 1)) = 2 ^ 8 * 2 ^ (8 * k) := by rw [Nat.mul_succ, Nat.pow_add, Nat.mul_comm]
    calc bitReadLe s p k + bitRead s (p + 8 * k) 8 * 2 ^ (8 * k)
        < (bitRead s (p + 8 * k) 8 + 1) * 2 ^ (8 * k) := by
          rw [Nat.succ_mul (bitRead s (p + 8 * k) 8), Nat.add_comm]
          exact Nat.add_lt_add_left ih _
      _ ≤ 2 ^ (8 * (k + 1)) := place ▸ Nat.mul_le_mul_right _ byte

theorem widthLegal_eq_true {s : State} (h : s.arg.toNat ≤ 64) : widthLegal s = true := decide_eq_true h

theorem widthLegal_eq_false {s : State} (h : 64 < s.arg.toNat) : widthLegal s = false :=
  decide_eq_false (Nat.not_le.mpr h)

theorem widthLegalLe_eq_true {s : State} (h : s.arg.toNat ≤ 64) (h8 : s.arg.toNat % 8 = 0) : widthLegalLe s = true :=
  decide_eq_true ⟨h, h8⟩

theorem widthLegalLe_eq_false {s : State} (h : 64 < s.arg.toNat ∨ s.arg.toNat % 8 ≠ 0) : widthLegalLe s = false :=
  decide_eq_false (by omega)

/-- Settles O24: the entry checks and the bounds law of every fixed-width command, and the value of this one. -/
theorem readUnsigned : Obligations.ReadUnsigned := by
  intro s w
  refine ⟨fun h => runRead_illegal (widthLegal_eq_false h), fun h => runRead_len (widthLegal_eq_true h),
    fun h hc hb => runRead_missing (widthLegal_eq_true h) hc hb,
    fun h hc hb => ⟨readU_done rfl h hc hb, bitRead_lt _ _ _⟩,
    fun h => runRead_illegal (widthLegalLe_eq_false h), fun h h8 => runRead_len (widthLegalLe_eq_true h h8),
    fun h h8 hc hb => runRead_missing (widthLegalLe_eq_true h h8) hc hb,
    fun h h8 hc hb => ?_, fun v c => ⟨takeBits_there, takeBits_missing⟩⟩
  rw [← bitReadLe_eq_sum]
  exact runRead_there (widthLegalLe_eq_true h h8) hc hb

/-- Settles O25: READ_U's checks, and a `w`-bit value's sign extension. -/
theorem readSigned : Obligations.ReadSigned := by
  intro s w
  refine ⟨fun h => runRead_illegal (widthLegal_eq_false h), fun h => runRead_len (widthLegal_eq_true h),
    fun h hc hb => runRead_missing (widthLegal_eq_true h) hc hb, fun h hc hb => ?_,
    fun h => runRead_illegal (widthLegalLe_eq_false h), fun h h8 => runRead_len (widthLegalLe_eq_true h h8),
    fun h h8 hc hb => runRead_missing (widthLegalLe_eq_true h h8) hc hb, fun h h8 hc hb => ?_,
    fun v c => ⟨fun hb => ?_, takeBits_missing⟩⟩
  · refine (runRead_there (widthLegal_eq_true h) hc hb).trans ?_
    rw [storeInt_sext s (bitRead_lt s _ _)]
    rfl
  · have bytes : 8 * (w / 8) = w := by omega
    have fits : bitReadLe s s.pos.toNat (w / 8) < 2 ^ w :=
      (bitReadLe_lt s _ (w / 8)).trans_eq (congrArg (2 ^ ·) bytes)
    refine (runRead_there (widthLegalLe_eq_true h h8) hc hb).trans ?_
    rw [storeInt_sext s fits, ← bitReadLe_eq_sum]
    rfl
  · rw [← sext_eq_toInt (bitRead_lt s c.cur v)]
    exact takeBits_there hb

/-- Settles O26: the bit by its two values, the unary count by what the scan answers. -/
theorem readBitAndReadUnary : Obligations.ReadBitAndReadUnary := by
  refine ⟨fun s => ⟨fun hc => runRead_len rfl hc, fun hc hb => runRead_missing rfl hc hb, fun hc hb => ?_⟩,
    fun s => ⟨fun hc => runRead_len rfl hc, fun hc zeros => ?_, fun hc n hn => ?_,
      fun c => ⟨fun zeros => ?_, fun n hn => ?_⟩⟩⟩
  · refine (runRead_there rfl hc hb).trans ?_
    cases bitAt s s.pos.toNat <;> rfl
  · have read : takeUnary s (startCur s) = .error ⟨.outOfBounds, s.pos.toNat⟩ := takeUnary_eq_error.2 ⟨zeros, rfl⟩
    exact runRead_error rfl hc read rfl
  · have read : takeUnary s (startCur s) = .ok (n, ⟨s.pos.toNat + (n + 1), s.pos.toNat⟩) := takeUnary_eq_ok.2 ⟨hn, rfl⟩
    exact runRead_done rfl hc read
  · exact takeUnary_eq_error.2 ⟨zeros, rfl⟩
  · exact takeUnary_eq_ok.2 ⟨hn, rfl⟩

/-! ### Spans -/

/-- A span of `w` bits is `k = ceil(w/8)` bytes, and SPAN_LEN and RESULT are `k` (40_cursor.md rule R169). -/
theorem storeSpan_eq_spanDone (s : State) (w v : Nat) :
    finish { storeSpan w s v with pos := BitVec.ofNat 64 (s.pos.toNat + w), fpos := s.pos } =
      spanDone s w (spanBytes v ((w + 7) / 8)) := by
  simp [storeSpan, spanDone, readDone, spanBytes, finish]

/-- Settles O28: the entry checks and the bounds law of every fixed-width command, and the span of this one. -/
theorem readSpans : Obligations.ReadSpans := by
  intro s p span w n
  refine ⟨fun h => runRead_illegal (decide_eq_false (Nat.not_le.mpr h)), fun h => runRead_len (decide_eq_true h),
    fun h hc hb => runRead_missing (decide_eq_true h) hc hb, fun h hc hb => ?_,
    fun h => runRead_illegal (decide_eq_false (Nat.not_le.mpr h)), fun h => runRead_len (decide_eq_true h),
    fun h hc hb => runRead_missing (decide_eq_true h) hc hb, fun h hc hb => ?_⟩
  · refine (runRead_there (decide_eq_true h) hc hb).trans ?_
    rw [storeSpan_eq_spanDone]
    rfl
  · have bytes : (8 * n + 7) / 8 = n := by omega
    refine (runRead_there (decide_eq_true h) hc hb).trans ?_
    rw [storeSpan_eq_spanDone, bytes]
    rfl

/-! ### Numbers -/

/-- The payload `v` of a lead byte at bit position `p` with the six bits of each of the `k` bytes that follow it, most
significant first (40_cursor.md rule R168). -/
def numberFrom (s : State) (p v : Nat) : Nat → Nat
  | 0 => v
  | k + 1 => numberFrom s (p + 8) (v * 64 + bitRead s (p + 8) 8 % 64) k

/-- Bytes that all are continuation bytes assemble the number. -/
theorem continuations_eq_number {s : State} {p v n : Nat}
    (h : ∀ i, 1 ≤ i → i < n + 1 → bitRead s (p + 8 * i) 8 / 64 = 0b10) :
    continuations s (p + 8) v n = some (numberFrom s p v n) := by
  induction n generalizing p v with
  | zero => rfl
  | succ n ih =>
    rw [continuations_good (h 1 (by omega) (by omega))]
    refine ih fun i h1 hi => ?_
    rw [Nat.add_assoc, Nat.add_comm 8, ← Nat.mul_succ]
    exact h (i + 1) (by omega) (by omega)

theorem utf8Rest_number {s : State} {p cur n v : Nat} (hb : bitsAt s p (8 * (n + 1)))
    (h : ∀ i, 1 ≤ i → i < n + 1 → bitRead s (p + 8 * i) 8 / 64 = 0b10) :
    utf8Rest s (n + 1) v ⟨cur, p⟩ = .ok (numberFrom s p v n, ⟨p + 8 * (n + 1), p⟩) :=
  utf8Rest_ok s (n + 1) v _ p cur hb (continuations_eq_number h)

/-- Every error of a number is at its lead byte (40_cursor.md rule R168). -/
theorem utf8Rest_error_pos {s : State} {n v : Nat} {c : Cur} {e : Raise} (h : utf8Rest s n v c = .error e) :
    e.pos = c.fpos := by
  unfold utf8Rest at h
  split at h
  · cases h
    rfl
  · split at h <;> cases h
    rfl

/-- A legal lead byte is read, and the rest of its number follows. -/
theorem takeUtf8_lead {s : State} {p f n v : Nat} (hb : bitsAt s p 8) (h : leadInfo (bitRead s p 8) = some (n, v)) :
    takeUtf8 s ⟨p, f⟩ = utf8Rest s n v ⟨p + 8, p⟩ := by
  refine (ok_bind (takeU_ok hb)).trans ?_
  rw [h]

/-- An illegal lead byte is read and raises (30_encoding.md rule R124). -/
theorem takeUtf8_illegal {s : State} {p f : Nat} (hb : bitsAt s p 8) (h : leadInfo (bitRead s p 8) = none) :
    takeUtf8 s ⟨p, f⟩ = .error ⟨.invalidEncoding, p⟩ := by
  refine (ok_bind (takeU_ok hb)).trans ?_
  rw [h]
  rfl

theorem takeUtf8_error_pos {s : State} {c : Cur} {e : Raise} (h : takeUtf8 s c = .error e) : e.pos = c.cur := by
  obtain h | ⟨lead, c', read, h⟩ := bind_eq_error.1 h
  · rw [(takeU_eq_error.1 h).2]
  · obtain ⟨-, -, rfl⟩ := takeU_eq_ok.1 read
    cases hl : leadInfo lead with
    | some number =>
      rw [hl] at h
      exact utf8Rest_error_pos h
    | none =>
      rw [hl] at h
      cases h
      rfl

/-- A READ_UTF8 whose lead byte announces `n` continuation bytes, all of which are there and are ones. -/
theorem readUtf8_done {s : State} {n v : Nat} (hc : lenOk s) (hb : bitsAt s s.pos.toNat (8 * (n + 1)))
    (hl : leadInfo (bitRead s s.pos.toNat 8) = some (n + 1, v))
    (h : ∀ i, 1 ≤ i → i < n + 1 → bitRead s (s.pos.toNat + 8 * i) 8 / 64 = 0b10) :
    exec .readUtf8 s =
      .next (readDone s (8 * (n + 1)) (BitVec.ofNat 64 (numberFrom s s.pos.toNat v n))) := by
  have lead : bitsAt s s.pos.toNat 8 := by unfold bitsAt at hb ⊢; omega
  have read := (takeUtf8_lead (f := s.pos.toNat) lead hl).trans (utf8Rest_number hb h)
  exact runRead_done rfl hc read

/-- A READ_UTF8 whose number raises `e`. -/
theorem readUtf8_error {s : State} {f : Nat} {e : Raise} (hc : lenOk s) (h : takeUtf8 s ⟨s.pos.toNat, f⟩ = .error e) :
    exec .readUtf8 s = .next (erredAt s e.code) :=
  runRead_error rfl hc h (takeUtf8_error_pos h)

theorem leadInfo_one {lead : Nat} (h : lead < 0x80) : leadInfo lead = some (1, lead) := if_pos h

theorem leadInfo_two {lead : Nat} (h1 : 0xC0 ≤ lead) (h2 : lead < 0xE0) : leadInfo lead = some (2, lead % 32) := by
  rw [leadInfo, if_neg (by omega), if_neg (by omega), if_pos h2]

theorem leadInfo_three {lead : Nat} (h1 : 0xE0 ≤ lead) (h2 : lead < 0xF0) : leadInfo lead = some (3, lead % 16) := by
  rw [leadInfo, if_neg (by omega), if_neg (by omega), if_neg (by omega), if_pos h2]

theorem leadInfo_four {lead : Nat} (h1 : 0xF0 ≤ lead) (h2 : lead < 0xF8) : leadInfo lead = some (4, lead % 8) := by
  rw [leadInfo, if_neg (by omega), if_neg (by omega), if_neg (by omega), if_neg (by omega), if_pos h2]

/-- Settles O27: the lead byte fits and is legal, the whole length fits, and each byte of the rest is checked. -/
theorem readUtf8Number : Obligations.ReadUtf8Number := by
  intro s p lead byte cont length legal
  refine ⟨fun hc => runRead_len rfl hc, fun hc hb => ?_, fun hc hb hl => ?_, fun hc hb hl hn => ?_,
    fun hc hl hb hn => ?_, fun hc hb h => ?_, fun hc hb h1 h2 h => ?_, fun hc hb h1 h2 h => ?_, fun hc hb h1 h2 h => ?_,
    fun hc f => ⟨fun v c h => ?_, fun e h => ⟨takeUtf8_error_pos h, readUtf8_error hc h⟩⟩⟩
  · exact readUtf8_error (f := 0) hc (er_bind (takeU_er hb))
  · exact readUtf8_error (f := 0) hc (takeUtf8_illegal hb (leadInfo_illegal hl))
  · obtain ⟨v, hv⟩ := leadInfo_legal hl
    exact readUtf8_error (f := 0) hc ((takeUtf8_lead hb hv).trans (utf8Rest_oob s length v p _ hn))
  · obtain ⟨v, hv⟩ := leadInfo_legal hl
    have first : bitsAt s p 8 := by
      have : 1 ≤ length := by dsimp only [length]; split_ifs <;> omega
      unfold bitsAt at hb ⊢
      omega
    exact readUtf8_error (f := 0) hc ((takeUtf8_lead first hv).trans (utf8Rest_bad s length v p _ hb hn))
  · exact readUtf8_done (n := 0) hc hb (leadInfo_one h) (fun i h1 h2 => by omega)
  · exact readUtf8_done (n := 1) hc hb (leadInfo_two h1 h2) h
  · exact readUtf8_done (n := 2) hc hb (leadInfo_three h1 h2) h
  · exact readUtf8_done (n := 3) hc hb (leadInfo_four h1 h2) h
  · obtain ⟨n, -, -, -, rfl, -⟩ := takeUtf8_ok h
    have moved : p + 8 * n - p = 8 * n := Nat.add_sub_cancel_left p _
    refine ⟨rfl, Nat.le_add_right p _, ?_⟩
    rw [moved]
    exact runRead_done rfl hc h

/-! ### The bounds law -/

/-- OUT_OF_BOUNDS of a cursor command comes from its read, which raises at POS (40_cursor.md rule R162). -/
theorem runRead_outOfBounds {α : Type} {s t : State} {legal : Bool} {read : Stage α} {store : State → α → State}
    (hs : s.errCode = .noError) (hstore : ∀ v, (store s v).errCode = s.errCode)
    (hread : ∀ e, read (startCur s) = .error e → e.pos = s.pos.toNat) (h : runRead s legal read store = .next t)
    (ht : t.errCode = .outOfBounds) : lenOk s ∧ t = erredAt s .outOfBounds := by
  obtain ⟨v, c, -, -, -, hr⟩ | ⟨-, hr⟩ | ⟨-, -, hr⟩ | ⟨⟨code, pos⟩, -, hc, he, hr⟩ :=
    runRead_cases s legal read store <;> cases h.symm.trans hr
  · have kept : (store s v).errCode = .outOfBounds := ht
    rw [hstore, hs] at kept
    cases kept
  · cases ht
  · cases ht
  · obtain rfl : code = .outOfBounds := ht
    obtain rfl : pos = s.pos.toNat := hread _ he
    exact ⟨hc, takeError_at_pos s _⟩

theorem takeBits_error_pos {α : Type} {s : State} {w : Nat} {value : Nat → α} {c : Cur} {e : Raise}
    (h : takeBits s w value c = .error e) : e.pos = c.cur := by rw [(takeBits_eq_error.1 h).2]

theorem takeUnary_error_pos {s : State} {c : Cur} {e : Raise} (h : takeUnary s c = .error e) : e.pos = c.cur := by
  rw [(takeUnary_eq_error.1 h).2]

/-- The cursor commands that read (40_cursor.md rules R161 to R170), when they raise OUT_OF_BOUNDS. -/
theorem exec_outOfBounds {i : Instr} {s t : State}
    (hi : i ∈ [.readU, .readULe, .readS, .readSLe, .readBit, .readUnary, .readUtf8, .readRaw, .readBytes])
    (hs : s.errCode = .noError) (h : exec i s = .next t) (ht : t.errCode = .outOfBounds) :
    lenOk s ∧ t = erredAt s .outOfBounds := by
  cases i with
  | readU | readULe | readS | readSLe | readBit | readRaw | readBytes =>
    exact runRead_outOfBounds hs (fun _ => rfl) (fun _ => takeBits_error_pos) h ht
  | readUnary => exact runRead_outOfBounds hs (fun _ => rfl) (fun _ => takeUnary_error_pos) h ht
  | readUtf8 => exact runRead_outOfBounds hs (fun _ => rfl) (fun _ => takeUtf8_error_pos) h ht
  | _ => simp at hi

/-- After an error and CLEAR the input is as it was, and a READ_U that fits succeeds (60_exceptions.md rule R387). -/
theorem readU_after_clear {s : State} {e : ErrCode} {w : Nat} (hc : lenOk s) (hw : w ≤ 64)
    (hb : bitsAt s s.pos.toNat w) :
    ∃ v, exec .readU { finish (clearError (erredAt s e)) with arg := BitVec.ofNat 64 w } = .next v ∧
      v.errCode = .noError ∧ v.result = BitVec.ofNat 64 (bitRead s s.pos.toNat w) := by
  have width : (BitVec.ofNat 64 w).toNat = w := Nat.mod_eq_of_lt (by omega)
  have same : SameInput { finish (clearError (erredAt s e)) with arg := BitVec.ofNat 64 w } s :=
    ⟨fun _ => rfl, rfl, rfl, rfl, rfl, rfl⟩
  refine ⟨_, readU_done width hw hc hb, rfl, ?_⟩
  rw [same.bitRead]
  rfl

/-- A fixed-width read raises exactly when its bits are not there. -/
theorem takeBits_error_iff {α : Type} {s : State} {w : Nat} {value : Nat → α} {c : Cur} :
    takeBits s w value c = .error ⟨.outOfBounds, c.cur⟩ ↔ ¬ bitsAt s c.cur w := by
  rw [takeBits_eq_error, bitsAt, Nat.not_le, and_iff_left rfl]

/-- Unary raises exactly when no unary field stands at the cursor. -/
theorem takeUnary_error_iff {s : State} {c : Cur} :
    takeUnary s c = .error ⟨.outOfBounds, c.cur⟩ ↔ ∀ n, ¬ unaryAt s c.cur n := by
  constructor
  · intro h n hn
    cases h.symm.trans (takeUnary_eq_ok.2 ⟨hn, rfl⟩)
  · intro no_field
    cases h : takeUnary s c with
    | ok r => exact absurd (takeUnary_eq_ok.1 h).1 (no_field r.1)
    | error e => rw [(takeUnary_eq_error.1 h).2]

/-- Settles O30: an OUT_OF_BOUNDS is a read's, at POS, and leaves the input as it was. -/
theorem boundsLaw : Obligations.BoundsLaw := by
  refine ⟨fun i s t hi hs h ht => ?_, fun s c w => ⟨takeBits_error_iff, takeBits_error_iff, takeUnary_error_iff⟩⟩
  obtain ⟨hc, rfl⟩ := exec_outOfBounds hi hs h ht
  exact ⟨rfl, _, rfl, fun w hw hb => readU_after_clear hc hw hb⟩

/-- Settles O29: each of the four is its own next state. -/
theorem housekeepingCommands : Obligations.HousekeepingCommands := fun s => ⟨rfl, rfl, rfl, [], s.draws + 1, rfl⟩

/-! ### The number of a frame header -/

theorem numberCode_ok {s : State} {n payload v : Nat} {h : Hdr} {c c' : Cur}
    (hr : utf8Rest s n payload c = .ok (v, c')) :
    numberCode s n payload h c = .ok ({ h with number := v }, c') := ok_bind hr

theorem numberCode_error {s : State} {n payload : Nat} {h : Hdr} {c : Cur} {e : Raise}
    (hr : utf8Rest s n payload c = .error e) : numberCode s n payload h c = .error e := er_bind hr

/-- A lead byte's code whose continuation bytes are there and are ones (41_frame_header.md rule R209). -/
theorem runHdr_number {s : State} {n payload : Nat} (hb : bitsAt s s.fpos.toNat (8 * (n + 1)))
    (h : ∀ i, 1 ≤ i → i < n + 1 → bitRead s (s.fpos.toNat + 8 * i) 8 / 64 = 0b10) :
    runHdr s (numberCode s (n + 1) payload) = .next (workDone s
      { s.work with
        cur := s.fpos.toNat + 8 * (n + 1)
        hdr := { s.work.hdr with number := numberFrom s s.fpos.toNat payload n } } s.fpos.toNat) :=
  runHdr_ok (numberCode_ok (utf8Rest_number hb h))

/-- The instructions that are a lead byte's code, with the bytes that each announces (30_encoding.md rule R124). -/
theorem exec_numberLead {i : Instr} {n : Nat} (s : State)
    (h : (∃ v, i = .utf8OneByte v) ∧ n = 1 ∨ (∃ v, i = .utf8TwoByte v) ∧ n = 2 ∨ (∃ v, i = .utf8ThreeByte v) ∧ n = 3 ∨
      (∃ v, i = .utf8FourByte v) ∧ n = 4) : ∃ payload, exec i s = runHdr s (numberCode s n payload) := by
  obtain ⟨⟨v, rfl⟩, rfl⟩ | ⟨⟨v, rfl⟩, rfl⟩ | ⟨⟨v, rfl⟩, rfl⟩ | ⟨⟨v, rfl⟩, rfl⟩ := h <;> exact ⟨v.toNat, rfl⟩

/-- Settles O37: a lead byte's code reads the rest of its number at FPOS; a continuation byte's appends its six bits. -/
theorem numberCodes : Obligations.NumberCodes := by
  intro s p byte cont numbered
  refine ⟨fun v hb => runHdr_number (n := 0) hb (fun i h1 h2 => by omega), fun v hb h => runHdr_number (n := 1) hb h,
    fun v hb h => runHdr_number (n := 2) hb h, fun v hb h => runHdr_number (n := 3) hb h,
    fun v => runHdr_ok (stage := fun h => pure { h with number := h.number * 64 + v.toNat }) rfl, fun i n hi => ?_⟩
  obtain ⟨payload, run⟩ := exec_numberLead s hi
  rw [run]
  refine ⟨fun hb => ⟨_, runHdr_error (numberCode_error ?_), failFrame_failed _ ⟨.outOfBounds, p⟩⟩,
    fun hb hn => ⟨_, runHdr_error (numberCode_error ?_), failFrame_failed _ ⟨.invalidEncoding, p⟩⟩⟩
  · exact utf8Rest_oob s n payload p _ hb
  · exact utf8Rest_bad s n payload p _ hb hn

end Sys2Proof.Machine

/-! The codes of a frame header and its end checks (41_frame_header.md rules R202 to R215): O32, O33, O34, O50. -/

namespace Sys2Proof.Machine

/-! ### Sync, reserved bit and bit depth -/

/-- A BDCODE other than 011 (R207, R212). -/
theorem runHdr_bitDepth (s : State) {code : Nat} (legal : code ≠ 3) :
    runHdr s (bitDepthCode s code) = .next (workDone s
      { s.work with hdr := bitDepth s { s.work.hdr with bdcode := code } } s.fpos.toNat) :=
  runHdr_ok (c := workCur s) (ok_bind (bdcodeField_eq_ok.2 ⟨legal, rfl, rfl⟩))

/-- Settles O32: the strategy is set, the reserved bit passes its check, and each legal BDCODE is looked up. -/
theorem syncAndBitDepthCodes : Obligations.SyncAndBitDepthCodes := by
  refine ⟨fun s => ⟨?_, ?_, ?_⟩, fun s => ⟨?_, ?_, ?_, ?_, ?_, ?_, ?_⟩⟩
  · exact runHdr_ok (stage := fun h => pure (setStrategy 0 h)) rfl
  · exact runHdr_ok (stage := fun h => pure (setStrategy 1 h)) rfl
  · exact runStage_ok (stage := fun w => do reservedBitField 0; pure w) rfl
  · exact runHdr_bitDepth s (code := 0) (by decide)
  · exact runHdr_bitDepth s (code := 1) (by decide)
  · exact runHdr_bitDepth s (code := 2) (by decide)
  · exact runHdr_bitDepth s (code := 4) (by decide)
  · exact runHdr_bitDepth s (code := 5) (by decide)
  · exact runHdr_bitDepth s (code := 6) (by decide)
  · exact runHdr_bitDepth s (code := 7) (by decide)

/-! ### Block size and sample rate -/

/-- An escape field of `w` bits, which is no read at all when `w` is 0. -/
def escField (s : State) (w : Nat) : Stage Nat := if w = 0 then pure 0 else takeU s w

/-- The bits of BS_ESC after BSCODE `code` (R210). -/
def bsEscBits (code : Nat) : Nat := if code = 6 then 8 else if code = 7 then 16 else 0

/-- The block size of BSCODE `code` with `v` in BS_ESC (R210). -/
def bscodeSize (code v : Nat) : Nat :=
  if code = 1 then 192
  else if code ≤ 5 then 576 * 2 ^ (code - 2)
  else if code = 6 ∨ code = 7 then v + 1
  else 256 * 2 ^ (code - 8)

/-- The bits of SR_ESC after SRCODE `code` (R211). -/
def srEscBits (code : Nat) : Nat := if code = 12 then 8 else if code = 13 ∨ code = 14 then 16 else 0

/-- The sample rate of SRCODE `code` with `v` in SR_ESC (R211). -/
def srcodeRate (s : State) (code v : Nat) : Nat :=
  if code = 0 then s.streamRate.toNat
  else if code ≤ 11 then rateTable code
  else if code = 12 then v * 1000
  else if code = 13 then v
  else v * 10

/-- The block size is the table's, or one more than BS_ESC. -/
theorem blockSize_eq (s : State) (h : Hdr) : blockSize s h = (do
    let v ← escField s (bsEscBits h.bscode)
    pure { h with bs := bscodeSize h.bscode v }) := by
  unfold blockSize
  split_ifs with h192 h576 h8 h16
  · simp [escField, bsEscBits, bscodeSize, h192]
  · simp [escField, bsEscBits, bscodeSize, h192, h576, show h.bscode ≠ 6 by omega, show h.bscode ≠ 7 by omega]
  · simp [escField, bsEscBits, bscodeSize, h8]
  · simp [escField, bsEscBits, bscodeSize, h16]
  · simp [escField, bsEscBits, bscodeSize, h192, h576, h8, h16]

/-- The sample rate is the stream's, the table's, or SR_ESC in its unit. -/
theorem sampleRate_eq (s : State) {h : Hdr} (legal : h.srcode < 15) : sampleRate s h = (do
    let v ← escField s (srEscBits h.srcode)
    pure { h with rate := srcodeRate s h.srcode v }) := by
  unfold sampleRate
  split_ifs with h0 h11 h12 h13
  · simp [escField, srEscBits, srcodeRate, h0]
  · simp [escField, srEscBits, srcodeRate, h0, h11, show h.srcode ≠ 12 by omega, show h.srcode ≠ 13 by omega,
      show h.srcode ≠ 14 by omega]
  · simp [escField, srEscBits, srcodeRate, h12]
  · simp [escField, srEscBits, srcodeRate, h13]
  · simp [escField, srEscBits, srcodeRate, show h.srcode = 14 by omega]

/-- The cursor after an escape field of `w` bits at `q`: without a read FPOS stays at `f`. -/
def escEnd (q f w : Nat) : Cur := ⟨q + w, if w = 0 then f else q⟩

section Escapes

variable {s : State} {h : Hdr} {q f w : Nat}

theorem escField_there (hb : bitsAt s q w) : escField s w ⟨q, f⟩ = .ok (bitRead s q w, escEnd q f w) := by
  unfold escField escEnd
  split_ifs with h0
  · subst h0; rfl
  · exact takeU_ok hb

theorem escField_missing (hw : w ≠ 0) (hb : ¬ bitsAt s q w) : escField s w ⟨q, f⟩ = .error ⟨.outOfBounds, q⟩ := by
  rw [escField, if_neg hw, takeU_er hb]

theorem blockSize_there (hb : bitsAt s q (bsEscBits h.bscode)) : blockSize s h ⟨q, f⟩ =
    .ok ({ h with bs := bscodeSize h.bscode (bitRead s q (bsEscBits h.bscode)) }, escEnd q f (bsEscBits h.bscode)) := by
  rw [blockSize_eq, ok_bind (escField_there hb), pure_apply]

theorem blockSize_missing (hw : bsEscBits h.bscode ≠ 0) (hb : ¬ bitsAt s q (bsEscBits h.bscode)) :
    blockSize s h ⟨q, f⟩ = .error ⟨.outOfBounds, q⟩ := by
  rw [blockSize_eq, er_bind (escField_missing hw hb)]

theorem sampleRate_there (legal : h.srcode < 15) (hb : bitsAt s q (srEscBits h.srcode)) : sampleRate s h ⟨q, f⟩ =
    .ok ({ h with rate := srcodeRate s h.srcode (bitRead s q (srEscBits h.srcode)) },
      escEnd q f (srEscBits h.srcode)) := by
  rw [sampleRate_eq s legal, ok_bind (escField_there hb), pure_apply]

theorem sampleRate_missing (legal : h.srcode < 15) (hw : srEscBits h.srcode ≠ 0)
    (hb : ¬ bitsAt s q (srEscBits h.srcode)) : sampleRate s h ⟨q, f⟩ = .error ⟨.outOfBounds, q⟩ := by
  rw [sampleRate_eq s legal, er_bind (escField_missing hw hb)]

end Escapes

/-- A header code whose stage raises fails the frame. -/
theorem runHdr_fails {s : State} {stage : Hdr → Stage Hdr} {e : ErrCode} {p : Nat}
    (h : stage s.work.hdr (workCur s) = .error ⟨e, p⟩) : ∃ t, runHdr s stage = .next t ∧ frameFailed s t e p :=
  ⟨_, runHdr_error h, failFrame_failed _ _⟩

section Codes

variable {s : State} {code : Nat}

/-- A legal BSCODE whose BS_ESC, if it asks for one, is there. -/
theorem runHdr_blockSize (legal : code ≠ 0) (hb : bitsAt s s.work.cur (bsEscBits code)) :
    runHdr s (blockSizeCode s code) = .next (workDone s
      { s.work with
        cur := s.work.cur + bsEscBits code
        hdr := { s.work.hdr with bscode := code, bs := bscodeSize code (bitRead s s.work.cur (bsEscBits code)) } }
      (escEnd s.work.cur s.fpos.toNat (bsEscBits code)).fpos) :=
  runHdr_ok ((ok_bind (bscodeField_eq_ok.2 ⟨legal, rfl, rfl⟩)).trans (blockSize_there hb))

/-- A legal SRCODE whose SR_ESC, if it asks for one, is there. -/
theorem runHdr_sampleRate (legal : code < 15) (hb : bitsAt s s.work.cur (srEscBits code)) :
    runHdr s (sampleRateCode s code) = .next (workDone s
      { s.work with
        cur := s.work.cur + srEscBits code
        hdr := { s.work.hdr with srcode := code, rate := srcodeRate s code (bitRead s s.work.cur (srEscBits code)) } }
      (escEnd s.work.cur s.fpos.toNat (srEscBits code)).fpos) :=
  runHdr_ok ((ok_bind (srcodeField_eq_ok.2 ⟨by omega, rfl, rfl⟩)).trans (sampleRate_there legal hb))

theorem runHdr_blockSize_missing (legal : code ≠ 0) (hw : bsEscBits code ≠ 0)
    (hb : ¬ bitsAt s s.work.cur (bsEscBits code)) :
    ∃ t, runHdr s (blockSizeCode s code) = .next t ∧ frameFailed s t .outOfBounds s.work.cur :=
  runHdr_fails ((ok_bind (bscodeField_eq_ok.2 ⟨legal, rfl, rfl⟩)).trans (blockSize_missing hw hb))

theorem runHdr_sampleRate_missing (legal : code < 15) (hw : srEscBits code ≠ 0)
    (hb : ¬ bitsAt s s.work.cur (srEscBits code)) :
    ∃ t, runHdr s (sampleRateCode s code) = .next t ∧ frameFailed s t .outOfBounds s.work.cur :=
  runHdr_fails ((ok_bind (srcodeField_eq_ok.2 ⟨by omega, rfl, rfl⟩)).trans (sampleRate_missing legal hw hb))

end Codes

/-- BSCODE 1xxx asks for no escape field (R120). -/
theorem bsEscBits_shift (n : Nat) : bsEscBits (8 + n) = 0 := by
  rw [bsEscBits, if_neg (by omega), if_neg (by omega)]

/-- BSCODE 1xxx is a power of two (R120). -/
theorem bscodeSize_shift (n v : Nat) : bscodeSize (8 + n) v = 256 * 2 ^ n := by
  rw [bscodeSize, if_neg (by omega), if_neg (by omega), if_neg (by omega), Nat.add_sub_cancel_left]

theorem runHdr_blockSize_shift (s : State) (low : BitVec 3) :
    runHdr s (blockSizeCode s (8 + low.toNat)) = .next (workDone s
      { s.work with hdr := { s.work.hdr with bscode := 8 + low.toNat, bs := 256 * 2 ^ low.toNat } } s.fpos.toNat) := by
  refine runHdr_ok (c := workCur s) ((ok_bind (bscodeField_eq_ok.2 ⟨by omega, rfl, rfl⟩)).trans ?_)
  simp only [blockSize_eq, bsEscBits_shift, bscodeSize_shift]
  rfl

/-- Settles O33: table sizes, powers of two, and the two escape fields, which are there or not. -/
theorem blockSizeCodes : Obligations.BlockSizeCodes := by
  refine fun s => ⟨runHdr_ok (stage := blockSizeCode s 1) rfl, runHdr_ok (stage := blockSizeCode s 2) rfl,
    runHdr_ok (stage := blockSizeCode s 3) rfl, runHdr_ok (stage := blockSizeCode s 4) rfl,
    runHdr_ok (stage := blockSizeCode s 5) rfl, runHdr_blockSize_shift s, fun hb => ?_, fun hb => ?_, fun hb => ?_,
    fun hb => ?_⟩
  · exact runHdr_blockSize (code := 6) (by decide) hb
  · exact runHdr_blockSize (code := 7) (by decide) hb
  · exact runHdr_blockSize_missing (code := 6) (by decide) (by decide) hb
  · exact runHdr_blockSize_missing (code := 7) (by decide) (by decide) hb

/-- Settles O34: the stream's rate, table rates, and the three escape fields, which are there or not. -/
theorem sampleRateCodes : Obligations.SampleRateCodes := by
  refine fun s => ⟨runHdr_ok (stage := sampleRateCode s 0) rfl, runHdr_ok (stage := sampleRateCode s 1) rfl,
    runHdr_ok (stage := sampleRateCode s 2) rfl, runHdr_ok (stage := sampleRateCode s 3) rfl,
    runHdr_ok (stage := sampleRateCode s 4) rfl, runHdr_ok (stage := sampleRateCode s 5) rfl,
    runHdr_ok (stage := sampleRateCode s 6) rfl, runHdr_ok (stage := sampleRateCode s 7) rfl,
    runHdr_ok (stage := sampleRateCode s 8) rfl, runHdr_ok (stage := sampleRateCode s 9) rfl,
    runHdr_ok (stage := sampleRateCode s 10) rfl, runHdr_ok (stage := sampleRateCode s 11) rfl,
    fun hb => ?_, fun hb => ?_, fun hb => ?_, fun hb => ?_, fun hb => ⟨?_, ?_⟩⟩
  · exact runHdr_sampleRate (code := 12) (by decide) hb
  · dsimp only
    rw [Nat.mul_one]
    exact runHdr_sampleRate (code := 13) (by decide) hb
  · exact runHdr_sampleRate (code := 14) (by decide) hb
  · exact runHdr_sampleRate_missing (code := 12) (by decide) (by decide) hb
  · exact runHdr_sampleRate_missing (code := 13) (by decide) (by decide) hb
  · exact runHdr_sampleRate_missing (code := 14) (by decide) (by decide) hb

/-! ### The end of a header -/

/-- The bytes from bit position `start` to bit position `p` have the checksum that stands at `p` (R214). -/
def crc8Matches (s : State) (start p : Nat) : Prop :=
  (crc8Of (memRead s (start / 8) (p / 8 - start / 8))).toNat = bitRead s p 8

section HeaderEnd

variable {s : State} {h : Hdr} {p f : Nat}

theorem headerCrc_missing (hb : ¬ bitsAt s p 8) : headerCrc s h ⟨p, f⟩ = .error ⟨.outOfBounds, p⟩ :=
  er_bind (takeU_er hb)

theorem headerCrc_wrong (hb : bitsAt s p 8) (hv : s.params.verifyCrc = true) (wrong : ¬ crc8Matches s h.start p) :
    headerCrc s h ⟨p, f⟩ = .error ⟨.headerChecksum, p⟩ := by
  refine (ok_bind (takeU_ok hb)).trans ((ok_bind (get_apply _)).trans (check_error ?_))
  rw [hv, Bool.true_and]
  exact decide_eq_true wrong

theorem headerCrc_accepted (hb : bitsAt s p 8) (good : s.params.verifyCrc = false ∨ crc8Matches s h.start p) :
    headerCrc s h ⟨p, f⟩ = .ok ({ h with crc8 := bitRead s p 8 }, ⟨p + 8, p⟩) := by
  refine (ok_bind (takeU_ok hb)).trans ((ok_bind (get_apply _)).trans (ok_bind (raiseIf_eq_ok (u := ()).2 ⟨?_, rfl⟩)))
  obtain unverified | matching := good
  · rw [unverified, Bool.false_and]
  · exact Bool.and_eq_false_iff.2 (.inr (decide_eq_false (not_not.2 matching)))

theorem channelCheck_wrong (hc : h.channels ≠ s.streamCh.toNat) :
    channelCheck s h ⟨p, f⟩ = .error ⟨.channelMismatch, f⟩ := raiseIf_eq_error.2 ⟨decide_eq_true hc, rfl⟩

theorem channelCheck_right (hc : h.channels = s.streamCh.toNat) : channelCheck s h ⟨p, f⟩ = .ok ((), ⟨p, f⟩) :=
  raiseIf_eq_ok.2 ⟨decide_eq_false (not_not.2 hc), rfl⟩

end HeaderEnd

/-- Settles O50: CRC8 is there, is right, and so is the channel count. -/
theorem headerEndChecks : Obligations.HeaderEndChecks := fun _ _ _ _ =>
  ⟨headerCrc_missing, headerCrc_wrong, headerCrc_accepted, channelCheck_wrong, channelCheck_right⟩

end Sys2Proof.Machine

/-! The errors of a frame header in the order of its fields (41_frame_header.md rules R200 to R215;
60_exceptions.md rule R383): O52, O60. -/

namespace Sys2Proof.Machine

/-- Fewer bits, or bits further back, are there too. -/
theorem bitsAt.mono {s : State} {p w q v : Nat} (hb : bitsAt s p w) (h : q + v ≤ p + w) : bitsAt s q v := h.trans hb

/-- The input ends on a byte boundary, so a byte that begins inside it is there as a whole. -/
theorem bitsAt.whole_bytes {s : State} {p w : Nat} (h8 : p % 8 = 0) (hb : bitsAt s p w) :
    bitsAt s p (8 * ((w + 7) / 8)) := by
  unfold bitsAt endPos at *
  omega

/-! ### The first 32 bits, from one field on -/

/-- The reserved bit, the last of the first 32 (R208). -/
def codesFromRsv (s : State) (h : Hdr) : Stage Hdr := do
  let rsv ← takeU s 1
  reservedBitField rsv
  pure h

/-- The first 32 bits from BDCODE on (R207). -/
def codesFromBdcode (s : State) (h : Hdr) : Stage Hdr := do
  let bdcode ← takeU s 3
  let h ← bdcodeField bdcode h
  codesFromRsv s h

/-- The first 32 bits from CHCODE on (R206). -/
def codesFromChcode (s : State) (h : Hdr) : Stage Hdr := do
  let chcode ← takeU s 4
  let h ← chcodeField chcode h
  codesFromBdcode s h

/-- The first 32 bits from SRCODE on (R205). -/
def codesFromSrcode (s : State) (h : Hdr) : Stage Hdr := do
  let srcode ← takeU s 4
  let h ← srcodeField srcode h
  codesFromChcode s h

/-- The first 32 bits from BSCODE on (R204). -/
def codesFromBscode (s : State) (h : Hdr) : Stage Hdr := do
  let bscode ← takeU s 4
  let h ← bscodeField bscode h
  codesFromSrcode s h

/-- Each of the first 32 bits' fields follows the one before it (R200). -/
theorem headerCodes_eq (s : State) : headerCodes s = (do
    let start ← frameStart
    syncField s
    let strategy ← takeU s 1
    codesFromBscode s (setStrategy strategy { Hdr.idle with start := start })) := rfl

section FirstBits

variable {s : State} {p f : Nat}

/-- A frame starts on a byte boundary (R201). -/
theorem headerCodes_misaligned (h8 : p % 8 ≠ 0) : headerCodes s ⟨p, f⟩ = .error ⟨.syncError, p⟩ := by
  rw [headerCodes_eq, er_bind (if_pos h8)]

theorem headerCodes_aligned (h8 : p % 8 = 0) : headerCodes s ⟨p, f⟩ = (do
    syncField s
    let strategy ← takeU s 1
    codesFromBscode s (setStrategy strategy { Hdr.idle with start := p }) : Stage Hdr) ⟨p, p⟩ := by
  rw [headerCodes_eq, ok_bind (frameStart_eq_ok.2 ⟨h8, rfl, rfl⟩)]

theorem headerCodes_syncMissing (h8 : p % 8 = 0) (hb : ¬ bitsAt s p 15) :
    headerCodes s ⟨p, f⟩ = .error ⟨.outOfBounds, p⟩ :=
  (headerCodes_aligned h8).trans (er_bind (er_bind (takeU_er hb)))

theorem headerCodes_syncMismatch (h8 : p % 8 = 0) (hb : bitsAt s p 15) (hs : bitRead s p 15 ≠ 0x7FFC) :
    headerCodes s ⟨p, f⟩ = .error ⟨.syncError, p⟩ := by
  have check : raiseIf (decide (bitRead s p 15 ≠ 0x7FFC)) .syncError ⟨p + 15, p⟩ = .error ⟨.syncError, p⟩ :=
    raiseIf_eq_error.2 ⟨decide_eq_true hs, rfl⟩
  exact (headerCodes_aligned h8).trans (er_bind ((ok_bind (takeU_ok hb)).trans check))

/-- The header is at BSCODE once SYNC and STRATEGY have passed. -/
theorem headerCodes_atBscode (h8 : p % 8 = 0) (hs : bitRead s p 15 = 0x7FFC) (hb : bitsAt s p 16) :
    ∃ h, headerCodes s ⟨p, f⟩ = codesFromBscode s h ⟨p + 16, p + 15⟩ := by
  have sync : syncField s ⟨p, p⟩ = .ok ((), ⟨p + 15, p⟩) :=
    syncField_eq_ok.2 ⟨(hb.mono (by omega) : bitsAt s p 15), hs, rfl⟩
  exact ⟨_, (headerCodes_aligned h8).trans ((ok_bind sync).trans (ok_bind (takeU_ok (hb.mono (by omega)))))⟩

/-- … at SRCODE once BSCODE has. -/
theorem headerCodes_atSrcode (h8 : p % 8 = 0) (hs : bitRead s p 15 = 0x7FFC) (hbs : bitRead s (p + 16) 4 ≠ 0)
    (hb : bitsAt s p 20) : ∃ h, headerCodes s ⟨p, f⟩ = codesFromSrcode s h ⟨p + 20, p + 16⟩ := by
  obtain ⟨h, run⟩ := headerCodes_atBscode (f := f) h8 hs (hb.mono (by omega))
  exact ⟨_, run.trans ((ok_bind (takeU_ok (hb.mono (by omega)))).trans (ok_bind (bscodeField_eq_ok.2 ⟨hbs, rfl, rfl⟩)))⟩

/-- … at CHCODE once SRCODE has. -/
theorem headerCodes_atChcode (h8 : p % 8 = 0) (hs : bitRead s p 15 = 0x7FFC) (hbs : bitRead s (p + 16) 4 ≠ 0)
    (hsr : bitRead s (p + 20) 4 ≠ 15) (hb : bitsAt s p 24) :
    ∃ h, headerCodes s ⟨p, f⟩ = codesFromChcode s h ⟨p + 24, p + 20⟩ := by
  obtain ⟨h, run⟩ := headerCodes_atSrcode (f := f) h8 hs hbs (hb.mono (by omega))
  exact ⟨_, run.trans ((ok_bind (takeU_ok (hb.mono (by omega)))).trans (ok_bind (srcodeField_eq_ok.2 ⟨hsr, rfl, rfl⟩)))⟩

/-- … at BDCODE once CHCODE has. -/
theorem headerCodes_atBdcode (h8 : p % 8 = 0) (hs : bitRead s p 15 = 0x7FFC) (hbs : bitRead s (p + 16) 4 ≠ 0)
    (hsr : bitRead s (p + 20) 4 ≠ 15) (hch : bitRead s (p + 24) 4 < 11) (hb : bitsAt s p 28) :
    ∃ h, headerCodes s ⟨p, f⟩ = codesFromBdcode s h ⟨p + 28, p + 24⟩ := by
  obtain ⟨h, run⟩ := headerCodes_atChcode (f := f) h8 hs hbs hsr (hb.mono (by omega))
  exact ⟨_, run.trans ((ok_bind (takeU_ok (hb.mono (by omega)))).trans (ok_bind (chcodeField_eq_ok.2 ⟨hch, rfl, rfl⟩)))⟩

/-- … at RSV once BDCODE has. -/
theorem headerCodes_atRsv (h8 : p % 8 = 0) (hs : bitRead s p 15 = 0x7FFC) (hbs : bitRead s (p + 16) 4 ≠ 0)
    (hsr : bitRead s (p + 20) 4 ≠ 15) (hch : bitRead s (p + 24) 4 < 11) (hbd : bitRead s (p + 28) 3 ≠ 3)
    (hb : bitsAt s p 31) : ∃ h, headerCodes s ⟨p, f⟩ = codesFromRsv s h ⟨p + 31, p + 28⟩ := by
  obtain ⟨h, run⟩ := headerCodes_atBdcode (f := f) h8 hs hbs hsr hch (hb.mono (by omega))
  exact ⟨_, run.trans ((ok_bind (takeU_ok (hb.mono (by omega)))).trans (ok_bind (bdcodeField_eq_ok.2 ⟨hbd, rfl, rfl⟩)))⟩

end FirstBits

/-- A code that is there and fails its check. -/
theorem readCode_error {s : State} {w p f : Nat} {bad : Nat → Bool} {e : ErrCode} {store : Nat → Hdr}
    {next : Hdr → Stage Hdr} (hb : bitsAt s p w) (h : bad (bitRead s p w) = true) :
    (do
      let v ← takeU s w
      let h ← (do raiseIf (bad v) e; pure (store v) : Stage Hdr)
      next h : Stage Hdr) ⟨p, f⟩ = .error ⟨e, p⟩ :=
  (ok_bind (takeU_ok hb)).trans (er_bind (check_error h))

/-- Settles O52: the header is at the first field that fails, which is missing or fails its check. -/
theorem headerErrorsInOrder : Obligations.HeaderErrorsInOrder := by
  intro s ready p raises sync bs sr ch bd
  have fails {e : ErrCode} {q : Nat} (h : headerCodes s ⟨p, p⟩ = .error ⟨e, q⟩) : raises e q :=
    decodeFrame_headerError ready (er_bind h)
  refine ⟨fun h8 => ?_, fun h8 hn => ?_, fun h8 hb hn => ?_, fun ⟨h8, hs⟩ hb hn => ?_, fun ⟨h8, hs⟩ hb hn => ?_,
    fun ⟨⟨h8, hs⟩, hbs⟩ hb hn => ?_, fun ⟨⟨⟨h8, hs⟩, hbs⟩, hsr⟩ hb hn => ?_, fun ⟨⟨⟨h8, hs⟩, hbs⟩, hsr⟩ hb hn => ?_,
    fun ⟨⟨⟨⟨h8, hs⟩, hbs⟩, hsr⟩, hch⟩ hb hn => ?_, fun ⟨⟨⟨⟨⟨h8, hs⟩, hbs⟩, hsr⟩, hch⟩, hbd⟩ hb hn => ?_⟩
  · exact fails (headerCodes_misaligned h8)
  · exact fails (headerCodes_syncMissing h8 fun h => hn (h.whole_bytes h8))
  · exact fails (headerCodes_syncMismatch h8 (hb.mono (by omega)) fun h => hn ⟨h8, h⟩)
  · have missing : ¬ bitsAt s (p + 16) 4 := fun h => hn ((h.mono (by omega) : bitsAt s p 20).whole_bytes h8)
    obtain ⟨h, run⟩ := headerCodes_atBscode (f := p) h8 hs hb
    exact fails (run.trans (er_bind (takeU_er missing)))
  · have code : bitRead s (p + 16) 4 = 0 := not_not.1 fun h => hn ⟨⟨h8, hs⟩, h⟩
    obtain ⟨h, run⟩ := headerCodes_atBscode (f := p) h8 hs (hb.mono (by omega))
    exact fails (run.trans (readCode_error (hb.mono (by omega)) (decide_eq_true code)))
  · have code : bitRead s (p + 20) 4 = 15 := not_not.1 fun h => hn ⟨⟨⟨h8, hs⟩, hbs⟩, h⟩
    obtain ⟨h, run⟩ := headerCodes_atSrcode (f := p) h8 hs hbs (hb.mono (by omega))
    exact fails (run.trans (readCode_error (hb.mono (by omega)) (decide_eq_true code)))
  · have missing : ¬ bitsAt s (p + 24) 4 := fun h => hn ((h.mono (by omega) : bitsAt s p 28).whole_bytes h8)
    obtain ⟨h, run⟩ := headerCodes_atChcode (f := p) h8 hs hbs hsr hb
    exact fails (run.trans (er_bind (takeU_er missing)))
  · have code : 11 ≤ bitRead s (p + 24) 4 := Nat.not_lt.1 fun h => hn ⟨⟨⟨⟨h8, hs⟩, hbs⟩, hsr⟩, h⟩
    obtain ⟨h, run⟩ := headerCodes_atChcode (f := p) h8 hs hbs hsr (hb.mono (by omega))
    exact fails (run.trans (readCode_error (hb.mono (by omega)) (decide_eq_true code)))
  · have code : bitRead s (p + 28) 3 = 3 := not_not.1 fun h => hn ⟨⟨⟨⟨⟨h8, hs⟩, hbs⟩, hsr⟩, hch⟩, h⟩
    obtain ⟨h, run⟩ := headerCodes_atBdcode (f := p) h8 hs hbs hsr hch (hb.mono (by omega))
    exact fails (run.trans (readCode_error (hb.mono (by omega)) (decide_eq_true code)))
  · have bit : bitRead s (p + 31) 1 = 1 := by simp [bitRead, hn]
    have bad : decide (bitRead s (p + 31) 1 ≠ 0) = true := by rw [bit]; rfl
    obtain ⟨h, run⟩ := headerCodes_atRsv (f := p) h8 hs hbs hsr hch hbd (hb.mono (by omega))
    exact fails (run.trans ((ok_bind (takeU_ok (hb.mono (by omega)))).trans (check_error bad)))

/-! ### From NUMBER on, from one field on -/

/-- A legal number that is there (40_cursor.md rule R168). -/
theorem takeUtf8_pass {s : State} {q f : Nat} (hb : bitsAt s q (8 * numberBytes (bitRead s q 8)))
    (legal : bitRead s q 8 < 0x80 ∨ 0xC0 ≤ bitRead s q 8 ∧ bitRead s q 8 < 0xF8)
    (cont : ∀ i, 1 ≤ i → i < numberBytes (bitRead s q 8) → bitRead s (q + 8 * i) 8 / 64 = 0b10) :
    takeUtf8 s ⟨q, f⟩ = .ok (numberOf s q, ⟨q + 8 * numberBytes (bitRead s q 8), q⟩) := by
  obtain ⟨v, lead⟩ := leadInfo_legal legal
  obtain ⟨n, bytes⟩ : ∃ n, numberBytes (bitRead s q 8) = n + 1 := by
    unfold numberBytes
    split_ifs <;> exact ⟨_, rfl⟩
  rw [bytes] at lead hb cont ⊢
  have read := (takeUtf8_lead (f := f) (hb.mono (by omega)) lead).trans (utf8Rest_number hb cont)
  rw [read, (takeUtf8_value read).1]

/-- The header when its first 32 bits have passed (R201 to R208). -/
def codesHdr (s : State) (p : Nat) : Hdr :=
  { Hdr.idle with
    start := p
    strategy := bitRead s (p + 15) 1
    bscode := bitRead s (p + 16) 4
    srcode := bitRead s (p + 20) 4
    chcode := bitRead s (p + 24) 4
    bdcode := bitRead s (p + 28) 3 }

/-- The header from CRC8 on (R214, R215). -/
def headerFromCrc8 (s : State) (h : Hdr) : Stage Hdr := do
  let h ← headerCrc s h
  channelCheck s h
  pure h

/-- The header from SR_ESC on (R211 to R213). -/
def headerFromSrEsc (s : State) (h : Hdr) : Stage Hdr := do
  let h ← sampleRate s h
  headerFromCrc8 s (channelSetup (bitDepth s h))

/-- The header from BS_ESC on (R210). -/
def headerFromBsEsc (s : State) (h : Hdr) : Stage Hdr := do
  let h ← blockSize s h
  headerFromSrEsc s h

theorem headerRest_eq (s : State) (h : Hdr) : headerRest s h = (do
    let number ← takeUtf8 s
    headerFromBsEsc s { h with number := number }) := rfl

theorem srEscAt_eq (s : State) (p : Nat) : srEscAt s p = bsEscAt s p + bsEscBits (bitRead s (p + 16) 4) := rfl

theorem crc8At_eq (s : State) (p : Nat) : crc8At s p = srEscAt s p + srEscBits (bitRead s (p + 20) 4) := rfl

/-- The block size is that of BSCODE and of BS_ESC where it stands (R210). -/
theorem blockSizeOf_eq (s : State) (p : Nat) : blockSizeOf s p =
    bscodeSize (bitRead s (p + 16) 4) (bitRead s (bsEscAt s p) (bsEscBits (bitRead s (p + 16) 4))) := by
  unfold blockSizeOf bscodeSize bsEscBits
  generalize bitRead s (p + 16) 4 = code
  by_cases h8 : code = 6
  · simp [h8]
  · by_cases h16 : code = 7
    · simp [h16]
    · simp [h8, h16]

/-- The sample rate is that of SRCODE and of SR_ESC where it stands (R211). -/
theorem sampleRateOf_eq (s : State) {p : Nat} (legal : bitRead s (p + 20) 4 < 15) : sampleRateOf s p =
    srcodeRate s (bitRead s (p + 20) 4) (bitRead s (srEscAt s p) (srEscBits (bitRead s (p + 20) 4))) := by
  unfold sampleRateOf srcodeRate srEscBits
  generalize bitRead s (p + 20) 4 = code at legal
  by_cases h12 : code = 12
  · simp [h12]
  · by_cases h13 : code = 13
    · simp [h13]
    · by_cases h14 : code = 14
      · simp [h14]
      · simp [show code ≤ 11 by omega]

/-- The channel count and the side channel of a channel assignment (R213). -/
theorem channelSetup_eq (h : Hdr) : channelSetup h = { h with
    channels := channelCount h.chcode
    side := if h.chcode ≤ 7 then none else if h.chcode = 9 then some 0 else some 1 } := by
  unfold channelSetup channelCount
  split_ifs <;> rfl

/-- The header that the bits from `p` on say (R200 to R214). -/
def hdrOf (s : State) (p : Nat) : Hdr :=
  { codesHdr s p with
    number := numberOf s (p + 32)
    bs := blockSizeOf s p
    rate := sampleRateOf s p
    bps := if bitRead s (p + 28) 3 = 0 then s.streamBps.toNat else depthTable (bitRead s (p + 28) 3)
    channels := channelCount (bitRead s (p + 24) 4)
    side := if bitRead s (p + 24) 4 ≤ 7 then none else if bitRead s (p + 24) 4 = 9 then some 0 else some 1
    crc8 := bitRead s (crc8At s p) 8 }

/-- The fields resolved after NUMBER, up to CRC8 (R210 to R213). -/
theorem hdrOf_eq (s : State) (p : Nat) : { hdrOf s p with crc8 := 0 } = channelSetup (bitDepth s
    { codesHdr s p with number := numberOf s (p + 32), bs := blockSizeOf s p, rate := sampleRateOf s p }) := by
  rw [channelSetup_eq]
  rfl

/-- NUMBER has passed: its value is read, and the cursor is at BS_ESC. -/
def numberPasses (s : State) (p : Nat) : Prop :=
  takeUtf8 s ⟨p + 32, p + 31⟩ = .ok (numberOf s (p + 32), ⟨bsEscAt s p, p + 32⟩)

section NumberOn

variable {s : State} {p f : Nat}

theorem headerCodesPass.srcode_lt (pass : headerCodesPass s p) : bitRead s (p + 20) 4 < 15 := by
  obtain ⟨-, -, -, -, legal, -, -, -⟩ := pass
  have := bitRead_lt s (p + 20) 4
  omega

/-- The header is at NUMBER once its first 32 bits have passed. -/
theorem frameHeader_atNumber (pass : headerCodesPass s p) :
    frameHeader s ⟨p, f⟩ = headerRest s (codesHdr s p) ⟨p + 32, p + 31⟩ := ok_bind (headerCodes_pass pass)

/-- … at BS_ESC once NUMBER has. -/
theorem frameHeader_atBsEsc (pass : headerCodesPass s p) (number : numberPasses s p) : frameHeader s ⟨p, f⟩ =
    headerFromBsEsc s { codesHdr s p with number := numberOf s (p + 32) } ⟨bsEscAt s p, p + 32⟩ := by
  rw [frameHeader_atNumber pass, headerRest_eq, ok_bind number]

/-- … at SR_ESC once BS_ESC is there. -/
theorem frameHeader_atSrEsc (pass : headerCodesPass s p) (number : numberPasses s p) (hb : srEscAt s p ≤ endPos s) :
    ∃ f', frameHeader s ⟨p, f⟩ = headerFromSrEsc s
      { codesHdr s p with number := numberOf s (p + 32), bs := blockSizeOf s p } ⟨srEscAt s p, f'⟩ := by
  rw [blockSizeOf_eq]
  exact ⟨_, (frameHeader_atBsEsc pass number).trans (ok_bind (blockSize_there hb))⟩

/-- … at CRC8 once SR_ESC is there. -/
theorem frameHeader_atCrc8 (pass : headerCodesPass s p) (number : numberPasses s p) (hb : crc8At s p ≤ endPos s) :
    ∃ f', frameHeader s ⟨p, f⟩ = headerFromCrc8 s { hdrOf s p with crc8 := 0 } ⟨crc8At s p, f'⟩ := by
  obtain ⟨f', run⟩ := frameHeader_atSrEsc (f := f) pass number ((Nat.le_add_right _ _).trans hb)
  rw [hdrOf_eq, sampleRateOf_eq s pass.srcode_lt]
  exact ⟨_, run.trans (ok_bind (sampleRate_there pass.srcode_lt hb))⟩

/-- … at the channel count once CRC8 has been accepted. -/
theorem frameHeader_atChannels (pass : headerCodesPass s p) (number : numberPasses s p) (hb : bitsAt s (crc8At s p) 8)
    (accepted : s.params.verifyCrc = false ∨ headerCrcGood s p) : frameHeader s ⟨p, f⟩ =
      (do channelCheck s (hdrOf s p); pure (hdrOf s p) : Stage Hdr) ⟨crc8At s p + 8, crc8At s p⟩ := by
  obtain ⟨f', run⟩ := frameHeader_atCrc8 (f := f) pass number ((Nat.le_add_right _ 8).trans hb)
  refine run.trans (ok_bind (headerCrc_accepted hb ?_))
  exact accepted

end NumberOn

/-- Settles O60: the header is at the first field from NUMBER on that fails, or has passed them all. -/
theorem headerErrorsFromNumber : Obligations.HeaderErrorsFromNumber := by
  intro s ready p raises q lead legal n cont crc checked chcode bdcode pass
  have fails {e : ErrCode} {x : Nat} (h : frameHeader s ⟨p, p⟩ = .error ⟨e, x⟩) : raises e x :=
    decodeFrame_headerError ready h
  have atNumber : frameHeader s ⟨p, p⟩ = headerRest s (codesHdr s p) ⟨q, p + 31⟩ := frameHeader_atNumber pass
  have one_byte : 1 ≤ n := by dsimp only [n, numberBytes]; split_ifs <;> omega
  refine ⟨fun hb => ?_, fun hb hl => ?_, fun hb hl hn => ?_, fun hb hl hn => ?_, fun hb hl hc => ?_⟩
  · exact fails (atNumber.trans (er_bind (er_bind (takeU_er hb))))
  · exact fails (atNumber.trans (er_bind (takeUtf8_illegal hb (leadInfo_illegal hl))))
  · obtain ⟨v, hv⟩ := leadInfo_legal hl
    exact fails (atNumber.trans (er_bind ((takeUtf8_lead hb hv).trans (utf8Rest_oob s n v q _ hn))))
  · obtain ⟨v, hv⟩ := leadInfo_legal hl
    have first : bitsAt s q 8 := hb.mono (by omega)
    exact fails (atNumber.trans (er_bind ((takeUtf8_lead first hv).trans (utf8Rest_bad s n v q _ hb hn))))
  have number : numberPasses s p := takeUtf8_pass hb hl hc
  have bs_esc : bsEscAt s p ≤ endPos s := hb
  refine ⟨fun missing => ?_, fun there missing => ?_, fun there missing => ?_, fun hcrc wrong => ?_,
    fun hcrc right mismatch => ?_, fun hcrc right channels => ?_⟩
  · rw [srEscAt_eq] at missing
    exact fails ((frameHeader_atBsEsc pass number).trans
      (er_bind (blockSize_missing (by dsimp only [codesHdr]; omega) (Nat.not_le.2 missing))))
  · rw [show crc = _ from crc8At_eq s p] at missing
    obtain ⟨f, run⟩ := frameHeader_atSrEsc (f := p) pass number there
    exact fails (run.trans
      (er_bind (sampleRate_missing pass.srcode_lt (by dsimp only [codesHdr]; omega) (Nat.not_le.2 missing))))
  · obtain ⟨f, run⟩ := frameHeader_atCrc8 (f := p) pass number there
    exact fails (run.trans (er_bind (headerCrc_missing missing)))
  · obtain ⟨f, run⟩ := frameHeader_atCrc8 (f := p) pass number ((Nat.le_add_right _ 8).trans hcrc)
    obtain ⟨verify, bad⟩ := not_or.1 wrong
    exact fails (run.trans (er_bind (headerCrc_wrong hcrc (Bool.eq_true_of_not_eq_false verify) bad)))
  · exact fails ((frameHeader_atChannels pass number hcrc right).trans (er_bind (channelCheck_wrong mismatch)))
  · exact (frameHeader_atChannels pass number hcrc right).trans (ok_bind (channelCheck_right channels))

end Sys2Proof.Machine

/-! The channel assignments and their decorrelation (41_frame_header.md rule R213; 45_assembly.md rules R336 to R339):
O35. -/

namespace Sys2Proof.Machine

/-! ### Decorrelation of a pair of channels -/

theorem allChecked_of_inDr {d : Nat} {vs : List Int} (h : ∀ v ∈ vs, inDr d v) : allChecked d vs = some vs :=
  allChecked_eq_some.2 ⟨rfl, fun v hv => (inRange_iff d v).2 (h v hv)⟩

section Pairs

variable {f : Int → Int → Int} {a b : List Int}

/-- A list is the pairwise image of two when its samples are. -/
theorem zipWith_eq_of_getD {l : List Int} (hab : a.length = b.length) (hl : l.length = a.length)
    (h : ∀ n < a.length, l.getD n 0 = f (a.getD n 0) (b.getD n 0)) : List.zipWith f a b = l := by
  refine List.ext_getElem (by simp [hab, hl]) fun n h1 h2 => ?_
  have := h n (hl ▸ h2)
  simpa [List.getD_eq_getElem?_getD, h2, hl ▸ h2, hab ▸ hl ▸ h2] using this.symm

theorem forall_mem_zipWith {P : Int → Prop} (hab : a.length = b.length)
    (h : ∀ n < a.length, P (f (a.getD n 0) (b.getD n 0))) : ∀ v ∈ List.zipWith f a b, P v := by
  intro v hv
  obtain ⟨n, hn, rfl⟩ := List.getElem_of_mem hv
  have ha : n < a.length := by simp at hn; omega
  have := h n ha
  simpa [List.getD_eq_getElem?_getD, ha, hab ▸ ha] using this

end Pairs

section Decorrelate

variable {d : Nat} {a b l r : List Int} (hab : a.length = b.length) (hl : l.length = a.length)
  (hr : r.length = a.length)

include hab

include hr in
theorem leftSide_eq (h : ∀ n < a.length, r.getD n 0 = a.getD n 0 - b.getD n 0) (fits : ∀ v ∈ r, inDr d v) :
    leftSide d a b = some [a, r] := by
  rw [leftSide, zipWith_eq_of_getD hab hr h, allChecked_of_inDr fits]

include hl in
theorem rightSide_eq (h : ∀ n < a.length, l.getD n 0 = b.getD n 0 + a.getD n 0) (fits : ∀ v ∈ l, inDr d v) :
    rightSide d a b = some [l, b] := by
  rw [rightSide, zipWith_eq_of_getD hab hl h, allChecked_of_inDr fits]

include hl hr in
theorem midSide_eq (doubled : ∀ n < a.length, inDr d (midDoubled (a.getD n 0) (b.getD n 0)))
    (sum : ∀ n < a.length, inDr d (midSum (a.getD n 0) (b.getD n 0)))
    (left : ∀ n < a.length, l.getD n 0 = midLeft (a.getD n 0) (b.getD n 0))
    (right : ∀ n < a.length, r.getD n 0 = midRight (a.getD n 0) (b.getD n 0))
    (fits : ∀ n < a.length, inDr d (midRight (a.getD n 0) (b.getD n 0))) : midSide d a b = some [l, r] := by
  rw [midSide, allChecked_of_inDr (forall_mem_zipWith hab doubled), allChecked_of_inDr (forall_mem_zipWith hab sum),
    allChecked_of_inDr (forall_mem_zipWith hab fits), zipWith_eq_of_getD hab hl left, zipWith_eq_of_getD hab hr right]

end Decorrelate

/-- Mid-side decoding gives back what the encoder's mid = (L+R) >> 1 and side = L - R were made of (R339). -/
theorem midSide_inverts (l r : Int) : midLeft ((l + r) / 2) (l - r) = l ∧ midRight ((l + r) / 2) (l - r) = r := by
  unfold midRight midLeft midSum midDoubled
  omega

theorem channelSetup_chcode (h : Hdr) : (channelSetup h).chcode = h.chcode := by rw [channelSetup_eq]

/-- Decorrelation that stays in DR (R336 to R339). -/
theorem decorrelateStage_of_some {s : State} {w : Work} {ch : List (List Int)} {c : Cur}
    (h : decorrelate s.params.datapathBits w.hdr.chcode (w.subs.map Subframe.samples) = some ch) :
    decorrelateStage s w c = .ok ({ w with chan := ch }, c) := by
  rw [decorrelateStage, h]
  rfl

/-- A legal CHCODE whose decorrelation stays in DR (R206, R213). -/
theorem runStage_channels {s : State} {code : Nat} {ch : List (List Int)} (legal : code < 11)
    (h : decorrelate s.params.datapathBits code (s.work.subs.map Subframe.samples) = some ch) :
    runStage s (channelsCode s code) = .next (workDone s
      { s.work with hdr := channelSetup { s.work.hdr with chcode := code }, chan := ch } s.fpos.toNat) := by
  refine runStage_ok (stage := channelsCode s code) (c := workCur s)
    ((ok_bind (chcodeField_eq_ok.2 ⟨legal, rfl, rfl⟩)).trans (decorrelateStage_of_some ?_))
  rw [channelSetup_chcode]
  exact h

/-- Independent channels are put out as they are (R336). -/
theorem runStage_independent (s : State) {code : Nat} (h : code ≤ 7) :
    runStage s (channelsCode s code) = .next (workDone s
      { s.work with
        hdr := { s.work.hdr with chcode := code, channels := code + 1, side := none }
        chan := s.work.subs.map Subframe.samples } s.fpos.toNat) := by
  have same (subs : List (List Int)) : decorrelate s.params.datapathBits code subs = some subs := by
    rw [decorrelate, if_neg (by omega), if_neg (by omega), if_neg (by omega)]
  rw [runStage_channels (by omega) (same _), channelSetup, if_pos h]

/-- Settles O35: each code is legal and sets up its channels, and its decorrelation is the pairwise formula. -/
theorem channelAssignments : Obligations.ChannelAssignments := by
  refine ⟨fun s => ⟨fun code => runStage_independent s (by omega), fun a b hsubs hab => ⟨fun r hr h fits => ?_,
    fun l hl h fits => ?_, fun l r hl hr h => ?_⟩⟩, midSide_inverts⟩
  · refine runStage_channels (code := 8) (by decide) ?_
    rw [hsubs]
    exact leftSide_eq hab hr h fits
  · refine runStage_channels (code := 9) (by decide) ?_
    rw [hsubs]
    exact rightSide_eq hab hl h fits
  · refine runStage_channels (code := 10) (by decide) ?_
    rw [hsubs]
    have right (n : Nat) (hn : n < a.length) : r.getD n 0 = midRight (a.getD n 0) (b.getD n 0) := by
      obtain ⟨-, -, left, right, -⟩ := h n hn
      rw [right, left]
      rfl
    refine midSide_eq hab hl hr (fun n hn => ?_) (fun n hn => ?_) (fun n hn => ?_) right (fun n hn => right n hn ▸ ?_)
    all_goals obtain ⟨doubled, sum, left, -, fits⟩ := h n hn
    · exact doubled
    · exact sum
    · exact left
    · exact fits

end Sys2Proof.Machine

/-! A bitstream code as a step against the stages that a frame decode runs at its field (log 5): O6. -/

namespace Sys2Proof.Machine

/-! ### A fetched code and a stage that do the same -/

/-- What a bitstream code makes of its stage's answer. -/
def stageOutcome (s : State) : Except Raise (Work × Cur) → Host.Outcome State Fault Refusal
  | .ok (w, c) => .next (workDone s { w with cur := c.cur } c.fpos)
  | .error e => .next (failFrame s e)

/-- What a field's step makes of its fetch's answer. -/
def fetchOutcome (s : State) : Except Raise (Instr × Cur) → Host.Outcome State Fault Refusal
  | .ok (i, c) => exec i (afterFetch s c)
  | .error e => .next (failFrame s e)

theorem runStage_eq_outcome (s : State) (stage : Work → Stage Work) :
    runStage s stage = stageOutcome s (stage s.work (workCur s)) := by
  obtain ⟨w, c, h, run⟩ | ⟨e, h, run⟩ := runStage_cases s stage <;> rw [run, h] <;> rfl

theorem fieldStep_eq_outcome (s : State) (f : Field) :
    fieldStep s f = fetchOutcome s (fetchField s f (workCur s)) := by
  cases h : fetchField s f (workCur s) with
  | ok r => exact fieldStep_ok h
  | error e => exact fieldStep_error h

/-- A code's outcome replaces all that the fetch has written. -/
theorem stageOutcome_afterFetch (s : State) (c : Cur) (r : Except Raise (Work × Cur)) :
    stageOutcome (afterFetch s c) r = stageOutcome s r := by cases r <;> rfl

/-- Two stages that differ at most in the cursor of the working state that they answer, which the outcome replaces. -/
def SameOutcome (x y : Stage Work) : Prop := ∀ s c, stageOutcome s (x c) = stageOutcome s (y c)

theorem SameOutcome.refl (x : Stage Work) : SameOutcome x x := fun _ _ => rfl

theorem SameOutcome.bind {α : Type} {x : Stage α} {f g : α → Stage Work} (h : ∀ a, SameOutcome (f a) (g a)) :
    SameOutcome (x >>= f) (x >>= g) := fun s c => by
  rw [bind_apply, bind_apply]
  cases x c with
  | ok r => exact h r.1 s r.2
  | error e => rfl

/-- Running the code that `x` fetches does what the stage `y` does, from every cursor that a read leaves. -/
def FetchRuns (s : State) (x : Stage Instr) (y : Stage Work) : Prop :=
  ∀ c, c.fpos < 2 ^ 64 → fetchOutcome s (x c) = stageOutcome s (y c)

/-- A field's step is the stage that its fetch and code do the same as. -/
theorem step_runs {s : State} {f : Field} {stage : Work → Stage Work} (hf : s.seq = some f)
    (h : FetchRuns s (fetchField s f) (stage s.work)) : step s = runStage s stage := by
  rw [step_field hf, fieldStep_eq_outcome, runStage_eq_outcome]
  exact h _ s.fpos.isLt

/-- A stage on the working header, as one on the working state. -/
def hdrStage (stage : Hdr → Stage Hdr) (w : Work) : Stage Work := do
  let h ← stage w.hdr
  pure { w with hdr := h }

/-- A stage on the working subframe record, as one on the working state. -/
def subStage (stage : Subframe → Stage Subframe) (w : Work) : Stage Work := do
  let f ← stage w.sub
  pure { w with sub := f }

theorem runHdr_eq_runStage (s : State) (stage : Hdr → Stage Hdr) : runHdr s stage = runStage s (hdrStage stage) := rfl

theorem runSubframe_eq_runStage (s : State) (stage : Subframe → Stage Subframe) :
    runSubframe s stage = runStage s (subStage stage) := rfl

theorem hdrStage_bind {α : Type} (x : Stage α) (next : α → Hdr → Stage Hdr) (w : Work) :
    hdrStage (fun h => x >>= fun a => next a h) w = x >>= fun a => hdrStage (next a) w := bind_assoc _ _ _

theorem subStage_bind {α : Type} (x : Stage α) (next : α → Subframe → Stage Subframe) (w : Work) :
    subStage (fun f => x >>= fun a => next a f) w = x >>= fun a => subStage (next a) w := bind_assoc _ _ _

theorem sameOutcome_hdrStage (stage : Hdr → Stage Hdr) (w : Work) (cur : Nat) :
    SameOutcome (hdrStage stage { w with cur := cur }) (hdrStage stage w) := .bind fun _ _ _ => rfl

theorem sameOutcome_subStage (stage : Subframe → Stage Subframe) (w : Work) (cur : Nat) :
    SameOutcome (subStage stage { w with cur := cur }) (subStage stage w) := .bind fun _ _ _ => rfl

namespace FetchRuns

variable {s : State} {i : Instr}

/-- A code whose stage does not look at the cursor of the working state. -/
theorem code {stage : Work → Stage Work} (h : ∀ c, exec i (afterFetch s c) = runStage (afterFetch s c) stage)
    (same : ∀ cur, SameOutcome (stage { s.work with cur := cur }) (stage s.work)) :
    FetchRuns s (pure i) (stage s.work) := fun c hc => by
  have cursor : workCur (afterFetch s c) = c := by
    obtain ⟨cur, fpos⟩ := c
    exact congrArg (Cur.mk cur) (Nat.mod_eq_of_lt hc)
  calc exec i (afterFetch s c)
      = stageOutcome (afterFetch s c) (stage { s.work with cur := c.cur } c) := by
        rw [h, runStage_eq_outcome, cursor]
        rfl
    _ = stageOutcome s (stage s.work c) := by rw [stageOutcome_afterFetch, same]

theorem hdrCode {stage : Hdr → Stage Hdr} (h : ∀ c, exec i (afterFetch s c) = runHdr (afterFetch s c) stage) :
    FetchRuns s (pure i) (hdrStage stage s.work) :=
  code (fun c => by rw [h, runHdr_eq_runStage]) (sameOutcome_hdrStage stage _)

theorem subCode {stage : Subframe → Stage Subframe}
    (h : ∀ c, exec i (afterFetch s c) = runSubframe (afterFetch s c) stage) :
    FetchRuns s (pure i) (subStage stage s.work) :=
  code (fun c => by rw [h, runSubframe_eq_runStage]) (sameOutcome_subStage stage _)

theorem raise (e : ErrCode) : FetchRuns s (raise e) (raise e) := fun _ _ => rfl

theorem raiseIf {b : Bool} {e : ErrCode} {x : Unit → Stage Instr} {y : Unit → Stage Work}
    (h : b = false → FetchRuns s (x ()) (y ())) : FetchRuns s (raiseIf b e >>= x) (raiseIf b e >>= y) := by
  cases b with
  | false => exact h rfl
  | true => exact raise e

theorem get {x : Cur → Stage Instr} {y : Stage Work} (h : ∀ c, FetchRuns s (x c) y) : FetchRuns s (get >>= x) y :=
  fun c hc => h c c hc

/-- A read inside the input leaves FPOS at a position that the register holds. -/
theorem takeU {w : Nat} {x : Nat → Stage Instr} {y : Nat → Stage Work} (small : endPos s < 2 ^ 64)
    (h : ∀ v < 2 ^ w, FetchRuns s (x v) (y v)) : FetchRuns s (takeU s w >>= x) (takeU s w >>= y) := fun c _ => by
  by_cases hb : bitsAt s c.cur w
  · rw [ok_bind (takeU_ok hb), ok_bind (takeU_ok hb)]
    exact h _ (bitRead_lt s _ _) _ (lt_of_le_of_lt ((Nat.le_add_right _ w).trans hb) small)
  · rw [er_bind (takeU_er hb), er_bind (takeU_er hb)]
    rfl

end FetchRuns

/-! ### The row of each value of a field -/

theorem fieldInstr_of_lt {f : Field} {v : Nat} {i : Instr} (hv : v < 2 ^ f.width) (h : decodeFieldValue f v = .ok i) :
    fieldInstr f v = pure i := fieldInstr_ok ((if_pos hv).trans h)

/-- A row that the decoder finds by a test. -/
theorem exec_ite {p : Prop} [Decidable p] {t : State} {i j : Instr} {o : Host.Outcome State Fault Refusal}
    (hi : p → exec i t = o) (hj : ¬ p → exec j t = o) : exec (if p then i else j) t = o := by
  split
  · exact hi ‹_›
  · exact hj ‹_›

/-- A subframe header's row whose TYPE is `type` (R125). -/
theorem exec_of_type {t : State} {i : Instr} {k type : Nat} {wflag : Bool}
    (h : exec i t = runStage t (subframeBody t k wflag)) (hk : k = type) :
    exec i t = runStage t (subframeBody t type wflag) := hk ▸ h

section Rows

variable (t : State) {v : Nat}

theorem exec_bscodeRow (hv : v < 16) : exec (decodeBscode v) t = runHdr t (blockSizeCode t v) := by
  interval_cases v <;> rfl

theorem exec_srcodeRow (hv : v < 16) : exec (decodeSrcode v) t = runHdr t (sampleRateCode t v) := by
  interval_cases v <;> rfl

theorem exec_chcodeRow (hv : v < 16) : exec (decodeChcode v) t = runStage t (channelsCode t v) := by
  interval_cases v <;> rfl

theorem exec_bdcodeRow (hv : v < 8) : exec (decodeBdcode v) t = runHdr t (bitDepthCode t v) := by
  interval_cases v <;> rfl

theorem exec_subframeRow (hv : v < 128) :
    exec (decodeSubframe v) t = runStage t (subframeBody t (v / 2) (v % 2 = 1)) := by
  unfold decodeSubframe
  dsimp only
  refine exec_ite (fun _ => by omega) fun _ => ?_
  repeat' refine exec_ite (fun _ => ?_) fun _ => ?_
  all_goals
    refine exec_of_type rfl ?_
    bv_omega

theorem exec_methodRow (hv : v < 4) :
    exec (if v = 0 then .residualRice4 else if v = 1 then .residualRice5 else .residualReserved (BitVec.ofNat 1 v)) t =
      runSubframe t (methodField v) := by
  interval_cases v <;> rfl

/-- A parameter's stage: an escaped partition for the escape value, a Rice partition for any other (R265, R266). -/
def partitionOf (s : State) (escape param : Nat) (w : Work) : Stage Work :=
  subStage (fun f => if param = escape then escapePartition s w.hdr.bs f else ricePartition s w.hdr.bs param f) w

theorem exec_param4Row (hv : v < 16) :
    exec (if v = 15 then .partitionEscape4 else .partitionRice4 (BitVec.ofNat 4 v)) t =
      runStage t (partitionOf t 15 v) := by
  interval_cases v <;> rfl

theorem exec_param5Row (hv : v < 32) :
    exec (if v = 31 then .partitionEscape5 else .partitionRice5 (BitVec.ofNat 5 v)) t =
      runStage t (partitionOf t 31 v) := by
  interval_cases v <;> rfl

theorem exec_escapeWidthRow (hv : v < 32) :
    exec (.escapeWidth (BitVec.ofNat 5 v)) t = runSubframe t (escapeField t t.work.hdr.bs v) := by
  interval_cases v <;> rfl

theorem exec_precisionRow (hv : v < 16) :
    exec (if v = 15 then .lpcPrecisionInvalid else .lpcPrecision (BitVec.ofNat 4 v)) t =
      runSubframe t (precisionField v) := by
  interval_cases v <;> rfl

theorem exec_shiftRow (hv : v < 32) :
    exec (if v < 16 then .lpcShift (BitVec.ofNat 4 v) else .lpcShiftNegative (BitVec.ofNat 4 v)) t =
      runSubframe t (shiftField v) := by
  interval_cases v <;> rfl

end Rows

/-- The number whose lead byte is `lead`: its remaining bytes, or no number (40_cursor.md rule R168). -/
def numberRest (s : State) (lead : Nat) : Stage Nat :=
  match leadInfo lead with
  | some (n, payload) => utf8Rest s n payload
  | none => raise .invalidEncoding

theorem takeUtf8_eq (s : State) : takeUtf8 s = takeU s 8 >>= numberRest s := rfl

/-- NUMBER from its lead byte on, in the working header (R209). -/
def numberField (s : State) (lead : Nat) (h : Hdr) : Stage Hdr := do
  let number ← numberRest s lead
  pure { h with number := number }

/-- A row whose lead byte announces `n` bytes (R124). -/
theorem exec_of_lead {t : State} {i : Instr} {v n k payload : Nat} (h : leadInfo v = some (n, payload))
    (hi : exec i t = runHdr t (numberCode t n k)) (hk : k = payload) : exec i t = runHdr t (numberField t v) := by
  have rest : numberRest t v = utf8Rest t n payload := by rw [numberRest, h]
  rw [hi, hk]
  refine congrArg (runHdr t) (funext fun hdr => ?_)
  rw [numberField, rest]
  rfl

/-- A row whose byte is no lead byte (R124). -/
theorem exec_of_noLead {t : State} {i : Instr} {v : Nat} (h : leadInfo v = none)
    (hi : exec i t = runStage t fun _ => raise .invalidEncoding) : exec i t = runHdr t (numberField t v) := by
  have rest : numberRest t v = raise .invalidEncoding := by rw [numberRest, h]
  rw [hi]
  refine congrArg (runStage t) (funext fun w => ?_)
  rw [numberField, rest]
  rfl

theorem exec_leadRow (t : State) {v : Nat} (hv : v < 256) :
    exec (decodeUtf8Lead v) t = runHdr t (numberField t v) := by
  refine exec_ite (fun h1 => ?_) fun h1 => exec_ite (fun h2 => ?_) fun h2 => exec_ite (fun h3 => ?_) fun h3 =>
    exec_ite (fun h4 => ?_) fun h4 => exec_ite (fun h5 => ?_) fun h5 => ?_
  · exact exec_of_lead (leadInfo_one h1) rfl (by bv_omega)
  · exact exec_of_noLead (leadInfo_illegal (by omega)) rfl
  · exact exec_of_lead (leadInfo_two (by omega) h3) rfl (by bv_omega)
  · exact exec_of_lead (leadInfo_three (by omega) h4) rfl (by bv_omega)
  · exact exec_of_lead (leadInfo_four (by omega) h5) rfl (by bv_omega)
  · exact exec_of_noLead (leadInfo_illegal (by omega)) rfl

/-! ### Each field -/

namespace SameInput

variable {s t : State}

theorem blockSizeCode (h : SameInput s t) : Machine.blockSizeCode s = Machine.blockSizeCode t := by
  unfold Machine.blockSizeCode
  rw [h.blockSize]

theorem sampleRateCode (h : SameInput s t) : Machine.sampleRateCode s = Machine.sampleRateCode t := by
  unfold Machine.sampleRateCode
  rw [h.sampleRate]

theorem channelsCode (h : SameInput s t) : Machine.channelsCode s = Machine.channelsCode t := by
  unfold Machine.channelsCode
  rw [h.decorrelateStage]

theorem bitDepthCode (h : SameInput s t) : Machine.bitDepthCode s = Machine.bitDepthCode t := by
  unfold Machine.bitDepthCode
  rw [h.bitDepth]

theorem numberField (h : SameInput s t) : Machine.numberField s = Machine.numberField t := by
  unfold Machine.numberField Machine.numberRest
  rw [h.utf8Rest]

end SameInput

theorem sameOutcome_channelsCode (s : State) (code : Nat) (w : Work) (cur : Nat) :
    SameOutcome (channelsCode s code { w with cur := cur }) (channelsCode s code w) := .bind fun h => by
  unfold decorrelateStage
  dsimp only
  split
  · exact fun _ _ => rfl
  · exact .refl _

theorem sameOutcome_subframeBody (s : State) (type : Nat) (wflag : Bool) (w : Work) (cur : Nat) :
    SameOutcome (subframeBody s type wflag { w with cur := cur }) (subframeBody s type wflag w) := .bind fun _ => by
  split
  · exact .refl _
  · exact .bind fun _ => .bind fun _ => .bind fun _ _ _ => rfl

theorem sameOutcome_partitionOf (s : State) (escape param : Nat) (w : Work) (cur : Nat) :
    SameOutcome (partitionOf s escape param { w with cur := cur }) (partitionOf s escape param w) :=
  sameOutcome_subStage _ w cur

theorem partitionOf_afterFetch (s : State) (c : Cur) : partitionOf (afterFetch s c) = partitionOf s := by
  unfold partitionOf
  rw [(SameInput.afterFetch s c).escapePartition, (SameInput.afterFetch s c).ricePartition]

/-- A partition is its parameter and the stage that the parameter asks for (R265). -/
theorem partition_stage (s : State) (w : Work) : subStage (partition s w.hdr.bs) w =
    takeU s (paramBits w.sub.method) >>= fun param => partitionOf s (escapeParam w.sub.method) param w :=
  bind_assoc _ _ _

section Fields

variable {s : State} (small : endPos s < 2 ^ 64)

include small

/-- A field that is one read, and whose every value is a row that runs the stage `stage` on that value. -/
theorem fetchRuns_rows {f : Field} {row : Nat → Instr} {stage : State → Nat → Work → Stage Work}
    (decoded : ∀ v, decodeFieldValue f v = .ok (row v))
    (runs : ∀ t v, v < 2 ^ f.width → exec (row v) t = runStage t (stage t v))
    (input : ∀ c, stage (afterFetch s c) = stage s)
    (same : ∀ v cur, SameOutcome (stage s v { s.work with cur := cur }) (stage s v s.work)) :
    FetchRuns s (takeU s f.width >>= fieldInstr f) (takeU s f.width >>= fun v => stage s v s.work) :=
  .takeU small fun v hv => by
    rw [fieldInstr_of_lt hv (decoded v)]
    exact .code (fun c => by rw [runs _ v hv, input]) (same v)

theorem fetchRuns_hdrRows {f : Field} {row : Nat → Instr} {stage : State → Nat → Hdr → Stage Hdr}
    (decoded : ∀ v, decodeFieldValue f v = .ok (row v))
    (runs : ∀ t v, v < 2 ^ f.width → exec (row v) t = runHdr t (stage t v))
    (input : ∀ c, stage (afterFetch s c) = stage s) : FetchRuns s (takeU s f.width >>= fieldInstr f)
      (hdrStage (fun h => takeU s f.width >>= fun v => stage s v h) s.work) := by
  rw [hdrStage_bind]
  exact fetchRuns_rows small (stage := fun t v => hdrStage (stage t v)) decoded runs (fun c => by rw [input])
    fun v => sameOutcome_hdrStage _ _

theorem fetchRuns_subRows {f : Field} {row : Nat → Instr} {stage : State → Nat → Subframe → Stage Subframe}
    (decoded : ∀ v, decodeFieldValue f v = .ok (row v))
    (runs : ∀ t v, v < 2 ^ f.width → exec (row v) t = runSubframe t (stage t v))
    (input : ∀ c, stage (afterFetch s c) = stage s) : FetchRuns s (takeU s f.width >>= fieldInstr f)
      (subStage (fun g => takeU s f.width >>= fun v => stage s v g) s.work) := by
  rw [subStage_bind]
  exact fetchRuns_rows small (stage := fun t v => subStage (stage t v)) decoded runs (fun c => by rw [input])
    fun v => sameOutcome_subStage _ _

theorem fetchRuns_bscode : FetchRuns s (fetchField s .bscode4)
    (hdrStage (fun h => takeU s 4 >>= fun code => blockSizeCode s code h) s.work) :=
  fetchRuns_hdrRows small (f := .bscode4) (fun _ => rfl) (fun t _ => exec_bscodeRow t)
    fun c => (SameInput.afterFetch s c).blockSizeCode

theorem fetchRuns_srcode : FetchRuns s (fetchField s .srcode4)
    (hdrStage (fun h => takeU s 4 >>= fun code => sampleRateCode s code h) s.work) :=
  fetchRuns_hdrRows small (f := .srcode4) (fun _ => rfl) (fun t _ => exec_srcodeRow t)
    fun c => (SameInput.afterFetch s c).sampleRateCode

theorem fetchRuns_bdcode : FetchRuns s (fetchField s .bdcode3)
    (hdrStage (fun h => takeU s 3 >>= fun code => bitDepthCode s code h) s.work) :=
  fetchRuns_hdrRows small (f := .bdcode3) (fun _ => rfl) (fun t _ => exec_bdcodeRow t)
    fun c => (SameInput.afterFetch s c).bitDepthCode

theorem fetchRuns_chcode : FetchRuns s (fetchField s .chcode4)
    (takeU s 4 >>= fun code => channelsCode s code s.work) :=
  fetchRuns_rows small (f := .chcode4) (fun _ => rfl) (fun t _ => exec_chcodeRow t)
    (fun c => (SameInput.afterFetch s c).channelsCode) fun v => sameOutcome_channelsCode s v _

/-- NUMBER is its lead byte and the rest that it announces (R168). -/
theorem fetchRuns_number : FetchRuns s (fetchField s .utf8Lead8)
    (hdrStage (fun h => do let number ← takeUtf8 s; pure { h with number := number }) s.work) := by
  have split (h : Hdr) : (do let number ← takeUtf8 s; pure { h with number := number } : Stage Hdr) =
      takeU s 8 >>= fun lead => numberField s lead h := by
    rw [takeUtf8_eq]
    exact bind_assoc _ _ _
  simp only [split]
  exact fetchRuns_hdrRows small (f := .utf8Lead8) (fun _ => rfl) (fun t _ => exec_leadRow t)
    fun c => (SameInput.afterFetch s c).numberField

theorem fetchRuns_method : FetchRuns s (fetchField s .residualMethod2)
    (subStage (fun f => takeU s 2 >>= fun method => methodField method f) s.work) :=
  fetchRuns_subRows small (f := .residualMethod2) (stage := fun _ => methodField) (fun _ => rfl)
    (fun t _ => exec_methodRow t) fun _ => rfl

theorem fetchRuns_escapeWidth : FetchRuns s (fetchField s .ew5) (subStage (escapePartition s s.work.hdr.bs) s.work) :=
  fetchRuns_subRows small (f := .ew5) (stage := fun t => escapeField t t.work.hdr.bs) (fun _ => rfl)
    (fun t _ => exec_escapeWidthRow t) fun c => by rw [(SameInput.afterFetch s c).escapeField]; rfl

theorem fetchRuns_precision : FetchRuns s (fetchField s .precM14)
    (subStage (fun f => takeU s 4 >>= fun precM1 => precisionField precM1 f) s.work) :=
  fetchRuns_subRows small (f := .precM14) (stage := fun _ => precisionField) (fun _ => rfl)
    (fun t _ => exec_precisionRow t) fun _ => rfl

theorem fetchRuns_shift : FetchRuns s (fetchField s .shift5)
    (subStage (fun f => takeU s 5 >>= fun bits => shiftField bits f) s.work) :=
  fetchRuns_subRows small (f := .shift5) (stage := fun _ => shiftField) (fun _ => rfl)
    (fun t _ => exec_shiftRow t) fun _ => rfl

theorem fetchRuns_param4 (hm : s.work.sub.method = 0) :
    FetchRuns s (fetchField s .param4) (subStage (partition s s.work.hdr.bs) s.work) := by
  rw [partition_stage, hm]
  exact fetchRuns_rows small (f := .param4) (stage := fun t => partitionOf t 15) (fun _ => rfl)
    (fun t _ => exec_param4Row t) (fun c => by rw [partitionOf_afterFetch]) fun v => sameOutcome_partitionOf s 15 v _

theorem fetchRuns_param5 (hm : s.work.sub.method = 1) :
    FetchRuns s (fetchField s .param5) (subStage (partition s s.work.hdr.bs) s.work) := by
  rw [partition_stage, hm]
  exact fetchRuns_rows small (f := .param5) (stage := fun t => partitionOf t 31) (fun _ => rfl)
    (fun t _ => exec_param5Row t) (fun c => by rw [partitionOf_afterFetch]) fun v => sameOutcome_partitionOf s 31 v _

/-- RSV is 0, which has no effect, or no row (R208). -/
theorem fetchRuns_rsv : FetchRuns s (fetchField s .rsv1)
    (takeU s 1 >>= fun rsv => reservedBitField rsv >>= fun _ => pure s.work) :=
  .takeU small fun v (hv : v < 2) => by
    obtain rfl | rfl : v = 0 ∨ v = 1 := by omega
    · exact .code (stage := fun w => do reservedBitField 0; pure w) (fun _ => rfl) fun _ _ _ => rfl
    · exact .raise .reservedBit

/-- SYNC and STRATEGY are two reads, of which only SYNC is checked (R202, R203). -/
theorem fetchRuns_sync : FetchRuns s (fetchField s .sync16)
    (hdrStage (fun h => do syncField s; let strategy ← takeU s 1; pure (setStrategy strategy h)) s.work) := by
  simp only [hdrStage, syncField, bind_assoc]
  refine .takeU small fun sync _ => .raiseIf fun pass => .takeU small fun strategy hs => ?_
  obtain rfl : sync = 0x7FFC := by simpa using pass
  obtain rfl | rfl : strategy = 0 ∨ strategy = 1 := by omega
  · exact .hdrCode (stage := fun h => pure (setStrategy 0 h)) fun _ => rfl
  · exact .hdrCode (stage := fun h => pure (setStrategy 1 h)) fun _ => rfl

/-- A set PAD ends the header; otherwise TYPE and WFLAG are two more reads and name the row (R241 to R243). -/
theorem fetchRuns_subframe : FetchRuns s (fetchField s .subframeHeader8) (subframe s s.work) := by
  refine .takeU small fun pad hpad => .get fun c => ?_
  obtain rfl | rfl : pad = 0 ∨ pad = 1 := by omega
  · have clear : padField 0 = pure () := rfl
    rw [if_neg zero_ne_one, clear, pure_bind]
    refine .takeU small fun type ht => .takeU small fun wflag hw => ?_
    have row (t : State) :
        exec (decodeSubframe (2 * type + wflag)) t = runStage t (subframeBody t type (wflag = 1)) := by
      rw [exec_subframeRow t (by omega), show (2 * type + wflag) / 2 = type by omega,
        show (2 * type + wflag) % 2 = wflag by omega]
    rw [fieldInstr_of_lt (by dsimp only [Field.width]; omega) rfl]
    refine .code (stage := subframeBody s type (wflag = 1)) (fun c => ?_) (sameOutcome_subframeBody s type _ _)
    rw [row, (SameInput.afterFetch s c).subframeBody]
  · have byte := bitRead_lt s c.cur 7
    have row : decodeFieldValue .subframeHeader8 (128 + bitRead s c.cur 7) = .ok (.subframePadSet _) :=
      congrArg Except.ok (if_pos (Nat.le_add_right 128 _))
    rw [if_pos rfl, fieldInstr_of_lt (by dsimp only [Field.width]; omega) row]
    exact .code (stage := fun _ => raise .missingPadding) (fun _ => rfl) fun _ => .refl _

end Fields

theorem addContinuation_eq_none {v b : Nat} : addContinuation v b = none ↔ b / 64 ≠ 0b10 := by simp [addContinuation]

theorem addContinuation_eq_some {v b u : Nat} : addContinuation v b = some u ↔ b / 64 = 0b10 ∧ v * 64 + b % 64 = u := by
  simp [addContinuation]

/-- A continuation byte appends its six bits to the number (R168). -/
theorem step_continuation {s : State} (hf : s.seq = some .utf8Cont8) (hb : bitsAt s s.work.cur 8)
    (cont : bitRead s s.work.cur 8 / 64 = 0b10) : step s = .next (workDone s
      { s.work with
        cur := s.work.cur + 8
        hdr := { s.work.hdr with number := s.work.hdr.number * 64 + bitRead s s.work.cur 8 % 64 } } s.fpos.toNat) := by
  have decoded : decodeField .utf8Cont8 (bitRead s s.work.cur 8) = .ok (.utf8Continuation (BitVec.ofNat 6 _)) :=
    (if_pos (bitRead_lt s _ 8)).trans (if_pos cont)
  rw [step_field hf, fieldStep_eq_outcome, fetchField_utf8Cont8 hb decoded]
  exact FetchRuns.hdrCode (stage := fun h => pure { h with number := h.number * 64 + bitRead s s.work.cur 8 % 64 })
    (fun _ => rfl) ⟨_, _⟩ s.fpos.isLt

/-- Settles O6: at each field the fetch and the code it finds do the same as the stage. -/
theorem codesAreTheDecodersStages : Obligations.CodesAreTheDecodersStages := by
  intro s wf len
  have small := endPos_lt wf len
  refine ⟨fun hf => ?_, fun hf => ?_, fun hf => ?_, fun hf => ?_, fun hf => ?_, fun hf => ?_, fun hf => ?_,
    fun hf => ?_, fun hf => ?_, fun hf => ?_, fun hf hm => ?_, fun hf hm => ?_, fun hf => ?_, fun hf => ?_,
    fun hf => ?_⟩
  · exact step_runs hf (fetchRuns_sync small)
  · exact step_runs hf (fetchRuns_bscode small)
  · exact step_runs hf (fetchRuns_srcode small)
  · exact step_runs hf (fetchRuns_chcode small)
  · exact step_runs hf (fetchRuns_bdcode small)
  · exact step_runs hf (fetchRuns_rsv small)
  · exact step_runs hf (fetchRuns_number small)
  · refine ⟨fun hb => step_fetch_error hf (if_pos (Nat.lt_of_not_le hb)),
      fun hb rejected => step_fetch_error hf (fetchField_notContinuation hb (addContinuation_eq_none.1 rejected)),
      fun hb v accepted => ?_⟩
    obtain ⟨cont, rfl⟩ := addContinuation_eq_some.1 accepted
    exact step_continuation hf hb cont
  · exact step_runs hf (fetchRuns_subframe small)
  · exact step_runs hf (fetchRuns_method small)
  · exact step_runs hf (fetchRuns_param4 small hm)
  · exact step_runs hf (fetchRuns_param5 small hm)
  · exact step_runs hf (fetchRuns_escapeWidth small)
  · exact step_runs hf (fetchRuns_precision small)
  · exact step_runs hf (fetchRuns_shift small)

end Sys2Proof.Machine

/-! Subframe headers, and the CONSTANT and VERBATIM subframes (42_subframe_header.md rules R243 to R249;
44_predictors.md rules R292, R293): O39, O40. -/

namespace Sys2Proof.Machine

/-! ### The type codes -/

/-- The reserved type codes (R244). -/
theorem classify_reserved {type : Nat} (h : 2 ≤ type ∧ type < 8 ∨ 13 ≤ type ∧ type < 32) : classify type = none := by
  rw [classify, if_neg (by omega), if_neg (by omega), if_neg (by omega), if_neg (by omega)]

/-- The LPC type codes (R244). -/
theorem classify_lpc {k : Nat} (h : k < 32) : classify (32 + k) = some (.lpc, k + 1) := by
  rw [classify, if_neg (by omega), if_neg (by omega), if_neg (by omega), if_pos (by omega), Nat.add_mod_left,
    Nat.mod_eq_of_lt h]

/-! ### Headers that fail -/

section Header

variable {s : State} {i : Instr} {type : Nat} {wflag : Bool} (row : exec i s = runStage s (subframeBody s type wflag))
include row

/-- A subframe code whose stage raises fails the frame. -/
theorem subframeCode_fails {e : ErrCode} {p : Nat}
    (h : subframeBody s type wflag s.work (workCur s) = .error ⟨e, p⟩) :
    ∃ t, exec i s = .next t ∧ frameFailed s t e p := ⟨_, row.trans (runStage_error h), failFrame_failed _ _⟩

theorem subframeCode_wastedMissing (present : wflag = true) (missing : ∀ n, ¬ unaryAt s s.work.cur n) :
    ∃ t, exec i s = .next t ∧ frameFailed s t .outOfBounds s.work.cur := by
  subst present
  exact subframeCode_fails row (subframeBody_outOfBounds missing)

/-- The row of a reserved type code (R245). -/
theorem subframeCode_reserved (reserved : 2 ≤ type ∧ type < 8 ∨ 13 ≤ type ∧ type < 32) :
    ((∃ wasted e, wastedAt s wflag wasted e) →
      ∃ t, exec i s = .next t ∧ frameFailed s t .reservedSubframeType (lastHeaderField s wflag)) ∧
    (wflag = true → (∀ n, ¬ unaryAt s s.work.cur n) →
      ∃ t, exec i s = .next t ∧ frameFailed s t .outOfBounds s.work.cur) :=
  ⟨fun ⟨_, _, wasted⟩ => subframeCode_fails row (subframeBody_reserved wasted (classify_reserved reserved)),
    subframeCode_wastedMissing row⟩

/-- The row of a type code that is not reserved (R247). -/
theorem subframeCode_narrow {ko : Kind × Nat} (legal : classify type = some ko) :
    (wflag = true → (∀ n, ¬ unaryAt s s.work.cur n) →
      ∃ t, exec i s = .next t ∧ frameFailed s t .outOfBounds s.work.cur) ∧
    ∀ wasted e, wastedAt s wflag wasted e → subframeWidth s wasted < 1 →
      ∃ t, exec i s = .next t ∧ frameFailed s t .invalidWastedBits (lastHeaderField s wflag) :=
  ⟨subframeCode_wastedMissing row,
    fun _ _ wasted narrow => subframeCode_fails row (subframeBody_narrow wasted legal narrow)⟩

end Header

/-- Settles O39: every row runs the body of its type code, which is reserved or legal. -/
theorem subframeHeaderChecks : Obligations.SubframeHeaderChecks := by
  refine ⟨?_, ?_⟩
  · intro s wflag reserved i hi
    obtain listed | ⟨x, rfl⟩ | ⟨x, rfl⟩ := hi
    · simp only [reserved, List.mem_cons, List.not_mem_nil, or_false] at listed
      obtain rfl | rfl | rfl | rfl | rfl := listed
      · exact subframeCode_reserved (type := 2) rfl (by decide)
      · exact subframeCode_reserved (type := 3) rfl (by decide)
      · exact subframeCode_reserved (type := 13) rfl (by decide)
      · exact subframeCode_reserved (type := 14) rfl (by decide)
      · exact subframeCode_reserved (type := 15) rfl (by decide)
    · exact subframeCode_reserved (type := 4 + x.toNat) rfl (by omega)
    · exact subframeCode_reserved (type := 16 + x.toNat) rfl (by omega)
  · intro s wflag i hi
    obtain listed | ⟨x, rfl⟩ := hi
    · simp only [List.mem_cons, List.not_mem_nil, or_false] at listed
      obtain rfl | rfl | rfl | rfl | rfl | rfl | rfl := listed
      · exact subframeCode_narrow (type := 0) rfl rfl
      · exact subframeCode_narrow (type := 1) rfl rfl
      · exact subframeCode_narrow (type := 8) rfl rfl
      · exact subframeCode_narrow (type := 9) rfl rfl
      · exact subframeCode_narrow (type := 10) rfl rfl
      · exact subframeCode_narrow (type := 11) rfl rfl
      · exact subframeCode_narrow (type := 12) rfl rfl
    · exact subframeCode_narrow (type := 32 + x.toNat) rfl (classify_lpc x.isLt)

/-! ### CONSTANT and VERBATIM bodies -/

section Bodies

variable {s : State} {bs type wasted order e p : Nat} {width : Int}

theorem payload_constant_there (hb : bitsAt s e width.toNat) :
    payload s bs (openSubframe type wasted .constant order width) ⟨e, p⟩ =
      .ok ({ openSubframe type wasted .constant order width with
          samples := List.replicate bs (sext width.toNat (bitRead s e width.toNat)) }, ⟨e + width.toNat, e⟩) :=
  ok_bind (takeS_eq_ok.2 ⟨hb, rfl, rfl⟩)

theorem payload_constant_missing (hb : ¬ bitsAt s e width.toNat) :
    payload s bs (openSubframe type wasted .constant order width) ⟨e, p⟩ = .error ⟨.outOfBounds, e⟩ :=
  er_bind (takeS_eq_error.2 ⟨Nat.lt_of_not_le hb, rfl⟩)

theorem payload_verbatim_there (nonempty : 1 ≤ bs) (hb : bitsAt s e (bs * width.toNat)) :
    payload s bs (openSubframe type wasted .verbatim order width) ⟨e, p⟩ =
      .ok ({ openSubframe type wasted .verbatim order width with samples := signedFields s e width.toNat bs },
        ⟨e + bs * width.toNat, e + (bs - 1) * width.toNat⟩) :=
  ok_bind (takeSMany_eq_ok.2 ⟨.inr hb, rfl, (if_neg (by omega)).symm⟩)

theorem payload_verbatim_missing {j : Nat} (hj : j < bs) (first : firstMissing s e width.toNat j) :
    payload s bs (openSubframe type wasted .verbatim order width) ⟨e, p⟩ =
      .error ⟨.outOfBounds, e + j * width.toNat⟩ :=
  er_bind (takeSMany_error hj first)

end Bodies

/-- Settles O40: the body's fields are there or not, and its shifted samples stay in DR or not. -/
theorem constantAndVerbatimSubframes : Obligations.ConstantAndVerbatimSubframes := by
  refine ⟨?_, ?_⟩
  · intro s wflag wasted e hw wide w
    refine ⟨fun missing => ?_, fun v hv there => ⟨fun fits => ?_, fun nonempty leaves => ?_⟩⟩
    · exact subframeCode_fails (type := 0) rfl (subframeBody_error hw rfl wide (payload_constant_missing missing))
    · have fit : ∀ x ∈ List.replicate s.work.hdr.bs (sext w (bitRead s e w)),
          inDr s.params.datapathBits (x * 2 ^ wasted) := fun x hx => List.eq_of_mem_replicate hx ▸ hv ▸ fits
      rw [hv, ← List.map_replicate (f := (· * 2 ^ wasted))]
      exact subframeBody_ok (type := 0) hw rfl wide (payload_constant_there there) fit
    · have sample : sext w (bitRead s e w) ∈ List.replicate s.work.hdr.bs (sext w (bitRead s e w)) :=
        List.mem_replicate.2 ⟨by omega, rfl⟩
      exact subframeCode_fails (type := 0) rfl
        (subframeBody_overflow hw rfl wide (payload_constant_there there) ⟨_, sample, hv ▸ leaves⟩)
  · intro s wflag wasted e hw wide w bs
    refine ⟨fun j hj first => ?_, fun nonempty there => ⟨fun fit => ?_, fun leaves => ?_⟩⟩
    · exact subframeCode_fails (type := 1) rfl (subframeBody_error hw rfl wide (payload_verbatim_missing hj first))
    · exact subframeBody_ok (type := 1) hw rfl wide (payload_verbatim_there nonempty there) fit
    · exact subframeCode_fails (type := 1) rfl
        (subframeBody_overflow hw rfl wide (payload_verbatim_there nonempty there) leaves)

end Sys2Proof.Machine

/-! The residual field and its partitions, and the codes of the working subframe record (43_residual.md rules R260 to
R272; 44_predictors.md rules R301, R302): O44 to O48. -/

namespace Sys2Proof.Machine

/-! ### The codes of the working record -/

/-- A check on a field already read that passes. -/
theorem check_passes {α : Type} {bad : Bool} {e : ErrCode} {next : Unit → Stage α} {c : Cur} (h : bad = false) :
    (raiseIf bad e >>= next) c = next () c := ok_bind (raiseIf_eq_ok.2 ⟨h, rfl⟩)

/-- A METHOD other than 1x (R261). -/
theorem methodField_legal {method : Nat} (legal : method < 2) (f : Subframe) (c : Cur) :
    methodField method f c = .ok ({ f with method := method }, c) :=
  check_passes (decide_eq_false (Nat.not_le.mpr legal))

/-- A PRECM1 other than 1111 (R301). -/
theorem precisionField_legal {precM1 : Nat} (legal : precM1 ≠ 15) (f : Subframe) (c : Cur) :
    precisionField precM1 f c = .ok ({ f with prec := precM1 + 1 }, c) :=
  check_passes (decide_eq_false legal)

/-- A SHIFT with its top bit clear (R302). -/
theorem shiftField_legal {bits : Nat} (legal : bits < 16) (f : Subframe) (c : Cur) :
    shiftField bits f c = .ok ({ f with shift := bits }, c) := by
  have value : sext 5 bits = bits := (if_neg (by decide)).trans (if_pos legal)
  have nonneg : ¬ sext 5 bits < 0 := by omega
  refine (check_passes (decide_eq_false nonneg)).trans ?_
  rw [value]
  rfl

/-- Settles O44: each code is legal, so its stage writes its value and reads nothing. -/
theorem recordFields : Obligations.RecordFields := fun s =>
  ⟨runSubframe_ok (s := s) (methodField_legal (method := 0) (by decide) _ (workCur s)),
    runSubframe_ok (s := s) (methodField_legal (method := 1) (by decide) _ (workCur s)),
    fun _ legal => runSubframe_ok (precisionField_legal (fun h => legal (BitVec.eq_of_toNat_eq h)) _ _),
    fun v => runSubframe_ok (shiftField_legal v.isLt _ _)⟩

/-- A code of the working record whose stage raises fails the frame. -/
theorem recordCode_fails {s : State} {i : Instr} {stage : Subframe → Stage Subframe} {e : ErrCode} {p : Nat}
    (row : exec i s = runSubframe s stage) (h : stage s.work.sub (workCur s) = .error ⟨e, p⟩) :
    ∃ t, exec i s = .next t ∧ frameFailed s t e p := ⟨_, row.trans (runSubframe_error h), failFrame_failed _ _⟩

/-! ### Zig-zag -/

theorem zigzagFold_zigzag (u : Nat) : zigzagFold (zigzag u) = u := by
  unfold zigzagFold zigzag
  split_ifs <;> omega

theorem zigzag_zigzagFold (v : Int) : zigzag (zigzagFold v) = v := by
  unfold zigzagFold zigzag
  split_ifs <;> omega

theorem zigzagFold_lt {v : Int} (low : -(2 ^ 63) ≤ v) (high : v ≤ 2 ^ 63 - 1) : zigzagFold v < 2 ^ 64 := by
  unfold zigzagFold
  split_ifs <;> omega

/-- Settles O47: folding and unfolding are inverse to each other and keep the two ranges. -/
theorem zigZagIsABijection : Obligations.ZigZagIsABijection :=
  ⟨fun u h => ⟨rfl, zigzagFold_zigzag u, (inRange_iff 64 _).1 (inRange_zigzag h)⟩,
    fun v low high => ⟨rfl, zigzag_zigzagFold v, zigzagFold_lt low high⟩⟩

/-! ### Rice partitions -/

section Rice

variable {s : State} {k p f e u : Nat} {us : List Nat}

/-- A quotient that runs off the input (40_cursor.md rule R166). -/
theorem takeUnary_missing (missing : ∀ q, ¬ unaryAt s p q) : takeUnary s ⟨p, f⟩ = .error ⟨.outOfBounds, p⟩ := by
  cases read : takeUnary s ⟨p, f⟩ with
  | ok a => exact absurd (takeUnary_eq_ok.1 read).1 (missing a.1)
  | error e => rw [(takeUnary_eq_error.1 read).2]

theorem riceCodeword_noQuotient (missing : ∀ q, ¬ unaryAt s p q) :
    riceCodeword s k ⟨p, f⟩ = .error ⟨.outOfBounds, p⟩ := er_bind (takeUnary_missing missing)

theorem riceCodeword_noRemainder {q : Nat} (quotient : unaryAt s p q) (missing : ¬ bitsAt s (p + q + 1) k) :
    riceCodeword s k ⟨p, f⟩ = .error ⟨.outOfBounds, p + q + 1⟩ :=
  (ok_bind (takeUnary_eq_ok.2 ⟨quotient, rfl⟩)).trans (er_bind (takeU_er missing))

/-- The codeword of `u` is read as `u`, and then `u` is checked (R266, R267). -/
theorem riceCodeword_stands (stands : riceAt s k p [u] e) :
    riceCodeword s k ⟨p, f⟩ =
      (do raiseIf (u ≥ 2 ^ 64) .arithmeticOverflow; pure (zigzag u) : Stage Int) ⟨e, e - k⟩ := by
  obtain ⟨quotient, remainder, there, rfl⟩ := stands
  have value : u / 2 ^ k * 2 ^ k + bitRead s (p + u / 2 ^ k + 1) k = u := by
    rw [remainder]
    exact Nat.div_add_mod' u _
  refine (ok_bind (takeUnary_eq_ok.2 ⟨quotient, rfl⟩)).trans ((ok_bind (takeU_ok there)).trans ?_)
  rw [value, Nat.add_sub_cancel]

theorem riceCodeword_fits (stands : riceAt s k p [u] e) (fits : u < 2 ^ 64) :
    riceCodeword s k ⟨p, f⟩ = .ok (zigzag u, ⟨e, e - k⟩) :=
  (riceCodeword_stands stands).trans (check_passes (decide_eq_false (Nat.not_le.mpr fits)))

theorem riceCodeword_overflows (stands : riceAt s k p [u] e) (large : 2 ^ 64 ≤ u) :
    riceCodeword s k ⟨p, f⟩ = .error ⟨.arithmeticOverflow, e - k⟩ :=
  (riceCodeword_stands stands).trans (check_error (decide_eq_true large))

/-- Codewords in a row are the first one and then the others. -/
theorem riceAt_cons (stand : riceAt s k p (u :: us) e) : ∃ m, riceAt s k p [u] m ∧ riceAt s k m us e := by
  obtain ⟨quotient, remainder, there, rest⟩ := stand
  exact ⟨_, ⟨quotient, remainder, there, rfl⟩, rest⟩

/-- As many codewords as stand in a row (R266, R272). -/
theorem rice_stand (stand : riceAt s k p us e) (fit : ∀ u ∈ us, u < 2 ^ 64) :
    rice s k us.length ⟨p, f⟩ = .ok (us.map zigzag, ⟨e, if us = [] then f else e - k⟩) := by
  induction us generalizing p f with
  | nil =>
    obtain rfl : e = p := stand
    rfl
  | cons u us ih =>
    obtain ⟨m, first, rest⟩ := riceAt_cons stand
    obtain ⟨fits, fit⟩ := List.forall_mem_cons.1 fit
    have last : (if us = [] then m - k else e - k) = e - k := by
      split_ifs with empty
      · subst empty
        rw [show e = m from rest]
      · rfl
    refine (ok_bind (riceCodeword_fits first fits)).trans ((ok_bind (ih rest fit)).trans ?_)
    rw [last]
    rfl

theorem ricePartition_stand {bs : Nat} {g : Subframe} {c : Cur} (all : us.length = currentCount bs g)
    (stand : riceAt s k c.cur us e) (fit : ∀ u ∈ us, u < 2 ^ 64) :
    ricePartition s bs k g c =
      .ok (addPartition g k (us.map zigzag), ⟨e, if us = [] then c.fpos else e - k⟩) := by
  unfold ricePartition
  rw [← all]
  exact ok_bind (rice_stand stand fit)

/-- The codeword after those that stand raises. -/
theorem rice_raises {n : Nat} {r : Raise} (more : us.length < n) (stand : riceAt s k p us e)
    (fit : ∀ u ∈ us, u < 2 ^ 64) (raises : ∀ f, riceCodeword s k ⟨e, f⟩ = .error r) :
    rice s k n ⟨p, f⟩ = .error r := by
  obtain ⟨n, rfl⟩ : ∃ m, n = m + 1 := ⟨n - 1, by omega⟩
  induction us generalizing p f n with
  | nil =>
    obtain rfl : e = p := stand
    exact er_bind (raises f)
  | cons u us ih =>
    obtain ⟨m, first, rest⟩ := riceAt_cons stand
    obtain ⟨fits, fit⟩ := List.forall_mem_cons.1 fit
    rw [List.length_cons] at more
    obtain ⟨n, rfl⟩ : ∃ m, n = m + 1 := ⟨n - 1, by omega⟩
    exact (ok_bind (riceCodeword_fits first fits)).trans (er_bind (ih rest fit n (by omega)))

end Rice

/-- Settles O45: both rows run a Rice partition, which reads the codewords that stand and raises at the next one. -/
theorem ricePartitions : Obligations.RicePartitions := by
  intro s i k hi
  have row : exec i s = runSubframe s (ricePartition s s.work.hdr.bs k) := by
    obtain ⟨_, -, rfl, rfl⟩ | ⟨_, -, rfl, rfl⟩ := hi <;> rfl
  refine ⟨fun us e all stand fit => ?_, fun us e more stand fit => ?_⟩
  · exact row.trans (runSubframe_ok (ricePartition_stand (c := workCur s) all stand fit))
  · have fails {code : ErrCode} {pos : Nat} (raises : ∀ f, riceCodeword s k ⟨e, f⟩ = .error ⟨code, pos⟩) :
        ∃ t, exec i s = .next t ∧ frameFailed s t code pos :=
      recordCode_fails row (er_bind (rice_raises more stand fit raises))
    exact ⟨fun missing => fails fun _ => riceCodeword_noQuotient missing,
      fun q quotient missing => fails fun _ => riceCodeword_noRemainder quotient missing,
      fun u e' stands large => fails fun _ => riceCodeword_overflows stands large⟩

/-! ### Escaped partitions -/

/-- EW as the statements say it (R269). -/
theorem escapeWidth_eq_escapeWidthOf (s : State) {bits : Nat} (h : bits < 32) :
    escapeWidth s bits = escapeWidthOf s bits := by
  unfold escapeWidth escapeWidthOf
  cases s.params.escapeWidthSigned with
  | false => simp
  | true =>
    by_cases top : 16 ≤ bits
    · simp [sext, top, show ¬ bits < 16 by omega]
    · simp [sext, top, show bits < 16 by omega]

section Escape

variable {s : State} {bs bits a p : Nat} {f : Subframe} {w : Int} (width : escapeWidth s bits = w)
include width

theorem escapeField_negative (negative : w < 0) :
    escapeField s bs bits f ⟨a, p⟩ = .error ⟨.invalidEscapeWidth, p⟩ :=
  check_error (decide_eq_true (width ▸ negative))

/-- Width 0 reads nothing (R270). -/
theorem escapeField_zero (zero : w = 0) :
    escapeField s bs bits f ⟨a, p⟩ =
      .ok (addPartition f 32 (List.replicate (currentCount bs f) 0), ⟨a, p⟩) := by
  unfold escapeField
  rw [width, zero]
  rfl

/-- A positive width reads signed fields (R271). -/
theorem escapeField_positive (positive : 0 < w) (c : Cur) :
    escapeField s bs bits f c = (do
      let vs ← takeSMany s w.toNat (currentCount bs f)
      pure (addPartition f (32 + w.toNat) vs) : Stage Subframe) c := by
  have nonneg : ¬ w < 0 := by omega
  have nonzero : ¬ w.toNat = 0 := by omega
  unfold escapeField
  rw [width, check_passes (decide_eq_false nonneg), if_neg nonzero]

theorem escapeField_missing {j : Nat} (positive : 0 < w) (hj : j < currentCount bs f)
    (first : firstMissing s a w.toNat j) :
    escapeField s bs bits f ⟨a, p⟩ = .error ⟨.outOfBounds, a + j * w.toNat⟩ :=
  (escapeField_positive width positive _).trans (er_bind (takeSMany_error hj first))

theorem escapeField_there (positive : 0 < w) (there : bitsAt s a (currentCount bs f * w.toNat)) :
    escapeField s bs bits f ⟨a, p⟩ =
      .ok (addPartition f (32 + w.toNat) (signedFields s a w.toNat (currentCount bs f)),
        ⟨a + currentCount bs f * w.toNat,
          if currentCount bs f = 0 then p else a + (currentCount bs f - 1) * w.toNat⟩) := by
  refine (escapeField_positive width positive _).trans (ok_bind (takeSMany_eq_ok.2 ⟨.inr there, rfl, ?_⟩))
  split_ifs with empty
  · simp [empty]
  · rfl

end Escape

/-- An escaped partition whose EW is there (R269). -/
theorem escapePartition_there {s : State} {bs p fp : Nat} {f : Subframe} (there : bitsAt s p 5) :
    escapePartition s bs f ⟨p, fp⟩ = escapeField s bs (bitRead s p 5) f ⟨p + 5, p⟩ := ok_bind (takeU_ok there)

/-- Settles O46: both escape rows read EW, and then they and ESCAPE_WIDTH do what the width says. -/
theorem escapedPartitions : Obligations.EscapedPartitions := by
  refine ⟨fun s i hi => ?_, fun s bits => ?_⟩
  · intro bits ew n p done
    have row : exec i s = runSubframe s (escapePartition s s.work.hdr.bs) := by obtain rfl | rfl := hi <;> rfl
    have width : escapeWidth s bits = ew := escapeWidth_eq_escapeWidthOf s (bitRead_lt s _ 5)
    refine ⟨fun missing => ?_, fun there negative => ?_, fun there zero => ?_, fun positive there j hj first => ?_,
      fun positive fields there => ?_⟩
    · exact recordCode_fails row (er_bind (takeU_er missing))
    · exact recordCode_fails row ((escapePartition_there there).trans (escapeField_negative width negative))
    · exact row.trans (runSubframe_ok ((escapePartition_there there).trans (escapeField_zero width zero)))
    · exact recordCode_fails row ((escapePartition_there there).trans (escapeField_missing width positive hj first))
    · exact row.trans (runSubframe_ok ((escapePartition_there there).trans (escapeField_there width positive fields)))
  · intro ew n done
    have width : escapeWidth s bits.toNat = ew := escapeWidth_eq_escapeWidthOf s bits.isLt
    refine ⟨fun zero => ?_, fun positive j hj first => ?_, fun positive fields => ?_⟩
    · exact runSubframe_ok (escapeField_zero width zero)
    · exact recordCode_fails (stage := escapeField s s.work.hdr.bs bits.toNat) rfl
        (escapeField_missing width positive hj first)
    · exact runSubframe_ok (escapeField_there width positive fields)

/-! ### The residual field -/

/-- Σ count[i] as the statement says it (R264). -/
theorem totalCount_eq_sum (bs order porder : Nat) :
    totalCount bs order porder =
      ∑ i ∈ Finset.range (2 ^ porder), (bs / 2 ^ porder - if i = 0 then order else 0) := rfl

section Residual

variable {s : State} {bs p fp : Nat} {f : Subframe}

theorem residual_reserved (there : bitsAt s p 2) (reserved : 2 ≤ bitRead s p 2) :
    residual s bs f ⟨p, fp⟩ = .error ⟨.reservedResidualMethod, p⟩ :=
  (ok_bind (takeU_ok there)).trans (er_bind (check_error (decide_eq_true reserved)))

/-- The record once METHOD and PORDER have been read (R261, R262). -/
def openResidual (s : State) (p : Nat) (f : Subframe) : Subframe :=
  { f with method := bitRead s p 2, porder := bitRead s (p + 2) 4, rpart := [], res := [] }

/-- A residual whose METHOD is legal goes on at the length check (R264). -/
theorem residual_opened (there : bitsAt s p 6) (legal : bitRead s p 2 < 2) :
    residual s bs f ⟨p, fp⟩ = (do
      lengthCheck bs (openResidual s p f)
      partitions s bs (2 ^ bitRead s (p + 2) 4) (openResidual s p f) : Stage Subframe) ⟨p + 6, p + 2⟩ := by
  have method : p + 2 ≤ endPos s := by unfold bitsAt at there; omega
  exact (ok_bind (takeU_ok method)).trans
    ((ok_bind (methodField_legal legal f _)).trans (ok_bind (takeU_ok there)))

end Residual

/-- Settles O48: METHOD, PORDER and the length check in order, and what a decoded residual satisfies. -/
theorem residualField : Obligations.ResidualField := by
  intro s bs f p fp method porder count total
  have sum : totalCount bs f.order porder = total := totalCount_eq_sum _ _ _
  refine ⟨residual_reserved, fun there legal wrong => ?_, fun there legal right => ?_, fun g c decoded => ?_⟩
  · exact (residual_opened there legal).trans (check_error (decide_eq_true (sum ▸ wrong)))
  · exact (residual_opened there legal).trans (check_passes (decide_eq_false (not_not.2 (sum ▸ right))))
  · obtain ⟨⟨-, inside⟩, there, past, -, es, vs, rfl, entries, values, -⟩ := residual_ok decoded
    have start : p ≤ endPos s := by
      simp only at there
      omega
    refine ⟨by omega, ?_, entries, rfl, rfl, past, inside start⟩
    show vs.length = bs - f.order
    omega

end Sys2Proof.Machine

/-! The predictors and the subframes that use them (44_predictors.md rules R290, R294 to R304): O41, O42, O43. -/

namespace Sys2Proof.Machine

/-! ### The recurrence -/

/-- Sample `n` of `x` is the one that the recurrence gives for the residual `r`, with every value in DR (R290, R304). -/
def sampleFollows (d : Nat) (a : List Int) (shift : Nat) (r : Int) (x : List Int) (n : Nat) : Prop :=
  predictionInDr d a x n ∧ inDr d (x.getD n 0) ∧ x.getD n 0 = prediction a x n / 2 ^ shift + r

theorem reconstructs_iff {d : Nat} {a : List Int} {shift : Nat} {warm res x : List Int} :
    reconstructs d a shift warm res x ↔ x.length = warm.length + res.length ∧ x.take warm.length = warm ∧
      ∀ n, warm.length ≤ n → n < x.length → sampleFollows d a shift (res.getD (n - warm.length) 0) x n := Iff.rfl

theorem checked_eq_some {d : Nat} {v u : Int} : checked d v = some u ↔ inDr d v ∧ v = u := by
  rw [checked, Option.ite_none_right_eq_some, inRange_iff, Option.some.injEq]

/-- One sample, and the rest with that sample as the latest of the past. -/
theorem reconstruct_cons_eq_some {d : Nat} {a past : List Int} {shift : Nat} {r : Int} {res vs : List Int} :
    reconstruct d a shift past (r :: res) = some vs ↔
      ∃ acc v ws, predict d a past 0 = some acc ∧ checked d (acc / 2 ^ shift + r) = some v ∧
        reconstruct d a shift (v :: past) res = some ws ∧ v :: ws = vs := by
  rw [reconstruct]
  cases predict d a past 0 with
  | none => simp
  | some acc =>
    cases hv : checked d (acc / 2 ^ shift + r) with
    | none => simp [hv]
    | some v => cases hw : reconstruct d a shift (v :: past) res <;> simp [hv, hw]

section Recurrence

variable {d : Nat} {a : List Int} {shift : Nat} {warm res x : List Int}

/-- The checked sum over the warm-ups is the checked prediction of the sample after them. -/
theorem predict_reverse_eq_some (enough : a.length ≤ warm.length) (tail : List Int) {acc : Int} :
    predict d a warm.reverse 0 = some acc ↔
      acc = prediction a (warm ++ tail) warm.length ∧ predictionInDr d a (warm ++ tail) warm.length := by
  have sum (b : List Int) (h : b.length ≤ warm.length) :
      dot b warm.reverse = prediction b (warm ++ tail) warm.length := by
    rw [← dot_take_reverse b _ _ h (by simp), List.take_left]
  rw [predict_eq_some d a _ 0 acc (by simpa using enough), Int.zero_add, sum a enough]
  refine and_congr_right fun _ => forall₂_congr fun j hj => ?_
  have sample : warm.reverse.getD j 0 = (warm ++ tail).getD (warm.length - 1 - j) 0 := by
    rw [List.getD_append _ _ _ _ (by omega), List.getD_reverse _ (by omega)]
  rw [Int.zero_add, sum _ (by simp; omega), sample]

/-- The first sample after the warm-ups, and those after it with that sample as one more warm-up. -/
theorem reconstructs_cons {r v : Int} {ws : List Int} :
    reconstructs d a shift warm (r :: res) (warm ++ v :: ws) ↔
      sampleFollows d a shift r (warm ++ v :: ws) warm.length ∧
        reconstructs d a shift (warm ++ [v]) res (warm ++ v :: ws) := by
  have later {n : Nat} (h : warm.length < n) :
      (r :: res).getD (n - warm.length) 0 = res.getD (n - (warm ++ [v]).length) 0 := by
    rw [List.length_append, List.length_singleton,
      show n - warm.length = n - (warm.length + 1) + 1 by omega, List.getD_cons_succ]
  rw [reconstructs_iff, reconstructs_iff]
  constructor
  · rintro ⟨length, -, follow⟩
    refine ⟨by simpa using follow warm.length le_rfl (by simp), by simp at length ⊢; omega,
      by rw [List.append_cons warm v ws, List.take_left], fun n low high => ?_⟩
    have low : warm.length < n := by simpa using low
    exact later low ▸ follow n low.le high
  · rintro ⟨first, length, -, follow⟩
    refine ⟨by simp at length ⊢; omega, by simp, fun n low high => ?_⟩
    obtain rfl | low := Nat.eq_or_lt_of_le low
    · simpa using first
    · exact (later low).symm ▸ follow n (by simpa using low) high

/-- The reconstruction answers what the recurrence names. -/
theorem reconstruct_eq_some (enough : a.length ≤ warm.length) {vs : List Int} :
    reconstruct d a shift warm.reverse res = some vs ↔ reconstructs d a shift warm res (warm ++ vs) := by
  induction res generalizing warm vs with
  | nil =>
    have none_left : reconstructs d a shift warm [] (warm ++ vs) ↔ vs = [] := by
      rw [reconstructs_iff]
      constructor
      · rintro ⟨length, -⟩
        simpa using length
      · rintro rfl
        exact ⟨by simp, by simp, fun n low high => by simp at high; omega⟩
    rw [none_left, reconstruct, Option.some.injEq, eq_comm]
  | cons r res ih =>
    have rest {v : Int} {ws : List Int} : reconstruct d a shift (v :: warm.reverse) res = some ws ↔
        reconstructs d a shift (warm ++ [v]) res (warm ++ v :: ws) := by
      rw [← List.reverse_concat', ih (by simp; omega), List.append_assoc, List.singleton_append]
    rw [reconstruct_cons_eq_some]
    constructor
    · rintro ⟨acc, v, ws, predicted, fits, decoded, rfl⟩
      obtain ⟨rfl, sums⟩ := (predict_reverse_eq_some enough (v :: ws)).1 predicted
      obtain ⟨inside, value⟩ := checked_eq_some.1 fits
      have here : (warm ++ v :: ws).getD warm.length 0 = v := by simp
      exact reconstructs_cons.2 ⟨⟨sums, here.symm ▸ value.subst inside, here.trans value.symm⟩, rest.1 decoded⟩
    · intro follow
      have nonempty : 0 < vs.length := by
        obtain ⟨length, -⟩ := follow
        simp at length
        omega
      obtain ⟨v, ws, rfl⟩ := List.exists_cons_of_length_pos nonempty
      obtain ⟨⟨sums, inside, value⟩, later⟩ := reconstructs_cons.1 follow
      have here : (warm ++ v :: ws).getD warm.length 0 = v := by simp
      rw [here] at inside value
      exact ⟨_, v, ws, (predict_reverse_eq_some enough (v :: ws)).2 ⟨rfl, sums⟩,
        checked_eq_some.2 ⟨value ▸ inside, value.symm⟩, rest.2 later, rfl⟩

theorem reconstructs_append (h : reconstructs d a shift warm res x) : ∃ vs, x = warm ++ vs := by
  obtain ⟨-, start, -⟩ := h
  exact ⟨x.drop warm.length, by rw [← List.take_append_drop warm.length x, start]; simp⟩

theorem map_reconstruct_eq_some (enough : a.length ≤ warm.length) :
    (reconstruct d a shift warm.reverse res).map (warm ++ ·) = some x ↔ reconstructs d a shift warm res x := by
  rw [Option.map_eq_some_iff]
  constructor
  · rintro ⟨vs, answered, rfl⟩
    exact (reconstruct_eq_some enough).1 answered
  · intro follow
    obtain ⟨vs, rfl⟩ := reconstructs_append follow
    exact ⟨vs, (reconstruct_eq_some enough).2 follow, rfl⟩

theorem reconstruct_eq_none (enough : a.length ≤ warm.length) :
    reconstruct d a shift warm.reverse res = none ↔ ∀ x, ¬ reconstructs d a shift warm res x := by
  rw [← Option.map_eq_none_iff (f := (warm ++ ·)), Option.eq_none_iff_forall_ne_some]
  exact forall_congr' fun x => not_congr (map_reconstruct_eq_some enough)

end Recurrence

/-! ### The fixed recurrences written out -/

@[simp] theorem prediction_nil (x : List Int) (n : Nat) : prediction [] x n = 0 := rfl

@[simp] theorem prediction_cons (c : Int) (a x : List Int) (n : Nat) :
    prediction (c :: a) x n = c * x.getD (n - 1) 0 + prediction a x (n - 1) := by
  unfold prediction
  rw [List.length_cons, List.range_succ_eq_map, List.map_cons, List.map_map, List.sum_cons]
  congr 2
  refine List.map_congr_left fun j _ => ?_
  simp only [Function.comp_apply, List.getD_cons_succ]
  rw [show n - 1 - (j + 1) = n - 1 - 1 - j by omega]

/-- A sample of a recurrence without a shift. -/
theorem reconstructs_sample {d k : Nat} {a warm res x : List Int} (h : reconstructs d a 0 warm res x)
    (hk : warm.length = k) {n : Nat} (low : k ≤ n) (high : n < x.length) :
    x.getD n 0 = prediction a x n + res.getD (n - k) 0 := by
  subst hk
  obtain ⟨-, -, value⟩ := h.2.2 n low high
  rw [value, pow_zero, Int.ediv_one]

/-- Settles O42, by induction on the residual, each sample read becoming one more warm-up. -/
theorem reconstructionIsTheRecurrence : Obligations.ReconstructionIsTheRecurrence := by
  refine ⟨fun d a shift warm res orders => ⟨fun x => map_reconstruct_eq_some orders.le, reconstruct_eq_none orders.le⟩,
    fun d warm res x => ?_⟩
  intro s r
  refine ⟨fun h empty n high => ?_, fun h order n high low => ?_, fun h order n high low => ?_,
    fun h order n high low => ?_, fun h order n high low => ?_⟩
  · simpa [s, r] using reconstructs_sample h (congrArg List.length empty) n.zero_le high
  all_goals
    have sample := reconstructs_sample h order low high
    simp only [prediction_cons, prediction_nil, Nat.sub_sub, Nat.reduceAdd] at sample
    simp only [s, r]
    omega

/-! ### A subframe from its residual on -/

section Rebuild

variable {s : State} {a : List Int} {shift : Nat} {warm x : List Int} {g : Subframe} {c : Cur}
  (enough : a.length ≤ warm.length)
include enough

theorem rebuild_follows (h : reconstructs s.params.datapathBits a shift warm g.res x) :
    rebuild s a shift warm g c = .ok ({ g with samples := x }, c) := by
  obtain ⟨vs, rfl⟩ := reconstructs_append h
  rw [rebuild, (reconstruct_eq_some enough).2 h]
  rfl

theorem rebuild_leaves (h : ∀ x, ¬ reconstructs s.params.datapathBits a shift warm g.res x) :
    rebuild s a shift warm g c = .error ⟨.arithmeticOverflow, c.fpos⟩ := by
  rw [rebuild, (reconstruct_eq_none enough).2 h]
  rfl

end Rebuild

theorem residual_start {s : State} {bs p fp : Nat} {f g : Subframe} {c : Cur}
    (h : residual s bs f ⟨p, fp⟩ = .ok (g, c)) : p ≤ endPos s :=
  (Nat.le_add_right p 6).trans (residual_ok h).2.1

/-- The residual leaves the rest of the record as it is (R260 to R264). -/
theorem residual_keeps {s : State} {bs : Nat} {f g : Subframe} {c c' : Cur} (h : residual s bs f c = .ok (g, c')) :
    g.wasted = f.wasted ∧ g.order = f.order ∧ g.shift = f.shift ∧ g.coef = f.coef := by
  obtain ⟨-, -, -, -, es, vs, rfl, -⟩ := residual_ok h
  exact ⟨rfl, rfl, rfl, rfl⟩

/-- `n` signed fields that are there, and the residual after them, whose first read replaces FPOS. -/
theorem takeSMany_residual {s : State} {bs w n e p : Nat} (there : n = 0 ∨ bitsAt s e (n * w)) (fp : Nat)
    (f : List Int → Subframe) (next : List Int → Subframe → Stage Subframe) :
    (takeSMany s w n >>= fun vs => residual s bs (f vs) >>= next vs) ⟨e, p⟩ =
      (residual s bs (f (signedFields s e w n)) >>= next (signedFields s e w n)) ⟨e + n * w, fp⟩ := by
  refine (ok_bind (takeSMany_eq_ok.2 ⟨there, rfl, rfl⟩)).trans ?_
  split_ifs with empty
  · subst empty
    rw [Nat.zero_mul]
    rfl
  · rfl

/-- A FIXED or LPC body reads its warm-ups first (R294, R304). -/
theorem payload_warmup_missing {s : State} {bs type wasted order e fp j : Nat} {width : Int} {kind : Kind}
    (predicted : kind = .fixed ∨ kind = .lpc) (hj : j < order) (first : firstMissing s e width.toNat j) :
    payload s bs (openSubframe type wasted kind order width) ⟨e, fp⟩ = .error ⟨.outOfBounds, e + j * width.toNat⟩ := by
  obtain rfl | rfl := predicted
  all_goals exact er_bind (takeSMany_error hj first)

section Subframe

variable {s : State} {i : Instr} {type wasted e order : Nat} {wflag : Bool} {kind : Kind}
  (row : exec i s = runStage s (subframeBody s type wflag)) (legal : classify type = some (kind, order))
  (field : wastedAt s wflag wasted e) (wide : 1 ≤ subframeWidth s wasted)
include row legal field wide

/-- A subframe code whose body raises fails the frame. -/
theorem subframeCode_payload_fails {r : Raise}
    (h : payload s s.work.hdr.bs (openSubframe type wasted kind order (subframeWidth s wasted))
      ⟨e, lastHeaderField s wflag⟩ = .error r) :
    ∃ t, exec i s = .next t ∧ frameFailed s t r.code r.pos :=
  subframeCode_fails row (subframeBody_error field legal wide h)

/-- A subframe code whose body has come to the reconstruction (R249, R290). -/
theorem subframeCode_predicted {a warm : List Int} {shift : Nat} {g : Subframe} {c : Cur}
    (decoded : payload s s.work.hdr.bs (openSubframe type wasted kind order (subframeWidth s wasted))
      ⟨e, lastHeaderField s wflag⟩ = rebuild s a shift warm g c)
    (enough : a.length ≤ warm.length) (kept : g.wasted = wasted) :
    ((∀ x, ¬ reconstructs s.params.datapathBits a shift warm g.res x) →
      ∃ t, exec i s = .next t ∧ frameFailed s t .arithmeticOverflow c.fpos) ∧
    ∀ x, reconstructs s.params.datapathBits a shift warm g.res x →
      ((∀ v ∈ x, inDr s.params.datapathBits (v * 2 ^ wasted)) →
        exec i s = .next (workDone s
          { s.work with cur := c.cur, subs := s.work.subs ++ [{ g with samples := x.map (· * 2 ^ wasted) }] }
          c.fpos)) ∧
      ((∃ v ∈ x, ¬ inDr s.params.datapathBits (v * 2 ^ wasted)) →
        ∃ t, exec i s = .next t ∧ frameFailed s t .arithmeticOverflow c.fpos) := by
  subst kept
  refine ⟨fun leaves => ?_, fun x follows => ?_⟩
  · exact subframeCode_payload_fails row legal field wide (decoded.trans (rebuild_leaves enough leaves))
  · have samples := decoded.trans (rebuild_follows enough follows)
    exact ⟨fun fits => row.trans (subframeBody_ok field legal wide samples fits),
      fun leaves => subframeCode_fails row (subframeBody_overflow field legal wide samples leaves)⟩

end Subframe

/-! ### FIXED -/

section Fixed

variable {s : State} {bs type wasted order e p : Nat} {width : Int}

theorem payload_fixed_atResidual (there : order = 0 ∨ bitsAt s e (order * width.toNat)) (fp : Nat) :
    payload s bs (openSubframe type wasted .fixed order width) ⟨e, p⟩ = (do
      let g ← residual s bs (openSubframe type wasted .fixed order width)
      rebuild s (fixedCoefs g.order) 0 (signedFields s e width.toNat order) g : Stage Subframe)
        ⟨e + order * width.toNat, fp⟩ :=
  takeSMany_residual there fp (fun _ => openSubframe type wasted .fixed order width)
    (fun warm g => rebuild s (fixedCoefs g.order) 0 warm g)

end Fixed

/-- The rows of the fixed predictors (R244, R294). -/
theorem fixedRow {s : State} {k : Nat} {wflag : Bool} {i : Instr} {a : List Int}
    (h : (k, i, a) ∈ ([(0, .subframeFixed0 wflag, []), (1, .subframeFixed1 wflag, [1]),
      (2, .subframeFixed2 wflag, [2, -1]), (3, .subframeFixed3 wflag, [3, -3, 1]),
      (4, .subframeFixed4 wflag, [4, -6, 4, -1])] : List (Nat × Instr × List Int))) :
    exec i s = runStage s (subframeBody s (8 + k) wflag) ∧ classify (8 + k) = some (.fixed, k) ∧
      a = fixedCoefs k ∧ a.length = k := by
  simp only [List.mem_cons, List.not_mem_nil, or_false, Prod.mk.injEq] at h
  obtain ⟨rfl, rfl, rfl⟩ | ⟨rfl, rfl, rfl⟩ | ⟨rfl, rfl, rfl⟩ | ⟨rfl, rfl, rfl⟩ | ⟨rfl, rfl, rfl⟩ := h
  all_goals exact ⟨rfl, rfl, rfl, rfl⟩

/-- Settles O41: the warm-ups are there or not, and the residual and the reconstruction answer or not. -/
theorem fixedSubframes : Obligations.FixedSubframes := by
  intro s k wflag i a hi wasted e field wide w warm f raises
  obtain ⟨row, legal, rfl, orders⟩ := fixedRow (s := s) hi
  refine ⟨fun j hj first => ?_, fun fp r there raised => ?_, fun fp g c decoded => ?_⟩
  · exact subframeCode_payload_fails row legal field wide (payload_warmup_missing (.inl rfl) hj first)
  · exact subframeCode_payload_fails row legal field wide ((payload_fixed_atResidual there fp).trans (er_bind raised))
  · obtain ⟨wasted_kept, order_kept, -, -⟩ := residual_keeps decoded
    refine subframeCode_predicted (shift := 0) row legal field wide ?_ (by simp [warm, orders]) wasted_kept
    refine (payload_fixed_atResidual (.inr (residual_start decoded)) fp).trans ((ok_bind decoded).trans ?_)
    rw [order_kept]

/-! ### LPC, from one field on -/

/-- An LPC body from its coefficients on (R303, R304). -/
def lpcFromCoefs (s : State) (bs : Nat) (warm : List Int) (f : Subframe) : Stage Subframe := do
  let coef ← takeSMany s f.prec f.order
  let g ← residual s bs { f with coef := coef }
  rebuild s g.coef g.shift warm g

/-- An LPC body from SHIFT on (R302). -/
def lpcFromShift (s : State) (bs : Nat) (warm : List Int) (f : Subframe) : Stage Subframe := do
  let bits ← takeU s 5
  let f ← shiftField bits f
  lpcFromCoefs s bs warm f

/-- An LPC body from PRECM1 on (R301). -/
def lpcFromPrecision (s : State) (bs : Nat) (warm : List Int) (f : Subframe) : Stage Subframe := do
  let precM1 ← takeU s 4
  let f ← precisionField precM1 f
  lpcFromShift s bs warm f

theorem lpcPayload_eq (s : State) (bs : Nat) (f : Subframe) : lpcPayload s bs f = (do
    let warm ← takeSMany s f.width f.order
    lpcFromPrecision s bs warm f) := rfl

section Lpc

variable {s : State} {bs p fp : Nat} {warm : List Int} {f : Subframe}

theorem lpcFromPrecision_missing (missing : ¬ bitsAt s p 4) :
    lpcFromPrecision s bs warm f ⟨p, fp⟩ = .error ⟨.outOfBounds, p⟩ := er_bind (takeU_er missing)

theorem lpcFromPrecision_invalid (there : bitsAt s p 4) (invalid : bitRead s p 4 = 15) :
    lpcFromPrecision s bs warm f ⟨p, fp⟩ = .error ⟨.invalidPrecision, p⟩ :=
  (ok_bind (takeU_ok there)).trans (er_bind (check_error (decide_eq_true invalid)))

theorem lpcFromPrecision_legal (there : bitsAt s p 4) (legal : bitRead s p 4 ≠ 15) :
    lpcFromPrecision s bs warm f ⟨p, fp⟩ = lpcFromShift s bs warm { f with prec := bitRead s p 4 + 1 } ⟨p + 4, p⟩ :=
  (ok_bind (takeU_ok there)).trans (ok_bind (precisionField_legal legal f _))

theorem lpcFromShift_missing (missing : ¬ bitsAt s p 5) :
    lpcFromShift s bs warm f ⟨p, fp⟩ = .error ⟨.outOfBounds, p⟩ := er_bind (takeU_er missing)

theorem lpcFromShift_negative (there : bitsAt s p 5) (negative : 16 ≤ bitRead s p 5) :
    lpcFromShift s bs warm f ⟨p, fp⟩ = .error ⟨.invalidShift, p⟩ :=
  (ok_bind (takeU_ok there)).trans
    (er_bind (check_error (decide_eq_true (sext_five_neg negative (bitRead_lt s p 5)))))

theorem lpcFromShift_legal (there : bitsAt s p 5) (legal : bitRead s p 5 < 16) :
    lpcFromShift s bs warm f ⟨p, fp⟩ = lpcFromCoefs s bs warm { f with shift := bitRead s p 5 } ⟨p + 5, p⟩ :=
  (ok_bind (takeU_ok there)).trans (ok_bind (shiftField_legal legal f _))

theorem lpcFromCoefs_missing {j : Nat} (hj : j < f.order) (first : firstMissing s p f.prec j) :
    lpcFromCoefs s bs warm f ⟨p, fp⟩ = .error ⟨.outOfBounds, p + j * f.prec⟩ := er_bind (takeSMany_error hj first)

theorem lpcFromCoefs_atResidual (there : bitsAt s p (f.order * f.prec)) (fp' : Nat) :
    lpcFromCoefs s bs warm f ⟨p, fp⟩ = (do
      let g ← residual s bs { f with coef := signedFields s p f.prec f.order }
      rebuild s g.coef g.shift warm g : Stage Subframe) ⟨p + f.order * f.prec, fp'⟩ :=
  takeSMany_residual (.inr there) fp' (fun coef => { f with coef := coef }) (fun _ g => rebuild s g.coef g.shift warm g)

end Lpc

section LpcPayload

variable {s : State} {bs type wasted order e fp p : Nat} {width : Int}

variable (place : p = e + order * width.toNat) (some_order : order ≠ 0)
include place some_order

theorem payload_lpc_atPrecision (there : bitsAt s e (order * width.toNat)) :
    payload s bs (openSubframe type wasted .lpc order width) ⟨e, fp⟩ =
      lpcFromPrecision s bs (signedFields s e width.toNat order) (openSubframe type wasted .lpc order width)
        ⟨p, e + (order - 1) * width.toNat⟩ :=
  (congrFun (lpcPayload_eq s bs _) _).trans
    (ok_bind (takeSMany_eq_ok.2 ⟨.inr there, rfl, place ▸ (if_neg some_order).symm⟩))

theorem payload_lpc_invalidPrecision (there : bitsAt s e (order * width.toNat + 4)) (invalid : bitRead s p 4 = 15) :
    payload s bs (openSubframe type wasted .lpc order width) ⟨e, fp⟩ = .error ⟨.invalidPrecision, p⟩ :=
  (payload_lpc_atPrecision place some_order (there.mono (by omega))).trans
    (lpcFromPrecision_invalid (there.mono (by omega)) invalid)

variable (prec : bitRead s p 4 ≠ 15)
include prec

theorem payload_lpc_atShift (there : bitsAt s e (order * width.toNat + 4)) :
    payload s bs (openSubframe type wasted .lpc order width) ⟨e, fp⟩ =
      lpcFromShift s bs (signedFields s e width.toNat order)
        { openSubframe type wasted .lpc order width with prec := bitRead s p 4 + 1 } ⟨p + 4, p⟩ :=
  (payload_lpc_atPrecision place some_order (there.mono (by omega))).trans
    (lpcFromPrecision_legal (there.mono (by omega)) prec)

theorem payload_lpc_negativeShift (there : bitsAt s e (order * width.toNat + 9)) (negative : 16 ≤ bitRead s (p + 4) 5) :
    payload s bs (openSubframe type wasted .lpc order width) ⟨e, fp⟩ = .error ⟨.invalidShift, p + 4⟩ :=
  (payload_lpc_atShift place some_order prec (there.mono (by omega))).trans
    (lpcFromShift_negative (there.mono (by omega)) negative)

variable (shift : bitRead s (p + 4) 5 < 16)
include shift

theorem payload_lpc_atCoefs (there : bitsAt s e (order * width.toNat + 9)) :
    payload s bs (openSubframe type wasted .lpc order width) ⟨e, fp⟩ =
      lpcFromCoefs s bs (signedFields s e width.toNat order)
        { openSubframe type wasted .lpc order width with
          prec := bitRead s p 4 + 1, shift := bitRead s (p + 4) 5 } ⟨p + 9, p + 4⟩ :=
  (payload_lpc_atShift place some_order prec (there.mono (by omega))).trans
    (lpcFromShift_legal (there.mono (by omega)) shift)

theorem payload_lpc_atResidual (there : bitsAt s e (order * width.toNat + 9 + order * (bitRead s p 4 + 1)))
    (fp' : Nat) :
    payload s bs (openSubframe type wasted .lpc order width) ⟨e, fp⟩ = (do
      let g ← residual s bs { openSubframe type wasted .lpc order width with
        prec := bitRead s p 4 + 1
        shift := bitRead s (p + 4) 5
        coef := signedFields s (p + 9) (bitRead s p 4 + 1) order }
      rebuild s g.coef g.shift (signedFields s e width.toNat order) g : Stage Subframe)
        ⟨p + 9 + order * (bitRead s p 4 + 1), fp'⟩ :=
  (payload_lpc_atCoefs place some_order prec shift (there.mono (by omega))).trans
    (lpcFromCoefs_atResidual (there.mono (by simp only [openSubframe]; omega)) fp')

end LpcPayload

/-- Settles O43: the fields are there and legal up to the first that is not; after them, the residual and the
reconstruction answer or not. -/
theorem lpcSubframe : Obligations.LpcSubframe := by
  intro s orderM1 wflag wasted e field wide w k p prec shift coef f run raises
  have row : run = runStage s (subframeBody s (32 + orderM1.toNat) wflag) := rfl
  have legal : classify (32 + orderM1.toNat) = some (.lpc, k) := classify_lpc orderM1.isLt
  have some_order : k ≠ 0 := Nat.succ_ne_zero _
  have prec_legal (h : prec ≤ 15) : bitRead s p 4 ≠ 15 := by omega
  have fails {r : Raise} (h : payload s s.work.hdr.bs (openSubframe (32 + orderM1.toNat) wasted .lpc k
      (subframeWidth s wasted)) ⟨e, lastHeaderField s wflag⟩ = .error r) : raises r.code r.pos :=
    subframeCode_payload_fails row legal field wide h
  refine ⟨fun j hj first => ?_, fun there missing => ?_, fun there invalid => ?_, fun there hp missing => ?_,
    fun there hp negative => ?_, fun there hp hs j hj first => ?_, fun fp r there hp hs raised => ?_,
    fun fp g c hp hs decoded => ?_⟩
  · exact fails (payload_warmup_missing (.inr rfl) hj first)
  · exact fails ((payload_lpc_atPrecision rfl some_order there).trans (lpcFromPrecision_missing missing))
  · exact fails (payload_lpc_invalidPrecision rfl some_order there (Nat.succ.inj invalid))
  · exact fails ((payload_lpc_atShift rfl some_order (prec_legal hp) there).trans (lpcFromShift_missing missing))
  · exact fails (payload_lpc_negativeShift rfl some_order (prec_legal hp) there negative)
  · exact fails ((payload_lpc_atCoefs rfl some_order (prec_legal hp) (Nat.lt_succ_of_le hs) there).trans
      (lpcFromCoefs_missing hj first))
  · exact fails ((payload_lpc_atResidual rfl some_order (prec_legal hp) (Nat.lt_succ_of_le hs) there fp).trans
      (er_bind raised))
  · obtain ⟨wasted_kept, -, shift_kept, coef_kept⟩ := residual_keeps decoded
    have there : bitsAt s e (k * w + 9 + k * prec) := by
      have := residual_start decoded
      unfold bitsAt
      omega
    have decoded := (payload_lpc_atResidual (fp := lastHeaderField s wflag) rfl some_order (prec_legal hp)
      (Nat.lt_succ_of_le hs) there fp).trans (ok_bind decoded)
    rw [shift_kept, coef_kept] at decoded
    exact subframeCode_predicted row legal field wide decoded (by simp [coef]) wasted_kept

end Sys2Proof.Machine

/-! Decorrelation that leaves DR (44_predictors.md rule R290; 45_assembly.md rules R337 to R339): O36. -/

namespace Sys2Proof.Machine

/-- One value outside DR fails the whole list (R290). -/
theorem allChecked_of_not_inDr {d : Nat} {vs : List Int} {v : Int} (hv : v ∈ vs) (bad : ¬ inDr d v) :
    allChecked d vs = none := by
  refine if_neg fun all => bad ?_
  exact (inRange_iff d v).1 (List.all_eq_true.1 all v hv)

section Overflow

variable {d n : Nat} {a b : List Int} (hab : a.length = b.length) (hn : n < a.length)

include hab hn

/-- The pairwise image of two lists holds that of their samples `n`. -/
theorem mem_zipWith_getD (f : Int → Int → Int) : f (a.getD n 0) (b.getD n 0) ∈ List.zipWith f a b := by
  have hb : n < b.length := hab ▸ hn
  rw [List.getD_eq_getElem _ _ hn, List.getD_eq_getElem _ _ hb]
  exact List.mem_iff_getElem.2 ⟨n, by simp [hn, hb], by simp⟩

/-- A pairwise image with one value outside DR fails (R290). -/
theorem allChecked_zipWith_eq_none {f : Int → Int → Int} (bad : ¬ inDr d (f (a.getD n 0) (b.getD n 0))) :
    allChecked d (List.zipWith f a b) = none :=
  allChecked_of_not_inDr (mem_zipWith_getD hab hn f) bad

theorem leftSide_overflows (bad : ¬ inDr d (a.getD n 0 - b.getD n 0)) : leftSide d a b = none := by
  rw [leftSide, allChecked_zipWith_eq_none hab hn bad]

theorem rightSide_overflows (bad : ¬ inDr d (b.getD n 0 + a.getD n 0)) : rightSide d a b = none := by
  rw [rightSide, allChecked_zipWith_eq_none hab hn (f := fun x y => y + x) bad]

theorem midSide_overflows (bad : ¬ inDr d (midDoubled (a.getD n 0) (b.getD n 0)) ∨
    ¬ inDr d (midSum (a.getD n 0) (b.getD n 0)) ∨ ¬ inDr d (midRight (a.getD n 0) (b.getD n 0))) :
    midSide d a b = none := by
  unfold midSide
  obtain bad | bad | bad := bad
  · rw [allChecked_zipWith_eq_none hab hn bad]
  · rw [allChecked_zipWith_eq_none hab hn bad]
    cases allChecked d (List.zipWith midDoubled a b) <;> rfl
  · rw [allChecked_zipWith_eq_none hab hn bad]
    cases allChecked d (List.zipWith midDoubled a b) with
    | none => rfl
    | some _ => cases allChecked d (List.zipWith midSum a b) <;> rfl

end Overflow

/-- Decorrelation that leaves DR raises at the last field read (R290). -/
theorem decorrelateStage_of_none {s : State} {w : Work} {c : Cur}
    (h : decorrelate s.params.datapathBits w.hdr.chcode (w.subs.map Subframe.samples) = none) :
    decorrelateStage s w c = .error ⟨.arithmeticOverflow, c.fpos⟩ := by
  rw [decorrelateStage, h]
  rfl

/-- A legal CHCODE whose decorrelation leaves DR (R206, R213). -/
theorem runStage_channels_overflows {s : State} {code : Nat} (legal : code < 11)
    (h : decorrelate s.params.datapathBits code (s.work.subs.map Subframe.samples) = none) :
    runStage s (channelsCode s code) = .next (failFrame s ⟨.arithmeticOverflow, s.fpos.toNat⟩) := by
  refine runStage_error (stage := channelsCode s code)
    ((ok_bind (chcodeField_eq_ok.2 ⟨legal, rfl, rfl⟩)).trans (decorrelateStage_of_none ?_))
  rw [channelSetup_chcode]
  exact h

/-- Settles O36: the failing sample fails its pairwise image, which fails the code. -/
theorem decorrelationOverflows : Obligations.DecorrelationOverflows := by
  intro s a b n hsubs hab hn dr m
  refine ⟨fun bad => ?_, fun bad => ?_, fun bad => ?_⟩
  · refine code_raises (runStage_channels_overflows (code := 8) (by decide) ?_)
    rw [hsubs]
    exact leftSide_overflows hab hn bad
  · refine code_raises (runStage_channels_overflows (code := 9) (by decide) ?_)
    rw [hsubs]
    exact rightSide_overflows hab hn bad
  · refine code_raises (runStage_channels_overflows (code := 10) (by decide) ?_)
    rw [hsubs]
    exact midSide_overflows hab hn bad

end Sys2Proof.Machine

/-! The checks at the end of a frame (45_assembly.md rules R334 to R341; 60_exceptions.md rule R383): O51. -/

namespace Sys2Proof.Machine

/-- A check on a field already read that passes. -/
theorem check_passed {α : Type} {bad : Bool} {e : ErrCode} {next : Unit → Stage α} {c : Cur} (h : bad = false) :
    (raiseIf bad e >>= next) c = next () c := ok_bind (raiseIf_eq_ok.2 ⟨h, rfl⟩)

/-- A frame's end from its CRC16 on (R335 to R341). -/
def frameEndFromCrc (s : State) (w : Work) : Stage Work := do
  let h ← frameCrc s w.hdr
  let w ← decorrelateStage s { w with hdr := h }
  rangeCheck w
  capacityCheck s w
  pure w

/-- CRC16 follows the padding (R334, R335). -/
theorem frameEnd_eq (s : State) (w : Work) : frameEnd s w = (do framePadding s; frameEndFromCrc s w) := rfl

/-- The bytes from bit position `start` to bit position `q` have the checksum that stands at `q` (R335). -/
def crc16Matches (s : State) (start q : Nat) : Prop :=
  (crc16Of (memRead s (start / 8) (q / 8 - start / 8))).toNat = bitRead s q 16

/-- Every sample of every channel fits `bps` bits (R340). -/
def samplesFit (bps : Nat) (ch : List (List Int)) : Prop := ∀ l ∈ ch, ∀ v ∈ l, inDr bps v

theorem rangeCheck_test {bps : Nat} {ch : List (List Int)} :
    (ch.all fun l => l.all (inRange bps)) = true ↔ samplesFit bps ch := by
  simp only [List.all_eq_true, inRange_iff, samplesFit]

section Padding

variable {s : State} {w : Work} {p fp z : Nat} (hz : z = (8 - p % 8) % 8)
include hz

theorem frameEnd_paddingMissing (missing : ¬ bitsAt s p z) : frameEnd s w ⟨p, fp⟩ = .error ⟨.outOfBounds, p⟩ := by
  subst hz
  exact er_bind ((ok_bind (get_apply _)).trans (er_bind (takeU_er missing)))

theorem frameEnd_paddingSet (there : bitsAt s p z) (set : bitRead s p z ≠ 0) :
    frameEnd s w ⟨p, fp⟩ = .error ⟨.invalidPadding, p⟩ := by
  subst hz
  exact er_bind ((ok_bind (get_apply _)).trans
    ((ok_bind (takeU_ok there)).trans (raiseIf_eq_error.2 ⟨decide_eq_true set, rfl⟩)))

/-- Good padding: the rest of the frame's end begins at the byte boundary (R334). -/
theorem frameEnd_atCrc (there : bitsAt s p z) (clear : bitRead s p z = 0) :
    frameEnd s w ⟨p, fp⟩ = frameEndFromCrc s w ⟨p + z, p⟩ := by
  subst hz
  exact ok_bind (a := ()) ((ok_bind (get_apply _)).trans
    ((ok_bind (takeU_ok there)).trans (raiseIf_eq_ok.2 ⟨decide_eq_false (not_not.2 clear), rfl⟩)))

end Padding

section FromCrc

variable {s : State} {w : Work} {q fp : Nat} {ch : List (List Int)}

theorem frameEndFromCrc_missing (missing : ¬ bitsAt s q 16) :
    frameEndFromCrc s w ⟨q, fp⟩ = .error ⟨.outOfBounds, q⟩ := er_bind (er_bind (takeU_er missing))

theorem frameEndFromCrc_wrong (there : bitsAt s q 16)
    (wrong : ¬ (s.params.verifyCrc = false ∨ crc16Matches s w.hdr.start q)) :
    frameEndFromCrc s w ⟨q, fp⟩ = .error ⟨.frameChecksum, q⟩ := by
  obtain ⟨verified, mismatch⟩ := not_or.1 wrong
  refine er_bind ((ok_bind (takeU_ok there)).trans ((ok_bind (get_apply _)).trans (check_error ?_)))
  rw [Bool.eq_true_of_not_eq_false verified, Bool.true_and]
  exact decide_eq_true mismatch

theorem frameCrc_accepted {h : Hdr} (there : bitsAt s q 16)
    (good : s.params.verifyCrc = false ∨ crc16Matches s h.start q) :
    frameCrc s h ⟨q, fp⟩ = .ok ({ h with crc16 := bitRead s q 16 }, ⟨q + 16, q⟩) := by
  refine (ok_bind (takeU_ok there)).trans ((ok_bind (get_apply _)).trans (check_passed ?_))
  obtain unverified | matching := good
  · rw [unverified, Bool.false_and]
  · exact Bool.and_eq_false_iff.2 (.inr (decide_eq_false (not_not.2 matching)))

variable (there : bitsAt s q 16) (good : s.params.verifyCrc = false ∨ crc16Matches s w.hdr.start q)
include there good

theorem frameEndFromCrc_overflows
    (overflow : decorrelate s.params.datapathBits w.hdr.chcode (w.subs.map Subframe.samples) = none) :
    frameEndFromCrc s w ⟨q, fp⟩ = .error ⟨.arithmeticOverflow, q⟩ :=
  (ok_bind (frameCrc_accepted there good)).trans (er_bind (decorrelateStage_of_none overflow))

variable (output : decorrelate s.params.datapathBits w.hdr.chcode (w.subs.map Subframe.samples) = some ch)
include output

/-- A frame's end from the range check on (R340, R341). -/
theorem frameEndFromCrc_atRange :
    frameEndFromCrc s w ⟨q, fp⟩ = (do
      let v : Work := { w with hdr := { w.hdr with crc16 := bitRead s q 16 }, chan := ch }
      rangeCheck v
      capacityCheck s v
      pure v : Stage Work) ⟨q + 16, q⟩ :=
  (ok_bind (frameCrc_accepted there good)).trans (ok_bind (decorrelateStage_of_some output))

theorem frameEndFromCrc_range (bad : ¬ samplesFit w.hdr.bps ch) :
    frameEndFromCrc s w ⟨q, fp⟩ = .error ⟨.sampleRange, q⟩ := by
  refine (frameEndFromCrc_atRange there good output).trans (check_error ?_)
  rw [Bool.not_eq_true', Bool.eq_false_iff]
  exact fun h => bad (rangeCheck_test.1 h)

variable (fits : samplesFit w.hdr.bps ch)
include fits

theorem frameEndFromCrc_atCapacity :
    frameEndFromCrc s w ⟨q, fp⟩ = (do
      let v : Work := { w with hdr := { w.hdr with crc16 := bitRead s q 16 }, chan := ch }
      capacityCheck s v
      pure v : Stage Work) ⟨q + 16, q⟩ :=
  (frameEndFromCrc_atRange there good output).trans
    (check_passed (by rw [rangeCheck_test.2 fits]; rfl))

theorem frameEndFromCrc_full (full : ¬ s.outptr.toNat + w.hdr.bs * w.hdr.channels ≤ s.params.outMax) :
    frameEndFromCrc s w ⟨q, fp⟩ = .error ⟨.outputOverflow, q⟩ :=
  (frameEndFromCrc_atCapacity there good output fits).trans (check_error (decide_eq_true (Nat.lt_of_not_le full)))

theorem frameEndFromCrc_passed (room : s.outptr.toNat + w.hdr.bs * w.hdr.channels ≤ s.params.outMax) :
    frameEndFromCrc s w ⟨q, fp⟩ =
      .ok ({ w with hdr := { w.hdr with crc16 := bitRead s q 16 }, chan := ch }, ⟨q + 16, q⟩) :=
  (frameEndFromCrc_atCapacity there good output fits).trans
    (check_passed (decide_eq_false (Nat.not_lt.2 room)))

end FromCrc

/-- Settles O51: padding, checksum, decorrelation, range and capacity, up to the first that fails. -/
theorem frameEndChecks : Obligations.FrameEndChecks := by
  intro s w p fp z q run good passed output fits room
  refine ⟨frameEnd_paddingMissing rfl, frameEnd_paddingSet rfl, fun there clear => ?_⟩
  have atCrc : run = frameEndFromCrc s w ⟨q, p⟩ := frameEnd_atCrc rfl there clear
  rw [atCrc]
  exact ⟨frameEndFromCrc_missing, frameEndFromCrc_wrong, fun crc accepted =>
    ⟨frameEndFromCrc_overflows crc accepted, fun ch decorrelated =>
      ⟨frameEndFromCrc_range crc accepted decorrelated, frameEndFromCrc_full crc accepted decorrelated,
        frameEndFromCrc_passed crc accepted decorrelated⟩⟩⟩

end Sys2Proof.Machine

/-! DECODE_FRAME: its start checks, its failure, its commit, and what they depend on (45_assembly.md rules R331, R342, R343,
R349): O53, O54, O56. -/

namespace Sys2Proof.Machine

/-! ### Failure -/

/-- The start checks fail at the cursor they start from (R331). -/
theorem startChecks_fails {s : State} (unready : ¬ decodeReady s) (c : Cur) :
    startChecks s c = .error ⟨.configError, c.fpos⟩ := by
  by_cases len : lenOk s
  · have params : streamParamsOk s = false := by
      rw [← Bool.not_eq_true]
      simp only [streamParamsOk, Bool.and_eq_true, decide_eq_true_eq]
      rintro ⟨⟨⟨⟨rate, ch⟩, bps⟩, ch1, ch8⟩, bps4, bps32⟩
      exact unready ⟨len, rate, ch, bps, ch1, ch8, bps4, bps32⟩
    exact (check_passed (decide_eq_false (Nat.not_lt.2 len))).trans (raiseIf_eq_error.2 ⟨by rw [params]; rfl, rfl⟩)
  · exact check_error (decide_eq_true (Nat.lt_of_not_le len))

theorem decodeFrame_unready {s : State} (unready : ¬ decodeReady s) :
    exec .decodeFrame s = .next (failFrame s ⟨.configError, s.pos.toNat⟩) := by
  have fails : (do startChecks s; frameBody s : Stage Work) (startCur s) = .error ⟨.configError, s.pos.toNat⟩ :=
    er_bind (startChecks_fails unready _)
  show execDecodeFrame s = _
  rw [execDecodeFrame, fails]

/-- A DECODE_STREAM whose checks raise commits nothing (R331, R344). -/
theorem decodeStream_checkFails {s : State} {e : Raise} (fails : streamChecks s (startCur s) = .error e) :
    exec .decodeStream s = .next (failFrame s e) := by
  show execDecodeStream s = _
  rw [execDecodeStream, fails]

/-- Settles O53: every failure named is error entry on the state the command began in. -/
theorem decodeFrameFails : Obligations.DecodeFrameFails := by
  refine ⟨fun s i hi unready => ?_, fun s e ready raised => ⟨_, decodeFrame_error ready raised, failFrame_failed s e⟩⟩
  refine ⟨failFrame s ⟨.configError, s.pos.toNat⟩, ?_, failFrame_failed s _⟩
  obtain rfl | rfl := hi
  · exact decodeFrame_unready unready
  · exact decodeStream_checkFails (er_bind (startChecks_fails unready _))

/-! ### The words of OUT -/

/-- A block write puts its values at its own addresses (00_scope.md rule R19). -/
theorem readCell_writeBlock_inside {α : Type} (m : List (Nat × α)) (b : Nat) {vs : List α} {n : Nat}
    (h : n < vs.length) : readCell (writeBlock m b vs) (b + n) = vs[n]? := by
  rw [readCell_writeBlock, if_pos ⟨Nat.le_add_right b n, Nat.add_lt_add_left h b⟩, Nat.add_sub_cancel_left]

/-- … and leaves every other address alone. -/
theorem readCell_writeBlock_outside {α : Type} (m : List (Nat × α)) {a b : Nat} {vs : List α}
    (h : a < b ∨ b + vs.length ≤ a) : readCell (writeBlock m b vs) a = readCell m a := by
  rw [readCell_writeBlock, if_neg (by omega)]

/-- Sample `n` of channel `k` is one of the frame's samples. -/
theorem FrameOk.sample_inRange {s : State} {start n k : Nat} {w : Work} {c : Cur} (ok : FrameOk s start w c)
    (hn : n < w.hdr.bs) (hk : k < w.hdr.channels) : inRange w.hdr.bps ((w.chan.getD k []).getD n 0) = true := by
  have hk : k < w.chan.length := ok.chan_length ▸ hk
  have mem : w.chan.getD k [] ∈ w.chan := List.getD_eq_getElem _ [] hk ▸ List.getElem_mem hk
  have hn : n < (w.chan.getD k []).length := ok.samples _ mem ▸ hn
  exact ok.range _ mem _ (List.getD_eq_getElem _ 0 hn ▸ List.getElem_mem hn)

/-- Word OUTPTR + n·C + k of OUT is sample n of channel k, whole (20_memory.md rule R98; R342). -/
theorem readCell_commit {s : State} {start n k : Nat} {w : Work} {c : Cur} (ok : FrameOk s start w c)
    (hbps : w.hdr.bps ≤ 32) (hn : n < w.hdr.bs) (hk : k < w.hdr.channels) :
    ∃ v, readCell (commit s w c).out (s.outptr.toNat + n * w.hdr.channels + k) = some v ∧
      v.toInt = (w.chan.getD k []).getD n 0 := by
  have sample := interleave_get w.hdr.bs w.chan n k hn (ok.chan_length.symm ▸ hk)
  rw [ok.chan_length] at sample
  have inside := (List.getElem?_eq_some_iff.1 sample).1
  refine ⟨_, ?_, toInt_ofInt hbps (by decide) (ok.sample_inRange hn hk)⟩
  rw [Nat.add_assoc]
  exact (readCell_writeBlock_inside _ _ inside).trans sample

/-! ### The channels' records, whole -/

/-- A field of `w` bits fits `w` bits (00_scope.md rule R17). -/
theorem inRange_sext_self {w v : Nat} (hw : 1 ≤ w) (hv : v < 2 ^ w) : inRange w (sext w v) = true := by
  have double : 2 ^ w = 2 * 2 ^ (w - 1) := by
    rw [← Nat.pow_succ']
    congr 1
    omega
  have cast (n : Nat) : (2 : Int) ^ n = ((2 ^ n : Nat) : Int) := by push_cast; rfl
  rw [inRange, decide_eq_true_eq, sext, if_neg (by omega), cast, cast]
  split_ifs <;> omega

/-- A list of numbers that fit a register survives it. -/
theorem map_toNat_ofNat {n : Nat} {l : List Nat} (h : ∀ v ∈ l, v < 2 ^ n) :
    (l.map (BitVec.ofNat n)).map BitVec.toNat = l := by
  rw [List.map_map]
  conv_rhs => rw [← List.map_id l]
  exact List.map_congr_left fun v hv => Nat.mod_eq_of_lt (h v hv)

/-- Registers and memories that hold the record of a channel and its output samples whole (42_subframe_header.md rule R250,
43_residual.md rule R272, 44_predictors.md rule R304). -/
structure ChannelRegs.Hold (r : ChannelRegs) (f : Subframe) (l : List Int) : Prop where
  type : r.sfType.toNat = f.type
  kind : r.sfKind = kindNumber f.kind
  order : r.sfOrder.toNat = f.order
  wasted : r.sfWasted.toNat = f.wasted
  width : r.sfWidth.toNat = f.width
  sub : r.sub.map BitVec.toInt = f.samples
  chan : r.chan.map BitVec.toInt = l
  lpc : f.kind = .lpc →
    r.lpcPrec.toNat = f.prec ∧ r.lpcShift.toNat = f.shift ∧ r.coef.map BitVec.toInt = f.coef
  residual : f.kind = .fixed ∨ f.kind = .lpc →
    r.resMethod.toNat = f.method ∧ r.resPorder.toNat = f.porder ∧ r.rpart.map BitVec.toNat = f.rpart ∧
      r.res.map BitVec.toInt = f.res

section Channel

variable {s : State} {h : Hdr} {k draw : Nat} {f : Subframe} {l : List Int}

theorem channelRegs_shift (ok : RecOk s h k f) (hk : f.kind = .lpc) :
    (channelRegs draw k f l).lpcShift.toNat = f.shift := by
  obtain ⟨-, -, hshift, -⟩ := ok.lpc hk
  simp only [channelRegs, hk, specifiedIf, decide_true, if_true]
  exact Nat.mod_eq_of_lt (by omega)

theorem channelRegs_method (ok : RecOk s h k f) (hk : f.kind = .fixed ∨ f.kind = .lpc) :
    (channelRegs draw k f l).resMethod.toNat = f.method := by
  obtain ⟨hmethod, -⟩ := ok.residual hk
  simp only [channelRegs, hasResidual, hk, specifiedIf, decide_true, if_true]
  exact Nat.mod_eq_of_lt hmethod

/-- A coefficient has at most 15 bits (44_predictors.md rules R301, R303). -/
theorem channelRegs_coef (ok : RecOk s h k f) (hk : f.kind = .lpc) :
    (channelRegs draw k f l).coef.map BitVec.toInt = f.coef := by
  obtain ⟨prec1, prec15, -, p, coef⟩ := ok.lpc hk
  refine map_toInt prec15 (by decide) ?_
  rw [coef]
  intro v hv
  obtain ⟨j, -, rfl⟩ := List.mem_map.1 hv
  exact inRange_sext_self prec1 (bitRead_lt s _ _)

/-- No number of a decoded channel is cut by its register. -/
theorem channelRegs_hold (ok : RecOk s h k f) (hp : s.params.wf) (hbps : h.bps ≤ 32)
    (hl : ∀ v ∈ l, inRange h.bps v = true) : (channelRegs draw k f l).Hold f l where
  type := Nat.mod_eq_of_lt ok.type
  kind := rfl
  order := channelRegs_order ok
  wasted := channelRegs_wasted ok hbps
  width := channelRegs_width ok hbps
  sub := by
    obtain ⟨-, -, -, -, hd⟩ := hp
    exact map_toInt hd (by decide) ok.samples
  chan := map_toInt (hbps.trans (by decide)) (by decide) hl
  lpc hk := ⟨channelRegs_prec ok hk, channelRegs_shift ok hk, channelRegs_coef ok hk⟩
  residual hk := by
    obtain ⟨-, -, -, hparts, -, hres⟩ := ok.residual hk
    exact ⟨channelRegs_method ok hk, channelRegs_porder ok hk, map_toNat_ofNat hparts,
      map_toInt (Nat.le_refl 64) (by decide) hres⟩

end Channel

/-- Every record of a committed frame holds its channel whole (R342). -/
theorem frameRegs_channel_hold {s : State} {start draw k : Nat} {w : Work} {c : Cur} {f : Subframe} {ch : ChannelRegs}
    (ok : FrameOk s start w c) (hp : s.params.wf) (hbps : w.hdr.bps ≤ 32) (hf : w.subs[k]? = some f)
    (hch : (frameRegs draw w).channels[k]? = some ch) : ch.Hold f (w.chan.getD k []) := by
  obtain ⟨g, l, hg, hl, rfl⟩ := frameRegs_channel hch
  obtain rfl : f = g := Option.some.inj (hf.symm.trans hg)
  rw [List.getD_eq_getElem?_getD, hl]
  exact channelRegs_hold (ok.channel k f hf).recOk hp hbps (ok.range l (List.mem_of_getElem? hl))

/-! ### The commit -/

section Commit

variable {s : State} {w : Work} {c : Cur} {start : Nat} (ok : FrameOk s start w c)
include ok

theorem commit_pos_toNat (hp : s.params.wf) (hl : lenOk s) : (commit s w c).pos.toNat = c.cur :=
  Nat.mod_eq_of_lt (ok.inside.trans_lt (endPos_lt hp hl))

theorem commit_outptr_toNat (hp : s.params.wf) :
    (commit s w c).outptr.toNat = s.outptr.toNat + w.hdr.bs * w.hdr.channels := by
  obtain ⟨-, hmax, -⟩ := hp
  exact Nat.mod_eq_of_lt (ok.room.trans_lt hmax)

/-- A frame's output is as long as its samples. -/
theorem FrameOk.interleave_length : (interleave w.hdr.bs w.chan).length = w.hdr.bs * w.hdr.channels := by
  rw [Machine.interleave_length, ok.chan_length]

theorem frameRegs_channels_length (draw : Nat) : (frameRegs draw w).channels.length = w.hdr.channels := by
  simp only [frameRegs, List.length_mapIdx, List.length_zip, ok.subs_length, ok.chan_length, Nat.min_self]

end Commit

/-- Settles O54: OUT is the block written, the registers hold the decode whole, and the rest is what it was. -/
theorem decodeFrameCommits : Obligations.DecodeFrameCommits := by
  intro s w c hp ready body h words
  have ok : FrameOk s s.pos.toNat w c := frameBody_ok body
  have hbps := ok.hdr.bps_le ready
  have regs : (headerRegs h).Hold h := headerRegs_hold ok.hdr hbps ok.crc16
  have start : BitVec.ofNat 64 h.start = s.pos := by rw [ok.hdr_start, BitVec.ofNat_toNat, BitVec.setWidth_eq]
  have ⟨len, _⟩ := ready
  refine ⟨_, decodeFrame_ok ready body, commit_pos_toNat ok hp len, rfl, rfl, rfl, commit_outptr_toNat ok hp, rfl,
    ok.chan_length, ok.subs_length, fun n hn k hk => readCell_commit ok hbps hn hk, fun a outside => ?_,
    regs.strategy, regs.number, regs.bscode, regs.blockSize, regs.srcode, regs.rate, regs.chAssign, regs.channels,
    regs.bdcode, regs.bps, regs.crc8, regs.crc16, start, frameRegs_channels_length ok _, fun k f ch hf hch => ?_,
    fun _ => rfl, rfl, rfl, rfl, rfl, rfl, rfl, rfl, rfl, rfl, rfl, rfl, rfl, rfl, rfl⟩
  · exact readCell_writeBlock_outside _ (ok.interleave_length.symm ▸ outside)
  · have hold := frameRegs_channel_hold ok hp hbps hf hch
    exact ⟨hold.type, hold.kind, hold.order, hold.wasted, hold.width, hold.sub, hold.chan, hold.lpc, hold.residual⟩

/-! ### What a frame depends on -/

section SameFrame

variable {s₁ s₂ : State} (same : sameFrameInput s₁ s₂)
include same

theorem sameFrameInput.sameInput : SameInput s₁ s₂ := by
  obtain ⟨bytes, len, -, rate, ch, bps, params⟩ := same
  exact ⟨bytes, len, rate, ch, bps, params⟩

theorem sameFrameInput.startCur_eq : startCur s₁ = startCur s₂ := by
  obtain ⟨-, -, pos, -⟩ := same
  rw [startCur, pos]
  rfl

/-- Up to the capacity check the two decodes are one (R349). -/
theorem sameFrameInput.unchecked_eq : frameUnchecked s₁ (startCur s₁) = frameUnchecked s₂ (startCur s₂) := by
  rw [same.sameInput.frameUnchecked, same.startCur_eq]

/-- Two decodes that both pass the capacity check answer the same. -/
theorem sameFrameInput.frameBody_ok_eq {r₁ r₂ : Work × Cur} (h₁ : frameBody s₁ (startCur s₁) = .ok r₁)
    (h₂ : frameBody s₂ (startCur s₂) = .ok r₂) : r₁ = r₂ := by
  have u₁ := ((frameBody_split.1 _ _).1 h₁).1
  have u₂ := ((frameBody_split.1 _ _).1 h₂).1
  exact Except.ok.inj (u₁.symm.trans (same.unchecked_eq.trans u₂))

/-- Every error but the capacity check's is the same error in both. -/
theorem sameFrameInput.frameBody_error {e : Raise} (h : frameBody s₁ (startCur s₁) = .error e)
    (other : e.code ≠ .outputOverflow) : frameBody s₂ (startCur s₂) = .error e := by
  obtain unchecked | ⟨_, _, _, rfl, _⟩ := (frameBody_split.2 e).1 h
  · exact (frameBody_split.2 e).2 (.inl (same.unchecked_eq.symm.trans unchecked))
  · exact absurd rfl other

end SameFrame

/-- The registers of a channel that its kind specifies do not depend on the draw of free values (R342). -/
theorem channelRegs_specified (d₁ d₂ k : Nat) (f : Subframe) (l : List Int) :
    let r₁ := channelRegs d₁ k f l
    let r₂ := channelRegs d₂ k f l
    (r₁.sfKind = 3 → r₁.lpcPrec = r₂.lpcPrec ∧ r₁.lpcShift = r₂.lpcShift) ∧
      (r₁.sfKind = 2 ∨ r₁.sfKind = 3 → r₁.resMethod = r₂.resMethod ∧ r₁.resPorder = r₂.resPorder) := by
  refine ⟨fun hk => ?_, fun hk => ?_⟩
  · have lpc : f.kind = .lpc := kindNumber_eq_lpc.1 hk
    simp [channelRegs, specifiedIf, lpc]
  · have predicted : f.kind = .fixed ∨ f.kind = .lpc := hk.imp kindNumber_eq_fixed.1 kindNumber_eq_lpc.1
    simp [channelRegs, specifiedIf, hasResidual, predicted]

/-- The words that a commit writes do not depend on where it writes them (R349). -/
theorem commit_words_eq {s₁ s₂ : State} {w : Work} {c : Cur} {start n : Nat} (ok : FrameOk s₁ start w c)
    (hn : n < (commit s₁ w c).result.toNat) :
    readCell (commit s₁ w c).out (s₁.outptr.toNat + n) = readCell (commit s₂ w c).out (s₂.outptr.toNat + n) := by
  have inside : n < (interleave w.hdr.bs w.chan).length :=
    ok.interleave_length ▸ hn.trans_le (Nat.mod_le (w.hdr.bs * w.hdr.channels) _)
  exact (readCell_writeBlock_inside _ _ inside).trans (readCell_writeBlock_inside _ _ inside).symm

/-- A ready DECODE_FRAME commits its frame or fails at it (R342, R343). -/
theorem decodeFrame_ready_cases {s t : State} (ready : decodeReady s) (h : exec .decodeFrame s = .next t) :
    (∃ w c, frameBody s (startCur s) = .ok (w, c) ∧ t = finish (commit s w c)) ∨
      ∃ e, frameBody s (startCur s) = .error e ∧ t = failFrame s e := by
  obtain ⟨-, committed⟩ | ⟨-, failed⟩ | ⟨unready, -⟩ := decodeFrame_cases h
  · exact .inl committed
  · exact .inr failed
  · exact absurd ready unready

/-- Settles O56: the two decodes are one up to the capacity check, and a commit writes what was decoded. -/
theorem framesAreIndependent : Obligations.FramesAreIndependent := by
  intro s₁ s₂ t₁ t₂ same ready₁ ready₂ run₁ run₂
  refine ⟨fun fv₁ fv₂ => ?_, fun fv₁ other => ?_⟩
  · obtain ⟨w, c, body₁, rfl⟩ | ⟨e, -, rfl⟩ := decodeFrame_ready_cases ready₁ run₁
    case inr => cases fv₁
    obtain ⟨w₂, c₂, body₂, rfl⟩ | ⟨e, -, rfl⟩ := decodeFrame_ready_cases ready₂ run₂
    case inr => cases fv₂
    cases same.frameBody_ok_eq body₁ body₂
    refine ⟨rfl, rfl, rfl, ?_, fun k ch₁ ch₂ hch₁ hch₂ => ?_, fun n hn => commit_words_eq (frameBody_ok body₁) hn⟩
    · exact (frameRegs_channels_length (frameBody_ok body₁) _).trans
        (frameRegs_channels_length (frameBody_ok body₂) _).symm
    · obtain ⟨f, l, hf, hl, rfl⟩ := frameRegs_channel hch₁
      obtain ⟨g, m, hg, hm, rfl⟩ := frameRegs_channel hch₂
      obtain rfl : f = g := Option.some.inj (hf.symm.trans hg)
      obtain rfl : l = m := Option.some.inj (hl.symm.trans hm)
      exact ⟨rfl, rfl, rfl, rfl, rfl, rfl, rfl, rfl, rfl, rfl, channelRegs_specified _ _ k f l⟩
  · obtain ⟨w, c, -, rfl⟩ | ⟨e, raised, rfl⟩ := decodeFrame_ready_cases ready₁ run₁
    case inl => cases fv₁
    rw [decodeFrame_error ready₂ (same.frameBody_error raised other)] at run₂
    cases run₂
    exact ⟨rfl, rfl, rfl⟩

end Sys2Proof.Machine

/-! DECODE_STREAM as a walk of frame decodes (45_assembly.md rules R331, R344, R345; 60_exceptions.md rule R384): O57, O58,
O59. -/

namespace Sys2Proof.Machine

/-! ### The checks before the walk -/

/-- A POS beyond the input raises (R344). -/
theorem streamChecks_beyond {s : State} (ready : decodeReady s) (beyond : endPos s < s.pos.toNat) :
    streamChecks s (startCur s) = .error ⟨.outOfBounds, s.pos.toNat⟩ :=
  (ok_bind ((startChecks_ok ready).2 rfl)).trans (raiseIf_eq_error.2 ⟨decide_eq_true beyond, rfl⟩)

/-- From inside the input DECODE_STREAM is its walk (R344). -/
theorem decodeStream_walks {s : State} (ready : decodeReady s) (inside : s.pos.toNat ≤ endPos s) :
    exec .decodeStream s = .next (walkFrames (endPos s - s.pos.toNat) 0 s) := by
  have passed : streamChecks s (startCur s) = .ok ((), startCur s) :=
    (ok_bind ((startChecks_ok ready).2 rfl)).trans (raiseIf_eq_ok.2 ⟨decide_eq_false (Nat.not_lt.2 inside), rfl⟩)
  show execDecodeStream s = _
  rw [execDecodeStream, passed]

/-! ### One round of the walk -/

/-- `s` with RESULT and DONE as `r` has them: the walk writes neither, a DECODE_FRAME both (R342, R345; log 12). -/
def keeping (r s : State) : State := { s with result := r.result, done := r.done }

/-- RESULT and DONE have no part in a frame's decode (R349). -/
theorem frameBody_keeping (r s : State) : frameBody (keeping r s) = frameBody s := by
  have same : SameInput (keeping r s) s := ⟨fun _ => rfl, rfl, rfl, rfl, rfl, rfl⟩
  rw [frameBody_eq, frameBody_eq, same.frameUnchecked]
  rfl

section Round

variable {r s : State} {room n : Nat}

/-- At the end of the input the walk answers the number of its frames (R344). -/
theorem walkFrames_atEnd (atEnd : s.pos.toNat = endPos s) :
    walkFrames room n (keeping r s) = { s with result := BitVec.ofNat 64 n, done := true } := by
  cases room with
  | zero => rfl
  | succ room => exact if_neg (Nat.not_lt.2 atEnd.ge)

/-- A frame that decodes is committed and the walk goes on (R344). -/
theorem walkFrames_commits {w : Work} {c : Cur} (body : frameBody s (startCur s) = .ok (w, c)) :
    walkFrames (room + 1) n (keeping r s) = walkFrames room (n + 1) (keeping r (finish (commit s w c))) := by
  have ok : FrameOk s s.pos.toNat w c := frameBody_ok body
  have before : s.pos.toNat < endPos s :=
    (Nat.lt_add_of_pos_right (by decide)).trans_le (ok.long.trans ok.inside)
  have kept : frameBody (keeping r s) (startCur (keeping r s)) = .ok (w, c) := by rwa [frameBody_keeping]
  have inside : (keeping r s).pos.toNat < endPos (keeping r s) := before
  rw [walkFrames, if_pos inside, kept]
  rfl

/-- A frame that fails before the end of the input ends the walk (R345). -/
theorem walkFrames_fails {e : Raise} (before : s.pos.toNat < endPos s) (body : frameBody s (startCur s) = .error e) :
    walkFrames (room + 1) n (keeping r s) = { failFrame s e with result := r.result } := by
  have kept : frameBody (keeping r s) (startCur (keeping r s)) = .error e := by rwa [frameBody_keeping]
  have inside : (keeping r s).pos.toNat < endPos (keeping r s) := before
  rw [walkFrames, if_pos inside, kept]
  rfl

end Round

/-! ### Frames in a row -/

/-- `n + 1` frames decode when one does and then `n` do. -/
theorem decodedFrames_succ {s t : State} {n : Nat} : decodedFrames (n + 1) s = some t ↔
    ∃ w c, frameBody s (startCur s) = .ok (w, c) ∧ decodedFrames n (finish (commit s w c)) = some t := by
  rw [decodedFrames]
  cases frameBody s (startCur s) with
  | error e => simp
  | ok p =>
    obtain ⟨w, c⟩ := p
    simp

/-- The frames of the walk, one round for each. -/
theorem walkFrames_decodedFrames {r s t : State} {room k n : Nat} (frames : decodedFrames n s = some t) :
    walkFrames (room + n) k (keeping r s) = walkFrames room (k + n) (keeping r t) := by
  induction n generalizing s k with
  | zero =>
    cases frames
    rfl
  | succ n ih =>
    obtain ⟨w, c, body, rest⟩ := decodedFrames_succ.1 frames
    rw [← Nat.add_assoc, walkFrames_commits body, ih rest, Nat.add_right_comm, Nat.add_assoc]

/-- A committed frame moves POS on by 64 bits at least, and not beyond the input (20_memory.md rule R87). -/
theorem commit_moves {s : State} {w : Work} {c : Cur} (hp : s.params.wf) (ready : decodeReady s)
    (body : frameBody s (startCur s) = .ok (w, c)) :
    s.pos.toNat + 64 ≤ (commit s w c).pos.toNat ∧ (commit s w c).pos.toNat ≤ endPos s := by
  have ok : FrameOk s s.pos.toNat w c := frameBody_ok body
  have ⟨len, _⟩ := ready
  rw [commit_pos_toNat ok hp len]
  exact ⟨ok.long, ok.inside⟩

/-- Frames in a row leave the start checks and the end of the input as they are, and each moves POS on by 64 bits at
least. -/
theorem decodedFrames_keeps {s t : State} {n : Nat} (hp : s.params.wf) (ready : decodeReady s)
    (frames : decodedFrames n s = some t) :
    decodeReady t ∧ endPos t = endPos s ∧ s.pos.toNat + 64 * n ≤ t.pos.toNat := by
  induction n generalizing s with
  | zero =>
    cases frames
    exact ⟨ready, rfl, Nat.le_refl _⟩
  | succ n ih =>
    obtain ⟨w, c, body, rest⟩ := decodedFrames_succ.1 frames
    obtain ⟨moves, -⟩ := commit_moves hp ready body
    obtain ⟨ready_t, end_t, later⟩ := ih (s := finish (commit s w c)) hp ready rest
    refine ⟨ready_t, end_t, ?_⟩
    rw [finish_pos] at later
    omega

/-- DECODE_STREAM after `n` frames that decode, the last of which ends inside the input: the rest of its walk, with rounds
enough for the bits that remain (log 17). -/
theorem decodeStream_decodedFrames {s t : State} {n : Nat} (hp : s.params.wf) (ready : decodeReady s)
    (frames : decodedFrames n s = some t) (inside : t.pos.toNat ≤ endPos s) :
    ∃ room, endPos s - t.pos.toNat ≤ room ∧ exec .decodeStream s = .next (walkFrames room n (keeping s t)) := by
  obtain ⟨-, -, long⟩ := decodedFrames_keeps hp ready frames
  refine ⟨endPos s - s.pos.toNat - n, by omega, ?_⟩
  have rounds : endPos s - s.pos.toNat = endPos s - s.pos.toNat - n + n := by omega
  have walk := walkFrames_decodedFrames (r := s) (room := endPos s - s.pos.toNat - n) (k := 0) frames
  rw [← rounds, Nat.zero_add] at walk
  rw [decodeStream_walks ready (by omega), ← walk]
  rfl

/-- DECODE_STREAM whose frames end at the end of the input (R344). -/
theorem decodeStream_completes {s t : State} {n : Nat} (hp : s.params.wf) (ready : decodeReady s)
    (frames : decodedFrames n s = some t) (atEnd : t.pos.toNat = endPos s) :
    exec .decodeStream s = .next { t with result := BitVec.ofNat 64 n, done := true } := by
  obtain ⟨-, end_t, -⟩ := decodedFrames_keeps hp ready frames
  obtain ⟨room, -, walk⟩ := decodeStream_decodedFrames hp ready frames atEnd.le
  rw [walk, walkFrames_atEnd (atEnd.trans end_t.symm)]

/-- DECODE_STREAM with a frame that fails before the end of the input (R345). -/
theorem decodeStream_fails {s t : State} {n : Nat} {e : Raise} (hp : s.params.wf) (ready : decodeReady s)
    (frames : decodedFrames n s = some t) (before : t.pos.toNat < endPos s)
    (body : frameBody t (startCur t) = .error e) :
    exec .decodeStream s = .next { failFrame t e with result := s.result } := by
  obtain ⟨-, end_t, -⟩ := decodedFrames_keeps hp ready frames
  obtain ⟨room, rounds, walk⟩ := decodeStream_decodedFrames hp ready frames before.le
  obtain ⟨room, rfl⟩ := Nat.exists_eq_add_one.2 (show 0 < room by omega)
  rw [walk, walkFrames_fails (end_t.symm ▸ before) body]

/-! ### Runs of DECODE_FRAME -/

/-- Runs of DECODE_FRAME that commit are frames that decode (R344). -/
theorem frameRuns_eq_decodedFrames {s : State} (n : Nat) (ready : decodeReady s) :
    frameRuns n s = decodedFrames n s := by
  induction n generalizing s with
  | zero => rfl
  | succ n ih =>
    rw [frameRuns, decodedFrames]
    cases body : frameBody s (startCur s) with
    | ok p =>
      obtain ⟨w, c⟩ := p
      rw [decodeFrame_ok ready body]
      exact ih (s := finish (commit s w c)) ready
    | error e =>
      rw [decodeFrame_error ready body]
      rfl

/-- Settles O57: the end of the input, one frame and runs of DECODE_FRAME are all cases of `n` frames that decode. -/
theorem decodeStreamWalksToTheEnd : Obligations.DecodeStreamWalksToTheEnd := by
  refine ⟨fun s ready atEnd => ?_, fun s w c hp ready before body atEnd => ?_, fun s t n hp ready frames atEnd => ?_,
    fun s t n hp ready runs atEnd => ?_⟩
  · exact (decodeStream_walks ready atEnd.le).trans (congrArg _ (walkFrames_atEnd (r := s) atEnd))
  · have ⟨len, _⟩ := ready
    have frames : decodedFrames 1 s = some (finish (commit s w c)) := decodedFrames_succ.2 ⟨w, c, body, rfl⟩
    exact decodeStream_completes (t := finish (commit s w c)) hp ready frames
      ((commit_pos_toNat (frameBody_ok body) hp len).trans atEnd)
  · exact decodeStream_completes hp ready frames atEnd
  · exact decodeStream_completes hp ready (frameRuns_eq_decodedFrames n ready ▸ runs) atEnd

/-- Settles O58: the runs are frames that decode, and the run that fails is the frame at which the walk ends. -/
theorem decodeStreamKeepsEarlierFrames : Obligations.DecodeStreamKeepsEarlierFrames := by
  intro s t u n hp ready runs before run fv
  have frames : decodedFrames n s = some t := frameRuns_eq_decodedFrames n ready ▸ runs
  obtain ⟨ready_t, -, -⟩ := decodedFrames_keeps hp ready frames
  obtain ⟨w, c, -, rfl⟩ | ⟨e, body, rfl⟩ := decodeFrame_ready_cases ready_t run
  case inl => cases fv
  exact decodeStream_fails hp ready frames before body

/-- From inside the input the frames decode up to its end, or up to one that fails before it: each takes at least one of the
bits that remain. -/
theorem decodedFrames_end {s : State} (hp : s.params.wf) (ready : decodeReady s) (inside : s.pos.toNat ≤ endPos s) :
    ∃ n t, decodedFrames n s = some t ∧
      (t.pos.toNat = endPos s ∨ t.pos.toNat < endPos s ∧ ∃ e, frameBody t (startCur t) = .error e) := by
  induction hm : endPos s - s.pos.toNat using Nat.strong_induction_on generalizing s with
  | _ m ih =>
    obtain atEnd | before := inside.eq_or_lt
    · exact ⟨0, s, rfl, .inl atEnd⟩
    cases body : frameBody s (startCur s) with
    | error e => exact ⟨0, s, rfl, .inr ⟨before, e, body⟩⟩
    | ok p =>
      obtain ⟨w, c⟩ := p
      obtain ⟨moves, inside'⟩ := commit_moves hp ready body
      have fewer : endPos s - (commit s w c).pos.toNat < m := by omega
      obtain ⟨n, t, frames, last⟩ := ih _ fewer (s := finish (commit s w c)) hp ready inside' rfl
      exact ⟨n + 1, t, decodedFrames_succ.2 ⟨w, c, body, frames⟩, last⟩

/-- Settles O59: the frames that decode are runs of DECODE_FRAME, and the command does what their end says. -/
theorem decodeStreamEnds : Obligations.DecodeStreamEnds := by
  intro s hp ready
  refine ⟨fun beyond => ?_, fun inside => ?_⟩
  · exact ⟨_, decodeStream_checkFails (streamChecks_beyond ready beyond), failFrame_failed _ _⟩
  · obtain ⟨n, t, frames, last⟩ := decodedFrames_end hp ready inside
    obtain ⟨ready_t, -, -⟩ := decodedFrames_keeps hp ready frames
    refine ⟨n, t, (frameRuns_eq_decodedFrames n ready).trans frames, last.imp (fun atEnd => ?_) ?_⟩
    · exact ⟨atEnd, decodeStream_completes hp ready frames atEnd⟩
    · rintro ⟨before, e, body⟩
      exact ⟨before, _, decodeFrame_error ready_t body, rfl, decodeStream_fails hp ready frames before body⟩

end Sys2Proof.Machine

/-! The sticky error, the idle block, completion, error entry and which command raises what (60_exceptions.md rules R380 to
R386, R395): O8, O9, O10, O20, O21. -/

namespace Sys2Proof.Machine

/-! ### Ignored words and the idle block -/

/-- A word that the sticky test ignores reaches CMD and nothing else (R386; log 8). -/
theorem runWord_ignored {s : State} {w : Word16} (h : ignoredWord s w = true) : runWord s w = .next (storeCmd s w) :=
  if_pos h

/-- Settles O8: the word fails the sticky test. -/
theorem stickyErrorIgnoresCommands : Obligations.StickyErrorIgnoresCommands := by
  intro s v rest hs hh he hop
  have ignored : ignoredWord { s with host := rest } (v.setWidth 16) = true := decide_eq_true ⟨he, hop⟩
  rw [step_writeCmd hs hh, runWord_ignored ignored]
  rfl

/-- Settles O9: a step with no field under way and no host access to come. -/
theorem idleChangesNothing : Obligations.IdleChangesNothing := fun _ => step_idle

/-! ### Completion -/

theorem runRead_completes {α : Type} (s : State) (legal : Bool) (read : Stage α) (store : State → α → State) :
    ∃ t, runRead s legal read store = .next t := by
  obtain ⟨_, _, -, -, -, h⟩ | ⟨-, h⟩ | ⟨-, -, h⟩ | ⟨_, -, -, -, h⟩ := runRead_cases s legal read store <;> exact ⟨_, h⟩

theorem runStage_completes (s : State) (stage : Work → Stage Work) : ∃ t, runStage s stage = .next t := by
  obtain ⟨_, _, -, h⟩ | ⟨_, -, h⟩ := runStage_cases s stage <;> exact ⟨_, h⟩

theorem runHdr_completes (s : State) (stage : Hdr → Stage Hdr) : ∃ t, runHdr s stage = .next t :=
  runStage_completes s (hdrStage stage)

theorem runSubframe_completes (s : State) (stage : Subframe → Stage Subframe) : ∃ t, runSubframe s stage = .next t :=
  runStage_completes s (subStage stage)

theorem execDecodeFrame_completes (s : State) : ∃ t, execDecodeFrame s = .next t := by
  unfold execDecodeFrame
  split <;> exact ⟨_, rfl⟩

theorem execDecodeStream_completes (s : State) : ∃ t, execDecodeStream s = .next t := by
  unfold execDecodeStream
  split <;> exact ⟨_, rfl⟩

/-- Every instruction answers a next state, an error being an effect (R384). -/
theorem exec_completes (i : Instr) (s : State) : ∃ t, exec i s = .next t := by
  cases i with dsimp only [exec]
  | nop | clear | outReset | seek => exact ⟨_, rfl⟩
  | readU | readULe | readS | readSLe | readBit | readUnary | readUtf8 | readRaw | readBytes =>
    exact runRead_completes s _ _ _
  | decodeFrame => exact execDecodeFrame_completes s
  | decodeStream => exact execDecodeStream_completes s
  | subframePadSet | subframeConstant | subframeVerbatim | subframeReserved0203 | subframeReserved0407 | subframeFixed0
  | subframeFixed1 | subframeFixed2 | subframeFixed3 | subframeFixed4 | subframeReserved0D | subframeReserved0E0F
  | subframeReserved101F | subframeLpc | channelsIndependent | channelsLeftSide | channelsRightSide | channelsMidSide
  | channelsReserved11 | channelsReserved1215 | headerReservedBit | utf8ContinuationAsLead | utf8LongLead =>
    exact runStage_completes s _
  | residualRice4 | residualRice5 | residualReserved | partitionRice4 | partitionRice5 | partitionEscape4
  | partitionEscape5 | escapeWidth | lpcPrecision | lpcPrecisionInvalid | lpcShift | lpcShiftNegative =>
    exact runSubframe_completes s _
  | _ => exact runHdr_completes s _

theorem runWord_completes (s : State) (w : Word16) : ∃ t, runWord s w = .next t := by
  cases hi : ignoredWord s w with
  | true => exact ⟨_, runWord_ignored hi⟩
  | false =>
    cases hd : decodeCmd w with
    | ok i => exact runWord_runs hi hd ▸ exec_completes i _
    | error r => exact ⟨_, runWord_illegal hi hd⟩

theorem fieldStep_completes (s : State) (f : Field) : ∃ t, fieldStep s f = .next t := by
  cases hf : fetchField s f (workCur s) with
  | ok p => exact fieldStep_ok hf ▸ exec_completes p.1 _
  | error e => exact ⟨_, fieldStep_error hf⟩

/-- A write of an element that does not exist is the only write of a window that stops the block (20_memory.md rule R80;
log 10). -/
theorem writeMem_completes {s : State} {w : Window} {i : Nat} (v : Word64) (hi : i < windowSize s.params w) :
    ∃ t, writeMem s w i v = .next t := by
  by_cases hw : w = .input
  · subst hw
    exact ⟨_, writeMem_input v hi⟩
  · exact ⟨_, writeMem_ignored v hi hw⟩

/-- A host access is taken, or names a place that does not exist (log 10). -/
theorem hostStep_cases (s : State) (a : HostAction) :
    (∃ t, hostStep s a = .next t) ∨
    (∃ k v, a = .writeReg k v ∧ 256 ≤ k ∧ hostStep s a = .fault .noSuchRegister) ∨
    (∃ w i v, a = .writeMem w i v ∧ windowSize s.params w ≤ i ∧ hostStep s a = .fault .noSuchElement) := by
  cases a with
  | writeReg k v =>
    unfold hostStep
    dsimp only
    split_ifs with h0 hk
    · exact .inl (runWord_completes s _)
    · exact .inl ⟨_, rfl⟩
    · exact .inr (.inl ⟨k, v, rfl, Nat.le_of_not_lt hk, rfl⟩)
  | writeMem w i v =>
    obtain inside | beyond := Nat.lt_or_ge i (windowSize s.params w)
    · exact .inl (writeMem_completes v inside)
    · exact .inr (.inr ⟨w, i, v, rfl, beyond, if_pos beyond⟩)
  | reset => exact .inl ⟨_, rfl⟩

/-- Settles O10: a step is a field's, a host access or nothing, and only a host access can stop. -/
theorem everyInstructionCompletes : Obligations.EveryInstructionCompletes := by
  refine ⟨exec_completes, fun s => ?_⟩
  cases hf : s.seq with
  | some f => exact .inl (step_field hf ▸ fieldStep_completes s f)
  | none =>
    cases hh : s.host with
    | nil => exact .inl ⟨s, step_idle hf hh⟩
    | cons a rest =>
      rw [step_host hf hh]
      obtain taken | ⟨k, v, rfl, hk, fault⟩ | ⟨w, i, v, rfl, hi, fault⟩ := hostStep_cases { s with host := rest } a
      · exact .inl taken
      · exact .inr (.inl ⟨k, v, rest, rfl, rfl, hk, fault⟩)
      · exact .inr (.inr ⟨w, i, v, rest, rfl, rfl, hi, fault⟩)

/-! ### Error entry -/

/-- Error entry leaves alone all that R384 keeps. -/
theorem sameButError_takeError (s : State) (e : Raise) : sameButError s (takeError s e) :=
  ⟨rfl, rfl, rfl, rfl, rfl, rfl, rfl, rfl, rfl, rfl, rfl, rfl, rfl, rfl, rfl, rfl, rfl, rfl, rfl, rfl, rfl⟩

/-- A cursor command that reads is no bitstream code (30_encoding.md rules R110, R112). -/
theorem encode_read_ne_field {i : Instr} (read : i ∈ resultReads ++ spanReads) (f : Field) (v : Nat) :
    encode i ≠ .field f v := by
  simp only [resultReads, spanReads, List.cons_append, List.nil_append, List.mem_cons, List.not_mem_nil,
    or_false] at read
  obtain rfl | rfl | rfl | rfl | rfl | rfl | rfl | rfl | rfl := read <;> exact Code.noConfusion

/-- A new error is a cursor command's error entry or that of a frame decode, which no cursor command makes. -/
theorem Effect.raised {s t : State} {i : Instr} (h : Effect s i t) (hi : i ≠ .decodeStream) (he : t.errCode ≠ .noError)
    (hn : t.errCode ≠ s.errCode) :
    (∃ e, t = takeError s e ∧ i ∈ resultReads ++ spanReads) ∨
    (∃ e, t = failFrame s e ∧ i ∉ resultReads ++ spanReads) := by
  cases h with
  | readFailed read => exact .inl ⟨_, rfl, List.mem_append.mpr read⟩
  | frameFailed => exact .inr ⟨_, rfl, by decide⟩
  | codeFailed code =>
    obtain ⟨f, v, code⟩ := code
    exact .inr ⟨_, rfl, fun read => encode_read_ne_field read f v code⟩
  | clear => exact absurd rfl he
  | streamEnded | streamFailed => exact absurd rfl hi
  | _ => exact absurd rfl hn

/-- Settles O20: a new error is error entry, of a cursor command or of a frame decode. -/
theorem errorEntry : Obligations.ErrorEntry := by
  intro i s t hi h he hn
  obtain ⟨e, rfl, read⟩ | ⟨e, rfl, no_read⟩ := (exec_effect h).raised hi he hn
  · refine ⟨sameButError_takeError s e, rfl, rfl, ?_, fun _ => ⟨rfl, rfl⟩⟩
    rintro rfl
    exact absurd read (by decide)
  · obtain ⟨same, -, -, -, -⟩ := failFrame_failed s e
    exact ⟨same, rfl, rfl, fun _ => rfl, fun read => absurd read no_read⟩

/-! ### Which command raises which error -/

/-- ERR_CODE after a cursor command: its argument's error, LEN's error, one of its read's or none (40_cursor.md rule
R160). -/
theorem runRead_errCode {α : Type} {s t : State} {legal : Bool} {read : Stage α} {store : State → α → State}
    {codes : List ErrCode} (hs : s.errCode = .noError) (hstore : ∀ v, (store s v).errCode = s.errCode)
    (hread : ∀ c e, read c = .error e → e.code ∈ codes) (h : runRead s legal read store = .next t) :
    legal = false ∧ t.errCode = .illegalArgument ∨ t.errCode ∈ .noError :: .configError :: codes := by
  obtain ⟨v, c, -, -, -, hr⟩ | ⟨illegal, hr⟩ | ⟨-, -, hr⟩ | ⟨e, -, -, raised, hr⟩ :=
    runRead_cases s legal read store <;> cases h.symm.trans hr
  · have no_error : (store s v).errCode = .noError := (hstore v).trans hs
    exact .inr (no_error ▸ List.mem_cons_self)
  · exact .inl ⟨illegal, rfl⟩
  · exact .inr (List.mem_cons_of_mem _ List.mem_cons_self)
  · exact .inr (List.mem_cons_of_mem _ (List.mem_cons_of_mem _ (hread _ _ raised)))

/-- A cursor command whose argument is always legal raises no ILLEGAL_ARGUMENT. -/
theorem runRead_errCode_of_legal {α : Type} {s t : State} {read : Stage α} {store : State → α → State}
    {codes : List ErrCode} (hs : s.errCode = .noError) (hstore : ∀ v, (store s v).errCode = s.errCode)
    (hread : ∀ c e, read c = .error e → e.code ∈ codes) (h : runRead s true read store = .next t) :
    t.errCode ∈ .noError :: .configError :: codes :=
  (runRead_errCode hs hstore hread h).resolve_left fun ⟨illegal, _⟩ => Bool.noConfusion illegal

theorem takeBits_error_code {α : Type} {s : State} {w : Nat} {value : Nat → α} {c : Cur} {e : Raise}
    (h : takeBits s w value c = .error e) : e.code ∈ [ErrCode.outOfBounds] := by
  rw [(takeBits_eq_error.1 h).2]
  exact List.mem_cons_self

theorem takeUnary_error_code {s : State} {c : Cur} {e : Raise} (h : takeUnary s c = .error e) :
    e.code ∈ [ErrCode.outOfBounds] := by
  rw [(takeUnary_eq_error.1 h).2]
  exact List.mem_cons_self

theorem utf8Rest_error_code {s : State} {n v : Nat} {c : Cur} {e : Raise} (h : utf8Rest s n v c = .error e) :
    e.code ∈ [ErrCode.outOfBounds, .invalidEncoding] := by
  unfold utf8Rest at h
  split at h
  · cases h
    exact List.mem_cons_self
  · split at h <;> cases h
    exact List.mem_cons_of_mem _ List.mem_cons_self

theorem takeUtf8_error_code {s : State} {c : Cur} {e : Raise} (h : takeUtf8 s c = .error e) :
    e.code ∈ [ErrCode.outOfBounds, .invalidEncoding] := by
  obtain h | ⟨lead, c', -, h⟩ := bind_eq_error.1 h
  · exact List.mem_append_left [.invalidEncoding] (takeBits_error_code h)
  · cases hl : leadInfo lead with
    | some number =>
      rw [hl] at h
      exact utf8Rest_error_code h
    | none =>
      rw [hl] at h
      cases h
      exact List.mem_cons_of_mem _ List.mem_cons_self

/-- The housekeeping commands raise nothing (45_assembly.md rules R346 to R348; 40_cursor.md rule R171). -/
theorem housekeeping_errCode {i : Instr} {s t : State} (hs : s.errCode = .noError) (h : exec i s = .next t)
    (hi : i ∈ [.nop, .seek, .outReset, .clear]) : t.errCode = .noError := by
  simp only [List.mem_cons, List.not_mem_nil, or_false] at hi
  obtain rfl | rfl | rfl | rfl := hi <;> cases h
  exacts [hs, hs, hs, rfl]

/-- The reads whose ARG is checked (30_encoding.md rule R111). -/
theorem checkedRead_errCode {i : Instr} {s t : State} (hs : s.errCode = .noError) (h : exec i s = .next t)
    (hi : i ∈ [.readU, .readULe, .readS, .readSLe, .readRaw, .readBytes]) :
    t.errCode ∈ [.noError, .illegalArgument, .configError, .outOfBounds] := by
  have code : t.errCode = .illegalArgument ∨ t.errCode ∈ [.noError, .configError, .outOfBounds] := by
    simp only [List.mem_cons, List.not_mem_nil, or_false] at hi
    obtain rfl | rfl | rfl | rfl | rfl | rfl := hi <;>
      exact (runRead_errCode hs (fun _ => rfl) (fun _ _ => takeBits_error_code) h).imp_left And.right
  simp only [List.mem_cons] at code ⊢
  exact or_left_comm.1 code

/-- READ_BIT and READ_UNARY use no ARG. -/
theorem uncheckedRead_errCode {i : Instr} {s t : State} (hs : s.errCode = .noError) (h : exec i s = .next t)
    (hi : i ∈ [.readBit, .readUnary]) : t.errCode ∈ [.noError, .configError, .outOfBounds] := by
  simp only [List.mem_cons, List.not_mem_nil, or_false] at hi
  obtain rfl | rfl := hi
  · exact runRead_errCode_of_legal hs (fun _ => rfl) (fun _ _ => takeBits_error_code) h
  · exact runRead_errCode_of_legal hs (fun _ => rfl) (fun _ _ => takeUnary_error_code) h

/-- DECODE_FRAME raises what its checks and its frame raise. -/
theorem decodeFrame_errCode {s t : State} (hs : s.errCode = .noError) (h : exec .decodeFrame s = .next t) :
    t.errCode = .noError ∨ decodeError t.errCode = true := by
  obtain ⟨-, w, c, -, rfl⟩ | ⟨-, e, raised, rfl⟩ | ⟨-, rfl⟩ := decodeFrame_cases h
  · exact .inl hs
  · exact .inr (OnlyDecodeErrors.frameBody _ _ raised)
  · exact .inr rfl

/-- The walk of DECODE_STREAM raises what one of its frames raises. -/
theorem walkFrames_errCode (room n : Nat) {s : State} (hs : s.errCode = .noError) :
    (walkFrames room n s).errCode = .noError ∨ decodeError (walkFrames room n s).errCode = true := by
  induction room generalizing n s with
  | zero => exact .inl hs
  | succ room ih =>
    unfold walkFrames
    split
    · cases body : frameBody s (startCur s) with
      | ok p => exact ih (n + 1) (s := { commit s p.1 p.2 with result := s.result }) hs
      | error e => exact .inr (OnlyDecodeErrors.frameBody _ _ body)
    · exact .inl hs

/-- DECODE_STREAM raises what its checks and its walk raise. -/
theorem decodeStream_errCode {s t : State} (hs : s.errCode = .noError) (h : exec .decodeStream s = .next t) :
    t.errCode = .noError ∨ decodeError t.errCode = true := by
  change execDecodeStream s = .next t at h
  unfold execDecodeStream at h
  split at h <;> cases h
  · exact walkFrames_errCode _ _ hs
  · next raised => exact .inr (OnlyDecodeErrors.streamChecks _ _ raised)

/-- Settles O21: each group of commands by what its reads or stages can raise. -/
theorem whichCommandRaisesWhat : Obligations.WhichCommandRaisesWhat := by
  intro i s t hs h
  refine ⟨housekeeping_errCode hs h, checkedRead_errCode hs h, uncheckedRead_errCode hs h, ?_, fun hi => ?_⟩
  · rintro rfl
    exact runRead_errCode_of_legal hs (fun _ => rfl) (fun _ _ => takeUtf8_error_code) h
  · have code : t.errCode = .noError ∨ decodeError t.errCode = true := by
      simp only [List.mem_cons, List.not_mem_nil, or_false] at hi
      obtain rfl | rfl := hi
      · exact decodeFrame_errCode hs h
      · exact decodeStream_errCode hs h
    constructor <;> intro illegal <;> rw [illegal] at code <;> simp [decodeError] at code

end Sys2Proof.Machine
